-- ==== Sys2Proof/Word.lean ====
section
/-! DEFINITION. Word.lean: the word types of the JLC.

Every host-visible register word has 32 bits, an operand or result register has 64 (rules R8, R30,
R82). Samples and parameters are binary32 bit patterns, internal values binary64 bit patterns
(R10): both are what the manual itself stores in registers, so they are bit vectors here. -/

namespace Sys2Proof

/-- A 32-bit register word (R8). Bit 0 is the least significant bit. -/
abbrev Word := BitVec 32

/-- A byte of the bus, used only to lay a command word out in byte order (R82). -/
abbrev Byte := BitVec 8

/-- A binary32 value, held as its IEEE 754 bit pattern `bits32(x)` (R13, R82). -/
abbrev F32 := BitVec 32

/-- A binary64 value, held as its IEEE 754 bit pattern `bits64(v)` (R13). -/
abbrev F64 := BitVec 64

/-- A byte offset inside the 4096-byte register window (R80). -/
abbrev Offset := BitVec 12

end Sys2Proof
end

