-- ==== Sys2Proof/Config.lean ====
section
/-! DEFINITION. Config.lean: what an implementation of the JLC fixes.

The first part is the parameter table of rule R7 with the values this spec lists, and the filter
constants of R170. The second part is what the spec leaves to the implementation: constants with no
body, so that no proof can see a value of them (log entries 1, 3 and 4). The function units of R16 are
such a constant too; it stands in Machine/BlockUnits.lean, with the rule it meets (log entry 2). -/

namespace Sys2Proof

/-- The binary64 operations that can produce a NaN (R12, I1): the key under which an implementation
fixes the sign and payload of a NaN result. -/
inductive FpOp where
  | add | sub | mul | div | sqrt | floor | widen | narrowTowardZero | pow10 | tan
  deriving DecidableEq, Repr

/-- The two transcendental function units of R16, the block's parameters. -/
structure FunctionUnits where
  /-- approximates `10^x` -/
  pow10 : F64 → F64
  /-- approximates `tan(x)` -/
  tan : F64 → F64
  deriving Inhabited

/-! ## Parameters of rule R7 -/

/-- Audio channels (R7). -/
def Config.NCH : Nat := 2
/-- Biquad stages per channel (R7). -/
def Config.NSTAGE : Nat := 2
/-- Meters (R7). -/
def Config.NMETER : Nat := 2
/-- Capacity of each window buffer, in slots (R7). -/
def Config.WMAX : Nat := 1048576
/-- Largest delay in samples: the delay buffer has `DMAX + 1` slots (R7). -/
def Config.DMAX : Nat := 65535
/-- Smallest accepted sample rate, 8000.0 Hz (R7). -/
def Config.FS_MIN : F64 := 0x40BF400000000000#64
/-- Largest accepted sample rate, 768000.0 Hz (R7). -/
def Config.FS_MAX : F64 := 0x4127700000000000#64
/-- Meter calibration constant K (R7). -/
def Config.KCAL : F64 := 0x3FED8D8A4AF73D79#64
/-- Linear-envelope constant C = 4000.0 (R7, R228). -/
def Config.ENV_C : F64 := 0x40AF400000000000#64
/-- Exponential-envelope decibel budget D = 80.0 (R7). -/
def Config.ENV_D : F64 := 0x4054000000000000#64
/-- Limiter release decibel budget = 80.0 (R7). -/
def Config.LIM_D : F64 := 0x4054000000000000#64
/-- Envelope output floor 2^-40 (R7). -/
def Config.EPS : F64 := 0x3D70000000000000#64
/-- Near-silence threshold 2^-20 (R7). -/
def Config.SIL_THR : F64 := 0x3EB0000000000000#64

/-! ## Filter constants of rule R170 -/

/-- π rounded to binary64. -/
def Config.PI : F64 := 0x400921FB54442D18#64
/-- Shelf centre frequency, Hz. -/
def Config.F0S : F64 := 0x409A47E5D678A648#64
/-- Shelf Q. -/
def Config.QS : F64 := 0x3FE6A12DF668776C#64
/-- Shelf high-frequency gain. -/
def Config.VH : F64 := 0x3FF95B9B16BF11C6#64
/-- Shelf band gain. -/
def Config.VB : F64 := 0x3FF423B88EE23B99#64
/-- High-pass corner frequency, Hz. -/
def Config.F0H : F64 := 0x404311571C130AF0#64
/-- High-pass Q. -/
def Config.QH : F64 := 0x3FE002ADD8D38A3C#64

/-! ## Binary64 literals the rules write in decimal -/

/-- `+0.0`, the reset value of every binary64 state (R340). -/
def Config.zero64 : F64 := 0x0000000000000000#64
/-- `1.0` -/
def Config.one64 : F64 := 0x3FF0000000000000#64
/-- `2.0` -/
def Config.two64 : F64 := 0x4000000000000000#64
/-- `−2.0` -/
def Config.negTwo64 : F64 := 0xC000000000000000#64
/-- `20.0`, the divisor of R17 -/
def Config.twenty64 : F64 := 0x4034000000000000#64
/-- `1000.0`, milliseconds in a second (R18, R19) -/
def Config.thousand64 : F64 := 0x408F400000000000#64
/-- `4294967296.0`, the bound of R18 -/
def Config.u32Bound64 : F64 := 0x41F0000000000000#64
/-- `+Infinity` -/
def Config.inf64 : F64 := 0x7FF0000000000000#64

/-! ## What the spec leaves to the implementation -/

/-- Sign (top bit) and payload (low 51 bits) of the NaN that a binary64 operation produces from its
operand bits (R12, I1: "any quiet NaN"). A free value: nothing constrains it (log entry 1). -/
opaque Config.nanBits64 : FpOp → F64 → F64 → BitVec 52

/-- Sign (top bit) and payload (low 22 bits) of the binary32 NaN that rounding a binary64 NaN
produces (R12, I1). A free value (log entry 1). -/
opaque Config.nanBits32 : F64 → BitVec 23

/-- The 4096-byte page of the platform's address map that holds the register window: `JLC_BASE` is
this page's first byte (R80, R88, I3). A parameter left open (log entry 3). -/
opaque Config.jlcBasePage : Nat

/-- `T_CMD(opc)`: the upper bound on the time a command with operation code `opc` takes (R360, I4).
A parameter left open; no architectural result depends on it, and no definition of the model reads
it (log entry 4). -/
opaque Config.T_CMD : BitVec 8 → Nat

end Sys2Proof
end

