-- ==== Sys2Proof/Syntax.lean ====
section
/-! DEFINITION. Syntax.lean: the twelve commands (R114, R115), the names of the host-visible
registers (R32) and the bus transactions a host issues (R80 to R90). -/

namespace Sys2Proof

/-- Audio channel, the CH selector bit of PF_STAGE and PF_APPLY (R3, R115). -/
inductive Channel where
  /-- channel index 0, selector bit 0 -/
  | left
  /-- channel index 1, selector bit 1 -/
  | right
  deriving DecidableEq, Repr

/-- Biquad stage, the ST selector bit of PF_STAGE (R115). -/
inductive Stage where
  /-- stage 0, selector bit 0 -/
  | highShelf
  /-- stage 1, selector bit 1 -/
  | highPass
  deriving DecidableEq, Repr

/-- Meter, the M selector bit of ACC_ADD and MTR_STEP (R115). -/
inductive MeterId where
  /-- meter 0, selector bit 0 -/
  | m0
  /-- meter 1, selector bit 1 -/
  | m1
  deriving DecidableEq, Repr

/-- The commands of the opcode map (R114), one constructor per row. Operands come from `OPA` and
`OPB` when the command runs (R112), so only selectors are arguments. -/
inductive Instr where
  /-- NOP (R140) -/
  | nop
  /-- CONFIG (R144) -/
  | config
  /-- COMMIT (R150) -/
  | commit
  /-- PROCESS (R270); `nc` is selector bit NC: true means "do not commit" -/
  | process (nc : Bool)
  /-- LIM_RESET (R158) -/
  | limReset
  /-- PF_STAGE (R175) -/
  | pfStage (ch : Channel) (st : Stage)
  /-- PF_APPLY (R176) -/
  | pfApply (ch : Channel)
  /-- ACC_ADD (R192) -/
  | accAdd (m : MeterId)
  /-- MTR_STEP (R196) -/
  | mtrStep (m : MeterId)
  /-- ENV_CALC (R222) -/
  | envCalc
  /-- LIM_UPDATE (R242) -/
  | limUpdate
  /-- DLY_ADD (R261) -/
  | dlyAdd
  deriving DecidableEq, Repr

/-- The registers of the register map, in its order (R32). -/
inductive RegName where
  | id | version | ctrl | status | fault | fcode | finfo | fdetail | cmd
  | opaLo | opaHi | opbLo | opbHi | res0Lo | res0Hi | res1Lo | res1Hi | silmin
  | obsGain | obsPeak | obsMval0 | obsMval1 | obsEnv | obsWlen0 | obsWlen1 | obsDlen
  | obsIvl0 | obsIvl1 | obsFsLo | obsFsHi
  | pIngainDb | pOutgainDb | pLimitDb | pHardlimitDb | pAttackMs | pReleaseMs
  | pWin0Ms | pWin1Ms | pIntervalMs | pDelayMs | pFlags
  deriving DecidableEq, Repr

/-- The width of a bus access (R83). Only the 4-byte access is legal. -/
inductive Width where
  | byte1 | byte2 | byte4 | byte8
  deriving DecidableEq, Repr

/-- What the outside does to the JLC, one at a time in the order the JLC accepts it (R90): a bus
read, a bus write, or the platform asserting the hardware reset input (R340). Host agents are not
told apart (R330). -/
inductive HostEvent where
  /-- `MemRead(off, width)` -/
  | read (off : Offset) (width : Width)
  /-- `MemWrite(off, width, v)`; `v` is the data word of a 4-byte access. An access of another width
  faults before its data are looked at (R83), so its data are not carried. -/
  | write (off : Offset) (width : Width) (v : Word)
  /-- the hardware reset input is asserted (R340) -/
  | hardwareReset
  deriving DecidableEq, Repr

end Sys2Proof
end

