-- ==== Sys2Proof/WellFormed.lean ====
section
/-! DEFINITION. WellFormed.lean: which command words are well formed (R110, R111, R114, R117).

An `Instr` carries its selectors as finite types, so no field of one can be out of range and every
`Instr` is well formed (`Instr.wellFormed`). What can be ill formed is the word a host writes to
`CMD`: its three fields are checked here, one check per condition of R110. -/

namespace Sys2Proof

/-- The three fields of the one command format (R111). -/
structure CommandFields where
  /-- bits 31:24, the operation code -/
  opc : BitVec 8
  /-- bits 23:16, the selector -/
  sel : BitVec 8
  /-- bits 15:0, which must be 0 -/
  low : BitVec 16
  deriving DecidableEq, Repr

/-- The SEL mask of an operation code, `none` for a code that is not in the opcode map (R114). -/
def selMask (opc : BitVec 8) : Option (BitVec 8) :=
  match opc.toNat with
  | 0x00 => some 0x00#8
  | 0x01 => some 0x00#8
  | 0x02 => some 0x00#8
  | 0x03 => some 0x01#8
  | 0x04 => some 0x00#8
  | 0x10 => some 0x03#8
  | 0x11 => some 0x01#8
  | 0x12 => some 0x01#8
  | 0x13 => some 0x01#8
  | 0x14 => some 0x00#8
  | 0x15 => some 0x00#8
  | 0x16 => some 0x00#8
  | _ => none

/-- First check of R110: the operation code is in the table of R114. -/
def CommandFields.opcInTable (f : CommandFields) : Bool := (selMask f.opc).isSome

/-- Second check of R110: `(sel AND NOT selmask(opc)) = 0`, no reserved selector bit is set. -/
def CommandFields.selLegal (f : CommandFields) : Bool :=
  match selMask f.opc with
  | some mask => f.sel &&& ~~~mask == 0#8
  | none => false

/-- Third check of R110: `low = 0`. -/
def CommandFields.lowZero (f : CommandFields) : Bool := f.low == 0#16

/-- A command word is well formed when the three checks of R110 hold. -/
def CommandFields.wellFormed (f : CommandFields) : Bool :=
  f.opcInTable && f.selLegal && f.lowZero

/-- Every instruction of the syntax is well formed: each selector is a value of a finite type that
has exactly the encodings R115 lists. -/
def Instr.wellFormed : Instr → Bool
  | .nop => true
  | .config => true
  | .commit => true
  | .process _ => true
  | .limReset => true
  | .pfStage _ _ => true
  | .pfApply _ => true
  | .accAdd _ => true
  | .mtrStep _ => true
  | .envCalc => true
  | .limUpdate => true
  | .dlyAdd => true

end Sys2Proof
end

