-- ==== Sys2Proof/Decode.lean ====
section
/-! DEFINITION. Decode.lean: from a command word to a command and back (R110 to R117).

The decoder is total: it answers an `Instr` or names the check of R110 that the word fails. The
encoder writes the word from the match column of R116 and the selector bits of R115. -/

namespace Sys2Proof

/-- Why a command word is illegal (R117): which condition of R110 it fails. Each of them raises
ILLEGAL_CMD when the word is executed. -/
inductive DecodeReject where
  /-- the operation code is not in the table of R114 -/
  | unknownOpcode
  /-- a reserved selector bit is set (R115) -/
  | reservedSelector
  /-- bits 15:0 are not 0 (R111) -/
  | lowHalfNotZero
  /-- the bytes offered are not the four bytes of one command word (R111) -/
  | notOneWord
  deriving DecidableEq, Repr

/-- Split a command word into the fields of R111: `opc = w[31:24]`, `sel = w[23:16]`,
`low = w[15:0]`. -/
def commandFields (w : Word) : CommandFields :=
  { opc := w.extractLsb' 24 8, sel := w.extractLsb' 16 8, low := w.extractLsb' 0 16 }

/-- Join the fields of R111 into a command word. -/
def joinFields (f : CommandFields) : Word := (f.opc ++ f.sel) ++ f.low

/-- Selector bit CH (R115). -/
def channelOf (b : Bool) : Channel := if b then .right else .left
/-- Selector bit ST (R115). -/
def stageOf (b : Bool) : Stage := if b then .highPass else .highShelf
/-- Selector bit M (R115). -/
def meterOf (b : Bool) : MeterId := if b then .m1 else .m0

/-- The value of selector bit CH (R115). -/
def channelBit : Channel → Bool
  | .left => false
  | .right => true
/-- The value of selector bit ST (R115). -/
def stageBit : Stage → Bool
  | .highShelf => false
  | .highPass => true
/-- The value of selector bit M (R115). -/
def meterBit : MeterId → Bool
  | .m0 => false
  | .m1 => true

/-- The command an operation code and a selector stand for (R114, R115), `none` for an operation code
that is not in the table. -/
def commandOf (opc sel : BitVec 8) : Option Instr :=
  match opc.toNat with
  | 0x00 => some .nop
  | 0x01 => some .config
  | 0x02 => some .commit
  | 0x03 => some (.process (sel.getLsbD 0))
  | 0x04 => some .limReset
  | 0x10 => some (.pfStage (channelOf (sel.getLsbD 0)) (stageOf (sel.getLsbD 1)))
  | 0x11 => some (.pfApply (channelOf (sel.getLsbD 0)))
  | 0x12 => some (.accAdd (meterOf (sel.getLsbD 0)))
  | 0x13 => some (.mtrStep (meterOf (sel.getLsbD 0)))
  | 0x14 => some .envCalc
  | 0x15 => some .limUpdate
  | 0x16 => some .dlyAdd
  | _ => none

/-- Decode a command word (R110): the three checks in the order the rule writes them, then the
command of the opcode map. -/
def decode (w : Word) : Except DecodeReject Instr :=
  let f := commandFields w
  match commandOf f.opc f.sel with
  | none => .error .unknownOpcode
  | some i =>
    if f.selLegal then
      if f.lowZero then .ok i else .error .lowHalfNotZero
    else .error .reservedSelector

/-- Decode any bytes: a command is exactly one word (R111), carried little-endian (R82), so exactly
four bytes can be one. -/
def decodeBytes : List Byte → Except DecodeReject Instr
  | [b0, b1, b2, b3] => decode (((b3 ++ b2) ++ b1) ++ b0)
  | _ => .error .notOneWord

/-! ## The encoder -/

/-- The operation code of a command (R114). -/
def opcodeOf : Instr → BitVec 8
  | .nop => 0x00#8
  | .config => 0x01#8
  | .commit => 0x02#8
  | .process _ => 0x03#8
  | .limReset => 0x04#8
  | .pfStage _ _ => 0x10#8
  | .pfApply _ => 0x11#8
  | .accAdd _ => 0x12#8
  | .mtrStep _ => 0x13#8
  | .envCalc => 0x14#8
  | .limUpdate => 0x15#8
  | .dlyAdd => 0x16#8

/-- A selector byte from its bits 1 and 0; every other selector bit is reserved and 0 (R115). -/
def selectorByte (b1 b0 : Bool) : BitVec 8 := (0#6 ++ BitVec.ofBool b1) ++ BitVec.ofBool b0

/-- The selector of a command (R115). -/
def selectorOf : Instr → BitVec 8
  | .nop => 0x00#8
  | .config => 0x00#8
  | .commit => 0x00#8
  | .process nc => selectorByte false nc
  | .limReset => 0x00#8
  | .pfStage ch st => selectorByte (stageBit st) (channelBit ch)
  | .pfApply ch => selectorByte false (channelBit ch)
  | .accAdd m => selectorByte false (meterBit m)
  | .mtrStep m => selectorByte false (meterBit m)
  | .envCalc => 0x00#8
  | .limUpdate => 0x00#8
  | .dlyAdd => 0x00#8

/-- The command word of a command (R111, R116). -/
def encode (i : Instr) : Word :=
  joinFields { opc := opcodeOf i, sel := selectorOf i, low := 0#16 }

/-- The four bytes of a word in the order the bus carries them, byte `k` at `offset + k` (R82). -/
def wordBytes (w : Word) : List Byte :=
  [w.extractLsb' 0 8, w.extractLsb' 8 8, w.extractLsb' 16 8, w.extractLsb' 24 8]

/-! ## The table of rule R116 -/

/-- One row of R116: a word `w` belongs to the row when `w AND mask = match`. -/
structure OpcodeRow where
  mnemonic : String
  matchWord : Word
  maskWord : Word
  deriving DecidableEq, Repr

/-- The twelve rows of R116. -/
def opcodeRows : List OpcodeRow :=
  [ ⟨"NOP", 0x00000000#32, 0xFFFFFFFF#32⟩,
    ⟨"CONFIG", 0x01000000#32, 0xFFFFFFFF#32⟩,
    ⟨"COMMIT", 0x02000000#32, 0xFFFFFFFF#32⟩,
    ⟨"PROCESS", 0x03000000#32, 0xFFFEFFFF#32⟩,
    ⟨"LIM_RESET", 0x04000000#32, 0xFFFFFFFF#32⟩,
    ⟨"PF_STAGE", 0x10000000#32, 0xFFFCFFFF#32⟩,
    ⟨"PF_APPLY", 0x11000000#32, 0xFFFEFFFF#32⟩,
    ⟨"ACC_ADD", 0x12000000#32, 0xFFFEFFFF#32⟩,
    ⟨"MTR_STEP", 0x13000000#32, 0xFFFEFFFF#32⟩,
    ⟨"ENV_CALC", 0x14000000#32, 0xFFFFFFFF#32⟩,
    ⟨"LIM_UPDATE", 0x15000000#32, 0xFFFFFFFF#32⟩,
    ⟨"DLY_ADD", 0x16000000#32, 0xFFFFFFFF#32⟩ ]

/-- The mnemonic of a command in the table (R114). -/
def mnemonicOf : Instr → String
  | .nop => "NOP"
  | .config => "CONFIG"
  | .commit => "COMMIT"
  | .process _ => "PROCESS"
  | .limReset => "LIM_RESET"
  | .pfStage _ _ => "PF_STAGE"
  | .pfApply _ => "PF_APPLY"
  | .accAdd _ => "ACC_ADD"
  | .mtrStep _ => "MTR_STEP"
  | .envCalc => "ENV_CALC"
  | .limUpdate => "LIM_UPDATE"
  | .dlyAdd => "DLY_ADD"

/-! ## The host's reading of a table word -/

/-- The command the decoder reads from an instruction whose bits are `w`, numbered as
spec/opcode_table.json numbers them. A command is one 32-bit word; the word is laid out in bus byte
order and given to `decodeBytes`. More than 32 bits are no command (R111). -/
def decodeTableWord (nbits w : Nat) : Option Instr :=
  if nbits ≤ 32 then
    match decodeBytes (wordBytes (BitVec.ofNat 32 (w % 2 ^ nbits))) with
    | .ok i => some i
    | .error _ => none
  else none

end Sys2Proof
end

