-- ==== Sys2Proof/Machine/Binary64.lean ====
section
/-! DEFINITION. Machine/Binary64.lean: the arithmetic of rules R10 to R17.

Every finite binary64 value is a whole multiple of `2^-1074` and every finite binary32 value of
`2^-149`, so an operation is done exactly on natural numbers (or integers) in those units and rounded
once, at the end, by `roundNearest` (R11). NaN results are quiet NaNs whose sign and payload are free
(R12, log entry 1). -/

namespace Sys2Proof.Machine

/-! ## The formats (R13) -/

/-- The bit pattern of `+Infinity` with `frac` fraction bits and 11 or 8 exponent bits, as a number:
every magnitude above it is a NaN. -/
def infMag64 : Nat := 0x7FF0000000000000
/-- The magnitude of the binary32 infinity. -/
def infMag32 : Nat := 0x7F800000
/-- The magnitude of the largest finite binary32. -/
def maxMag32 : Nat := 0x7F7FFFFF

/-- The sign bit of a binary64. -/
def sign64 (x : F64) : Bool := x.getLsbD 63
/-- The exponent and fraction fields of a binary64, as one number. -/
def mag64 (x : F64) : Nat := x.toNat % 2 ^ 63
/-- The sign bit of a binary32. -/
def sign32 (x : F32) : Bool := x.getLsbD 31
/-- The exponent and fraction fields of a binary32, as one number. -/
def mag32 (x : F32) : Nat := x.toNat % 2 ^ 31

/-- A binary64 from a sign and a magnitude. -/
def make64 (neg : Bool) (mag : Nat) : F64 := BitVec.ofNat 64 (mag + if neg then 2 ^ 63 else 0)
/-- A binary32 from a sign and a magnitude. -/
def make32 (neg : Bool) (mag : Nat) : F32 := BitVec.ofNat 32 (mag + if neg then 2 ^ 31 else 0)

/-- A binary64 NaN, of any sign, kind and payload. -/
def isNaN64 (x : F64) : Bool := infMag64 < mag64 x
/-- A binary64 infinity, of either sign. -/
def isInf64 (x : F64) : Bool := mag64 x == infMag64
/-- A binary64 zero, of either sign. -/
def isZero64 (x : F64) : Bool := mag64 x == 0
/-- A binary64 that is neither a NaN nor an infinity. -/
def isFinite64 (x : F64) : Bool := mag64 x < infMag64
/-- A binary32 NaN. -/
def isNaN32 (x : F32) : Bool := infMag32 < mag32 x
/-- A binary32 infinity. -/
def isInf32 (x : F32) : Bool := mag32 x == infMag32
/-- A binary32 that is neither a NaN nor an infinity. -/
def isFinite32 (x : F32) : Bool := mag32 x < infMag32

/-- The value of a finite magnitude with `frac` fraction bits, in units of the format's smallest
subnormal. Exponent field 0 has no implicit leading bit. -/
def unitsOf (frac mag : Nat) : Nat :=
  if mag / 2 ^ frac = 0 then mag else (2 ^ frac + mag % 2 ^ frac) * 2 ^ (mag / 2 ^ frac - 1)

/-- The absolute value of a finite binary64, in units of `2^-1074`. -/
def units64 (x : F64) : Nat := unitsOf 52 (mag64 x)
/-- The absolute value of a finite binary32, in units of `2^-149`. -/
def units32 (x : F32) : Nat := unitsOf 23 (mag32 x)
/-- The value of a finite binary64, in units of `2^-1074`. -/
def signedUnits64 (x : F64) : Int := if sign64 x then -(units64 x : Int) else (units64 x : Int)

/-- How many units of `2^-1074` make 1.0, and how many make one unit of binary32. -/
def unitsPerOne : Nat := 2 ^ 1074
/-- Units of `2^-1074` in `2^-149`, the binary32 unit. -/
def unitsPerUnit32 : Nat := 2 ^ 925

/-! ## Rounding (R11, R13) -/

/-- The exponent step for a result of `q` whole units: 0 while it fits the significand with
quantum 1 (subnormals and the smallest normals), otherwise how far its leading bit stands above the
significand's. -/
def roundShift (frac q : Nat) : Nat := if q < 2 ^ (frac + 1) then 0 else Nat.log2 q - frac

/-- Whether roundTiesToEven takes the larger neighbour, from the kept significand `m`, the remainder
`r` and the quantum `d`. -/
def roundsUp (m r d : Nat) : Bool := d < 2 * r || (2 * r == d && m % 2 == 1)

/-- The magnitude field of `num / den` units rounded with roundTiesToEven; `inf` is the magnitude of
the format's infinity, to which a value beyond the largest finite one rounds (R11, R13). -/
def roundNearest (frac inf num den : Nat) : Nat :=
  let sh := roundShift frac (num / den)
  let d := den * 2 ^ sh
  let m := num / d
  min inf (sh * 2 ^ frac + m + (roundsUp m (num % d) d).toNat)

/-- The magnitude field of `num / den` units rounded with roundTowardZero; `top` is the magnitude of
the largest finite value, beyond which roundTowardZero never goes (R13). -/
def roundTowardZero (frac top num den : Nat) : Nat :=
  let sh := roundShift frac (num / den)
  min top (sh * 2 ^ frac + num / (den * 2 ^ sh))

/-- Round `num / den` units of `2^-1074` to a binary64 of the given sign. -/
def round64 (neg : Bool) (num den : Nat) : F64 := make64 neg (roundNearest 52 infMag64 num den)

/-- `±Infinity` -/
def inf64 (neg : Bool) : F64 := make64 neg infMag64
/-- `±0.0` -/
def zero64 (neg : Bool) : F64 := make64 neg 0

/-- The quiet NaN that operation `op` produces from `a` and `b`: sign and payload are free (R12). -/
def quietNaN64 (op : FpOp) (a b : F64) : F64 :=
  let bits := Config.nanBits64 op a b
  make64 (bits.getLsbD 51) (infMag64 + 2 ^ 51 + bits.toNat % 2 ^ 51)

/-- The quiet binary32 NaN that rounding the binary64 NaN `v` produces (R12, I1). -/
def quietNaN32 (v : F64) : F32 :=
  let bits := Config.nanBits32 v
  make32 (bits.getLsbD 22) (infMag32 + 2 ^ 22 + bits.toNat % 2 ^ 22)

/-! ## The four operations and the square root (R11) -/

/-- Exact sum of two finite values, rounded once. A zero sum is `+0.0` unless both operands are
negative. -/
def addFinite (a b : F64) : F64 :=
  let t := signedUnits64 a + signedUnits64 b
  round64 (if t = 0 then sign64 a && sign64 b else t < 0) t.natAbs 1

/-- IEEE 754 addition, the NaN result keyed by `op` (addition or subtraction) and by the operands
`ka`, `kb` the operation was given. -/
def addCore (op : FpOp) (ka kb a b : F64) : F64 :=
  if isNaN64 a || isNaN64 b then quietNaN64 op ka kb
  else if isInf64 a then
    if isInf64 b && sign64 a != sign64 b then quietNaN64 op ka kb else a
  else if isInf64 b then b
  else addFinite a b

/-- `neg(x)`: the sign bit flipped (R14). -/
def fneg (x : F64) : F64 := x ^^^ 0x8000000000000000#64

/-- `abs(x)`: the sign bit cleared (R14). -/
def fabs (x : F64) : F64 := x &&& 0x7FFFFFFFFFFFFFFF#64

/-- `a + b` (R11). -/
def fadd (a b : F64) : F64 := addCore .add a b a b

/-- `a − b` (R11): the exact difference rounded once, which is the sum with `b` negated. -/
def fsub (a b : F64) : F64 := addCore .sub a b a (fneg b)

/-- `a · b` (R11). -/
def fmul (a b : F64) : F64 :=
  let neg := sign64 a != sign64 b
  if isNaN64 a || isNaN64 b then quietNaN64 .mul a b
  else if isInf64 a || isInf64 b then
    if isZero64 a || isZero64 b then quietNaN64 .mul a b else inf64 neg
  else round64 neg (units64 a * units64 b) unitsPerOne

/-- `a / b` (R11). -/
def fdiv (a b : F64) : F64 :=
  let neg := sign64 a != sign64 b
  if isNaN64 a || isNaN64 b then quietNaN64 .div a b
  else if isInf64 a then
    if isInf64 b then quietNaN64 .div a b else inf64 neg
  else if isInf64 b then zero64 neg
  else if isZero64 b then
    if isZero64 a then quietNaN64 .div a b else inf64 neg
  else round64 neg (units64 a * unitsPerOne) (units64 b)

/-- One digit pair of the integer square root: from the root `r` of `n / 4` to the root of `n`. -/
def sqrtDigit (n r : Nat) : Nat := if (2 * r + 1) * (2 * r + 1) ≤ n then 2 * r + 1 else 2 * r

/-- The integer square root of an `n` below `4^k`. -/
def intSqrt : Nat → Nat → Nat
  | 0, _ => 0
  | k + 1, n => sqrtDigit n (intSqrt k (n / 4))

/-- How many low bit pairs of the radicand the square root leaves to the sticky bit: enough for the
kept part to have between 128 and 130 bits. -/
def sqrtDrop (n : Nat) : Nat := (Nat.log2 n - 128) / 2

/-- The square root of a positive finite value of `u` units, rounded once: the root of
`u · 2^1074` to more than 64 bits with a sticky half unit below them. -/
def sqrtPositive (u : Nat) : F64 :=
  let n := u * unitsPerOne
  let t := sqrtDrop n
  let r := intSqrt 66 (n / 4 ^ t)
  let sticky := if r * r * 4 ^ t = n then 0 else 1
  round64 false ((2 * r + sticky) * 2 ^ t) 2

/-- `Sqrt(x)`, IEEE 754 squareRoot (R11). -/
def fsqrt (x : F64) : F64 :=
  if isNaN64 x then quietNaN64 .sqrt x x
  else if isZero64 x then x
  else if sign64 x then quietNaN64 .sqrt x x
  else if isInf64 x then x
  else sqrtPositive (units64 x)

/-! ## Comparison and selection (R14) -/

/-- The place of a non-NaN binary64 in the order of its values: both zeros are 0. -/
def orderKey (x : F64) : Int := if sign64 x then -(mag64 x : Int) else (mag64 x : Int)

/-- Neither operand is a NaN. -/
def ordered (a b : F64) : Bool := !isNaN64 a && !isNaN64 b

/-- `a < b` -/
def flt (a b : F64) : Bool := ordered a b && orderKey a < orderKey b
/-- `a > b` -/
def fgt (a b : F64) : Bool := flt b a
/-- `a ≤ b` -/
def fle (a b : F64) : Bool := ordered a b && orderKey a ≤ orderKey b
/-- `a ≥ b` -/
def fge (a b : F64) : Bool := fle b a
/-- `a == b` -/
def feq (a b : F64) : Bool := ordered a b && orderKey a == orderKey b

/-- `maxsel(a, b) = (a > b) ? a : b` -/
def maxsel (a b : F64) : F64 := if fgt a b then a else b
/-- `minsel(a, b) = (a < b) ? a : b` -/
def minsel (a b : F64) : F64 := if flt a b then a else b

/-! ## Conversions (R13, R15) -/

/-- A 32-bit pattern as the operand that keys a NaN result. -/
def nanKey32 (x : F32) : F64 := x.setWidth 64

/-- `f64(x)`: binary32 to binary64, exact for every non-NaN value (R13). -/
def f64 (x : F32) : F64 :=
  if isNaN32 x then quietNaN64 .widen (nanKey32 x) (nanKey32 x)
  else if isInf32 x then inf64 (sign32 x)
  else round64 (sign32 x) (units32 x * unitsPerUnit32) 1

/-- `rne32(v)`: binary64 to binary32 with roundTiesToEven (R13). -/
def rne32 (v : F64) : F32 :=
  if isNaN64 v then quietNaN32 v
  else if isInf64 v then make32 (sign64 v) infMag32
  else make32 (sign64 v) (roundNearest 23 infMag32 (units64 v) unitsPerUnit32)

/-- The binary32 that `rtz32` rounds a non-NaN value to: roundTowardZero keeps an infinity and never
makes one. -/
def rtz32Bits (v : F64) : F32 :=
  if isInf64 v then make32 (sign64 v) infMag32
  else make32 (sign64 v) (roundTowardZero 23 maxMag32 (units64 v) unitsPerUnit32)

/-- `rtz32(v)`: binary64 to binary32 with roundTowardZero, returned as a binary64 (R13). A NaN stays a
NaN: it is rounded to a binary32 NaN, whose pattern the result widens. -/
def rtz32 (v : F64) : F64 := f64 (if isNaN64 v then quietNaN32 v else rtz32Bits v)

/-- `floor(v)`: roundToIntegralTowardNegative, exact (R15). A zero keeps its sign. -/
def ffloor (v : F64) : F64 :=
  if isNaN64 v then quietNaN64 .floor v v
  else if isInf64 v then v
  else
    let whole := units64 v / unitsPerOne
    let down := sign64 v && units64 v % unitsPerOne != 0
    round64 (sign64 v) ((whole + down.toNat) * unitsPerOne) 1

/-- `u32of(v)`: the integer a non-negative integral `v` below `2^32` stands for (R15). -/
def u32of (v : F64) : Word := BitVec.ofNat 32 (units64 v / unitsPerOne)

/-- `f64u(n)`: an integer below `2^53` as a binary64, exact (R13). -/
def f64u (n : Nat) : F64 := round64 false (n * unitsPerOne) 1

/-! ## Transcendental primitives and decibels (R16, R17) -/

/-- `Pow10(x)` of a pair of function units: the values R16 fixes exactly, the unit everywhere else. -/
def pow10Of (u : FunctionUnits) (x : F64) : F64 :=
  if isNaN64 x then quietNaN64 .pow10 x x
  else if isZero64 x then Config.one64
  else if isInf64 x then (if sign64 x then zero64 false else inf64 false)
  else u.pow10 x

/-- `Tan(x)` of a pair of function units: a NaN gives a NaN (R16), the unit everywhere else. -/
def tanOf (u : FunctionUnits) (x : F64) : F64 :=
  if isNaN64 x then quietNaN64 .tan x x else u.tan x

/-- `lin(db32) = Pow10(f64(db32) / 20.0)` (R17). -/
def linOf (u : FunctionUnits) (db : F32) : F64 := pow10Of u (fdiv (f64 db) Config.twenty64)

end Sys2Proof.Machine
end

