-- ==== Sys2Proof/Machine/State.lean ====
section
/-! DEFINITION. Machine/State.lean: everything the JLC holds (10_state.md), as plain data.

`HostRegs` and `FaultRegs` are the host-visible registers of section 1 that store something; `Engine`
is the engine state `S` of section 2, under the spec's own names. `State` adds the two fields of the
model's own: the bus events still to come and the answer of the last read. -/

namespace Sys2Proof.Machine

/-- An internal buffer: the slots that do not hold the buffer's empty value, by index. A list, so
that two states can be compared. -/
abbrev Memory (α : Type) := List (Nat × α)

/-- A pair of binary32 values, one per channel: a slot of the delay buffer (R50). -/
structure StereoSample where
  l : F32
  r : F32
  deriving DecidableEq, Repr

/-- The five coefficients of a biquad stage (R43). -/
structure Coefs where
  b0 : F64
  b1 : F64
  b2 : F64
  a1 : F64
  a2 : F64
  deriving DecidableEq, Repr

/-- The rolling history of one stage of one channel (R44): previous input, the input before it,
previous output, the output before it. -/
structure History where
  x1 : F64
  x2 : F64
  y1 : F64
  y2 : F64
  deriving DecidableEq, Repr

/-- The window state of one meter (R45). -/
structure Window where
  /-- `S.W[m]`, the length in slots -/
  W : Word
  /-- `S.buf[m]`, an unlisted slot holds `+0.0` -/
  buf : Memory F64
  /-- `S.sum[m]`, the running compensated sum -/
  sum : F64
  /-- `S.comp[m]`, its compensation term -/
  comp : F64
  /-- `S.cur[m]`, the insertion cursor -/
  cur : Word
  /-- `S.fill[m]`, insertions since the last clear, saturating at `W` -/
  fill : Word
  deriving DecidableEq, Repr

/-- The meter state of one meter (R46). -/
structure Meter where
  /-- `S.I[m]`, the calculation interval in samples -/
  I : Word
  /-- `S.dc[m]`, the decimation counter -/
  dc : Word
  /-- `S.val[m]`, the current reading -/
  val : F64
  /-- `S.valid[m]`, the ready flag -/
  valid : Bool
  deriving DecidableEq, Repr

/-- The host-visible registers that hold a word of their own (R30, R32, R34, R38 to R41). ID and
VERSION are hardwired, STATUS and the OBS registers are computed when they are read. -/
structure HostRegs where
  /-- `CTRL[6:0]`; bits 31:7 do not exist and read 0 (R34) -/
  ctrl : BitVec 7
  /-- `CMD`, the command word most recently written (R38) -/
  cmd : Word
  opa : BitVec 64
  opb : BitVec 64
  res0 : BitVec 64
  res1 : BitVec 64
  /-- `SILMIN`, read directly by PROCESS (R39) -/
  silmin : Word
  pIngainDb : F32
  pOutgainDb : F32
  pLimitDb : F32
  pHardlimitDb : F32
  pAttackMs : F32
  pReleaseMs : F32
  pWin0Ms : F32
  pWin1Ms : F32
  pIntervalMs : F32
  pDelayMs : F32
  /-- `P_FLAGS[1:0]`: bit 0 RESET_FLAG, bit 1 INF_SUSTAIN (R40) -/
  pFlags : BitVec 2
  deriving DecidableEq, Repr

/-- The fault registers (R37, R51). -/
structure FaultRegs where
  /-- `FAULT[4:0]`, sticky -/
  fault : BitVec 5
  fcode : Word
  finfo : Word
  fdetail : Word
  deriving DecidableEq, Repr

/-- The engine state `S` (R42 to R51). -/
structure Engine where
  /-- configured (R42) -/
  cfg : Bool
  /-- the sample rate in Hz (R42) -/
  fs : F64
  /-- the latched copy of `CTRL[6:0]` (R42) -/
  ctrl : BitVec 7
  /-- `S.coef[0]`, the high-shelf coefficients (R43) -/
  coefShelf : Coefs
  /-- `S.coef[1]`, the high-pass coefficients (R43) -/
  coefPass : Coefs
  /-- `S.h[0][0]` (R44) -/
  histLeftShelf : History
  /-- `S.h[0][1]` (R44) -/
  histLeftPass : History
  /-- `S.h[1][0]` (R44) -/
  histRightShelf : History
  /-- `S.h[1][1]` (R44) -/
  histRightPass : History
  /-- window state of meter 0 (R45) -/
  win0 : Window
  /-- window state of meter 1 (R45) -/
  win1 : Window
  /-- meter state of meter 0 (R46) -/
  mtr0 : Meter
  /-- meter state of meter 1 (R46) -/
  mtr1 : Meter
  /-- the envelope value (R47) -/
  env : F64
  /-- linear-model attack coefficient (R47) -/
  catt : F64
  /-- linear-model release coefficient (R47) -/
  crel : F64
  /-- exponential-model rising factor (R47) -/
  cup : F64
  /-- exponential-model falling factor (R47) -/
  cdown : F64
  /-- the linear limit (R48) -/
  L : F64
  /-- the tracked peak or loudness estimate (R48) -/
  peak : F64
  /-- the limiter gain coefficient (R48) -/
  gain : F64
  /-- the release factor (R48) -/
  rf : F64
  /-- first signal seen (R48) -/
  seen : Bool
  /-- infinite sustain (R48) -/
  sustain : Bool
  /-- silence run length (R48) -/
  silrun : Word
  /-- the last RESET_FLAG value seen by COMMIT (R48) -/
  prevReset : Bool
  /-- the linear input gain (R49) -/
  gin : F64
  /-- the linear output gain (R49) -/
  gout : F64
  /-- the hard-limit bound (R49) -/
  H : F64
  /-- the delay in samples (R50) -/
  D : Word
  /-- the delay buffer, an unlisted slot holds `(+0.0, +0.0)` (R50) -/
  dbuf : Memory StereoSample
  /-- the delay line's write cursor (R50) -/
  dcur : Word
  /-- the most recent PROCESS output was gated to zero (R51) -/
  muted : Bool
  /-- a PROCESS input or output was a NaN or an infinity; sticky (R51) -/
  nf : Bool
  deriving DecidableEq, Repr

/-- The whole machine. -/
structure State where
  host : HostRegs
  faults : FaultRegs
  eng : Engine
  /-- the model's own field: the bus events the JLC has still to accept, in the total order of R90
  (log entry 5) -/
  pending : List HostEvent
  /-- the model's own field: the word the most recent bus read returned, `none` before the first
  read since reset (log entry 6) -/
  readData : Option Word
  deriving DecidableEq, Repr

/-- The five faults of the JLC (R301). A fault is recorded in registers; it never stops the machine
(R304), so these are not the `Fault` below. -/
inductive JlcFault where
  /-- code 1, a word that matches no command -/
  | illegalCmd
  /-- code 2, a legal command other than NOP and CONFIG before a successful CONFIG -/
  | notConfigured
  /-- code 3, CONFIG whose checks fail; the failed-check mask (R302) -/
  | configInvalid (mask : BitVec 5)
  /-- code 4, a commit whose checks fail; the failed-check mask (R302) -/
  | paramInvalid (mask : BitVec 5)
  /-- code 5, an illegal bus access at this offset -/
  | bus (off : Offset)
  deriving DecidableEq, Repr

/-- Why a step can stop. The JLC itself never stops (R304, R305). -/
inductive Fault where
  /-- Raised by ACC_ADD, PROCESS and DLY_ADD when a window or delay cursor names a slot the buffer
  does not have (at or beyond `WMAX`, beyond `DMAX`). The spec says no rule's index is ever out of
  range (R52, R81), so no run reaches it. Safe: the model stops where the spec gives no slot. -/
  | slotOutOfRange
  deriving DecidableEq, Repr

/-- Why an instruction has no meaning. -/
inductive Refusal where
  /-- Raised by `exec` for a command whose meaning is not written yet; safe. No arm raises it. -/
  | notModelled (mnemonic : String)
  deriving DecidableEq, Repr

/-! ## Hardware reset (R340) -/

/-- Coefficients at reset: `+0.0` (R43). -/
def Coefs.zero : Coefs :=
  { b0 := 0#64, b1 := 0#64, b2 := 0#64, a1 := 0#64, a2 := 0#64 }

/-- A cleared history: `+0.0` (R44). -/
def History.zero : History := { x1 := 0#64, x2 := 0#64, y1 := 0#64, y2 := 0#64 }

/-- A window at reset (R45). -/
def Window.reset : Window :=
  { W := 0#32, buf := [], sum := 0#64, comp := 0#64, cur := 0#32, fill := 0#32 }

/-- A meter at reset (R46). -/
def Meter.reset : Meter := { I := 0#32, dc := 0#32, val := 0#64, valid := false }

/-- The host-visible registers at reset (R32, R340). -/
def HostRegs.reset : HostRegs :=
  { ctrl := 0x2A#7, cmd := 0#32, opa := 0#64, opb := 0#64, res0 := 0#64, res1 := 0#64
    silmin := 0x0000BB80#32
    pIngainDb := 0x00000000#32, pOutgainDb := 0x00000000#32
    pLimitDb := 0x00000000#32, pHardlimitDb := 0x00000000#32
    pAttackMs := 0x41200000#32, pReleaseMs := 0x43480000#32
    pWin0Ms := 0x43C80000#32, pWin1Ms := 0x453B8000#32
    pIntervalMs := 0x00000000#32, pDelayMs := 0x00000000#32, pFlags := 0#2 }

/-- The fault registers at reset (R37, R340). -/
def FaultRegs.reset : FaultRegs := { fault := 0#5, fcode := 0#32, finfo := 0#32, fdetail := 0#32 }

/-- The engine at reset (R42 to R51, R340). -/
def Engine.reset : Engine :=
  { cfg := false, fs := 0#64, ctrl := 0x2A#7
    coefShelf := Coefs.zero, coefPass := Coefs.zero
    histLeftShelf := History.zero, histLeftPass := History.zero
    histRightShelf := History.zero, histRightPass := History.zero
    win0 := Window.reset, win1 := Window.reset, mtr0 := Meter.reset, mtr1 := Meter.reset
    env := 0#64, catt := 0#64, crel := 0#64, cup := 0#64, cdown := 0#64
    L := 0#64, peak := 0#64, gain := 0#64, rf := 0#64
    seen := false, sustain := false, silrun := 0#32, prevReset := false
    gin := 0#64, gout := 0#64, H := 0#64
    D := 0#32, dbuf := [], dcur := 0#32, muted := false, nf := false }

/-- The machine right after hardware reset (R340), with no bus event presented yet. -/
def State.reset : State :=
  { host := HostRegs.reset, faults := FaultRegs.reset, eng := Engine.reset
    pending := [], readData := none }

end Sys2Proof.Machine
end

