-- ==== Sys2Proof/Machine/Ops.lean ====
section
/-! DEFINITION. Machine/Ops.lean: the operations the meanings share.

Internal buffers (R81), the fault action and the guard of a command that needs a configured engine
(R110, R303), the per-channel, per-stage and per-meter accessors, and the clears (R145, R158). -/

namespace Sys2Proof.Machine

/-! ## Internal buffers (R81) -/

/-- What slot `i` holds; an unlisted slot holds the buffer's empty value `d` (R340). -/
def Memory.read {α : Type} (d : α) (i : Nat) : Memory α → α
  | [] => d
  | (j, v) :: m => if i = j then v else Memory.read d i m

/-- Store `v` in slot `i`, keeping the indices rising and listing no slot that holds the empty value
`d`. -/
def Memory.write {α : Type} [DecidableEq α] (d : α) (i : Nat) (v : α) : Memory α → Memory α
  | [] => if v = d then [] else [(i, v)]
  | (j, u) :: m =>
    if i < j then (if v = d then (j, u) :: m else (i, v) :: (j, u) :: m)
    else if i = j then (if v = d then m else (i, v) :: m)
    else (j, u) :: Memory.write d i v m

/-- The canonical form of a buffer of `cap` slots: indices strictly rising and below `cap`, and no
entry equal to what an unlisted slot reads as. Equal buffers are then equal lists. -/
abbrev Memory.wf {α : Type} [DecidableEq α] (d : α) (cap : Nat) (m : Memory α) : Prop :=
  m.Pairwise (fun a b => a.1 < b.1) ∧ ∀ c ∈ m, c.1 < cap ∧ c.2 ≠ d

/-- The empty value of a delay slot, `(+0.0, +0.0)` (R50). -/
def StereoSample.zero : StereoSample := { l := 0#32, r := 0#32 }

/-- Slot `i` of a window buffer. -/
def Window.slot (w : Window) (i : Nat) : F64 := Memory.read 0#64 i w.buf

/-- Slot `i` of the delay buffer. -/
def Engine.delaySlot (e : Engine) (i : Nat) : StereoSample := Memory.read StereoSample.zero i e.dbuf

/-! ## The fault action (R301, R303) -/

/-- The code of a fault (R301). -/
def JlcFault.code : JlcFault → Nat
  | .illegalCmd => 1
  | .notConfigured => 2
  | .configInvalid _ => 3
  | .paramInvalid _ => 4
  | .bus _ => 5

/-- FDETAIL of a fault: the failed-check mask of codes 3 and 4, 0 for the others (R303). -/
def JlcFault.detail : JlcFault → Word
  | .illegalCmd => 0#32
  | .notConfigured => 0#32
  | .configInvalid mask => mask.setWidth 32
  | .paramInvalid mask => mask.setWidth 32
  | .bus _ => 0#32

/-- FINFO of a fault, `cmd` being the command word in execution: that word for the command faults,
the byte offset of the access for the bus fault (R303). -/
def JlcFault.info (cmd : Word) : JlcFault → Word
  | .illegalCmd => cmd
  | .notConfigured => cmd
  | .configInvalid _ => cmd
  | .paramInvalid _ => cmd
  | .bus off => off.setWidth 32

/-- The fault registers after a fault: the sticky bit `code − 1` set, the last-fault registers
overwritten (R303, R307). -/
def FaultRegs.record (r : FaultRegs) (cmd : Word) (f : JlcFault) : FaultRegs :=
  { fault := r.fault ||| (1#5 <<< (f.code - 1))
    fcode := BitVec.ofNat 32 f.code
    finfo := f.info cmd
    fdetail := f.detail }

/-- `raise Fault(code, detail)`: the fault action, the JLC's whole exception mechanism (R303). There
is no trap entry and so no return from one (R311). The command word in execution is the one `CMD`
holds (R38). -/
def raiseFault (f : JlcFault) (s : State) : State :=
  { s with faults := s.faults.record s.host.cmd f }

/-- The second condition of R110: a command other than NOP and CONFIG runs only on a configured
engine, and raises NOT_CONFIGURED otherwise, with no other effect (R304). -/
def whenConfigured (s : State) (k : Host.Outcome State Fault Refusal) :
    Host.Outcome State Fault Refusal :=
  if s.eng.cfg then k else .next (raiseFault .notConfigured s)

/-! ## Accessors by channel, stage and meter -/

/-- `S.coef[st]` (R43): both channels share it. -/
def Engine.coef (e : Engine) : Stage → Coefs
  | .highShelf => e.coefShelf
  | .highPass => e.coefPass

/-- `S.h[ch][st]` (R44). -/
def Engine.hist (e : Engine) : Channel → Stage → History
  | .left, .highShelf => e.histLeftShelf
  | .left, .highPass => e.histLeftPass
  | .right, .highShelf => e.histRightShelf
  | .right, .highPass => e.histRightPass

/-- `S.h[ch][st] <- h` -/
def Engine.setHist (e : Engine) (ch : Channel) (st : Stage) (h : History) : Engine :=
  match ch, st with
  | .left, .highShelf => { e with histLeftShelf := h }
  | .left, .highPass => { e with histLeftPass := h }
  | .right, .highShelf => { e with histRightShelf := h }
  | .right, .highPass => { e with histRightPass := h }

/-- The window of meter `m` (R45). -/
def Engine.win (e : Engine) : MeterId → Window
  | .m0 => e.win0
  | .m1 => e.win1

/-- Replace the window of meter `m`. -/
def Engine.setWin (e : Engine) (m : MeterId) (w : Window) : Engine :=
  match m with
  | .m0 => { e with win0 := w }
  | .m1 => { e with win1 := w }

/-- The meter state of meter `m` (R46). -/
def Engine.mtr (e : Engine) : MeterId → Meter
  | .m0 => e.mtr0
  | .m1 => e.mtr1

/-- Replace the meter state of meter `m`. -/
def Engine.setMtr (e : Engine) (m : MeterId) (t : Meter) : Engine :=
  match m with
  | .m0 => { e with mtr0 := t }
  | .m1 => { e with mtr1 := t }

/-! ## The clears (R145, R158) -/

/-- The window part of `clearWindow`: every slot, the sum, the compensation term, the cursor and the
fill count become zero; the length is kept (R145). -/
def Window.clear (w : Window) : Window :=
  { W := w.W, buf := [], sum := 0#64, comp := 0#64, cur := 0#32, fill := 0#32 }

/-- The meter part of `clearWindow`: the decimation counter, the reading and the ready flag become
zero; the interval is kept (R145). -/
def Meter.clear (t : Meter) : Meter := { I := t.I, dc := 0#32, val := 0#64, valid := false }

/-- `clearWindow(m)` (R145). -/
def Engine.clearWindow (e : Engine) (m : MeterId) : Engine :=
  (e.setWin m (e.win m).clear).setMtr m (e.mtr m).clear

/-- `clearDelay()` (R145). -/
def Engine.clearDelay (e : Engine) : Engine := { e with dbuf := [], dcur := 0#32 }

/-- `limReset()` (R158), shared by LIM_RESET, a RESET_FLAG edge and a silence gap: the peak at the
limit, gain 1.0, both windows and meters cleared as by `clearWindow(0); clearWindow(1)`, the envelope
at `+0.0` and no signal seen. -/
def Engine.limReset (e : Engine) : Engine :=
  { e with
    win0 := e.win0.clear, win1 := e.win1.clear, mtr0 := e.mtr0.clear, mtr1 := e.mtr1.clear
    peak := e.L, gain := Config.one64, env := Config.zero64, seen := false }

/-! ## Cursor ranges (R52, R81) -/

/-- The window cursor of meter `m` names a slot the buffer has. -/
def Engine.cursorInRange (e : Engine) (m : MeterId) : Bool := (e.win m).cur.toNat < Config.WMAX

/-- The delay cursor after a step: it wraps at `D` (R260). -/
def delayNext (D dcur : Word) : Word := if dcur = D then 0#32 else dcur + 1#32

/-- Both slots a delay step touches, the one written and the one read, are slots the buffer has. -/
def Engine.delayInRange (e : Engine) : Bool :=
  e.dcur.toNat ≤ Config.DMAX && (delayNext e.D e.dcur).toNat ≤ Config.DMAX

/-! ## The window in the platform's address map (R80, R88) -/

/-- The platform address of a register offset: `JLC_BASE` is a multiple of 4096. -/
def platformAddress (off : Offset) : Nat := Config.jlcBasePage * 4096 + off.toNat

end Sys2Proof.Machine
end

