-- ==== Sys2Proof/Machine/Operands.lean ====
section
/-! DEFINITION. Machine/Operands.lean: operand assembly and result writing (R112, R113). -/

namespace Sys2Proof.Machine

/-- The binary64 operand `OPA`: all 64 bits (R112). -/
def opaF64 (s : State) : F64 := s.host.opa

/-- The binary32 operand `OPA`: `OPA[31:0]`, the upper half is ignored (R112). -/
def opaF32 (s : State) : F32 := s.host.opa.extractLsb' 0 32

/-- The binary32 operand `OPB`: `OPB[31:0]`, the upper half is ignored (R112). -/
def opbF32 (s : State) : F32 := s.host.opb.extractLsb' 0 32

/-- A binary64 result `bits64(v)` (R113). -/
def resultF64 (v : F64) : BitVec 64 := v

/-- A binary32 result `zext_64(bits32(x))` (R113). -/
def resultF32 (x : F32) : BitVec 64 := x.setWidth 64

/-- A flag result `zext_64(b)` (R113). -/
def resultFlag (b : Bool) : BitVec 64 := if b then 1#64 else 0#64

/-- Finish a command that leaves the engine at `e` and writes `RES0`; `RES1` keeps its value. -/
def finish0 (s : State) (e : Engine) (r0 : BitVec 64) : State :=
  { s with eng := e, host := { s.host with res0 := r0 } }

/-- Finish a command that leaves the engine at `e` and writes `RES0` and `RES1`. -/
def finish01 (s : State) (e : Engine) (r0 r1 : BitVec 64) : State :=
  { s with eng := e, host := { s.host with res0 := r0, res1 := r1 } }

/-- The input pair of PROCESS and DLY_ADD: `OPA[31:0]` and `OPB[31:0]` (R112). -/
def inputPair (s : State) : StereoSample := { l := opaF32 s, r := opbF32 s }

/-- Write back a sample: the engine and both result words (R281). -/
def finishPair (s : State) (x : Engine × StereoSample) : State :=
  finish01 s x.1 (resultF32 x.2.l) (resultF32 x.2.r)

end Sys2Proof.Machine
end

