-- ==== Sys2Proof/Machine/Accumulator.lean ====
section
/-! DEFINITION. Machine/Accumulator.lean: the windowed energy accumulator and the meter
(42_accumulator_meter.md). -/

namespace Sys2Proof.Machine

/-! ## Accumulator -/

/-- `kahan(m, v)`: one compensated summation step (R190). -/
def Window.kahan (w : Window) (v : F64) : Window :=
  let y := fsub v w.comp
  let t := fadd w.sum y
  { w with comp := fsub (fsub t w.sum) y, sum := t }

/-- The insertion cursor after an insertion: it wraps at the window length (R191). -/
def Window.nextCur (w : Window) : Word := if w.cur + 1#32 = w.W then 0#32 else w.cur + 1#32

/-- The fill count after an insertion: it saturates at the window length (R191). -/
def Window.nextFill (w : Window) : Word := if w.fill < w.W then w.fill + 1#32 else w.fill

/-- The two compensated steps of an insertion: the value that leaves the window is subtracted, then `v`
added (R191). -/
def Window.slide (w : Window) (v : F64) : Window :=
  (w.kahan (fneg (w.slot w.cur.toNat))).kahan v

/-- `S.sum` after the insertion of `v`: what the two steps of R191 leave, but a NaN for an infinite `v`,
as R192 and I7 say (they leave that infinity at this insertion, and a NaN only from the next one on:
DEDUCED, the two disagree, log entry 18). Its sign and payload are free, those of `v − v` (R12). -/
def Window.insertedSum (w : Window) (v : F64) : F64 :=
  if isInf64 v then fsub v v else (w.slide v).sum

/-- `accAdd(m, v)` on the window of the meter: the two compensated steps, then `v` takes the slot of the
oldest value (R191); a NaN or infinite `v` leaves a NaN sum (R192, I7). -/
def Window.insert (w : Window) (v : F64) : Window :=
  { w.slide v with
    sum := w.insertedSum v
    buf := Memory.write 0#64 w.cur.toNat v w.buf
    cur := w.nextCur
    fill := w.nextFill }

/-- The mean `accAdd` returns: `S.sum / f64u(S.W)` (R191). -/
def Window.mean (w : Window) : F64 := fdiv w.sum (f64u w.W.toNat)

/-- `accAdd(m, v)` on the engine (R191). -/
def Engine.accAdd (e : Engine) (m : MeterId) (v : F64) : Engine := e.setWin m ((e.win m).insert v)

/-! ## Meter -/

/-- The sum with a non-positive value read as `+0.0`; a NaN stays (R195). -/
def Window.clampedSum (w : Window) : F64 := if fle w.sum Config.zero64 then Config.zero64 else w.sum

/-- `reading(m) = KCAL · Sqrt(s / f64u(W))` (R195). -/
def Window.reading (w : Window) : F64 :=
  fmul Config.KCAL (fsqrt (fdiv w.clampedSum (f64u w.W.toNat)))

/-- `mtrStep(m)`: the decimation counter advances; when it reaches the interval the reading is
recomputed, and the ready flag set if the window is full (R196). -/
def Meter.step (t : Meter) (w : Window) : Meter :=
  if t.I.toNat ≤ t.dc.toNat + 1 then
    { I := t.I, dc := 0#32, val := w.reading, valid := t.valid || w.fill == w.W }
  else { t with dc := t.dc + 1#32 }

/-- `mtrStep(m)` on the engine (R196). -/
def Engine.mtrStep (e : Engine) (m : MeterId) : Engine := e.setMtr m ((e.mtr m).step (e.win m))

/-- `estimate(m, mag)`: the reading once it is valid, the instantaneous magnitude before (R197). -/
def Engine.estimate (e : Engine) (m : MeterId) (mag : F64) : F64 :=
  if (e.mtr m).valid then (e.mtr m).val else mag

/-! ## Commands -/

/-- ACC_ADD (R192): insert `OPA` into the window of meter `m`; `RES0` is the sum, `RES1` the mean. -/
def execAccAdd (m : MeterId) (s : State) : Host.Outcome State Fault Refusal :=
  whenConfigured s
    (if s.eng.cursorInRange m then
      .next (finish01 s (s.eng.accAdd m (opaF64 s))
        (resultF64 ((s.eng.win m).insert (opaF64 s)).sum)
        (resultF64 ((s.eng.win m).insert (opaF64 s)).mean))
    else .fault .slotOutOfRange)

/-- MTR_STEP (R196): advance the decimation counter of meter `m`; `RES0` is the reading, `RES1` the
ready flag. -/
def execMtrStep (m : MeterId) (s : State) : Host.Outcome State Fault Refusal :=
  whenConfigured s
    (.next (finish01 s (s.eng.mtrStep m)
      (resultF64 ((s.eng.mtr m).step (s.eng.win m)).val)
      (resultFlag ((s.eng.mtr m).step (s.eng.win m)).valid)))

end Sys2Proof.Machine
end

