-- ==== Sys2Proof/Machine/Delay.lean ====
section
/-! DEFINITION. Machine/Delay.lean: the look-ahead delay line (45_delay.md). -/

namespace Sys2Proof.Machine

/-- `dlyAdd(l, r)` on the engine: the pair is written at the cursor, the cursor advances (R260). -/
def Engine.dlyAdd (e : Engine) (p : StereoSample) : Engine :=
  { e with
    dbuf := Memory.write StereoSample.zero e.dcur.toNat p e.dbuf
    dcur := delayNext e.D e.dcur }

/-- The pair `dlyAdd(l, r)` returns: the one now at the cursor, bit for bit (R260, R262). -/
def Engine.dlyValue (e : Engine) (p : StereoSample) : StereoSample :=
  (e.dlyAdd p).delaySlot (e.dlyAdd p).dcur.toNat

/-- DLY_ADD (R261): one delay step with the pair in `OPA` and `OPB`; `RES0` and `RES1` are the
delayed pair. -/
def execDlyAdd (s : State) : Host.Outcome State Fault Refusal :=
  whenConfigured s
    (if s.eng.delayInRange then
      .next (finishPair s (s.eng.dlyAdd (inputPair s), s.eng.dlyValue (inputPair s)))
    else .fault .slotOutOfRange)

end Sys2Proof.Machine
end

