-- ==== Sys2Proof/Machine/Flags.lean ====
section
/-! DEFINITION. Machine/Flags.lean: the control, status and flag fields (R34, R35, R36, R40). -/

namespace Sys2Proof.Machine

/-! ## Control fields of the latched `S.ctrl` (R34) -/

/-- DUAL: both meters run. -/
def Engine.dual (e : Engine) : Bool := e.ctrl.getLsbD 0
/-- ENV_EN: the envelope smooths the estimate before the limiter. -/
def Engine.envEn (e : Engine) : Bool := e.ctrl.getLsbD 1
/-- ENV_MODEL: the exponential envelope. -/
def Engine.envModel (e : Engine) : Bool := e.ctrl.getLsbD 2
/-- HARD_EN: the hard output ceiling is applied. -/
def Engine.hardEn (e : Engine) : Bool := e.ctrl.getLsbD 3
/-- GATE_EN: silence gating. -/
def Engine.gateEn (e : Engine) : Bool := e.ctrl.getLsbD 4
/-- SILRST_EN: a silence gap performs the limiter reset. -/
def Engine.silrstEn (e : Engine) : Bool := e.ctrl.getLsbD 5
/-- METER_TAP: the meter path is fed the input-gained sample. -/
def Engine.meterTap (e : Engine) : Bool := e.ctrl.getLsbD 6

/-! ## Parameter flags (R40) -/

/-- `P_FLAGS[0]`, RESET_FLAG. -/
def HostRegs.resetFlag (h : HostRegs) : Bool := h.pFlags.getLsbD 0
/-- `P_FLAGS[1]`, INF_SUSTAIN. -/
def HostRegs.infSustain (h : HostRegs) : Bool := h.pFlags.getLsbD 1

/-! ## STATUS (R35, R36) -/

/-- The limiter states of R36. -/
inductive LimiterState where
  | cold | atLimit | tracking | infiniteSustain
  deriving DecidableEq, Repr

/-- The limiter state, a function of the engine (R36, R240). -/
def Engine.limiterState (e : Engine) : LimiterState :=
  if !e.cfg || (!e.sustain && !e.seen) then .cold
  else if e.sustain then .infiniteSustain
  else if fgt e.peak e.L then .tracking
  else .atLimit

/-- The encoding of the limiter state in `STATUS.LSTATE` (R36). -/
def LimiterState.code : LimiterState → BitVec 2
  | .cold => 0#2
  | .atLimit => 1#2
  | .tracking => 2#2
  | .infiniteSustain => 3#2

/-- `STATUS`, bits 9:8 LSTATE and one flag per bit below them; bits 31:10 are 0 (R35). -/
def statusWord (s : State) : Word :=
  (0#22 ++ s.eng.limiterState.code) ++
    ((BitVec.ofBool s.eng.muted ++ BitVec.ofBool s.eng.nf) ++
      (BitVec.ofBool (s.faults.fault != 0#5) ++ BitVec.ofBool s.eng.mtr1.valid) ++
      ((BitVec.ofBool s.eng.mtr0.valid ++ BitVec.ofBool s.eng.sustain) ++
        (BitVec.ofBool s.eng.seen ++ BitVec.ofBool s.eng.cfg)))

end Sys2Proof.Machine
end

