-- ==== Sys2Proof/Machine/Envelope.lean ====
section
/-! DEFINITION. Machine/Envelope.lean: the attack/release envelope (43_envelope.md). -/

namespace Sys2Proof.Machine

/-- Clamp a rising step at the target: `if r > T: r <- T` (R223, R224). -/
def clampAbove (r T : F64) : F64 := if fgt r T then T else r

/-- Clamp a falling step at the target: `if r < T: r <- T` (R223, R224). -/
def clampBelow (r T : F64) : F64 := if flt r T then T else r

/-- The floor `if r < EPS: r <- EPS` (R223, R224). -/
def floorEps (r : F64) : F64 := if flt r Config.EPS then Config.EPS else r

/-- The linear step `v + ((T − v) · c)`, one rounding per operator (R223, R11). A `+Infinity` target sets
the value to `+Infinity`, as R222 says, and so R225's `T = v` too, whatever the arithmetic of R223 gives (a
NaN for `c = +0.0` or `v = T`: DEDUCED, the rules disagree, log entry 19); a NaN value stays a NaN (R222).
With `c = +0.0`, the release coefficient of an infinite time (R19, R221), a difference of `-Infinity` makes
the step a NaN by R223: for a target of `-Infinity`, and for a finite target whose `T − v` overflows, where
R226 says the output is at least EPS (DESIGN CHOICE, log entry 20). -/
def linearStep (v c T : F64) : F64 :=
  if T = Config.inf64 ∧ isNaN64 v = false then T else fadd v (fmul (fsub T v) c)

/-- `envLinear(T)` from value `v` with attack and release coefficients (R223). The branch is chosen by
`T > v` alone, and `T = v` leaves the value at `T` unless `T` is below EPS (R225). -/
def envLinear (catt crel v T : F64) : F64 :=
  floorEps
    (if fgt T v then clampAbove (linearStep v catt T) T else clampBelow (linearStep v crel T) T)

/-- The clamp of the exponential release: like `clampBelow`, but a NaN target makes the value a NaN, as
R222 and vector V25 say (R224's pseudocode alone would keep `r`: DEDUCED, the two disagree, log entry 14).
Its sign and payload are free, those of `r + T` (R12). -/
def releaseTo (r T : F64) : F64 := if isNaN64 T then fadd r T else clampBelow r T

/-- `envExp(T)` from value `v` with rising and falling factors (R224): the value is raised to the floor
before the product. The branch is chosen by `T > v` alone, so a NaN target releases (R225), and makes the
value a NaN (R222). A value of `+Infinity` stays `+Infinity` through a finite target, since its product with
the falling factor is: R222 names a NaN there in the linear model, and I8, which refers to R222, names no
model (DEDUCED, log entry 21). -/
def envExp (cup cdown v T : F64) : F64 :=
  floorEps
    (if fgt T (floorEps v) then clampAbove (fmul (floorEps v) cup) T
    else releaseTo (fmul (floorEps v) cdown) T)

/-- The value `envStep(T)` returns and stores: the model `S.ctrl.ENV_MODEL` selects (R220). -/
def Engine.envValue (e : Engine) (T : F64) : F64 :=
  if e.envModel then envExp e.cup e.cdown e.env T else envLinear e.catt e.crel e.env T

/-- `envStep(T)` on the engine (R220). -/
def Engine.envStep (e : Engine) (T : F64) : Engine := { e with env := e.envValue T }

/-- ENV_CALC (R222): one envelope step towards `OPA`; `RES0` is the smoothed value. -/
def execEnvCalc (s : State) : Host.Outcome State Fault Refusal :=
  whenConfigured s
    (.next (finish0 s (s.eng.envStep (opaF64 s)) (resultF64 (s.eng.envValue (opaF64 s)))))

end Sys2Proof.Machine
end

