-- ==== Sys2Proof/Machine/Limiter.lean ====
section
/-! DEFINITION. Machine/Limiter.lean: the limiter transition (44_limiter.md). -/

namespace Sys2Proof.Machine

/-- The floor at the start of every update: `if S.peak < S.L: S.peak <- S.L` (R243). -/
def limFloor (L peak : F64) : F64 := if flt peak L then L else peak

/-- The peak after an update with estimate `e`: attack at once, release towards `max(e, L)` unless
sustained, or hold (R243). -/
def limPeak (L rf : F64) (sustain : Bool) (peak e : F64) : F64 :=
  if fgt e (limFloor L peak) then e
  else if flt e (limFloor L peak) && fgt (limFloor L peak) L && !sustain then
    maxsel (fmul (limFloor L peak) rf) (maxsel e L)
  else limFloor L peak

/-- The gain for a peak: `(S.peak > 0.0) ? (S.L / S.peak) : 1.0` (R243). -/
def limGain (L peak : F64) : F64 := if fgt peak Config.zero64 then fdiv L peak else Config.one64

/-- The peak `limUpdate(e)` returns and stores (R243). -/
def Engine.peakValue (e : Engine) (est : F64) : F64 := limPeak e.L e.rf e.sustain e.peak est

/-- The gain `limUpdate(e)` returns and stores (R243). -/
def Engine.gainValue (e : Engine) (est : F64) : F64 := limGain e.L (e.peakValue est)

/-- `limUpdate(e)` on the engine (R243). -/
def Engine.limUpdate (e : Engine) (est : F64) : Engine :=
  { e with peak := e.peakValue est, gain := e.gainValue est }

/-- LIM_UPDATE (R242): one limiter transition with estimate `OPA`; `RES0` is the gain, `RES1` the
peak. -/
def execLimUpdate (s : State) : Host.Outcome State Fault Refusal :=
  whenConfigured s
    (.next (finish01 s (s.eng.limUpdate (opaF64 s)) (resultF64 (s.eng.gainValue (opaF64 s)))
      (resultF64 (s.eng.peakValue (opaF64 s)))))

end Sys2Proof.Machine
end

