-- ==== Sys2Proof/Machine/Prefilter.lean ====
section
/-! DEFINITION. Machine/Prefilter.lean: the K-weighting prefilter (41_prefilter.md). -/

namespace Sys2Proof.Machine

/-- The output of one stage step: the five terms from left to right, one rounding each (R171). -/
def stageOutput (c : Coefs) (h : History) (x : F64) : F64 :=
  fsub (fsub (fadd (fadd (fmul c.b0 x) (fmul c.b1 h.x1)) (fmul c.b2 h.x2)) (fmul c.a1 h.y1))
    (fmul c.a2 h.y2)

/-- The history after a step with input `x` and output `y`: each pair shifts by one (R171). -/
def History.push (h : History) (x y : F64) : History := { x1 := x, x2 := h.x1, y1 := y, y2 := h.y1 }

/-- The output of `stage(ch, st, x)` (R171). -/
def Engine.stageValue (e : Engine) (ch : Channel) (st : Stage) (x : F64) : F64 :=
  stageOutput (e.coef st) (e.hist ch st) x

/-- The engine after `stage(ch, st, x)`: only `S.h[ch][st]` moves (R171, R173). -/
def Engine.stageStep (e : Engine) (ch : Channel) (st : Stage) (x : F64) : Engine :=
  e.setHist ch st ((e.hist ch st).push x (e.stageValue ch st x))

/-- The stage-1 output of the cascade: stage 0 feeds stage 1 (R173, R176). -/
def Engine.cascadeValue (e : Engine) (ch : Channel) (x : F64) : F64 :=
  (e.stageStep ch .highShelf x).stageValue ch .highPass (e.stageValue ch .highShelf x)

/-- The engine after the cascade of one channel (R176). -/
def Engine.cascadeStep (e : Engine) (ch : Channel) (x : F64) : Engine :=
  (e.stageStep ch .highShelf x).stageStep ch .highPass (e.stageValue ch .highShelf x)

/-- PF_STAGE (R175): one stage of one channel; `RES0` is its output. -/
def execPfStage (ch : Channel) (st : Stage) (s : State) : Host.Outcome State Fault Refusal :=
  whenConfigured s
    (.next (finish0 s (s.eng.stageStep ch st (opaF64 s))
      (resultF64 (s.eng.stageValue ch st (opaF64 s)))))

/-- PF_APPLY (R176): the two-stage cascade of one channel; `RES0` is the weighted sample, `RES1` the
stage-0 output. -/
def execPfApply (ch : Channel) (s : State) : Host.Outcome State Fault Refusal :=
  whenConfigured s
    (.next (finish01 s (s.eng.cascadeStep ch (opaF64 s))
      (resultF64 (s.eng.cascadeValue ch (opaF64 s)))
      (resultF64 (s.eng.stageValue ch .highShelf (opaF64 s)))))

end Sys2Proof.Machine
end

