-- ==== Sys2Proof/Laws/Rounding.lean ====
section
/-! SUPPORT. Laws/Rounding.lean: the rounding of natural magnitudes is monotone and exact on
representable values. The two facts at the end (`roundNearest_le` and `le_roundNearest`) say all that
later proofs need: a rounded value never crosses a representable one. -/

namespace Sys2Proof.Machine

/-- One quantum's rounding: the quotient, and one more when the remainder rounds up. -/
theorem roundQuotient_mono {a b d : Nat} (h : a ≤ b) :
    a / d + (roundsUp (a / d) (a % d) d).toNat ≤ b / d + (roundsUp (b / d) (b % d) d).toNat := by
  have hq : a / d ≤ b / d := Nat.div_le_div_right h
  rcases Nat.lt_or_ge (a / d) (b / d) with hlt | hge
  · have : (roundsUp (a / d) (a % d) d).toNat ≤ 1 := Bool.toNat_le _
    omega
  · have heq : a / d = b / d := le_antisymm hq hge
    have hr : a % d ≤ b % d := by
      have ha := Nat.div_add_mod a d
      have hb := Nat.div_add_mod b d
      rw [heq] at ha
      omega
    rw [heq]
    refine Nat.add_le_add_left ?_ _
    unfold roundsUp
    rcases Nat.lt_or_ge d (2 * (b % d)) with h1 | h1
    · simp [h1]; exact Bool.toNat_le _
    · have h2 : ¬ d < 2 * (a % d) := by omega
      rcases Nat.lt_or_ge (2 * (a % d)) d with h3 | h3
      · have h4 : (2 * (a % d) == d) = false := by simp; omega
        simp [h2, h4]
      · have h5 : 2 * (a % d) = d := by omega
        have h6 : 2 * (b % d) = d := by omega
        simp [h5, h6]

theorem roundsUp_zero {m d : Nat} (hd : 0 < d) : roundsUp m 0 d = false := by
  simp [roundsUp]; omega

/-- The exponent step puts the significand of a value of `q` units into the significand's range. -/
theorem roundShift_range (frac q : Nat) :
    q / 2 ^ roundShift frac q < 2 ^ (frac + 1) ∧
      (roundShift frac q ≠ 0 → 2 ^ frac ≤ q / 2 ^ roundShift frac q) := by
  unfold roundShift
  split
  · simp_all
  · next h =>
    have hq : 2 ^ (frac + 1) ≤ q := by omega
    have hq0 : q ≠ 0 := by have := Nat.two_pow_pos (frac + 1); omega
    have hlog : frac + 1 ≤ Nat.log2 q := (Nat.le_log2 hq0).mpr hq
    have hlo : 2 ^ Nat.log2 q ≤ q := Nat.log2_self_le hq0
    have hhi : q < 2 ^ (Nat.log2 q + 1) := Nat.lt_log2_self
    refine ⟨?_, fun _ => ?_⟩
    · refine (Nat.div_lt_iff_lt_mul (Nat.two_pow_pos _)).mpr ?_
      rw [← pow_add]
      have : frac + 1 + (Nat.log2 q - frac) = Nat.log2 q + 1 := by omega
      rwa [this]
    · refine (Nat.le_div_iff_mul_le (Nat.two_pow_pos _)).mpr ?_
      rw [← pow_add]
      have : frac + (Nat.log2 q - frac) = Nat.log2 q := by omega
      rwa [this]

theorem roundShift_mono {frac p q : Nat} (h : p ≤ q) : roundShift frac p ≤ roundShift frac q := by
  unfold roundShift
  split
  · exact Nat.zero_le _
  · next hp =>
    have hq0 : q ≠ 0 := by have := Nat.two_pow_pos (frac + 1); omega
    have hp0 : p ≠ 0 := by have := Nat.two_pow_pos (frac + 1); omega
    rw [if_neg (by omega)]
    have : Nat.log2 p ≤ Nat.log2 q :=
      (Nat.le_log2 hq0).mpr (le_trans (Nat.log2_self_le hp0) h)
    omega

/-- The rounded magnitude before it is capped at infinity. -/
def roundUncapped (frac num den : Nat) : Nat :=
  roundShift frac (num / den) * 2 ^ frac + (num / (den * 2 ^ roundShift frac (num / den)) +
    (roundsUp (num / (den * 2 ^ roundShift frac (num / den)))
      (num % (den * 2 ^ roundShift frac (num / den)))
      (den * 2 ^ roundShift frac (num / den))).toNat)

theorem roundNearest_eq (frac inf num den : Nat) :
    roundNearest frac inf num den = min inf (roundUncapped frac num den) := by
  simp only [roundNearest, roundUncapped, Nat.add_assoc]

theorem roundUncapped_mono {frac a b den : Nat} (h : a ≤ b) :
    roundUncapped frac a den ≤ roundUncapped frac b den := by
  have hq : a / den ≤ b / den := Nat.div_le_div_right h
  have hsh := roundShift_mono (frac := frac) hq
  obtain ⟨ha1, _⟩ := roundShift_range frac (a / den)
  obtain ⟨_, hb2⟩ := roundShift_range frac (b / den)
  rw [Nat.div_div_eq_div_mul] at ha1 hb2
  unfold roundUncapped
  rcases Nat.lt_or_ge (roundShift frac (a / den)) (roundShift frac (b / den)) with hlt | hge
  · have hb := hb2 (by omega)
    have hup := Bool.toNat_le (roundsUp (a / (den * 2 ^ roundShift frac (a / den)))
      (a % (den * 2 ^ roundShift frac (a / den))) (den * 2 ^ roundShift frac (a / den)))
    have hmul : (roundShift frac (a / den) + 1) * 2 ^ frac ≤
        roundShift frac (b / den) * 2 ^ frac := Nat.mul_le_mul_right _ hlt
    rw [Nat.add_mul, Nat.one_mul] at hmul
    rw [pow_succ] at ha1
    omega
  · have heq := le_antisymm hsh hge
    rw [heq]
    exact Nat.add_le_add_left
      (roundQuotient_mono h) _

/-- A representable value rounds to itself. -/
theorem roundUncapped_unitsOf (frac mag den : Nat) (hd : 0 < den) :
    roundUncapped frac (unitsOf frac mag * den) den = mag := by
  have hp := Nat.two_pow_pos frac
  have hdiv : unitsOf frac mag * den / den = unitsOf frac mag := Nat.mul_div_cancel _ hd
  have key : ∀ sh m, unitsOf frac mag = m * 2 ^ sh → roundShift frac (unitsOf frac mag) = sh →
      sh * 2 ^ frac + m = mag → roundUncapped frac (unitsOf frac mag * den) den = mag := by
    intro sh m hu hs hm
    unfold roundUncapped
    have hdp : 0 < den * 2 ^ sh := Nat.mul_pos hd (Nat.two_pow_pos _)
    have hval : unitsOf frac mag * den = m * (den * 2 ^ sh) := by rw [hu]; ring
    have h1 : unitsOf frac mag * den / (den * 2 ^ sh) = m := by
      rw [hval]; exact Nat.mul_div_cancel _ hdp
    have h2 : unitsOf frac mag * den % (den * 2 ^ sh) = 0 := by
      rw [hval]; exact Nat.mul_mod_left _ _
    rw [hdiv, hs, h1, h2, roundsUp_zero hdp]
    simpa using hm
  have hdm := Nat.div_add_mod mag (2 ^ frac)
  have hmod := Nat.mod_lt mag hp
  by_cases he : mag / 2 ^ frac = 0
  · refine key 0 mag (by simp [unitsOf, he]) ?_ (by simp)
    have hu : unitsOf frac mag = mag := by simp [unitsOf, he]
    have : mag < 2 ^ frac := by rw [he] at hdm; omega
    rw [hu, roundShift, if_pos]
    rw [pow_succ]; omega
  · obtain ⟨k, hk⟩ := Nat.exists_eq_succ_of_ne_zero he
    have hu : unitsOf frac mag = (2 ^ frac + mag % 2 ^ frac) * 2 ^ k := by
      simp [unitsOf, hk]
    rw [hk, Nat.succ_eq_add_one, Nat.mul_add, Nat.mul_one] at hdm
    refine key k (2 ^ frac + mag % 2 ^ frac) hu ?_ ?_
    · rw [hu, roundShift]
      cases k with
      | zero =>
        rw [if_pos]
        rw [pow_succ]; simp; omega
      | succ k =>
        have hne : (2 ^ frac + mag % 2 ^ frac) * 2 ^ (k + 1) ≠ 0 :=
          Nat.mul_ne_zero (by omega) (by positivity)
        have hlog : Nat.log2 ((2 ^ frac + mag % 2 ^ frac) * 2 ^ (k + 1)) = frac + (k + 1) := by
          refine le_antisymm ?_ ?_
          · refine Nat.le_of_lt_succ ((Nat.log2_lt hne).mpr ?_)
            have h1 : Nat.succ (frac + (k + 1)) = (frac + 1) + (k + 1) := by omega
            rw [h1, pow_add 2 (frac + 1)]
            refine Nat.mul_lt_mul_of_pos_right ?_ (Nat.two_pow_pos _)
            rw [pow_succ]; omega
          · refine (Nat.le_log2 hne).mpr ?_
            rw [pow_add]
            exact Nat.mul_le_mul_right _ (by omega)
        rw [if_neg, hlog]
        · omega
        · rw [Nat.not_lt]
          calc 2 ^ (frac + 1) = 2 ^ frac * 2 ^ 1 := by rw [pow_succ, pow_one]
            _ ≤ (2 ^ frac + mag % 2 ^ frac) * 2 ^ (k + 1) :=
              Nat.mul_le_mul (by omega) (Nat.pow_le_pow_right (by omega) (by omega))
    · rw [Nat.mul_comm k]; omega

/-- Rounding to nearest of a representable value, finite or beyond, is exact. -/
theorem roundNearest_unitsOf {frac inf mag den : Nat} (hd : 0 < den) (h : mag ≤ inf) :
    roundNearest frac inf (unitsOf frac mag * den) den = mag := by
  rw [roundNearest_eq, roundUncapped_unitsOf frac mag den hd, min_eq_right h]

theorem roundNearest_mono {frac inf a b den : Nat} (h : a ≤ b) :
    roundNearest frac inf a den ≤ roundNearest frac inf b den := by
  rw [roundNearest_eq, roundNearest_eq]
  exact min_le_min_left _ (roundUncapped_mono h)

/-- A value at or below a representable one rounds at or below it. -/
theorem roundNearest_le {frac inf mag num den : Nat} (hd : 0 < den) (hm : mag ≤ inf)
    (h : num ≤ unitsOf frac mag * den) : roundNearest frac inf num den ≤ mag :=
  le_trans (roundNearest_mono h) (le_of_eq (roundNearest_unitsOf hd hm))

/-- A value at or above a representable one rounds at or above it. -/
theorem le_roundNearest {frac inf mag num den : Nat} (hd : 0 < den) (hm : mag ≤ inf)
    (h : unitsOf frac mag * den ≤ num) : mag ≤ roundNearest frac inf num den :=
  le_trans (le_of_eq (roundNearest_unitsOf hd hm).symm) (roundNearest_mono h)

theorem roundNearest_le_inf (frac inf num den : Nat) : roundNearest frac inf num den ≤ inf := by
  rw [roundNearest_eq]; exact min_le_left _ _

/-- Magnitudes are ordered as their values. -/
theorem unitsOf_strictMono (frac : Nat) : StrictMono (unitsOf frac) := by
  refine strictMono_nat_of_lt_succ (fun n => ?_)
  have hp := Nat.two_pow_pos frac
  have hdm := Nat.div_add_mod n (2 ^ frac)
  have hmod := Nat.mod_lt n hp
  by_cases hlast : n % 2 ^ frac + 1 = 2 ^ frac
  · have hdiv : (n + 1) / 2 ^ frac = n / 2 ^ frac + 1 := by
      have : n + 1 = 2 ^ frac * (n / 2 ^ frac + 1) := by rw [Nat.mul_add]; omega
      rw [this, Nat.mul_div_cancel_left _ hp]
    have hmod' : (n + 1) % 2 ^ frac = 0 := by
      have : n + 1 = 2 ^ frac * (n / 2 ^ frac + 1) := by rw [Nat.mul_add]; omega
      rw [this]; exact Nat.mul_mod_right _ _
    unfold unitsOf
    rw [hdiv, hmod']
    by_cases he : n / 2 ^ frac = 0
    · simp only [he]
      rw [he] at hdm
      simp; omega
    · obtain ⟨k, hk⟩ := Nat.exists_eq_succ_of_ne_zero he
      simp only [hk, Nat.succ_eq_add_one]
      simp only [Nat.add_one_ne_zero, if_false, Nat.add_sub_cancel, Nat.add_zero]
      rw [pow_succ, Nat.mul_comm (2 ^ k) 2, ← Nat.mul_assoc]
      exact Nat.mul_lt_mul_of_pos_right (by omega) (Nat.two_pow_pos _)
  · have hlt : n % 2 ^ frac + 1 < 2 ^ frac := by omega
    have hdiv : (n + 1) / 2 ^ frac = n / 2 ^ frac := by
      have : n + 1 = (n % 2 ^ frac + 1) + 2 ^ frac * (n / 2 ^ frac) := by omega
      rw [this, Nat.add_mul_div_left _ _ hp, Nat.div_eq_of_lt hlt, Nat.zero_add]
    have hmod' : (n + 1) % 2 ^ frac = n % 2 ^ frac + 1 := by
      have : n + 1 = (n % 2 ^ frac + 1) + 2 ^ frac * (n / 2 ^ frac) := by omega
      rw [this, Nat.add_mul_mod_self_left, Nat.mod_eq_of_lt hlt]
    unfold unitsOf
    rw [hdiv, hmod']
    by_cases he : n / 2 ^ frac = 0
    · simp [he]
    · simp only [he, if_false]
      exact Nat.mul_lt_mul_of_pos_right (by omega) (Nat.two_pow_pos _)

end Sys2Proof.Machine
end

