-- ==== Sys2Proof/Laws/Binary64.lean ====
section
/-! SUPPORT. Laws/Binary64.lean: the small facts of the arithmetic, stated once: fields of a built
value, classification, order, and the bounds a rounded result keeps. -/

namespace Sys2Proof.Machine

/-! ## Building and taking apart a bit pattern -/

theorem mag64_lt (x : F64) : mag64 x < 2 ^ 63 := Nat.mod_lt _ (by norm_num)
theorem mag32_lt (x : F32) : mag32 x < 2 ^ 31 := Nat.mod_lt _ (by norm_num)

theorem infMag64_lt : infMag64 < 2 ^ 63 := by norm_num [infMag64]
theorem infMag32_lt : infMag32 < 2 ^ 31 := by norm_num [infMag32]

theorem sign64_eq (x : F64) : sign64 x = decide (2 ^ 63 ≤ x.toNat) := by
  rw [sign64, ← BitVec.msb_eq_getLsbD_last, BitVec.msb_eq_decide]

theorem sign32_eq (x : F32) : sign32 x = decide (2 ^ 31 ≤ x.toNat) := by
  rw [sign32, ← BitVec.msb_eq_getLsbD_last, BitVec.msb_eq_decide]

theorem toNat_make64 (s : Bool) {m : Nat} (h : m < 2 ^ 63) :
    (make64 s m).toNat = m + if s then 2 ^ 63 else 0 := by
  rw [make64, BitVec.toNat_ofNat, Nat.mod_eq_of_lt]
  split <;> omega

theorem toNat_make32 (s : Bool) {m : Nat} (h : m < 2 ^ 31) :
    (make32 s m).toNat = m + if s then 2 ^ 31 else 0 := by
  rw [make32, BitVec.toNat_ofNat, Nat.mod_eq_of_lt]
  split <;> omega

theorem mag64_make64 (s : Bool) {m : Nat} (h : m < 2 ^ 63) : mag64 (make64 s m) = m := by
  rw [mag64, toNat_make64 s h]; split <;> omega

theorem sign64_make64 (s : Bool) {m : Nat} (h : m < 2 ^ 63) : sign64 (make64 s m) = s := by
  rw [sign64_eq, toNat_make64 s h]; cases s <;> simp; omega

theorem mag32_make32 (s : Bool) {m : Nat} (h : m < 2 ^ 31) : mag32 (make32 s m) = m := by
  rw [mag32, toNat_make32 s h]; split <;> omega

theorem sign32_make32 (s : Bool) {m : Nat} (h : m < 2 ^ 31) : sign32 (make32 s m) = s := by
  rw [sign32_eq, toNat_make32 s h]; cases s <;> simp; omega

/-- A binary64 is its sign and its magnitude. -/
theorem make64_sign_mag (x : F64) : make64 (sign64 x) (mag64 x) = x := by
  apply BitVec.eq_of_toNat_eq
  rw [toNat_make64 _ (mag64_lt x), sign64_eq, mag64]
  have := x.isLt
  by_cases h : 2 ^ 63 ≤ x.toNat
  · rw [if_pos (by simpa using h)]; omega
  · rw [if_neg (by simpa using h)]; omega

/-- A binary32 is its sign and its magnitude. -/
theorem make32_sign_mag (x : F32) : make32 (sign32 x) (mag32 x) = x := by
  apply BitVec.eq_of_toNat_eq
  rw [toNat_make32 _ (mag32_lt x), sign32_eq, mag32]
  have := x.isLt
  by_cases h : 2 ^ 31 ≤ x.toNat
  · rw [if_pos (by simpa using h)]; omega
  · rw [if_neg (by simpa using h)]; omega

theorem ext64 {x y : F64} (hs : sign64 x = sign64 y) (hm : mag64 x = mag64 y) : x = y := by
  rw [← make64_sign_mag x, ← make64_sign_mag y, hs, hm]

theorem mag64_eq_setWidth (x : F64) : mag64 x = (x.setWidth 63).toNat := by
  rw [mag64, BitVec.toNat_setWidth]

@[simp] theorem mag64_fneg (x : F64) : mag64 (fneg x) = mag64 x := by
  have h : (0x8000000000000000#64).setWidth 63 = 0#63 := by decide
  rw [mag64_eq_setWidth, mag64_eq_setWidth, fneg, BitVec.setWidth_xor, h, BitVec.xor_zero]

@[simp] theorem sign64_fneg (x : F64) : sign64 (fneg x) = !sign64 x := by
  have h : (0x8000000000000000#64).getLsbD 63 = true := by decide
  rw [sign64, fneg, BitVec.getLsbD_xor, h, sign64, Bool.xor_true]

theorem fneg_eq (x : F64) : fneg x = make64 (!sign64 x) (mag64 x) := by
  refine ext64 ?_ ?_
  · rw [sign64_fneg, sign64_make64 _ (mag64_lt x)]
  · rw [mag64_fneg, mag64_make64 _ (mag64_lt x)]

@[simp] theorem isNaN64_fneg (x : F64) : isNaN64 (fneg x) = isNaN64 x := by simp [isNaN64]
@[simp] theorem units64_fneg (x : F64) : units64 (fneg x) = units64 x := by simp [units64]

theorem fabs_eq (x : F64) : fabs x = make64 false (mag64 x) := by
  apply BitVec.eq_of_toNat_eq
  rw [toNat_make64 _ (mag64_lt x), fabs, mag64, BitVec.toNat_and]
  have : (0x7FFFFFFFFFFFFFFF#64 : BitVec 64).toNat = 2 ^ 63 - 1 := by decide
  rw [this, Nat.and_two_pow_sub_one_eq_mod]; simp

@[simp] theorem mag64_fabs (x : F64) : mag64 (fabs x) = mag64 x := by
  rw [fabs_eq, mag64_make64 _ (mag64_lt x)]
@[simp] theorem sign64_fabs (x : F64) : sign64 (fabs x) = false := by
  rw [fabs_eq, sign64_make64 _ (mag64_lt x)]
@[simp] theorem isNaN64_fabs (x : F64) : isNaN64 (fabs x) = isNaN64 x := by simp [isNaN64]

/-! ## Classification -/

theorem isNaN64_iff {x : F64} : isNaN64 x = true ↔ infMag64 < mag64 x := by simp [isNaN64]
theorem isNaN64_false {x : F64} : isNaN64 x = false ↔ mag64 x ≤ infMag64 := by simp [isNaN64]
theorem isFinite64_iff {x : F64} : isFinite64 x = true ↔ mag64 x < infMag64 := by
  simp [isFinite64]

theorem isNaN64_of_finite {x : F64} (h : isFinite64 x = true) : isNaN64 x = false := by
  rw [isNaN64_false]; rw [isFinite64_iff] at h; omega

theorem isInf64_of_finite {x : F64} (h : isFinite64 x = true) : isInf64 x = false := by
  rw [isFinite64_iff] at h; simp [isInf64]; omega

/-- A NaN result is a quiet NaN: the top fraction bit is set (R12). -/
theorem mag64_quietNaN64 (op : FpOp) (a b : F64) :
    mag64 (quietNaN64 op a b) = infMag64 + 2 ^ 51 + (Config.nanBits64 op a b).toNat % 2 ^ 51 := by
  rw [quietNaN64, mag64_make64]
  have := Nat.mod_lt (Config.nanBits64 op a b).toNat (show 0 < 2 ^ 51 by norm_num)
  norm_num [infMag64] at *; omega

@[simp] theorem isNaN64_quietNaN64 (op : FpOp) (a b : F64) :
    isNaN64 (quietNaN64 op a b) = true := by
  rw [isNaN64_iff, mag64_quietNaN64]; omega

@[simp] theorem isNaN32_quietNaN32 (v : F64) : isNaN32 (quietNaN32 v) = true := by
  have := Nat.mod_lt (Config.nanBits32 v).toNat (show 0 < 2 ^ 22 by norm_num)
  rw [isNaN32, quietNaN32, mag32_make32]
  · simp; omega
  · norm_num [infMag32] at *; omega

@[simp] theorem isNaN64_make64 (s : Bool) {m : Nat} (h : m ≤ infMag64) :
    isNaN64 (make64 s m) = false := by
  rw [isNaN64_false, mag64_make64 s (lt_of_le_of_lt h infMag64_lt)]; exact h

theorem mag64_round64 (s : Bool) (num den : Nat) :
    mag64 (round64 s num den) = roundNearest 52 infMag64 num den :=
  mag64_make64 s (lt_of_le_of_lt (roundNearest_le_inf ..) infMag64_lt)

theorem sign64_round64 (s : Bool) (num den : Nat) : sign64 (round64 s num den) = s :=
  sign64_make64 s (lt_of_le_of_lt (roundNearest_le_inf ..) infMag64_lt)

/-- A rounded finite result is never a NaN. -/
@[simp] theorem isNaN64_round64 (s : Bool) (num den : Nat) : isNaN64 (round64 s num den) = false :=
  isNaN64_make64 s (roundNearest_le_inf ..)

/-! ## Order -/

theorem flt_iff {a b : F64} :
    flt a b = true ↔ isNaN64 a = false ∧ isNaN64 b = false ∧ orderKey a < orderKey b := by
  simp [flt, ordered, and_assoc]

theorem fle_iff {a b : F64} :
    fle a b = true ↔ isNaN64 a = false ∧ isNaN64 b = false ∧ orderKey a ≤ orderKey b := by
  simp [fle, ordered, and_assoc]

theorem fgt_iff {a b : F64} :
    fgt a b = true ↔ isNaN64 a = false ∧ isNaN64 b = false ∧ orderKey b < orderKey a := by
  rw [fgt, flt_iff]; tauto

theorem fge_iff {a b : F64} :
    fge a b = true ↔ isNaN64 a = false ∧ isNaN64 b = false ∧ orderKey b ≤ orderKey a := by
  rw [fge, fle_iff]; tauto

theorem flt_false {a b : F64} (ha : isNaN64 a = false) (hb : isNaN64 b = false) :
    flt a b = false ↔ orderKey b ≤ orderKey a := by
  rw [← Bool.not_eq_true, flt_iff]; simp [ha, hb]

theorem fgt_false {a b : F64} (ha : isNaN64 a = false) (hb : isNaN64 b = false) :
    fgt a b = false ↔ orderKey a ≤ orderKey b := by
  rw [fgt, flt_false hb ha]

theorem flt_nan_left {a b : F64} (h : isNaN64 a = true) : flt a b = false := by
  simp [flt, ordered, h]
theorem flt_nan_right {a b : F64} (h : isNaN64 b = true) : flt a b = false := by
  simp [flt, ordered, h]
theorem fle_nan_left {a b : F64} (h : isNaN64 a = true) : fle a b = false := by
  simp [fle, ordered, h]
theorem fle_nan_right {a b : F64} (h : isNaN64 b = true) : fle a b = false := by
  simp [fle, ordered, h]

/-- What `maxsel` does, once. -/
theorem maxsel_cases (a b : F64) :
    (maxsel a b = a ∧ fgt a b = true) ∨ (maxsel a b = b ∧ fgt a b = false) := by
  unfold maxsel; cases fgt a b <;> simp

/-- What `minsel` does, once. -/
theorem minsel_cases (a b : F64) :
    (minsel a b = a ∧ flt a b = true) ∨ (minsel a b = b ∧ flt a b = false) := by
  unfold minsel; cases flt a b <;> simp

theorem orderKey_make64 (s : Bool) {m : Nat} (h : m < 2 ^ 63) :
    orderKey (make64 s m) = if s then -(m : Int) else m := by
  rw [orderKey, sign64_make64 s h, mag64_make64 s h]

@[simp] theorem orderKey_fneg (x : F64) : orderKey (fneg x) = -orderKey x := by
  rw [orderKey, orderKey, sign64_fneg, mag64_fneg]; cases sign64 x <;> simp

theorem orderKey_round64 (s : Bool) (num den : Nat) : orderKey (round64 s num den) =
    if s then -(roundNearest 52 infMag64 num den : Int) else roundNearest 52 infMag64 num den := by
  rw [orderKey, sign64_round64, mag64_round64]

/-- Finite values are ordered as their units. -/
theorem orderKey_le_iff_units {a b : F64} :
    orderKey a ≤ orderKey b ↔ signedUnits64 a ≤ signedUnits64 b := by
  have hm := (unitsOf_strictMono 52)
  have h1 := hm.le_iff_le (a := mag64 a) (b := mag64 b)
  have h2 := hm.le_iff_le (a := mag64 b) (b := mag64 a)
  have h3 := hm.le_iff_le (a := 0) (b := mag64 b)
  have h0 : unitsOf 52 0 = 0 := by simp [unitsOf]
  have ha : mag64 a = 0 ↔ unitsOf 52 (mag64 a) = 0 := by
    rw [← h0]; exact hm.injective.eq_iff.symm
  have hb : mag64 b = 0 ↔ unitsOf 52 (mag64 b) = 0 := by
    rw [← h0]; exact hm.injective.eq_iff.symm
  unfold orderKey signedUnits64 units64
  cases sign64 a <;> cases sign64 b <;> simp <;> omega

theorem orderKey_lt_iff_units {a b : F64} :
    orderKey a < orderKey b ↔ signedUnits64 a < signedUnits64 b := by
  rw [← not_le, ← not_le, orderKey_le_iff_units]

/-! ## Bounds that a rounded result keeps -/

theorem units_zero : unitsOf 52 0 = 0 := by simp [unitsOf]

/-- The key of a rounded signed number of units stays at or below a representable bound. -/
theorem round_signed_le {s : Bool} {t : Int} {c : F64} (hc : mag64 c ≤ infMag64)
    (hs : t < 0 → s = true) (hp : 0 < t → s = false)
    (h : t ≤ signedUnits64 c) : orderKey (round64 s t.natAbs 1) ≤ orderKey c := by
  rw [orderKey_round64]
  have hz : roundNearest 52 infMag64 0 1 = 0 := by
    have := roundNearest_unitsOf (frac := 52) (inf := infMag64) (mag := 0) (den := 1) one_pos
      (Nat.zero_le _)
    simpa [units_zero] using this
  unfold signedUnits64 units64 at h
  unfold orderKey
  rcases lt_trichotomy t 0 with ht | ht | ht
  · rw [hs ht]
    cases hcs : sign64 c
    · simp
    · rw [hcs] at h
      have := le_roundNearest (frac := 52) (inf := infMag64) (mag := mag64 c) (num := t.natAbs)
        (den := 1) one_pos hc (by simp at h; omega)
      simp; omega
  · subst ht
    simp only [Int.natAbs_zero, hz]
    cases hcs : sign64 c
    · cases s <;> simp
    · rw [hcs] at h
      have hz0 : unitsOf 52 (mag64 c) = 0 := by simp at h; omega
      have : mag64 c = 0 := by
        have := (unitsOf_strictMono 52).injective (hz0.trans units_zero.symm)
        exact this
      simp [this]
  · rw [hp ht]
    cases hcs : sign64 c
    · rw [hcs] at h
      have := roundNearest_le (frac := 52) (inf := infMag64) (mag := mag64 c) (num := t.natAbs)
        (den := 1) one_pos hc (by simp at h; omega)
      simp; omega
    · rw [hcs] at h; simp at h; omega

/-- The key of a rounded signed number of units stays at or above a representable bound. -/
theorem le_round_signed {s : Bool} {t : Int} {c : F64} (hc : mag64 c ≤ infMag64)
    (hs : t < 0 → s = true) (hp : 0 < t → s = false)
    (h : signedUnits64 c ≤ t) : orderKey c ≤ orderKey (round64 s t.natAbs 1) := by
  have h1 := round_signed_le (s := !s) (t := -t) (c := fneg c) (by simpa using hc)
    (fun hlt => by rw [hp (by omega)]; rfl) (fun hgt => by rw [hs (by omega)]; rfl)
    (by
      unfold signedUnits64 at h ⊢
      rw [sign64_fneg, units64_fneg]
      cases hcs : sign64 c <;> rw [hcs] at h <;> simp at h ⊢ <;> omega)
  rw [Int.natAbs_neg, orderKey_round64, orderKey_fneg] at h1
  rw [orderKey_round64]
  cases s <;> simp at h1 ⊢ <;> omega

/-- A finite sum is the rounding of the exact sum. -/
theorem fadd_finite {a b : F64} (ha : isFinite64 a = true) (hb : isFinite64 b = true) :
    fadd a b = addFinite a b := by
  simp [fadd, addCore, isNaN64_of_finite ha, isNaN64_of_finite hb, isInf64_of_finite ha,
    isInf64_of_finite hb]

theorem isFinite64_fneg (x : F64) : isFinite64 (fneg x) = isFinite64 x := by simp [isFinite64]

/-- A finite difference is the rounding of the exact difference. -/
theorem fsub_finite {a b : F64} (ha : isFinite64 a = true) (hb : isFinite64 b = true) :
    fsub a b = addFinite a (fneg b) := by
  have hb' : isFinite64 (fneg b) = true := by rw [isFinite64_fneg]; exact hb
  simp [fsub, addCore, isNaN64_of_finite ha, isNaN64_of_finite hb, isInf64_of_finite ha,
    isInf64_of_finite hb']

theorem addFinite_sign_neg {a b : F64} (h : signedUnits64 a + signedUnits64 b < 0) :
    (if signedUnits64 a + signedUnits64 b = 0 then sign64 a && sign64 b
      else decide (signedUnits64 a + signedUnits64 b < 0)) = true := by
  rw [if_neg (by omega)]; simpa using h

theorem addFinite_sign_pos {a b : F64} (h : 0 < signedUnits64 a + signedUnits64 b) :
    (if signedUnits64 a + signedUnits64 b = 0 then sign64 a && sign64 b
      else decide (signedUnits64 a + signedUnits64 b < 0)) = false := by
  rw [if_neg (by omega)]; simp; omega

/-- A rounded sum never rises above a value that the exact sum does not exceed. -/
theorem addFinite_le {a b c : F64} (hc : isNaN64 c = false)
    (h : signedUnits64 a + signedUnits64 b ≤ signedUnits64 c) :
    orderKey (addFinite a b) ≤ orderKey c :=
  round_signed_le (isNaN64_false.mp hc) addFinite_sign_neg addFinite_sign_pos h

/-- A rounded sum never falls below a value that the exact sum reaches. -/
theorem le_addFinite {a b c : F64} (hc : isNaN64 c = false)
    (h : signedUnits64 c ≤ signedUnits64 a + signedUnits64 b) :
    orderKey c ≤ orderKey (addFinite a b) :=
  le_round_signed (isNaN64_false.mp hc) addFinite_sign_neg addFinite_sign_pos h

@[simp] theorem isNaN64_addFinite (a b : F64) : isNaN64 (addFinite a b) = false :=
  isNaN64_round64 ..

/-- A finite product is the rounding of the exact product. -/
theorem fmul_finite {a b : F64} (ha : isFinite64 a = true) (hb : isFinite64 b = true) :
    fmul a b = round64 (sign64 a != sign64 b) (units64 a * units64 b) unitsPerOne := by
  simp [fmul, isNaN64_of_finite ha, isNaN64_of_finite hb, isInf64_of_finite ha,
    isInf64_of_finite hb]

/-- A finite quotient by a non-zero value is the rounding of the exact quotient. -/
theorem fdiv_finite {a b : F64} (ha : isFinite64 a = true) (hb : isFinite64 b = true)
    (h0 : isZero64 b = false) :
    fdiv a b = round64 (sign64 a != sign64 b) (units64 a * unitsPerOne) (units64 b) := by
  simp [fdiv, isNaN64_of_finite ha, isNaN64_of_finite hb, isInf64_of_finite ha,
    isInf64_of_finite hb, h0]

theorem unitsPerOne_pos : 0 < unitsPerOne := Nat.two_pow_pos _

theorem mag64_one : mag64 Config.one64 = 0x3FF0000000000000 := by decide
set_option exponentiation.threshold 1100 in
theorem units64_one : units64 Config.one64 = unitsPerOne := by decide +kernel

/-- A product by a factor of magnitude at most 1.0 does not grow. -/
theorem mag64_fmul_le {a b : F64} (ha : isFinite64 a = true) (hb : isFinite64 b = true)
    (h : mag64 b ≤ mag64 Config.one64) : mag64 (fmul a b) ≤ mag64 a := by
  rw [fmul_finite ha hb, mag64_round64]
  refine roundNearest_le unitsPerOne_pos (le_of_lt (isFinite64_iff.mp ha)) ?_
  have : units64 b ≤ unitsPerOne := by
    rw [← units64_one]; exact (unitsOf_strictMono 52).monotone h
  exact Nat.mul_le_mul_left _ this

/-- A product by a factor of magnitude at least 1.0 does not shrink. -/
theorem le_mag64_fmul {a b : F64} (ha : isFinite64 a = true) (hb : isFinite64 b = true)
    (h : mag64 Config.one64 ≤ mag64 b) : mag64 a ≤ mag64 (fmul a b) := by
  rw [fmul_finite ha hb, mag64_round64]
  refine le_roundNearest unitsPerOne_pos (le_of_lt (isFinite64_iff.mp ha)) ?_
  have : unitsPerOne ≤ units64 b := by
    rw [← units64_one]; exact (unitsOf_strictMono 52).monotone h
  exact Nat.mul_le_mul_left _ this

theorem units64_pos {x : F64} (h : 0 < mag64 x) : 0 < units64 x := by
  have := (unitsOf_strictMono 52) h
  rw [units_zero] at this; exact this

/-- A quotient by a value at least as large is at most 1.0. -/
theorem mag64_fdiv_le_one {a b : F64} (ha : isFinite64 a = true) (hb : isFinite64 b = true)
    (h0 : 0 < mag64 b) (h : mag64 a ≤ mag64 b) : mag64 (fdiv a b) ≤ mag64 Config.one64 := by
  have hz : isZero64 b = false := by simp [isZero64]; omega
  rw [fdiv_finite ha hb hz, mag64_round64]
  refine roundNearest_le (units64_pos h0) (by rw [mag64_one]; norm_num [infMag64]) ?_
  have : unitsOf 52 (mag64 Config.one64) = unitsPerOne := units64_one
  rw [this, Nat.mul_comm]
  exact Nat.mul_le_mul_left _ ((unitsOf_strictMono 52).monotone h)

/-! ## Conversions -/

theorem unitsOf_infMag32 : unitsOf 23 infMag32 = 2 ^ 277 := by decide +kernel

/-- A binary32 value rounds to itself: `f64` is exact (R13). -/
theorem units64_f64 {x : F32} (h : isFinite32 x = true) :
    isFinite64 (f64 x) = true ∧ sign64 (f64 x) = sign32 x ∧
      units64 (f64 x) = units32 x * unitsPerUnit32 := by
  have hfin : mag32 x < infMag32 := by simpa [isFinite32] using h
  have hn : isNaN32 x = false := by simp [isNaN32]; omega
  have hi : isInf32 x = false := by simp [isInf32]; omega
  have hf : f64 x = round64 (sign32 x) (units32 x * unitsPerUnit32) 1 := by simp [f64, hn, hi]
  -- the value is representable: exhibit its magnitude
  have hex : ∃ m, m < infMag64 ∧ unitsOf 52 m = units32 x * unitsPerUnit32 := by
    have hu : units32 x < 2 ^ 277 := by
      rw [← unitsOf_infMag32]; exact (unitsOf_strictMono 23) hfin
    have hp : (0 : Nat) < 2 ^ 23 := by norm_num
    have hdm := Nat.div_add_mod (mag32 x) (2 ^ 23)
    have hmod := Nat.mod_lt (mag32 x) hp
    have hexp : mag32 x / 2 ^ 23 < 255 := by
      refine (Nat.div_lt_iff_lt_mul hp).mpr ?_
      norm_num [infMag32] at hfin ⊢; omega
    by_cases he : mag32 x / 2 ^ 23 = 0
    · -- a binary32 subnormal or zero
      have hval : units32 x = mag32 x := by rw [units32, unitsOf, if_pos he]
      rw [he] at hdm
      by_cases hz : mag32 x = 0
      · exact ⟨0, by norm_num [infMag64], by simp [hval, hz, units_zero]⟩
      · -- normalise: leading bit at position `l`
        have hlo : 2 ^ Nat.log2 (mag32 x) ≤ mag32 x := Nat.log2_self_le hz
        have hhi : mag32 x < 2 ^ (Nat.log2 (mag32 x) + 1) := Nat.lt_log2_self
        have hl : Nat.log2 (mag32 x) < 23 := by
          refine (Nat.log2_lt hz).mpr ?_; omega
        generalize Nat.log2 (mag32 x) = l at *
        have hsh : mag32 x * 2 ^ (52 - l) = 2 ^ 52 + (mag32 x - 2 ^ l) * 2 ^ (52 - l) := by
          have : 2 ^ 52 = 2 ^ l * 2 ^ (52 - l) := by rw [← pow_add]; congr 1; omega
          rw [this, ← Nat.add_mul]; congr 1; omega
        have hfr : (mag32 x - 2 ^ l) * 2 ^ (52 - l) < 2 ^ 52 := by
          have : 2 ^ 52 = 2 ^ l * 2 ^ (52 - l) := by rw [← pow_add]; congr 1; omega
          rw [this]
          refine Nat.mul_lt_mul_of_pos_right ?_ (Nat.two_pow_pos _)
          rw [pow_succ] at hhi; omega
        generalize hfrd : (mag32 x - 2 ^ l) * 2 ^ (52 - l) = fr at *
        refine ⟨(925 - (52 - l) + 1) * 2 ^ 52 + fr, ?_, ?_⟩
        · norm_num [infMag64] at *; omega
        · have h1 : ((925 - (52 - l) + 1) * 2 ^ 52 + fr) / 2 ^ 52 = 925 - (52 - l) + 1 := by
            omega
          have h2 : ((925 - (52 - l) + 1) * 2 ^ 52 + fr) % 2 ^ 52 = fr := by omega
          rw [unitsOf, h1, h2, if_neg (by omega), Nat.add_sub_cancel, ← hsh, hval, unitsPerUnit32,
            Nat.mul_assoc, ← pow_add, show 52 - l + (925 - (52 - l)) = 925 by omega]
    · -- a binary32 normal
      obtain ⟨k, hk⟩ := Nat.exists_eq_succ_of_ne_zero he
      have hval : units32 x = (2 ^ 23 + mag32 x % 2 ^ 23) * 2 ^ k := by
        rw [units32, unitsOf, hk, if_neg (Nat.succ_ne_zero k), Nat.succ_eq_add_one,
          Nat.add_sub_cancel]
      generalize mag32 x % 2 ^ 23 = fr at *
      have hk' : k < 254 := by omega
      refine ⟨(k + 896 + 1) * 2 ^ 52 + fr * 2 ^ 29, ?_, ?_⟩
      · norm_num [infMag64] at *; omega
      · have h1 : ((k + 896 + 1) * 2 ^ 52 + fr * 2 ^ 29) / 2 ^ 52 = k + 896 + 1 := by omega
        have h2 : ((k + 896 + 1) * 2 ^ 52 + fr * 2 ^ 29) % 2 ^ 52 = fr * 2 ^ 29 := by omega
        rw [unitsOf, h1, h2, if_neg (by omega), Nat.add_sub_cancel, hval, unitsPerUnit32]
        have h3 : 2 ^ 52 + fr * 2 ^ 29 = (2 ^ 23 + fr) * 2 ^ 29 := by
          rw [Nat.add_mul]; norm_num
        rw [h3, Nat.mul_assoc, Nat.mul_assoc, ← pow_add, ← pow_add,
          show 29 + (k + 896) = k + 925 by omega]
  obtain ⟨m, hm, hmu⟩ := hex
  have hround : roundNearest 52 infMag64 (units32 x * unitsPerUnit32) 1 = m := by
    have := roundNearest_unitsOf (frac := 52) (inf := infMag64) (mag := m) (den := 1) one_pos
      (le_of_lt hm)
    rwa [Nat.mul_one, hmu] at this
  have hmag : mag64 (f64 x) = m := by rw [hf, mag64_round64, hround]
  refine ⟨isFinite64_iff.mpr (hmag ▸ hm), by rw [hf, sign64_round64], ?_⟩
  rw [units64, hmag, hmu]

end Sys2Proof.Machine
end

