-- ==== Sys2Proof/Laws/TanEnclosure.lean ====
section
/-! SUPPORT. Laws/TanEnclosure.lean: rational numbers that enclose the tangent of a rational as closely
as one likes. Laws/FunctionUnits.lean needs them to compute one pair of function units that meets rule
R16; nothing of the machine's meaning rests on them. -/

namespace Sys2Proof.Machine

open Filter Topology

/-- Real and imaginary part of `(x · i)^n / n!`. -/
def trigTerm (x : ℚ) : ℕ → ℚ × ℚ
  | 0 => (1, 0)
  | n + 1 => (-((trigTerm x n).2 * x) / (n + 1), (trigTerm x n).1 * x / (n + 1))

/-- Real and imaginary part of the first `n` terms of `exp (x · i)`. -/
def trigSum (x : ℚ) : ℕ → ℚ × ℚ
  | 0 => (0, 0)
  | n + 1 => ((trigSum x n).1 + (trigTerm x n).1, (trigSum x n).2 + (trigTerm x n).2)

/-- A bound on what the later terms add. -/
def trigError (x : ℚ) (n : ℕ) : ℚ := |x| ^ n / n.factorial * 2

theorem trigTerm_eq (x : ℚ) (n : ℕ) :
    (((trigTerm x n).1 : ℝ) : ℂ) + (((trigTerm x n).2 : ℝ) : ℂ) * Complex.I =
      ((x : ℝ) * Complex.I) ^ n / n.factorial := by
  induction n with
  | zero => simp [trigTerm]
  | succ n ih =>
    have hn : ((n : ℂ) + 1) ≠ 0 := by exact_mod_cast Nat.succ_ne_zero n
    rw [pow_succ, Nat.factorial_succ, Nat.cast_mul, mul_comm ((n + 1 : ℕ) : ℂ), mul_div_mul_comm, ← ih]
    simp only [trigTerm]
    push_cast
    field_simp
    linear_combination (-(x : ℂ) * ((trigTerm x n).2 : ℂ)) * Complex.I_sq

theorem trigSum_eq (x : ℚ) (n : ℕ) :
    (((trigSum x n).1 : ℝ) : ℂ) + (((trigSum x n).2 : ℝ) : ℂ) * Complex.I =
      ∑ m ∈ Finset.range n, ((x : ℝ) * Complex.I) ^ m / m.factorial := by
  induction n with
  | zero => simp [trigSum]
  | succ n ih =>
    rw [Finset.sum_range_succ, ← ih, ← trigTerm_eq]
    simp only [trigSum]
    push_cast
    ring

theorem trigSum_error {x : ℚ} {n : ℕ} (h : |x| / (n + 1) ≤ 1 / 2) :
    |Real.cos x - (trigSum x n).1| ≤ trigError x n ∧ |Real.sin x - (trigSum x n).2| ≤ trigError x n := by
  have hb := Complex.exp_bound' (x := (x : ℝ) * Complex.I) (n := n) (by
    have : ‖((x : ℝ) : ℂ) * Complex.I‖ = |(x : ℝ)| := by simp
    rw [this]
    have := (Rat.cast_le (K := ℝ)).mpr h
    push_cast at this ⊢
    exact this)
  rw [← trigSum_eq, Complex.exp_mul_I, ← Complex.ofReal_cos, ← Complex.ofReal_sin] at hb
  have he : ‖((x : ℝ) : ℂ) * Complex.I‖ ^ n / n.factorial * 2 = (trigError x n : ℝ) := by
    simp [trigError]
  rw [he] at hb
  have hre := (Complex.abs_re_le_norm _).trans hb
  have him := (Complex.abs_im_le_norm _).trans hb
  simp only [Complex.sub_re, Complex.sub_im, Complex.add_re, Complex.add_im, Complex.mul_re, Complex.mul_im,
    Complex.ofReal_re, Complex.ofReal_im, Complex.I_re, Complex.I_im, mul_zero, mul_one, sub_zero, zero_add, add_zero] at hre him
  exact ⟨hre, him⟩

theorem trigError_tendsto (x : ℚ) : Tendsto (fun n => (trigError x n : ℝ)) atTop (𝓝 0) := by
  have := (FloorSemiring.tendsto_pow_div_factorial_atTop (|(x : ℝ)|)).mul_const 2
  simpa [trigError] using this

/-- The sum is long enough for its bound to hold and to keep the cosine away from 0. -/
def tanReady (x : ℚ) (n : ℕ) : Bool :=
  decide (|x| / (n + 1) ≤ 1 / 2 ∧ trigError x n < |(trigSum x n).1|)

/-- The middle of the enclosure of the tangent. -/
def tanMid (x : ℚ) (n : ℕ) : ℚ := (trigSum x n).2 / (trigSum x n).1
/-- Half the width of the enclosure. -/
def tanError (x : ℚ) (n : ℕ) : ℚ :=
  2 * trigError x n / ((|(trigSum x n).1| - trigError x n) * |(trigSum x n).1|)

theorem tan_enclosed {x : ℚ} {n : ℕ} (h : tanReady x n = true) :
    |Real.tan x - tanMid x n| ≤ tanError x n := by
  obtain ⟨h1, h2⟩ := of_decide_eq_true h
  obtain ⟨hc, hs⟩ := trigSum_error h1
  have h2' : (trigError x n : ℝ) < |((trigSum x n).1 : ℝ)| := by
    rw [← Rat.cast_abs]; exact_mod_cast h2
  rw [Real.tan_eq_sin_div_cos, tanMid, tanError]
  push_cast
  generalize ((trigSum x n).1 : ℝ) = C at *
  generalize ((trigSum x n).2 : ℝ) = S at *
  generalize (trigError x n : ℝ) = e at *
  have hsin := Real.abs_sin_le_one (x : ℝ)
  have hcos := Real.abs_cos_le_one (x : ℝ)
  generalize Real.sin x = s at *
  generalize Real.cos x = c at *
  have he : 0 ≤ e := (abs_nonneg _).trans hc
  have hC : 0 < |C| := he.trans_lt h2'
  have hcl : |C| - e ≤ |c| := by
    have := abs_sub_abs_le_abs_sub C c
    rw [abs_sub_comm] at this
    linarith
  have hcp : 0 < |c| := by linarith
  have hc0 : c ≠ 0 := abs_pos.mp hcp
  have hC0 : C ≠ 0 := abs_pos.mp hC
  rw [div_sub_div _ _ hc0 hC0, abs_div, abs_mul]
  have hnum : |s * C - c * S| ≤ 2 * e := by
    have : s * C - c * S = s * (C - c) + c * (s - S) := by ring
    rw [this]
    refine (abs_add_le _ _).trans ?_
    rw [abs_mul, abs_mul, abs_sub_comm C c]
    have a1 : |s| * |c - C| ≤ 1 * e := mul_le_mul hsin hc (abs_nonneg _) zero_le_one
    have a2 : |c| * |s - S| ≤ 1 * e := mul_le_mul hcos hs (abs_nonneg _) zero_le_one
    linarith
  refine div_le_div₀ (by linarith) hnum (mul_pos (by linarith) hC) ?_
  exact mul_le_mul_of_nonneg_right hcl hC.le

theorem cos_rat_ne_zero (x : ℚ) : Real.cos x ≠ 0 := by
  intro h
  obtain ⟨k, hk⟩ := Real.cos_eq_zero_iff.mp h
  refine irrational_pi ⟨2 * x / (2 * k + 1), ?_⟩
  have h2 : (2 * (k : ℝ) + 1) ≠ 0 := by
    have : (2 * k + 1 : ℤ) ≠ 0 := by omega
    exact_mod_cast this
  push_cast
  rw [hk]
  field_simp

/-- From some length on the enclosure holds, and it shrinks to the tangent. -/
theorem tan_tendsto (x : ℚ) :
    (∀ᶠ n in atTop, tanReady x n = true) ∧
      Tendsto (fun n => (tanMid x n : ℝ)) atTop (𝓝 (Real.tan x)) ∧
      Tendsto (fun n => (tanError x n : ℝ)) atTop (𝓝 0) := by
  have he := trigError_tendsto x
  have hsmall : ∀ᶠ n : ℕ in atTop, |x| / (n + 1) ≤ 1 / 2 := by
    obtain ⟨m, hm⟩ := exists_nat_ge (2 * |x|)
    filter_upwards [eventually_ge_atTop m] with n hn
    have : (m : ℚ) ≤ n := by exact_mod_cast hn
    rw [div_le_iff₀ (by positivity)]
    linarith
  have hC : Tendsto (fun n => ((trigSum x n).1 : ℝ)) atTop (𝓝 (Real.cos x)) := by
    rw [tendsto_iff_norm_sub_tendsto_zero]
    refine squeeze_zero' (Eventually.of_forall fun _ => norm_nonneg _) ?_ he
    filter_upwards [hsmall] with n hn
    rw [Real.norm_eq_abs, abs_sub_comm]
    exact (trigSum_error hn).1
  have hS : Tendsto (fun n => ((trigSum x n).2 : ℝ)) atTop (𝓝 (Real.sin x)) := by
    rw [tendsto_iff_norm_sub_tendsto_zero]
    refine squeeze_zero' (Eventually.of_forall fun _ => norm_nonneg _) ?_ he
    filter_upwards [hsmall] with n hn
    rw [Real.norm_eq_abs, abs_sub_comm]
    exact (trigSum_error hn).2
  have h0 := cos_rat_ne_zero x
  refine ⟨?_, ?_, ?_⟩
  · have hlt := he.eventually_lt hC.abs (abs_pos.mpr h0)
    filter_upwards [hsmall, hlt] with n h1 h2
    refine decide_eq_true ⟨h1, ?_⟩
    rw [← Rat.cast_abs] at h2
    exact_mod_cast h2
  · rw [Real.tan_eq_sin_div_cos]
    exact (hS.div hC h0).congr fun n => by simp [tanMid]
  · have hd := (hC.abs.sub he).mul hC.abs
    have := (he.const_mul 2).div hd (by simpa using h0)
    rw [mul_zero, zero_div] at this
    exact this.congr fun n => by simp [tanError]

end Sys2Proof.Machine
end

