-- ==== Sys2Proof/Machine/FunctionUnits.lean ====
section
/-! DEFINITION. Machine/FunctionUnits.lean: what rule R16 requires of the function units `Pow10` and
`Tan`, as a predicate on a pair of units, and what R11 requires of a correctly rounded operation. The special values of `Pow10` (a NaN, the zeros and the infinities) and
of `Tan` (a NaN) are built into `pow10Of` and `tanOf`; the predicate says the rest. -/

namespace Sys2Proof.Machine

/-- The value of a finite binary64. -/
def valueOf (x : F64) : ℚ := (signedUnits64 x : ℚ) / (unitsPerOne : ℚ)

/-- `v` is at most the real `r`: `−Infinity`, or a finite value not above `r`. -/
def AtMost (v : F64) (r : ℝ) : Prop :=
  v = inf64 true ∨ (isFinite64 v = true ∧ ((valueOf v : ℚ) : ℝ) ≤ r)

/-- `v` is at least the real `r`: `+Infinity`, or a finite value not below `r`. -/
def AtLeast (v : F64) (r : ℝ) : Prop :=
  v = inf64 false ∨ (isFinite64 v = true ∧ r ≤ ((valueOf v : ℚ) : ℝ))

/-- `v` is a faithful rounding of the real `r`: one of the two binary64 values adjacent to `r`, or `r`
itself when it is representable (R16). The lower neighbour is the greatest value at most `r`, the
upper the least at least `r`. -/
def Faithful (v : F64) (r : ℝ) : Prop :=
  (AtMost v r ∧ ∀ w, AtMost w r → orderKey w ≤ orderKey v) ∨
    (AtLeast v r ∧ ∀ w, AtLeast w r → orderKey v ≤ orderKey w)

/-- `r` is the real `x` correctly rounded with roundTiesToEven (R11): no other value is nearer, a tie
goes to the even significand, a value of `2^1024 − 2^970` or more overflows to the infinity, and the
sign is that of `x`. -/
def NearestEven (r : F64) (x : ℝ) : Prop :=
  isNaN64 r = false ∧ (isFinite64 r = true ↔ |x| < 2 ^ 1024 - 2 ^ 970) ∧
    (x < 0 → sign64 r = true) ∧ (0 < x → sign64 r = false) ∧
    (isFinite64 r = true → ∀ c, isFinite64 c = true →
      |((valueOf r : ℚ) : ℝ) - x| ≤ |((valueOf c : ℚ) : ℝ) - x| ∧
      (|((valueOf r : ℚ) : ℝ) - x| = |((valueOf c : ℚ) : ℝ) - x| → valueOf c ≠ valueOf r →
        mag64 r % 2 = 0))

/-- What R16 requires of a pair of function units. -/
structure FunctionUnits.Lawful (u : FunctionUnits) : Prop where
  /-- `Pow10` is faithfully rounded -/
  pow10_faithful : ∀ x, isFinite64 x = true →
    Faithful (pow10Of u x) ((10 : ℝ) ^ ((valueOf x : ℚ) : ℝ))
  /-- `Pow10` is monotonically non-decreasing -/
  pow10_monotone : ∀ x y, fle x y = true → fle (pow10Of u x) (pow10Of u y) = true
  /-- `Pow10(x) > 0` when the exact result is at least the smallest positive subnormal -/
  pow10_positive : ∀ x, isFinite64 x = true →
    ((valueOf 1#64 : ℚ) : ℝ) ≤ (10 : ℝ) ^ ((valueOf x : ℚ) : ℝ) →
    fgt (pow10Of u x) Config.zero64 = true
  /-- `Tan` is faithfully rounded -/
  tan_faithful : ∀ x, isFinite64 x = true →
    Faithful (tanOf u x) (Real.tan ((valueOf x : ℚ) : ℝ))

/-- A pair of function units a JLC may be built with: one that meets R16. -/
structure LawfulUnits where
  units : FunctionUnits
  lawful : FunctionUnits.Lawful units

end Sys2Proof.Machine
end

