-- ==== Sys2Proof/Laws/FunctionUnits.lean ====
section
/-! SUPPORT. Laws/FunctionUnits.lean: a pair of function units that meets rule R16, so that the units the
block is built with can be declared as some such pair and a statement about every lawful pair is not
empty. `Pow10` rounds down, by exact comparison of powers; `Tan` searches for a binary64 that an
enclosure of the tangent shows to be faithful. The pair is never run. -/

namespace Sys2Proof.Machine

open Filter Topology

/-- Non-NaN values that are finite are ordered as the reals they stand for. -/
theorem valueOf_le_iff {x y : F64} :
    ((valueOf x : ℚ) : ℝ) ≤ ((valueOf y : ℚ) : ℝ) ↔ orderKey x ≤ orderKey y := by
  have hp : (0 : ℚ) < (unitsPerOne : ℚ) := Nat.cast_pos.mpr unitsPerOne_pos
  rw [Rat.cast_le, orderKey_le_iff_units, valueOf, valueOf]
  generalize (unitsPerOne : ℚ) = u at hp
  rw [div_le_div_iff_of_pos_right hp, Int.cast_le]

/-- Among the binary64 values that pass a test there is a greatest. -/
theorem exists_greatest (p : F64 → Bool) (h : ∃ w, p w = true) :
    ∃ v, p v = true ∧ ∀ w, p w = true → orderKey w ≤ orderKey v := by
  obtain ⟨w, hw⟩ := h
  obtain ⟨v, hv, hmax⟩ := Finset.exists_max_image (Finset.univ.filter fun w : F64 => p w = true)
    orderKey ⟨w, Finset.mem_filter.mpr ⟨Finset.mem_univ _, hw⟩⟩
  exact ⟨v, (Finset.mem_filter.mp hv).2,
    fun w hw => hmax w (Finset.mem_filter.mpr ⟨Finset.mem_univ _, hw⟩)⟩

theorem AtMost.mono {v : F64} {r t : ℝ} (h : AtMost v r) (hrt : r ≤ t) : AtMost v t :=
  h.imp id fun ⟨hf, hv⟩ => ⟨hf, hv.trans hrt⟩

theorem AtLeast.anti {v : F64} {r t : ℝ} (h : AtLeast v r) (hrt : t ≤ r) : AtLeast v t :=
  h.imp id fun ⟨hf, hv⟩ => ⟨hf, hrt.trans hv⟩

theorem AtMost.notNaN {v : F64} {r : ℝ} (h : AtMost v r) : isNaN64 v = false := by
  rcases h with rfl | ⟨hf, -⟩
  · decide
  · exact isNaN64_of_finite hf

theorem valueOf_one : valueOf Config.one64 = 1 := by
  have h : signedUnits64 Config.one64 = (unitsPerOne : Int) := by
    rw [signedUnits64, if_neg (by decide), units64_one]
  have hp : (unitsPerOne : ℚ) ≠ 0 := Nat.cast_ne_zero.mpr unitsPerOne_pos.ne'
  rw [valueOf, h]
  generalize unitsPerOne = u at hp
  rw [Int.cast_natCast, div_self hp]

theorem valueOf_zero {x : F64} (h : isZero64 x = true) : valueOf x = 0 := by
  have hm : mag64 x = 0 := by simpa [isZero64] using h
  have hu : signedUnits64 x = 0 := by
    rw [signedUnits64, units64, hm, units_zero]; simp
  rw [valueOf, hu, Int.cast_zero, zero_div]

/-! ## Searching for a value -/

/-- The value of the first pair of a number and a binary64 that passes the test. -/
def searchF64 (p : ℕ → F64 → Bool) (h : ∃ n y, p n y = true) : F64 :=
  BitVec.ofNat 64 (Nat.find (p := fun k => p (k / 2 ^ 64) (BitVec.ofNat 64 k) = true)
    (by
      obtain ⟨n, y, hy⟩ := h
      have hd : (n * 2 ^ 64 + y.toNat) / 2 ^ 64 = n := by have := y.isLt; omega
      have hm : BitVec.ofNat 64 (n * 2 ^ 64 + y.toNat) = y := by
        apply BitVec.eq_of_toNat_eq
        rw [BitVec.toNat_ofNat]
        have := y.isLt
        omega
      exact ⟨n * 2 ^ 64 + y.toNat, by rw [hd, hm]; exact hy⟩))

theorem searchF64_spec {p : ℕ → F64 → Bool} (h : ∃ n y, p n y = true) :
    ∃ n, p n (searchF64 p h) = true :=
  ⟨_, Nat.find_spec (p := fun k => p (k / 2 ^ 64) (BitVec.ofNat 64 k) = true) _⟩

/-! ## `Pow10`, rounded down -/

/-- `w` is at most `10^x`, by comparing whole powers of both. -/
def belowPow10 (x w : F64) : Bool :=
  w == inf64 true || (isFinite64 w &&
    (decide (valueOf w ≤ 0) || decide (valueOf w ^ unitsPerOne ≤ (10 : ℚ) ^ signedUnits64 x)))

theorem belowPow10_iff (x w : F64) :
    belowPow10 x w = true ↔ AtMost w ((10 : ℝ) ^ ((valueOf x : ℚ) : ℝ)) := by
  have hq : unitsPerOne ≠ 0 := unitsPerOne_pos.ne'
  have hx : valueOf x = (signedUnits64 x : ℚ) / (unitsPerOne : ℚ) := rfl
  rw [belowPow10, AtMost, hx]
  generalize valueOf w = v
  generalize signedUnits64 x = p
  generalize unitsPerOne = q at hq
  have hpos : (0 : ℝ) < (10 : ℝ) ^ (((p : ℚ) / (q : ℚ) : ℚ) : ℝ) := Real.rpow_pos_of_pos (by norm_num) _
  have hpow : ((10 : ℝ) ^ (((p : ℚ) / (q : ℚ) : ℚ) : ℝ)) ^ q = (10 : ℝ) ^ p := by
    rw [← Real.rpow_natCast, ← Real.rpow_mul (by norm_num), ← Real.rpow_intCast]
    congr 1
    push_cast
    field_simp
  have key : (v ≤ 0 ∨ v ^ q ≤ (10 : ℚ) ^ p) ↔ (v : ℝ) ≤ (10 : ℝ) ^ (((p : ℚ) / (q : ℚ) : ℚ) : ℝ) := by
    rcases le_or_gt v 0 with hv | hv
    · have : (v : ℝ) ≤ 0 := by exact_mod_cast hv
      exact ⟨fun _ => this.trans hpos.le, fun _ => Or.inl hv⟩
    · have hv' : (0 : ℝ) ≤ v := by exact_mod_cast hv.le
      rw [← pow_le_pow_iff_left₀ hv' hpos.le hq, hpow, or_iff_right (not_le.mpr hv),
        ← Rat.cast_le (K := ℝ), Rat.cast_pow, Rat.cast_zpow, Rat.cast_ofNat]
  simp [key]

/-- The test that `y` is the greatest binary64 at most `10^x`. -/
def isPow10Down (x y : F64) : Bool :=
  belowPow10 x y && decide (∀ w, belowPow10 x w = true → orderKey w ≤ orderKey y)

theorem exists_isPow10Down (x : F64) : ∃ (_ : ℕ) (y : F64), isPow10Down x y = true := by
  obtain ⟨y, hy, hmax⟩ := exists_greatest (belowPow10 x)
    ⟨inf64 true, (belowPow10_iff _ _).mpr (Or.inl rfl)⟩
  exact ⟨0, y, by rw [isPow10Down, hy, decide_eq_true hmax]; rfl⟩

/-- `Pow10`, rounded down. -/
def referencePow10 (x : F64) : F64 := searchF64 (fun _ => isPow10Down x) (exists_isPow10Down x)

theorem referencePow10_spec (x : F64) :
    AtMost (referencePow10 x) ((10 : ℝ) ^ ((valueOf x : ℚ) : ℝ)) ∧
      ∀ w, AtMost w ((10 : ℝ) ^ ((valueOf x : ℚ) : ℝ)) →
        orderKey w ≤ orderKey (referencePow10 x) := by
  obtain ⟨-, h⟩ := searchF64_spec (exists_isPow10Down x)
  obtain ⟨h1, h2⟩ := Bool.and_eq_true_iff.mp h
  exact ⟨(belowPow10_iff _ _).mp h1,
    fun w hw => of_decide_eq_true h2 w ((belowPow10_iff _ _).mpr hw)⟩

/-! ## `Tan`, from an enclosure -/

/-- `AtMost` and `AtLeast` against a rational, as tests. -/
def atMostRat (w : F64) (q : ℚ) : Bool := w == inf64 true || (isFinite64 w && decide (valueOf w ≤ q))
def atLeastRat (w : F64) (q : ℚ) : Bool := w == inf64 false || (isFinite64 w && decide (q ≤ valueOf w))

theorem atMostRat_iff (w : F64) (q : ℚ) : atMostRat w q = true ↔ AtMost w (q : ℝ) := by
  simp [atMostRat, AtMost]

theorem atLeastRat_iff (w : F64) (q : ℚ) : atLeastRat w q = true ↔ AtLeast w (q : ℝ) := by
  simp [atLeastRat, AtLeast]

/-- The test that `y` is a faithful rounding of every real between `lo` and `hi`. -/
def certified (lo hi : ℚ) (y : F64) : Bool :=
  decide (∀ w, atMostRat w hi = true → orderKey w ≤ orderKey y) &&
    (atMostRat y lo ||
      (isFinite64 y && decide (∀ w, atLeastRat w lo = true → orderKey y ≤ orderKey w)))

theorem certified_faithful {lo hi : ℚ} {y : F64} {r : ℝ} (h : certified lo hi y = true)
    (hlo : (lo : ℝ) ≤ r) (hhi : r ≤ (hi : ℝ)) : Faithful y r := by
  obtain ⟨h1, h2⟩ := Bool.and_eq_true_iff.mp h
  have h1' : ∀ w, AtMost w r → orderKey w ≤ orderKey y := fun w hw =>
    of_decide_eq_true h1 w ((atMostRat_iff _ _).mpr (hw.mono hhi))
  by_cases hy : AtMost y r
  · exact Or.inl ⟨hy, h1'⟩
  · rcases Bool.or_eq_true_iff.mp h2 with h3 | h3
    · exact absurd (((atMostRat_iff _ _).mp h3).mono hlo) hy
    · obtain ⟨hf, h4⟩ := Bool.and_eq_true_iff.mp h3
      refine Or.inr ⟨Or.inr ⟨hf, ?_⟩, fun w hw =>
        of_decide_eq_true h4 w ((atLeastRat_iff _ _).mpr (hw.anti hlo))⟩
      by_contra hlt
      exact hy (Or.inr ⟨hf, (not_le.mp hlt).le⟩)

/-- Enclosures that shrink to a real certify a value of it in the end. -/
theorem eventually_certified {r : ℝ} {lo hi : ℕ → ℚ}
    (hlo : Tendsto (fun n => (lo n : ℝ)) atTop (𝓝 r))
    (hhi : Tendsto (fun n => (hi n : ℝ)) atTop (𝓝 r)) :
    ∀ᶠ n in atTop, ∃ y, certified (lo n) (hi n) y = true := by
  classical
  obtain ⟨y, hy, hmax⟩ := exists_greatest (fun w => decide (AtMost w r))
    ⟨inf64 true, decide_eq_true (Or.inl rfl)⟩
  replace hy : AtMost y r := of_decide_eq_true hy
  replace hmax : ∀ w, AtMost w r → orderKey w ≤ orderKey y := fun w hw =>
    hmax w (decide_eq_true hw)
  have hup : ∀ᶠ n in atTop, ∀ w : F64, AtMost w (hi n : ℝ) → AtMost w r := by
    rw [eventually_all]
    intro w
    by_cases hw : ((valueOf w : ℚ) : ℝ) ≤ r
    · exact Eventually.of_forall fun n h => h.imp id fun ⟨hf, _⟩ => ⟨hf, hw⟩
    · filter_upwards [hhi.eventually_lt_const (not_le.mp hw)] with n hn h
      exact h.imp id fun ⟨_, hv⟩ => absurd hv (not_le.mpr hn)
  have hdn : ∀ᶠ n in atTop, ∀ w : F64, AtLeast w (lo n : ℝ) → AtLeast w r := by
    rw [eventually_all]
    intro w
    by_cases hw : r ≤ ((valueOf w : ℚ) : ℝ)
    · exact Eventually.of_forall fun n h => h.imp id fun ⟨hf, _⟩ => ⟨hf, hw⟩
    · filter_upwards [hlo.eventually_const_lt (not_le.mp hw)] with n hn h
      exact h.imp id fun ⟨_, hv⟩ => absurd hv (not_le.mpr hn)
  have hsecond : ∀ᶠ n in atTop, atMostRat y (lo n) = true ∨ (isFinite64 y = true ∧
      ∀ w, AtLeast w (lo n : ℝ) → orderKey y ≤ orderKey w) := by
    rcases hy with rfl | ⟨hf, hv⟩
    · exact Eventually.of_forall fun n => Or.inl ((atMostRat_iff _ _).mpr (Or.inl rfl))
    · rcases hv.lt_or_eq with hlt | heq
      · filter_upwards [hlo.eventually_const_lt hlt] with n hn
        exact Or.inl ((atMostRat_iff _ _).mpr (Or.inr ⟨hf, hn.le⟩))
      · filter_upwards [hdn] with n hn
        refine Or.inr ⟨hf, fun w hw => ?_⟩
        rcases hn w hw with rfl | ⟨-, hw'⟩
        · have h1 := isFinite64_iff.mp hf
          have h2 : orderKey (inf64 false) = infMag64 := by decide
          rw [h2]
          unfold orderKey
          split <;> omega
        · exact valueOf_le_iff.mp (heq.le.trans hw')
  filter_upwards [hup, hsecond] with n h1 h2
  refine ⟨y, Bool.and_eq_true_iff.mpr ⟨decide_eq_true fun w hw =>
    hmax w (h1 w ((atMostRat_iff _ _).mp hw)), ?_⟩⟩
  rcases h2 with h2 | ⟨hf, h2⟩
  · rw [h2]; rfl
  · rw [hf, decide_eq_true fun w hw => h2 w ((atLeastRat_iff _ _).mp hw)]
    simp

/-- The test that the `n`-th enclosure of the tangent certifies `y`. -/
def isTanAt (x : F64) (n : ℕ) (y : F64) : Bool :=
  tanReady (valueOf x) n &&
    certified (tanMid (valueOf x) n - tanError (valueOf x) n)
      (tanMid (valueOf x) n + tanError (valueOf x) n) y

theorem exists_isTanAt (x : F64) : ∃ n y, isTanAt x n y = true := by
  obtain ⟨h1, h2, h3⟩ := tan_tendsto (valueOf x)
  have hlo := h2.sub h3
  have hhi := h2.add h3
  rw [sub_zero] at hlo
  rw [add_zero] at hhi
  have hc := eventually_certified
    (lo := fun n => tanMid (valueOf x) n - tanError (valueOf x) n)
    (hi := fun n => tanMid (valueOf x) n + tanError (valueOf x) n)
    (hlo.congr fun n => by push_cast; rfl) (hhi.congr fun n => by push_cast; rfl)
  obtain ⟨n, hn, y, hy⟩ := (h1.and hc).exists
  exact ⟨n, y, by rw [isTanAt, hn, hy]; rfl⟩

/-- `Tan`, faithful. -/
def referenceTan (x : F64) : F64 := searchF64 (isTanAt x) (exists_isTanAt x)

theorem referenceTan_spec (x : F64) :
    Faithful (referenceTan x) (Real.tan ((valueOf x : ℚ) : ℝ)) := by
  obtain ⟨n, h⟩ := searchF64_spec (exists_isTanAt x)
  obtain ⟨h1, h2⟩ := Bool.and_eq_true_iff.mp h
  have he := abs_le.mp (tan_enclosed h1)
  refine certified_faithful h2 ?_ ?_ <;> push_cast <;> linarith

/-! ## The pair -/

/-- A pair of function units: `Pow10` rounded down and a faithful `Tan`. -/
def referencePair : FunctionUnits := { pow10 := referencePow10, tan := referenceTan }

/-- On a finite operand the unit answers a greatest value at most the power. -/
theorem pow10_reference {x : F64} (h : isFinite64 x = true) :
    AtMost (pow10Of referencePair x) ((10 : ℝ) ^ ((valueOf x : ℚ) : ℝ)) ∧
      ∀ w, AtMost w ((10 : ℝ) ^ ((valueOf x : ℚ) : ℝ)) →
        orderKey w ≤ orderKey (pow10Of referencePair x) := by
  have hn := isNaN64_of_finite h
  have hi := isInf64_of_finite h
  by_cases hz : isZero64 x = true
  · have hv : pow10Of referencePair x = Config.one64 := by
      simp only [pow10Of, hn, hz, Bool.false_eq_true, if_false, if_true]
    rw [hv, valueOf_zero hz, Rat.cast_zero, Real.rpow_zero]
    have h1 : ((valueOf Config.one64 : ℚ) : ℝ) = 1 := by rw [valueOf_one, Rat.cast_one]
    refine ⟨Or.inr ⟨by decide, h1.le⟩, fun w hw => ?_⟩
    rcases hw with rfl | ⟨hf, hw⟩
    · decide
    · exact valueOf_le_iff.mp (hw.trans h1.ge)
  · have hv : pow10Of referencePair x = referencePow10 x := by
      simp only [pow10Of, hn, hz, hi, Bool.false_eq_true, if_false]; rfl
    rw [hv]
    exact referencePow10_spec x

theorem atMost_zero {r : ℝ} (h : 0 ≤ r) : AtMost (zero64 false) r :=
  Or.inr ⟨by decide, by rw [valueOf_zero (by decide), Rat.cast_zero]; exact h⟩

/-- The pair meets R16. -/
theorem referencePair_lawful : FunctionUnits.Lawful referencePair where
  pow10_faithful x h := Or.inl (pow10_reference h)
  pow10_monotone x y h := by
    obtain ⟨hx, hy, hxy⟩ := fle_iff.mp h
    have hcase : ∀ z, isNaN64 z = false → isFinite64 z = true ∨
        (isFinite64 z = false ∧ mag64 z = infMag64) := by
      intro z hz
      have h1 := isNaN64_false.mp hz
      by_cases hf : isFinite64 z = true
      · exact Or.inl hf
      · refine Or.inr ⟨by simpa using hf, ?_⟩
        have : ¬mag64 z < infMag64 := by rwa [← isFinite64_iff]
        omega
    have hinf : ∀ z, isNaN64 z = false → mag64 z = infMag64 → pow10Of referencePair z =
        if sign64 z then zero64 false else inf64 false := by
      intro z hz hm
      have h0 : isZero64 z = false := by rw [isZero64, hm]; decide
      have hi : isInf64 z = true := by rw [isInf64, hm]; decide
      simp only [pow10Of, hz, h0, hi, Bool.false_eq_true, if_false, if_true]
    have hnan : ∀ z, isNaN64 z = false → isNaN64 (pow10Of referencePair z) = false := by
      intro z hz
      rcases hcase z hz with hf | ⟨-, hm⟩
      · exact (pow10_reference hf).1.notNaN
      · rw [hinf z hz hm]; cases sign64 z <;> decide
    refine fle_iff.mpr ⟨hnan x hx, hnan y hy, ?_⟩
    rcases hcase x hx with hxf | ⟨-, hxm⟩ <;> rcases hcase y hy with hyf | ⟨-, hym⟩
    · refine (pow10_reference hyf).2 _ ((pow10_reference hxf).1.mono ?_)
      exact Real.rpow_le_rpow_of_exponent_le (by norm_num) (valueOf_le_iff.mpr hxy)
    · rw [hinf y hy hym]
      cases hs : sign64 y
      · have h1 := isNaN64_false.mp (hnan x hx)
        have h2 : orderKey (inf64 false) = infMag64 := by decide
        rw [if_neg (by simp), h2]
        generalize pow10Of referencePair x = v at h1
        unfold orderKey
        split <;> omega
      · exfalso
        have hxl := isFinite64_iff.mp hxf
        rw [orderKey, orderKey, hs, hym] at hxy
        cases sign64 x <;> simp at hxy <;> omega
    · rw [hinf x hx hxm]
      cases hs : sign64 x
      · exfalso
        have hyl := isFinite64_iff.mp hyf
        rw [orderKey, orderKey, hs, hxm] at hxy
        cases sign64 y <;> simp at hxy <;> omega
      · exact (pow10_reference hyf).2 _ (atMost_zero (Real.rpow_nonneg (by norm_num) _))
    · rw [hinf x hx hxm, hinf y hy hym]
      rw [orderKey, orderKey, hxm, hym] at hxy
      cases hsx : sign64 x <;> cases hsy : sign64 y <;> rw [hsx, hsy] at hxy <;>
        revert hxy <;> decide
  pow10_positive x h hr := by
    have h1 : AtMost 1#64 ((10 : ℝ) ^ ((valueOf x : ℚ) : ℝ)) := Or.inr ⟨by decide, hr⟩
    have h2 := (pow10_reference h).2 _ h1
    refine fgt_iff.mpr ⟨(pow10_reference h).1.notNaN, by decide, ?_⟩
    have h3 : orderKey Config.zero64 < orderKey 1#64 := by decide
    omega
  tan_faithful x h := by
    have hn := isNaN64_of_finite h
    have hv : tanOf referencePair x = referenceTan x := by
      simp only [tanOf, hn, Bool.false_eq_true, if_false]; rfl
    rw [hv]
    exact referenceTan_spec x

/-- The pair with its law. -/
def referenceUnits : LawfulUnits := { units := referencePair, lawful := referencePair_lawful }

end Sys2Proof.Machine
end

