-- ==== Sys2Proof/Machine/BlockUnits.lean ====
section
/-! DEFINITION. Machine/BlockUnits.lean: the function units the block computes with, a parameter of the
model (R16, D3, I2). They meet R16 and nothing else is known of them. -/

namespace Sys2Proof

/-- The block's pair of function units: some pair that meets R16. A free value with no body (log
entry 2); the argument only shows that there is such a pair. -/
opaque Config.lawfulUnits [Inhabited Machine.LawfulUnits] : Machine.LawfulUnits

/-- The function units `Pow10` and `Tan` of the block (R16). The pair handed over does not matter: no
proof can see which pair the constant is. -/
def Config.functionUnits : FunctionUnits := (@Config.lawfulUnits ⟨Machine.referenceUnits⟩).units

/-- The block's own function units meet R16. -/
theorem Machine.functionUnits_lawful : Machine.FunctionUnits.Lawful Config.functionUnits :=
  (@Config.lawfulUnits ⟨Machine.referenceUnits⟩).lawful

end Sys2Proof
end

