-- ==== Sys2Proof/Machine/Params.lean ====
section
/-! DEFINITION. Machine/Params.lean: from parameter registers to engine values (R17 to R19, R141 to
R143, R172, R302). -/

namespace Sys2Proof.Machine

/-- `x = (f64(ms32) · fs) / 1000.0`, the time in samples before any clamp (R18, R19). -/
def rawSamples (ms : F32) (fs : F64) : F64 := fdiv (fmul (f64 ms) fs) Config.thousand64

/-- `samples(ms32)` (R18); `none` is the token INVALID. -/
def samples (ms : F32) (fs : F64) : Option Word :=
  let x := rawSamples ms fs
  if isNaN64 x || flt x Config.zero64 || fge x Config.u32Bound64 then none
  else some (u32of (ffloor x))

/-- `tc(ms32)`, the time constant in samples, at least 1.0 (R19). -/
def tc (ms : F32) (fs : F64) : F64 := maxsel (rawSamples ms fs) Config.one64

/-- The record of derived values (R141); `none` is INVALID. -/
structure Derived where
  gin : F64
  gout : F64
  L : F64
  H : F64
  catt : F64
  crel : F64
  cup : F64
  cdown : F64
  rf : F64
  W0 : Option Word
  W1 : Option Word
  Iv : Option Word
  Dl : Option Word
  deriving DecidableEq, Repr

/-- A linear-model coefficient `minsel(1.0, ENV_C / t)` (R141, R221). -/
def linearCoef (t : F64) : F64 := minsel Config.one64 (fdiv Config.ENV_C t)

/-- A rising factor `Pow10((d / t) / 20.0)` (R141, R221). -/
def risingFactor (u : FunctionUnits) (d t : F64) : F64 :=
  pow10Of u (fdiv (fdiv d t) Config.twenty64)

/-- A falling factor `Pow10(neg((d / t) / 20.0))` (R141, R221, R243). -/
def fallingFactor (u : FunctionUnits) (d t : F64) : F64 :=
  pow10Of u (fneg (fdiv (fdiv d t) Config.twenty64))

/-- `derive(fs)` with a given pair of function units (R141). -/
def deriveOf (u : FunctionUnits) (h : HostRegs) (fs : F64) : Derived :=
  { gin := linOf u h.pIngainDb
    gout := linOf u h.pOutgainDb
    L := linOf u h.pLimitDb
    H := rtz32 (linOf u h.pHardlimitDb)
    catt := linearCoef (tc h.pAttackMs fs)
    crel := linearCoef (tc h.pReleaseMs fs)
    cup := risingFactor u Config.ENV_D (tc h.pAttackMs fs)
    cdown := fallingFactor u Config.ENV_D (tc h.pReleaseMs fs)
    rf := fallingFactor u Config.LIM_D (tc h.pReleaseMs fs)
    W0 := samples h.pWin0Ms fs
    W1 := samples h.pWin1Ms fs
    Iv := samples h.pIntervalMs fs
    Dl := samples h.pDelayMs fs }

/-- `derive(fs)` (R141), with the block's own function units. -/
def derive (h : HostRegs) (fs : F64) : Derived := deriveOf Config.functionUnits h fs

/-! ## Checks (R142) -/

/-- Check FS: `fs ≥ FS_MIN and fs ≤ FS_MAX`. -/
def checkFs (fs : F64) : Bool := fge fs Config.FS_MIN && fle fs Config.FS_MAX

/-- Checks WIN0 and WIN1: `W ≠ INVALID and 1 ≤ W ≤ WMAX`. -/
def checkWin : Option Word → Bool
  | none => false
  | some w => 1 ≤ w.toNat && w.toNat ≤ Config.WMAX

/-- Check DELAY: `Dl ≠ INVALID and Dl ≤ DMAX`. -/
def checkDelay : Option Word → Bool
  | none => false
  | some d => d.toNat ≤ Config.DMAX

/-- Check LIMIT: `L > 0.0 and L < +Infinity`. -/
def checkLimit (L : F64) : Bool := fgt L Config.zero64 && flt L Config.inf64

/-- One bit of the failed-check mask: bit `k` when the check failed (R302). -/
def maskBit (ok : Bool) (k : Nat) : BitVec 5 := if ok then 0#5 else 1#5 <<< k

/-- The failed-check mask of the checks a commit makes: WIN0, WIN1, DELAY, LIMIT (R142, R302). -/
def Derived.failMask (d : Derived) : BitVec 5 :=
  maskBit (checkWin d.W0) 1 ||| maskBit (checkWin d.W1) 2 ||| maskBit (checkDelay d.Dl) 3 |||
    maskBit (checkLimit d.L) 4

/-- `ivl(Iv, W)` (R143). -/
def ivl (iv : Option Word) (w : Word) : Word :=
  match iv with
  | none => 1#32
  | some i => if i = 0#32 then 1#32 else if i > w then w else i

/-! ## Prefilter coefficients (R172) -/

/-- `K`, the pre-warped frequency of a stage: `Tan((PI · f0) / fs)`. -/
def warped (u : FunctionUnits) (f0 fs : F64) : F64 := tanOf u (fdiv (fmul Config.PI f0) fs)

/-- `a0 = (1.0 + KQ) + KK` -/
def coefA0 (kq kk : F64) : F64 := fadd (fadd Config.one64 kq) kk
/-- `a1 = (2.0 · (KK − 1.0)) / a0` -/
def coefA1 (kq kk : F64) : F64 :=
  fdiv (fmul Config.two64 (fsub kk Config.one64)) (coefA0 kq kk)
/-- `a2 = ((1.0 − KQ) + KK) / a0` -/
def coefA2 (kq kk : F64) : F64 := fdiv (fadd (fsub Config.one64 kq) kk) (coefA0 kq kk)

/-- The high-shelf coefficients, from `KQ` and `KK` (R172). -/
def shelfCoefs (kq kk : F64) : Coefs :=
  { b0 := fdiv (fadd (fadd Config.VH (fmul Config.VB kq)) kk) (coefA0 kq kk)
    b1 := fdiv (fmul Config.two64 (fsub kk Config.VH)) (coefA0 kq kk)
    b2 := fdiv (fadd (fsub Config.VH (fmul Config.VB kq)) kk) (coefA0 kq kk)
    a1 := coefA1 kq kk
    a2 := coefA2 kq kk }

/-- The high-pass coefficients, from `KQ` and `KK` (R172). -/
def passCoefs (kq kk : F64) : Coefs :=
  { b0 := Config.one64
    b1 := Config.negTwo64
    b2 := Config.one64
    a1 := coefA1 kq kk
    a2 := coefA2 kq kk }

/-- `coefficients(fs)`, stage 0 (R172). -/
def coefficientsShelf (u : FunctionUnits) (fs : F64) : Coefs :=
  let k := warped u Config.F0S fs
  shelfCoefs (fdiv k Config.QS) (fmul k k)

/-- `coefficients(fs)`, stage 1 (R172). -/
def coefficientsPass (u : FunctionUnits) (fs : F64) : Coefs :=
  let k := warped u Config.F0H fs
  passCoefs (fdiv k Config.QH) (fmul k k)

end Sys2Proof.Machine
end

