-- ==== Sys2Proof/Machine/System.lean ====
section
/-! DEFINITION. Machine/System.lean: NOP, CONFIG, COMMIT and LIM_RESET (40_system.md). -/

namespace Sys2Proof.Machine

/-- NOP (R140): nothing, on any engine. -/
def execNop (s : State) : Host.Outcome State Fault Refusal := .next s

/-! ## CONFIG (R144) -/

/-- The failed-check mask of CONFIG for the rate `fs`: a bad rate is bit 0 alone, since the other
checks need a valid rate (R144, R302). -/
def configMask (h : HostRegs) (fs : F64) : BitVec 5 :=
  if checkFs fs then (derive h fs).failMask else 1#5

/-- A cleared window of `w` slots: `S.W <- w` and `clearWindow` (R144, R145). -/
def Window.fresh (w : Word) : Window :=
  { W := w, buf := [], sum := 0#64, comp := 0#64, cur := 0#32, fill := 0#32 }

/-- A cleared meter with interval `i` (R144, R145). -/
def Meter.fresh (i : Word) : Meter := { I := i, dc := 0#32, val := 0#64, valid := false }

/-- The engine a successful CONFIG builds for the rate `fs` with window lengths `w0`, `w1` and delay
`dl`: every piece of engine state but `S.nf` is rebuilt (R144). -/
def Engine.configured (e : Engine) (h : HostRegs) (fs : F64) (d : Derived) (w0 w1 dl : Word) :
    Engine :=
  { cfg := true, fs := fs, ctrl := h.ctrl
    coefShelf := coefficientsShelf Config.functionUnits fs
    coefPass := coefficientsPass Config.functionUnits fs
    histLeftShelf := History.zero, histLeftPass := History.zero
    histRightShelf := History.zero, histRightPass := History.zero
    win0 := Window.fresh w0, win1 := Window.fresh w1
    mtr0 := Meter.fresh (ivl d.Iv w0), mtr1 := Meter.fresh (ivl d.Iv w1)
    env := Config.zero64, catt := d.catt, crel := d.crel, cup := d.cup, cdown := d.cdown
    L := d.L, peak := d.L, gain := Config.one64, rf := d.rf
    seen := false, sustain := h.infSustain, silrun := 0#32, prevReset := h.resetFlag
    gin := d.gin, gout := d.gout, H := d.H
    D := dl, dbuf := [], dcur := 0#32, muted := false, nf := e.nf }

/-- The engine after a CONFIG with no failed check; the checks guarantee that the three lengths are
not INVALID (R144). -/
def Engine.configure (e : Engine) (h : HostRegs) (fs : F64) : Engine :=
  let d := derive h fs
  e.configured h fs d (d.W0.getD 0#32) (d.W1.getD 0#32) (d.Dl.getD 0#32)

/-- CONFIG (R144): build the engine for the rate in `OPA`, or raise CONFIG_INVALID with the
failed-check mask and change nothing else. It is legal on an unconfigured engine (R110). -/
def execConfig (s : State) : Host.Outcome State Fault Refusal :=
  if configMask s.host s.host.opa = 0#5 then
    .next { s with eng := s.eng.configure s.host s.host.opa }
  else .next (raiseFault (.configInvalid (configMask s.host s.host.opa)) s)

/-! ## COMMIT (R150) -/

/-- The derived values that a commit always takes over, and the limit if it passes its check
(R150). -/
def Engine.takeGains (e : Engine) (d : Derived) : Engine :=
  { e with
    gin := d.gin, gout := d.gout, H := d.H
    catt := d.catt, crel := d.crel, cup := d.cup, cdown := d.cdown, rf := d.rf
    L := if checkLimit d.L then d.L else e.L }

/-- Latch `CTRL[6:0]`; meter 1 is cleared when DUAL turns on (R150). -/
def Engine.takeCtrl (e : Engine) (c : BitVec 7) : Engine :=
  { (if c.getLsbD 0 && !e.ctrl.getLsbD 0 then e.clearWindow .m1 else e) with ctrl := c }

/-- `setWindowLength`: a length that passes its check and differs from the current one is taken and
the window and its meter cleared (R150, R194). -/
def Engine.takeLength (e : Engine) (m : MeterId) (wn : Option Word) : Engine :=
  match wn with
  | none => e
  | some w =>
    if checkWin (some w) && w != (e.win m).W then
      (e.setWin m { e.win m with W := w }).clearWindow m
    else e

/-- The interval of a meter from the interval parameter and its window length; a decimation counter
at or beyond it restarts (R150). -/
def Engine.takeInterval (e : Engine) (m : MeterId) (iv : Option Word) : Engine :=
  let i := ivl iv (e.win m).W
  e.setMtr m { e.mtr m with I := i, dc := if i ≤ (e.mtr m).dc then 0#32 else (e.mtr m).dc }

/-- `setDelay`: a delay that passes its check and differs from the current one is taken and the delay
line cleared (R150, R264). -/
def Engine.takeDelay (e : Engine) (dl : Option Word) : Engine :=
  match dl with
  | none => e
  | some n => if checkDelay (some n) && n != e.D then { e with D := n }.clearDelay else e

/-- `setInfiniteSustain` and the edge-triggered `resetFlag` (R150). -/
def Engine.takeFlags (e : Engine) (h : HostRegs) : Engine :=
  let e1 := { e with sustain := h.infSustain }
  { (if h.resetFlag && !e1.prevReset then e1.limReset else e1) with prevReset := h.resetFlag }

/-- The engine after the parameter snapshot, in the order R150 writes it. -/
def Engine.snapshot (e : Engine) (h : HostRegs) : Engine :=
  let d := derive h e.fs
  let e1 := (e.takeGains d).takeCtrl h.ctrl
  let e2 := (e1.takeLength .m0 d.W0).takeInterval .m0 d.Iv
  let e3 := (e2.takeLength .m1 d.W1).takeInterval .m1 d.Iv
  (e3.takeDelay d.Dl).takeFlags h

/-- The failed-check mask of a commit at the configured rate (R150, R302). -/
def commitMask (s : State) : BitVec 5 := (derive s.host s.eng.fs).failMask

/-- The pseudocode of COMMIT, which PROCESS without NC runs first: the snapshot, then PARAM_INVALID
if a check failed (R150). -/
def commitState (s : State) : State :=
  let t := { s with eng := s.eng.snapshot s.host }
  if commitMask s = 0#5 then t else raiseFault (.paramInvalid (commitMask s)) t

/-- COMMIT (R150). -/
def execCommit (s : State) : Host.Outcome State Fault Refusal :=
  whenConfigured s (.next (commitState s))

/-! ## LIM_RESET (R158) -/

/-- LIM_RESET (R158). -/
def execLimReset (s : State) : Host.Outcome State Fault Refusal :=
  whenConfigured s (.next { s with eng := s.eng.limReset })

end Sys2Proof.Machine
end

