-- ==== Sys2Proof/Machine/Process.lean ====
section
/-! DEFINITION. Machine/Process.lean: the per-sample command PROCESS (46_process.md). Each definition
is one step of R282; `Engine.processPair` runs them in its order. -/

namespace Sys2Proof.Machine

/-- A meter-tap sample: the raw sample, or the sample times the input gain when METER_TAP is set
(R272). -/
def Engine.tap (e : Engine) (x : F64) : F64 := if e.meterTap then fmul x e.gin else x

/-- `mag = maxsel(abs(mL), abs(mR))` (R272). -/
def magnitude (mL mR : F64) : F64 := maxsel (fabs mL) (fabs mR)

/-- A near-silent sample: the run is counted up to SILMIN, and the sample that reaches it performs
the limiter reset when SILRST_EN is set (R273). -/
def Engine.quietSample (e : Engine) (silmin : Word) : Engine :=
  if e.silrun < silmin then
    let e1 := { e with silrun := e.silrun + 1#32 }
    if e1.silrun = silmin && e1.silrstEn then e1.limReset else e1
  else e

/-- `silence(mag)` (R273): a NaN magnitude counts as signal. -/
def Engine.silence (e : Engine) (silmin : Word) (mag : F64) : Engine :=
  if flt mag Config.SIL_THR then e.quietSample silmin
  else { e with silrun := 0#32, seen := true }

/-- `p = (wL · wL) + (wR · wR)` of the two weighted samples (R274). The channels share no history
(R173), so the right channel's output can be read before or after the left channel's step. -/
def Engine.powerValue (e : Engine) (mL mR : F64) : F64 :=
  let wL := e.cascadeValue .left mL
  let wR := (e.cascadeStep .left mL).cascadeValue .right mR
  fadd (fmul wL wL) (fmul wR wR)

/-- Both channels' prefilters advance (R274). -/
def Engine.powerStep (e : Engine) (mL mR : F64) : Engine :=
  (e.cascadeStep .left mL).cascadeStep .right mR

/-- One meter: `accAdd(m, p); mtrStep(m)` (R275). -/
def Engine.meterStep (e : Engine) (m : MeterId) (p : F64) : Engine := (e.accAdd m p).mtrStep m

/-- Both meters: meter 1 runs only when DUAL is set (R275). -/
def Engine.metersStep (e : Engine) (p : F64) : Engine :=
  if e.dual then (e.meterStep .m0 p).meterStep .m1 p else e.meterStep .m0 p

/-- The estimate fed onward, read after the meters ran: the larger of the two when DUAL is set
(R275, R276). -/
def Engine.layeredEstimate (e : Engine) (mag : F64) : F64 :=
  if e.dual then maxsel (e.estimate .m0 mag) (e.estimate .m1 mag) else e.estimate .m0 mag

/-- The estimate after the optional envelope (R277). -/
def Engine.smoothed (e : Engine) (est : F64) : F64 := if e.envEn then e.envValue est else est

/-- The engine after the optional envelope: `S.env` is not touched when ENV_EN is 0 (R277). -/
def Engine.smoothStep (e : Engine) (est : F64) : Engine := if e.envEn then e.envStep est else e

/-- The gate: `S.muted <- GATE_EN AND S.sustain AND NOT S.seen` (R279). -/
def Engine.gate (e : Engine) : Engine := { e with muted := e.gateEn && e.sustain && !e.seen }

/-- The hard ceiling on `t` with bound `H` (R280). -/
def hardClamp (H t : F64) : F64 :=
  let t1 := if fgt t H then H else t
  if flt t1 (fneg H) then fneg H else t1

/-- The gained sample before the ceiling: the products from left to right, or `+0.0` when muted
(R280). -/
def Engine.gained (e : Engine) (d : F32) : F64 :=
  if e.muted then Config.zero64 else fmul (fmul (fmul (f64 d) e.gin) e.gout) e.gain

/-- `out(d)` (R280). -/
def Engine.output (e : Engine) (d : F32) : F32 :=
  rne32 (if e.hardEn then hardClamp e.H (e.gained d) else e.gained d)

/-- A binary32 that is a NaN or an infinity (R283). -/
def nonFinite32 (x : F32) : Bool := isNaN32 x || isInf32 x

/-- `nonFinite(a, b, c, d)`: set the sticky flag when any of the four is not finite (R283). -/
def Engine.noteNonFinite (e : Engine) (a b c d : F32) : Engine :=
  { e with nf := e.nf || nonFinite32 a || nonFinite32 b || nonFinite32 c || nonFinite32 d }

/-- The engine after the meter path of one sample: silence detector, prefilter, meters, envelope,
limiter (R272 to R278). -/
def Engine.meterPath (e : Engine) (silmin : Word) (mL mR : F64) : Engine :=
  let mag := magnitude mL mR
  let e1 := e.silence silmin mag
  let e2 := (e1.powerStep mL mR).metersStep (e1.powerValue mL mR)
  let est := e2.layeredEstimate mag
  (e2.smoothStep est).limUpdate (e2.smoothed est)

/-- The output pair of the engine `e` at the output stage, for the delayed pair `d` (R280, R281). -/
def Engine.outputPair (e : Engine) (d : StereoSample) : StereoSample :=
  { l := e.output d.l, r := e.output d.r }

/-- The delay line and the gate, the last engine changes before the output stage (R279). -/
def Engine.toOutput (e : Engine) (p : StereoSample) : Engine := (e.dlyAdd p).gate

/-- From the engine `e` after the meter path: the engine after the sample and the output pair (R279 to
R283). -/
def Engine.outputStage (e : Engine) (p : StereoSample) : Engine × StereoSample :=
  let o := (e.toOutput p).outputPair (e.dlyValue p)
  ((e.toOutput p).noteNonFinite p.l p.r o.l o.r, o)

/-- One sample pair through the whole engine (R282 without its commit step): the engine after it and
the output pair. -/
def Engine.processPair (e : Engine) (silmin : Word) (p : StereoSample) : Engine × StereoSample :=
  (e.meterPath silmin (e.tap (f64 p.l)) (e.tap (f64 p.r))).outputStage p

/-- Every slot PROCESS touches is a slot its buffer has, on the engine the commit step left. A
limiter reset inside the step only sets window cursors to 0 (R52, R81). -/
def Engine.processInRange (e : Engine) : Bool :=
  e.cursorInRange .m0 && (!e.dual || e.cursorInRange .m1) && e.delayInRange

/-- The sample part of PROCESS: the results are written even when the commit step raised a fault
(R270, R281, R282). -/
def processSample (s : State) : Host.Outcome State Fault Refusal :=
  if s.eng.processInRange then
    .next (finishPair s (s.eng.processPair s.host.silmin (inputPair s)))
  else .fault .slotOutOfRange

/-- PROCESS (R270, R282): with NC clear the parameter snapshot first, then one stereo sample. -/
def execProcess (nc : Bool) (s : State) : Host.Outcome State Fault Refusal :=
  whenConfigured s (processSample (if nc then s else commitState s))

end Sys2Proof.Machine
end

