-- ==== Sys2Proof/Machine/Dispatch.lean ====
section
/-! DEFINITION. Machine/Dispatch.lean: one arm per command. -/

namespace Sys2Proof.Machine

/-- The effect of a command on the state in which `CMD` holds its word (R110). -/
def exec (i : Instr) (s : State) : Host.Outcome State Fault Refusal :=
  match i with
  | .nop => Sys2Proof.Machine.execNop s
  | .config => Sys2Proof.Machine.execConfig s
  | .commit => Sys2Proof.Machine.execCommit s
  | .process nc => Sys2Proof.Machine.execProcess nc s
  | .limReset => Sys2Proof.Machine.execLimReset s
  | .pfStage ch st => Sys2Proof.Machine.execPfStage ch st s
  | .pfApply ch => Sys2Proof.Machine.execPfApply ch s
  | .accAdd m => Sys2Proof.Machine.execAccAdd m s
  | .mtrStep m => Sys2Proof.Machine.execMtrStep m s
  | .envCalc => Sys2Proof.Machine.execEnvCalc s
  | .limUpdate => Sys2Proof.Machine.execLimUpdate s
  | .dlyAdd => Sys2Proof.Machine.execDlyAdd s

end Sys2Proof.Machine
end

