-- ==== Sys2Proof/Machine/Registers.lean ====
section
/-! DEFINITION. Machine/Registers.lean: the register map and what a read or a write of each register
does (R32 to R41, R82, R84). -/

namespace Sys2Proof.Machine

/-- The byte offset of a register (R32). -/
def offsetOf : RegName → Offset
  | .id => 0x000#12
  | .version => 0x004#12
  | .ctrl => 0x008#12
  | .status => 0x00C#12
  | .fault => 0x010#12
  | .fcode => 0x014#12
  | .finfo => 0x018#12
  | .fdetail => 0x01C#12
  | .cmd => 0x020#12
  | .opaLo => 0x028#12
  | .opaHi => 0x02C#12
  | .opbLo => 0x030#12
  | .opbHi => 0x034#12
  | .res0Lo => 0x038#12
  | .res0Hi => 0x03C#12
  | .res1Lo => 0x040#12
  | .res1Hi => 0x044#12
  | .silmin => 0x048#12
  | .obsGain => 0x050#12
  | .obsPeak => 0x054#12
  | .obsMval0 => 0x058#12
  | .obsMval1 => 0x05C#12
  | .obsEnv => 0x060#12
  | .obsWlen0 => 0x064#12
  | .obsWlen1 => 0x068#12
  | .obsDlen => 0x06C#12
  | .obsIvl0 => 0x070#12
  | .obsIvl1 => 0x074#12
  | .obsFsLo => 0x078#12
  | .obsFsHi => 0x07C#12
  | .pIngainDb => 0x100#12
  | .pOutgainDb => 0x104#12
  | .pLimitDb => 0x108#12
  | .pHardlimitDb => 0x10C#12
  | .pAttackMs => 0x110#12
  | .pReleaseMs => 0x114#12
  | .pWin0Ms => 0x118#12
  | .pWin1Ms => 0x11C#12
  | .pIntervalMs => 0x120#12
  | .pDelayMs => 0x124#12
  | .pFlags => 0x128#12

/-- Every register, in the order of the map (R32). -/
def allRegisters : List RegName :=
  [.id, .version, .ctrl, .status, .fault, .fcode, .finfo, .fdetail, .cmd, .opaLo, .opaHi, .opbLo,
   .opbHi, .res0Lo, .res0Hi, .res1Lo, .res1Hi, .silmin, .obsGain, .obsPeak, .obsMval0, .obsMval1,
   .obsEnv, .obsWlen0, .obsWlen1, .obsDlen, .obsIvl0, .obsIvl1, .obsFsLo, .obsFsHi, .pIngainDb,
   .pOutgainDb, .pLimitDb, .pHardlimitDb, .pAttackMs, .pReleaseMs, .pWin0Ms, .pWin1Ms,
   .pIntervalMs, .pDelayMs, .pFlags]

/-- The register at an offset, `none` for an offset that no register maps (R32, R83). -/
def registerAt (off : Offset) : Option RegName := allRegisters.find? (fun r => offsetOf r == off)

/-- Bits 31:0 of a 64-bit register (R82). -/
def loWord (x : BitVec 64) : Word := x.extractLsb' 0 32
/-- Bits 63:32 of a 64-bit register (R82). -/
def hiWord (x : BitVec 64) : Word := x.extractLsb' 32 32
/-- A 64-bit register with bits 31:0 replaced. -/
def withLo (x : BitVec 64) (w : Word) : BitVec 64 := x.extractLsb' 32 32 ++ w
/-- A 64-bit register with bits 63:32 replaced. -/
def withHi (x : BitVec 64) (w : Word) : BitVec 64 := w ++ x.extractLsb' 0 32

/-- The current value of a register, derived fields computed now (R32 to R41, R85). -/
def readRegister (r : RegName) (s : State) : Word :=
  match r with
  | .id => 0x4A4C4331#32
  | .version => 0x00000001#32
  | .ctrl => s.host.ctrl.setWidth 32
  | .status => statusWord s
  | .fault => s.faults.fault.setWidth 32
  | .fcode => s.faults.fcode
  | .finfo => s.faults.finfo
  | .fdetail => s.faults.fdetail
  | .cmd => s.host.cmd
  | .opaLo => loWord s.host.opa
  | .opaHi => hiWord s.host.opa
  | .opbLo => loWord s.host.opb
  | .opbHi => hiWord s.host.opb
  | .res0Lo => loWord s.host.res0
  | .res0Hi => hiWord s.host.res0
  | .res1Lo => loWord s.host.res1
  | .res1Hi => hiWord s.host.res1
  | .silmin => s.host.silmin
  | .obsGain => rne32 s.eng.gain
  | .obsPeak => rne32 s.eng.peak
  | .obsMval0 => rne32 s.eng.mtr0.val
  | .obsMval1 => rne32 s.eng.mtr1.val
  | .obsEnv => rne32 s.eng.env
  | .obsWlen0 => s.eng.win0.W
  | .obsWlen1 => s.eng.win1.W
  | .obsDlen => s.eng.D
  | .obsIvl0 => s.eng.mtr0.I
  | .obsIvl1 => s.eng.mtr1.I
  | .obsFsLo => loWord s.eng.fs
  | .obsFsHi => hiWord s.eng.fs
  | .pIngainDb => s.host.pIngainDb
  | .pOutgainDb => s.host.pOutgainDb
  | .pLimitDb => s.host.pLimitDb
  | .pHardlimitDb => s.host.pHardlimitDb
  | .pAttackMs => s.host.pAttackMs
  | .pReleaseMs => s.host.pReleaseMs
  | .pWin0Ms => s.host.pWin0Ms
  | .pWin1Ms => s.host.pWin1Ms
  | .pIntervalMs => s.host.pIntervalMs
  | .pDelayMs => s.host.pDelayMs
  | .pFlags => s.host.pFlags.setWidth 32

/-- Store a word in a register, keeping only its defined bits (R34, R40, R86); a write to a read-only
register is ignored (R84). -/
def storeRegister (r : RegName) (v : Word) (h : HostRegs) : HostRegs :=
  match r with
  | .id => h
  | .version => h
  | .ctrl => { h with ctrl := v.extractLsb' 0 7 }
  | .status => h
  | .fault => h
  | .fcode => h
  | .finfo => h
  | .fdetail => h
  | .cmd => { h with cmd := v }
  | .opaLo => { h with opa := withLo h.opa v }
  | .opaHi => { h with opa := withHi h.opa v }
  | .opbLo => { h with opb := withLo h.opb v }
  | .opbHi => { h with opb := withHi h.opb v }
  | .res0Lo => h
  | .res0Hi => h
  | .res1Lo => h
  | .res1Hi => h
  | .silmin => { h with silmin := v }
  | .obsGain => h
  | .obsPeak => h
  | .obsMval0 => h
  | .obsMval1 => h
  | .obsEnv => h
  | .obsWlen0 => h
  | .obsWlen1 => h
  | .obsDlen => h
  | .obsIvl0 => h
  | .obsIvl1 => h
  | .obsFsLo => h
  | .obsFsHi => h
  | .pIngainDb => { h with pIngainDb := v }
  | .pOutgainDb => { h with pOutgainDb := v }
  | .pLimitDb => { h with pLimitDb := v }
  | .pHardlimitDb => { h with pHardlimitDb := v }
  | .pAttackMs => { h with pAttackMs := v }
  | .pReleaseMs => { h with pReleaseMs := v }
  | .pWin0Ms => { h with pWin0Ms := v }
  | .pWin1Ms => { h with pWin1Ms := v }
  | .pIntervalMs => { h with pIntervalMs := v }
  | .pDelayMs => { h with pDelayMs := v }
  | .pFlags => { h with pFlags := v.extractLsb' 0 2 }

/-- `legal(off, width)`: a 4-byte access at a multiple of 4 that maps to a register (R83). -/
def legalAccess (off : Offset) (width : Width) : Bool :=
  width == .byte4 && off.toNat % 4 == 0 && (registerAt off).isSome

/-- The state after storing `v` into register `r`. -/
def writeRegister (r : RegName) (v : Word) (s : State) : State :=
  { s with host := storeRegister r v s.host }

end Sys2Proof.Machine
end

