-- ==== Sys2Proof/Machine/Bus.lean ====
section
/-! DEFINITION. Machine/Bus.lean: the bus transactions and the reset input (20_memory.md, R110,
R340), one atomic step each (R90, R92). -/

namespace Sys2Proof.Machine

/-- Execute the word just written to `CMD` (R110): an illegal word raises ILLEGAL_CMD and does
nothing else (R117). -/
def runCommand (w : Word) (s : State) : Host.Outcome State Fault Refusal :=
  match decode w with
  | .ok i => exec i s
  | .error _ => .next (raiseFault .illegalCmd s)

/-- The word a read returns: the register's current value, or 0 from an illegal access (R85). -/
def readWord (off : Offset) (width : Width) (s : State) : Word :=
  match registerAt off with
  | some r => if legalAccess off width then readRegister r s else 0#32
  | none => 0#32

/-- `MemRead(off, width)`: a legal read has no side effect, an illegal one raises the bus fault
(R83, R85). The word is the answer on the bus. -/
def memRead (off : Offset) (width : Width) (s : State) : State :=
  let t := if legalAccess off width then s else raiseFault (.bus off) s
  { t with readData := some (readWord off width s) }

/-- A legal write: the word is stored, and a write to `CMD` then executes it (R38, R86). -/
def writeLegal (r : RegName) (v : Word) (s : State) : Host.Outcome State Fault Refusal :=
  if r = .cmd then runCommand v (writeRegister r v s) else .next (writeRegister r v s)

/-- `MemWrite(off, width, v)` (R83, R86): an illegal write raises the bus fault and stores
nothing. -/
def memWrite (off : Offset) (width : Width) (v : Word) (s : State) :
    Host.Outcome State Fault Refusal :=
  match registerAt off with
  | some r => if legalAccess off width then writeLegal r v s else .next (raiseFault (.bus off) s)
  | none => .next (raiseFault (.bus off) s)

/-- Hardware reset: every register and every piece of engine state takes its reset value (R340). What
the outside has still to present is not the JLC's state and stays. -/
def hardwareReset (s : State) : State := { State.reset with pending := s.pending }

/-- Accept one event (R90). -/
def accept (ev : HostEvent) (s : State) : Host.Outcome State Fault Refusal :=
  match ev with
  | .read off width => .next (memRead off width s)
  | .write off width v => memWrite off width v s
  | .hardwareReset => .next (hardwareReset s)

/-- Accept the next pending event; with none the JLC does nothing (R332). -/
def acceptNext (s : State) : Host.Outcome State Fault Refusal :=
  match s.pending with
  | [] => .next s
  | ev :: rest => accept ev { s with pending := rest }

/-- The host's write of a command word: the transaction that runs the command (R4, R86). -/
def commandWrite (w : Word) : HostEvent := .write (offsetOf .cmd) .byte4 w

/-- A state in which the next bus event is the write of `w` to `CMD`. -/
def presentCommand (w : Word) (s : State) : State := { s with pending := commandWrite w :: s.pending }

end Sys2Proof.Machine
end

