-- ==== Sys2Proof/Machine/Step.lean ====
section
/-! DEFINITION. Machine/Step.lean: one step of the JLC, which is the acceptance of one bus event
(R90, R92). The JLC fetches nothing (R4, R95): a command comes to run when the host writes it to
`CMD` (log entry 5). -/

namespace Sys2Proof.Machine

/-- One step: the next pending event takes effect completely (R90). -/
def step (s : State) : Host.Outcome State Fault Refusal := acceptNext s

/-- The state whose next step runs the command with bits `w`: the host's write of that word to `CMD`
is the next bus event. -/
def State.withFetchWord (s : State) (nbits w : Nat) : State :=
  presentCommand (BitVec.ofNat 32 (w % 2 ^ nbits)) s

end Sys2Proof.Machine
end

