-- ==== Sys2Proof/Machine/Script.lean ====
section
/-! DEFINITION. Machine/Script.lean: the host-script operations and what each expands to (R118, R119).

A line is a list of bus events. Literals enter as bit patterns: turning decimal text into a pattern is
the script reader's work, outside the JLC (log entry 12). -/

namespace Sys2Proof.Machine

/-- One line of a host script (R118, R119). -/
inductive ScriptLine where
  /-- `WR reg, word` -/
  | wr (r : RegName) (w : Word)
  /-- `RD reg` -/
  | rd (r : RegName)
  /-- `NOP` -/
  | nop
  /-- `CONFIG fs` -/
  | config (fs : F64)
  /-- `COMMIT` -/
  | commit
  /-- `PROCESS l, r` -/
  | process (l r : F32)
  /-- `PROCESS.NC l, r` -/
  | processNc (l r : F32)
  /-- `LIM_RESET` -/
  | limReset
  /-- `PF_STAGE ch, st, x` -/
  | pfStage (ch : Channel) (st : Stage) (x : F64)
  /-- `PF_APPLY ch, x` -/
  | pfApply (ch : Channel) (x : F64)
  /-- `ACC_ADD m, p` -/
  | accAdd (m : MeterId) (p : F64)
  /-- `MTR_STEP m` -/
  | mtrStep (m : MeterId)
  /-- `ENV_CALC t` -/
  | envCalc (t : F64)
  /-- `LIM_UPDATE e` -/
  | limUpdate (e : F64)
  /-- `DLY_ADD l, r` -/
  | dlyAdd (l r : F32)
  deriving DecidableEq, Repr

/-- `WR reg, word` is `MemWrite(offset(reg), 4, word)` (R118). -/
def wrEvent (r : RegName) (w : Word) : HostEvent := .write (offsetOf r) .byte4 w

/-- `RD reg` is `MemRead(offset(reg), 4)` (R118). -/
def rdEvent (r : RegName) : HostEvent := .read (offsetOf r) .byte4

/-- The writes of a binary64 operand: `WR OPA_LO, lo64(v); WR OPA_HI, hi64(v)` (R119). -/
def loadOpa (v : F64) : List HostEvent := [wrEvent .opaLo (loWord v), wrEvent .opaHi (hiWord v)]

/-- The writes of a pair of binary32 operands: `WR OPA_LO, b32(l); WR OPB_LO, b32(r)` (R119). -/
def loadPair (l r : F32) : List HostEvent := [wrEvent .opaLo l, wrEvent .opbLo r]

/-- The reads of a 64-bit `RES0`. -/
def readRes0 : List HostEvent := [rdEvent .res0Lo, rdEvent .res0Hi]

/-- The reads of a 64-bit `RES1`. -/
def readRes1 : List HostEvent := [rdEvent .res1Lo, rdEvent .res1Hi]

/-- The reads of two binary32 results. -/
def readPair : List HostEvent := [rdEvent .res0Lo, rdEvent .res1Lo]

/-- A selector bit shifted to its place in the command word (R115, R119). -/
def selectorBit (b : Bool) (place : Nat) : Word := (BitVec.ofBool b).setWidth 32 <<< place

/-- The bus events of a script line (R118, R119). -/
def ScriptLine.expand : ScriptLine → List HostEvent
  | .wr r w => [wrEvent r w]
  | .rd r => [rdEvent r]
  | .nop => [wrEvent .cmd 0x00000000#32]
  | .config fs => loadOpa fs ++ [wrEvent .cmd 0x01000000#32]
  | .commit => [wrEvent .cmd 0x02000000#32]
  | .process l r => loadPair l r ++ [wrEvent .cmd 0x03000000#32] ++ readPair
  | .processNc l r => loadPair l r ++ [wrEvent .cmd 0x03010000#32] ++ readPair
  | .limReset => [wrEvent .cmd 0x04000000#32]
  | .pfStage ch st x =>
    loadOpa x ++ [wrEvent .cmd (0x10000000#32 ||| selectorBit (channelBit ch) 16 |||
      selectorBit (stageBit st) 17)] ++ readRes0
  | .pfApply ch x =>
    loadOpa x ++ [wrEvent .cmd (0x11000000#32 ||| selectorBit (channelBit ch) 16)] ++ readRes0 ++
      readRes1
  | .accAdd m p =>
    loadOpa p ++ [wrEvent .cmd (0x12000000#32 ||| selectorBit (meterBit m) 16)] ++ readRes0 ++
      readRes1
  | .mtrStep m =>
    [wrEvent .cmd (0x13000000#32 ||| selectorBit (meterBit m) 16)] ++ readRes0 ++
      [rdEvent .res1Lo]
  | .envCalc t => loadOpa t ++ [wrEvent .cmd 0x14000000#32] ++ readRes0
  | .limUpdate e => loadOpa e ++ [wrEvent .cmd 0x15000000#32] ++ readRes0 ++ readRes1
  | .dlyAdd l r => loadPair l r ++ [wrEvent .cmd 0x16000000#32] ++ readPair

/-- The bus events of a whole script, line after line. -/
def expandScript (lines : List ScriptLine) : List HostEvent := lines.flatMap ScriptLine.expand

end Sys2Proof.Machine
end

