-- ==== Sys2Proof/Safety.lean ====
section
/-! DEFINITION. Safety.lean: what a good state of the JLC is (R52, R241, R81).

`State.Inv` is the invariant the claims about every step use: the buffers are in canonical form, and
on a configured engine the lengths, cursors, counts and the limit are as R52 says. -/

namespace Sys2Proof.Machine

/-- The bounds R52 gives for one meter's window and meter state. -/
abbrev MeterBounds (w : Window) (t : Meter) : Prop :=
  1 ≤ w.W.toNat ∧ w.W.toNat ≤ Config.WMAX ∧ w.cur.toNat < w.W.toNat ∧ w.fill.toNat ≤ w.W.toNat ∧
    1 ≤ t.I.toNat ∧ t.I.toNat ≤ w.W.toNat ∧ t.dc.toNat < t.I.toNat

/-- The bounds R52 gives for the delay line. -/
abbrev DelayBounds (e : Engine) : Prop := e.D.toNat ≤ Config.DMAX ∧ e.dcur.toNat ≤ e.D.toNat

/-- `S.L` is finite and `S.L > 0` (R52). -/
abbrev LimitGood (e : Engine) : Prop :=
  isFinite64 e.L = true ∧ fgt e.L Config.zero64 = true

/-- What R52 and R241 say of a configured engine. -/
abbrev ConfiguredBounds (e : Engine) : Prop :=
  MeterBounds e.win0 e.mtr0 ∧ MeterBounds e.win1 e.mtr1 ∧ DelayBounds e ∧ LimitGood e ∧
    isNaN64 e.peak = false

/-- The three internal buffers are in canonical form: every listed slot exists (R81). -/
abbrev BuffersCanonical (e : Engine) : Prop :=
  Memory.wf 0#64 Config.WMAX e.win0.buf ∧ Memory.wf 0#64 Config.WMAX e.win1.buf ∧
    Memory.wf StereoSample.zero (Config.DMAX + 1) e.dbuf

/-- The invariant of the engine. -/
abbrev Engine.Inv (e : Engine) : Prop :=
  BuffersCanonical e ∧ (e.cfg = true → ConfiguredBounds e)

/-- The invariant of the machine. -/
abbrev State.Inv (s : State) : Prop := s.eng.Inv

/-- A step that neither faults nor refuses. -/
def Completes (o : Host.Outcome State Fault Refusal) : Prop := ∃ t, o = .next t

/-! ## Words the claims use -/

/-- The state with the binary64 operand `v` in `OPA` (R112). -/
def withOpa (v : F64) (s : State) : State := { s with host := { s.host with opa := v } }

/-- The state with a pair of binary32 operands in `OPA[31:0]` and `OPB[31:0]` (R112). -/
def withPair (p : StereoSample) (s : State) : State :=
  { s with host := { s.host with opa := withLo s.host.opa p.l, opb := withLo s.host.opb p.r } }

/-- Run one command once for each operand of a list, in order, stopping where a command stops. -/
def runEach {α : Type} (load : α → State → State) (i : Instr) :
    List α → State → Host.Outcome State Fault Refusal
  | [], s => .next s
  | a :: as, s =>
    match exec i (load a s) with
    | .next t => runEach load i as t
    | .fault r => .fault r
    | .refused r => .refused r

/-- Run a list of commands in order, each with its binary64 operand in `OPA`, stopping where a command
stops. -/
def runCommands : List (Instr × F64) → State → Host.Outcome State Fault Refusal
  | [], s => .next s
  | (i, v) :: rest, s =>
    match exec i (withOpa v s) with
    | .next t => runCommands rest t
    | .fault r => .fault r
    | .refused r => .refused r

/-- Take `n` steps, stopping where a step stops. -/
def stepTimes : Nat → State → Host.Outcome State Fault Refusal
  | 0, s => .next s
  | n + 1, s =>
    match step s with
    | .next t => stepTimes n t
    | .fault r => .fault r
    | .refused r => .refused r

/-- The commands that act on one component and take no parameter snapshot (R355). -/
def isComponent : Instr → Bool
  | .nop => false
  | .config => false
  | .commit => false
  | .process _ => false
  | .limReset => false
  | .pfStage _ _ => true
  | .pfApply _ => true
  | .accAdd _ => true
  | .mtrStep _ => true
  | .envCalc => true
  | .limUpdate => true
  | .dlyAdd => true

/-- The registers whose write takes effect only at a commit: CTRL and P_INGAIN_DB to P_FLAGS (R350,
R351). -/
def commitRegisters : List RegName :=
  [.ctrl, .pIngainDb, .pOutgainDb, .pLimitDb, .pHardlimitDb, .pAttackMs, .pReleaseMs, .pWin0Ms,
   .pWin1Ms, .pIntervalMs, .pDelayMs, .pFlags]

/-- The registers a host can store to besides `CMD` (R32). -/
def storableRegisters : List RegName :=
  [.opaLo, .opaHi, .opbLo, .opbHi, .silmin] ++ commitRegisters

/-- The read-only registers (R84). -/
def readOnlyRegisters : List RegName :=
  [.id, .version, .status, .fault, .fcode, .finfo, .fdetail, .res0Lo, .res0Hi, .res1Lo, .res1Hi,
   .obsGain, .obsPeak, .obsMval0, .obsMval1, .obsEnv, .obsWlen0, .obsWlen1, .obsDlen, .obsIvl0,
   .obsIvl1, .obsFsLo, .obsFsHi]

end Sys2Proof.Machine
end

