-- ==== Sys2Proof/Certificates/Slice0/Obligations.lean ====
section
/-! DEFINITION. Certificates/Slice0/Obligations.lean: the statements for the provers. Each docstring
names the rule of spec/ it formalises, or says what it is derived from. -/

open Sys2Proof Sys2Proof.Machine

/-! ## Encoding (30_encoding.md) -/

/-- A word decodes to a command exactly when it is the word that the encoder writes for it: no bit of
an encoding is dropped and no second word decodes to the same command (30_encoding.md, 1. Format and
2. Opcode map). -/
def Obligations.DecoderAcceptsExactlyTheEncodings : Prop :=
  ∀ (w : Word) (i : Instr), decode w = .ok i ↔ w = encode i

/-- Bytes decode to a command exactly when they are the four bytes of its word, least significant
first (30_encoding.md, 1. Format; 20_memory.md, 2. Access rules). -/
def Obligations.BytesDecodeAsOneLittleEndianWord : Prop :=
  ∀ (bs : List Byte) (i : Instr), decodeBytes bs = .ok i ↔ bs = wordBytes (encode i)

/-- R116: the table of match and mask words, letter for letter; a word in a row decodes to the row's
command, every word that decodes lies in its command's row, and no two patterns overlap. -/
def Obligations.OpcodeTableMatchesTheDecoder : Prop :=
  opcodeRows.map (fun r => (r.mnemonic, r.matchWord, r.maskWord)) =
    [ ("NOP", 0x00000000#32, 0xFFFFFFFF#32), ("CONFIG", 0x01000000#32, 0xFFFFFFFF#32),
      ("COMMIT", 0x02000000#32, 0xFFFFFFFF#32), ("PROCESS", 0x03000000#32, 0xFFFEFFFF#32),
      ("LIM_RESET", 0x04000000#32, 0xFFFFFFFF#32), ("PF_STAGE", 0x10000000#32, 0xFFFCFFFF#32),
      ("PF_APPLY", 0x11000000#32, 0xFFFEFFFF#32), ("ACC_ADD", 0x12000000#32, 0xFFFEFFFF#32),
      ("MTR_STEP", 0x13000000#32, 0xFFFEFFFF#32), ("ENV_CALC", 0x14000000#32, 0xFFFFFFFF#32),
      ("LIM_UPDATE", 0x15000000#32, 0xFFFFFFFF#32), ("DLY_ADD", 0x16000000#32, 0xFFFFFFFF#32) ] ∧
  (∀ (w : Word) (row : OpcodeRow), row ∈ opcodeRows → w &&& row.maskWord = row.matchWord →
    ∃ i, decode w = .ok i ∧ mnemonicOf i = row.mnemonic) ∧
  (∀ (w : Word) (i : Instr), decode w = .ok i →
    ∃ row ∈ opcodeRows, row.mnemonic = mnemonicOf i ∧ w &&& row.maskWord = row.matchWord) ∧
  opcodeRows.Pairwise (fun a b =>
    ∀ w : Word, ¬(w &&& a.maskWord = a.matchWord ∧ w &&& b.maskWord = b.matchWord))

/-- Words written out from R114, R115 and R116 decode to the commands they stand for, and reserved
ones are refused (30_encoding.md, 2. Opcode map). -/
def Obligations.WordsOfTheOpcodeMapDecode : Prop :=
  decode 0x00000000#32 = .ok .nop ∧ decode 0x01000000#32 = .ok .config ∧
  decode 0x02000000#32 = .ok .commit ∧ decode 0x03000000#32 = .ok (.process false) ∧
  decode 0x03010000#32 = .ok (.process true) ∧ decode 0x04000000#32 = .ok .limReset ∧
  decode 0x10010000#32 = .ok (.pfStage .right .highShelf) ∧
  decode 0x10020000#32 = .ok (.pfStage .left .highPass) ∧
  decode 0x11010000#32 = .ok (.pfApply .right) ∧ decode 0x12010000#32 = .ok (.accAdd .m1) ∧
  decode 0x13000000#32 = .ok (.mtrStep .m0) ∧ decode 0x14000000#32 = .ok .envCalc ∧
  decode 0x15000000#32 = .ok .limUpdate ∧ decode 0x16000000#32 = .ok .dlyAdd ∧
  decode 0x05000000#32 = .error .unknownOpcode ∧
  decode 0x10040000#32 = .error .reservedSelector ∧
  decode 0x00000001#32 = .error .lowHalfNotZero

/-- R117: a word that matches no row raises ILLEGAL_CMD when it is written to `CMD` and has no other
effect than being stored there (R38); an operation code outside the table, a reserved selector bit or
a low half other than 0 matches no row. -/
def Obligations.IllegalWordsOnlyFault : Prop :=
  (∀ (s : State) (w : Word), (∀ row ∈ opcodeRows, w &&& row.maskWord ≠ row.matchWord) →
    memWrite (offsetOf .cmd) .byte4 w s = .next { s with
      host := { s.host with cmd := w }
      faults := { fault := s.faults.fault ||| 0b00001#5, fcode := 1#32, finfo := w,
                  fdetail := 0#32 } }) ∧
  (∀ w : Word,
    (0x05#8 ≤ (commandFields w).opc ∧ (commandFields w).opc ≤ 0x0F#8) ∨
      0x17#8 ≤ (commandFields w).opc ∨ (commandFields w).low ≠ 0#16 ∨
      (∃ mask, selMask (commandFields w).opc = some mask ∧ (commandFields w).sel &&& ~~~mask ≠ 0#8) →
    ∀ row ∈ opcodeRows, w &&& row.maskWord ≠ row.matchWord)

/-! ## Steps and events (20_memory.md section 3, 60_exceptions.md section 4) -/

/-- A step runs the decoded command: when the next bus event writes to `CMD` a word that decodes to
`i`, the step is `exec i` on the state in which the event is taken and the word is stored; the state
that `withFetchWord` builds runs the word in its very next step; and with no event nothing happens
(20_memory.md, 3. Ordering and synchronisation; 30_encoding.md, 1. Format). -/
def Obligations.StepRunsTheDecodedCommand : Prop :=
  (∀ (s : State) (w : Word) (i : Instr) (rest : List HostEvent),
    s.pending = .write 0x020#12 .byte4 w :: rest → decode w = .ok i →
    step s = exec i { s with pending := rest, host := { s.host with cmd := w } }) ∧
  (∀ (s : State) (w : Word) (i : Instr), decode w = .ok i →
    step (s.withFetchWord 32 w.toNat) = exec i { s with host := { s.host with cmd := w } }) ∧
  (∀ s : State, s.pending = [] → step s = .next s)

/-- Each step takes exactly the next event of the order and leaves the rest in place, whatever the
event does (20_memory.md, 3. Ordering and synchronisation). The list of events is the model's own
field (log entry 5). -/
def Obligations.StepTakesExactlyOneEvent : Prop :=
  ∀ (s t : State) (ev : HostEvent) (rest : List HostEvent),
    s.pending = ev :: rest → step s = .next t → t.pending = rest

/-- The bus events of every line of a host script: WR and RD are the 4-byte write and read at the
register's offset; the writes of a command line load its operands and then run the command on them, with
the line's reads of the results still to come (30_encoding.md, 4. Host-script syntax). The list of events
to come is the model's own field (log entry 5), and literals enter as bit patterns (log entry 12). -/
def Obligations.ScriptLinesLoadOperandsThenRun : Prop :=
  ∀ (s : State) (rest : List HostEvent),
    (∀ (r : RegName) (w : Word), s.pending = (ScriptLine.wr r w).expand ++ rest →
      stepTimes 1 s = memWrite (offsetOf r) .byte4 w { s with pending := rest }) ∧
    (∀ r : RegName, s.pending = (ScriptLine.rd r).expand ++ rest →
      stepTimes 1 s = .next { s with pending := rest, readData := some (readRegister r s) }) ∧
    (s.pending = ScriptLine.nop.expand ++ rest →
      stepTimes 1 s =
        exec .nop { s with pending := rest, host := { s.host with cmd := 0x00000000#32 } }) ∧
    (∀ fs : F64, s.pending = (ScriptLine.config fs).expand ++ rest →
      stepTimes 3 s =
        exec .config { s with pending := rest, host := { s.host with cmd := 0x01000000#32, opa := fs } }) ∧
    (s.pending = ScriptLine.commit.expand ++ rest →
      stepTimes 1 s =
        exec .commit { s with pending := rest, host := { s.host with cmd := 0x02000000#32 } }) ∧
    (∀ l r : F32, s.pending = (ScriptLine.process l r).expand ++ rest →
      stepTimes 3 s =
        exec (.process false) { withPair { l := l, r := r } s with
          pending := readPair ++ rest
          host := { (withPair { l := l, r := r } s).host with cmd := 0x03000000#32 } }) ∧
    (∀ l r : F32, s.pending = (ScriptLine.processNc l r).expand ++ rest →
      stepTimes 3 s =
        exec (.process true) { withPair { l := l, r := r } s with
          pending := readPair ++ rest
          host := { (withPair { l := l, r := r } s).host with cmd := 0x03010000#32 } }) ∧
    (s.pending = ScriptLine.limReset.expand ++ rest →
      stepTimes 1 s =
        exec .limReset { s with pending := rest, host := { s.host with cmd := 0x04000000#32 } }) ∧
    (∀ (ch : Channel) (st : Stage) (x : F64),
      s.pending = (ScriptLine.pfStage ch st x).expand ++ rest →
      stepTimes 3 s =
        exec (.pfStage ch st) { s with
          pending := readRes0 ++ rest
          host := { s.host with cmd := encode (.pfStage ch st), opa := x } }) ∧
    (∀ (ch : Channel) (x : F64), s.pending = (ScriptLine.pfApply ch x).expand ++ rest →
      stepTimes 3 s =
        exec (.pfApply ch) { s with
          pending := readRes0 ++ readRes1 ++ rest
          host := { s.host with cmd := encode (.pfApply ch), opa := x } }) ∧
    (∀ (m : MeterId) (p : F64), s.pending = (ScriptLine.accAdd m p).expand ++ rest →
      stepTimes 3 s =
        exec (.accAdd m) { s with
          pending := readRes0 ++ readRes1 ++ rest
          host := { s.host with cmd := encode (.accAdd m), opa := p } }) ∧
    (∀ m : MeterId, s.pending = (ScriptLine.mtrStep m).expand ++ rest →
      stepTimes 1 s =
        exec (.mtrStep m) { s with
          pending := readRes0 ++ [rdEvent .res1Lo] ++ rest
          host := { s.host with cmd := encode (.mtrStep m) } }) ∧
    (∀ x : F64, s.pending = (ScriptLine.envCalc x).expand ++ rest →
      stepTimes 3 s =
        exec .envCalc { s with
          pending := readRes0 ++ rest
          host := { s.host with cmd := 0x14000000#32, opa := x } }) ∧
    (∀ e : F64, s.pending = (ScriptLine.limUpdate e).expand ++ rest →
      stepTimes 3 s =
        exec .limUpdate { s with
          pending := readRes0 ++ readRes1 ++ rest
          host := { s.host with cmd := 0x15000000#32, opa := e } }) ∧
    (∀ l r : F32, s.pending = (ScriptLine.dlyAdd l r).expand ++ rest →
      stepTimes 3 s =
        exec .dlyAdd { withPair { l := l, r := r } s with
          pending := readPair ++ rest
          host := { (withPair { l := l, r := r } s).host with cmd := 0x16000000#32 } })

/-! ## Faults (60_exceptions.md) -/

/-- A command other than NOP and CONFIG on an unconfigured engine raises NOT_CONFIGURED and does
nothing else, and no step but a successful CONFIG makes the engine configured (30_encoding.md,
1. Format; 70_reset_and_hazards.md, 1. Reset; 60_exceptions.md, 2. Fault action). -/
def Obligations.OnlyNopAndConfigRunUnconfigured : Prop :=
  (∀ (i : Instr) (s : State), i ≠ .nop → i ≠ .config → s.eng.cfg = false →
    exec i s = .next { s with
      faults := { fault := s.faults.fault ||| 0b00010#5, fcode := 2#32, finfo := s.host.cmd,
                  fdetail := 0#32 } }) ∧
  (∀ s t : State, s.eng.cfg = false → step s = .next t → t.eng.cfg = true →
    ∃ rest, s.pending = .write 0x020#12 .byte4 0x01000000#32 :: rest ∧
      configMask s.host s.host.opa = 0#5)

/-- R303: the fault action sets the sticky bit of the code, overwrites FCODE, FINFO and FDETAIL, and
does nothing else; STATUS.FAULT reads 1 while a fault bit is set. -/
def Obligations.FaultActionWritesOnlyTheFaultRegisters : Prop :=
  ∀ (s : State) (mask : BitVec 5) (off : Offset),
    raiseFault .illegalCmd s = { s with
      faults := { fault := s.faults.fault ||| 0b00001#5, fcode := 1#32, finfo := s.host.cmd,
                  fdetail := 0#32 } } ∧
    raiseFault .notConfigured s = { s with
      faults := { fault := s.faults.fault ||| 0b00010#5, fcode := 2#32, finfo := s.host.cmd,
                  fdetail := 0#32 } } ∧
    raiseFault (.configInvalid mask) s = { s with
      faults := { fault := s.faults.fault ||| 0b00100#5, fcode := 3#32, finfo := s.host.cmd,
                  fdetail := mask.setWidth 32 } } ∧
    raiseFault (.paramInvalid mask) s = { s with
      faults := { fault := s.faults.fault ||| 0b01000#5, fcode := 4#32, finfo := s.host.cmd,
                  fdetail := mask.setWidth 32 } } ∧
    raiseFault (.bus off) s = { s with
      faults := { fault := s.faults.fault ||| 0b10000#5, fcode := 5#32, finfo := off.setWidth 32,
                  fdetail := 0#32 } } ∧
    (readRegister .status s).getLsbD 5 = decide (s.faults.fault ≠ 0#5)

/-- R307: a step that is not a hardware reset raises no fault or one of code `k`, which adds its bit to
FAULT and overwrites all of FCODE, FINFO (the word in CMD, or the byte offset of the bus access) and
FDETAIL (the mask of failed checks for codes 3 and 4, else 0); a write to a fault register is ignored,
and a hardware reset clears all four. -/
def Obligations.FaultRegistersDescribeTheLatestFault : Prop :=
  (∀ (s t : State) (ev : HostEvent) (rest : List HostEvent),
    s.pending = ev :: rest → ev ≠ .hardwareReset → step s = .next t →
    t.faults = s.faults ∨
      ∃ (k : Nat) (info detail : Word), 1 ≤ k ∧ k ≤ 5 ∧
        t.faults = { fault := s.faults.fault ||| (1#5 <<< (k - 1)), fcode := BitVec.ofNat 32 k,
                     finfo := info, fdetail := detail } ∧
        (k ≠ 5 → info = t.host.cmd) ∧
        (k = 5 → ∃ (off : Offset) (width : Width), info = off.setWidth 32 ∧
          (ev = .read off width ∨ ∃ v, ev = .write off width v)) ∧
        (k = 3 → detail = (configMask s.host s.host.opa).setWidth 32) ∧
        (k = 4 → detail = (commitMask s).setWidth 32) ∧
        (k ≠ 3 → k ≠ 4 → detail = 0#32)) ∧
  (∀ (r : RegName) (v : Word) (s : State), r ∈ [RegName.fault, .fcode, .finfo, .fdetail] →
    memWrite (offsetOf r) .byte4 v s = .next s) ∧
  (∀ s : State, (hardwareReset s).faults =
    { fault := 0#5, fcode := 0#32, finfo := 0#32, fdetail := 0#32 })

/-! ## The register window (10_state.md section 1, 20_memory.md) -/

/-- R83: only a 4-byte access at a mapped multiple of 4 is legal; any other raises the bus fault with
FINFO the byte offset, a read then returns 0 and a write changes nothing else. -/
def Obligations.IllegalAccessesRaiseTheBusFault : Prop :=
  (∀ (off : Offset) (width : Width),
    legalAccess off width = true ↔
      width = .byte4 ∧ off.toNat % 4 = 0 ∧ ∃ r, offsetOf r = off) ∧
  (∀ off : Offset, off = 0x024#12 ∨ off = 0x04C#12 ∨ (0x080#12 ≤ off ∧ off ≤ 0x0FF#12) ∨ 0x12C#12 ≤ off →
    ¬∃ r, offsetOf r = off) ∧
  (∀ (off : Offset) (width : Width) (v : Word) (s : State), legalAccess off width = false →
    memRead off width s = { s with
      readData := some 0#32
      faults := { fault := s.faults.fault ||| 0b10000#5, fcode := 5#32, finfo := off.setWidth 32,
                  fdetail := 0#32 } } ∧
    memWrite off width v s = .next { s with
      faults := { fault := s.faults.fault ||| 0b10000#5, fcode := 5#32, finfo := off.setWidth 32,
                  fdetail := 0#32 } })

/-- R84: a write to a read-only register is ignored and raises no fault. -/
def Obligations.WritesToReadOnlyRegistersAreIgnored : Prop :=
  ∀ (r : RegName) (v : Word) (s : State),
    r ∈ [RegName.id, .version, .status, .fault, .fcode, .finfo, .fdetail, .res0Lo, .res0Hi, .res1Lo,
      .res1Hi, .obsGain, .obsPeak, .obsMval0, .obsMval1, .obsEnv, .obsWlen0, .obsWlen1, .obsDlen,
      .obsIvl0, .obsIvl1, .obsFsLo, .obsFsHi] →
    memWrite (offsetOf r) .byte4 v s = .next s

/-- R85: a legal read answers the register's current value and changes nothing, an illegal one raises
the bus fault and answers 0, and legal reads may be repeated: after any number of legal reads a
register still reads the same. The field that holds the answer is the model's own (log entry 6). -/
def Obligations.LegalReadsAreIdempotent : Prop :=
  (∀ (r : RegName) (s : State),
    memRead (offsetOf r) .byte4 s = { s with readData := some (readRegister r s) }) ∧
  (∀ (off : Offset) (width : Width) (s : State), legalAccess off width = false →
    memRead off width s = { raiseFault (.bus off) s with readData := some 0#32 }) ∧
  (∀ (reads : List RegName) (r : RegName) (s : State),
    (memRead (offsetOf r) .byte4
      (reads.foldl (fun u a => memRead (offsetOf a) .byte4 u) s)).readData =
      some (readRegister r s))

/-- A write to a register that is neither read-only nor `CMD` stores the word, keeping its defined
bits, and changes nothing else: no other register, no engine value, no fault register (20_memory.md,
2. Access rules; 10_state.md, 1. Host-visible registers; 70_reset_and_hazards.md, 3. Hazards). -/
def Obligations.WritesStoreTheDefinedBits : Prop :=
  ∀ (r : RegName) (v : Word) (s : State),
    r ∈ [RegName.ctrl, .opaLo, .opaHi, .opbLo, .opbHi, .silmin, .pIngainDb, .pOutgainDb, .pLimitDb,
      .pHardlimitDb, .pAttackMs, .pReleaseMs, .pWin0Ms, .pWin1Ms, .pIntervalMs, .pDelayMs, .pFlags] →
    ∃ t, memWrite (offsetOf r) .byte4 v s = .next t ∧
      readRegister r t =
        v &&& (if r = .ctrl then 0x0000007F#32 else if r = .pFlags then 0x00000003#32
          else 0xFFFFFFFF#32) ∧
      (∀ r', r' ≠ r → readRegister r' t = readRegister r' s) ∧
      t.eng = s.eng ∧ t.faults = s.faults ∧ t.pending = s.pending ∧ t.readData = s.readData

/-- R33: ID and VERSION read their hardwired values in every state; and so for the whole map: every
register stands at its offset, and a 4-byte read there answers the value of the state that the map names
for it and changes nothing but the field of the answer (10_state.md, 1. Host-visible registers;
20_memory.md, 1. Address spaces). The field of the answer is the model's own (log entry 6). -/
def Obligations.RegisterMapReadsTheState : Prop :=
  (∀ s : State, readRegister .id s = 0x4A4C4331#32 ∧ readRegister .version s = 0x00000001#32) ∧
  (∀ (s : State) (map : List (RegName × Offset × Word)), map =
    [ (RegName.id, 0x000#12, 0x4A4C4331#32),
      (RegName.version, 0x004#12, 0x00000001#32),
      (RegName.ctrl, 0x008#12, s.host.ctrl.setWidth 32),
      (RegName.status, 0x00C#12, statusWord s),
      (RegName.fault, 0x010#12, s.faults.fault.setWidth 32),
      (RegName.fcode, 0x014#12, s.faults.fcode),
      (RegName.finfo, 0x018#12, s.faults.finfo),
      (RegName.fdetail, 0x01C#12, s.faults.fdetail),
      (RegName.cmd, 0x020#12, s.host.cmd),
      (RegName.opaLo, 0x028#12, s.host.opa.extractLsb' 0 32),
      (RegName.opaHi, 0x02C#12, s.host.opa.extractLsb' 32 32),
      (RegName.opbLo, 0x030#12, s.host.opb.extractLsb' 0 32),
      (RegName.opbHi, 0x034#12, s.host.opb.extractLsb' 32 32),
      (RegName.res0Lo, 0x038#12, s.host.res0.extractLsb' 0 32),
      (RegName.res0Hi, 0x03C#12, s.host.res0.extractLsb' 32 32),
      (RegName.res1Lo, 0x040#12, s.host.res1.extractLsb' 0 32),
      (RegName.res1Hi, 0x044#12, s.host.res1.extractLsb' 32 32),
      (RegName.silmin, 0x048#12, s.host.silmin),
      (RegName.obsGain, 0x050#12, rne32 s.eng.gain),
      (RegName.obsPeak, 0x054#12, rne32 s.eng.peak),
      (RegName.obsMval0, 0x058#12, rne32 s.eng.mtr0.val),
      (RegName.obsMval1, 0x05C#12, rne32 s.eng.mtr1.val),
      (RegName.obsEnv, 0x060#12, rne32 s.eng.env),
      (RegName.obsWlen0, 0x064#12, s.eng.win0.W),
      (RegName.obsWlen1, 0x068#12, s.eng.win1.W),
      (RegName.obsDlen, 0x06C#12, s.eng.D),
      (RegName.obsIvl0, 0x070#12, s.eng.mtr0.I),
      (RegName.obsIvl1, 0x074#12, s.eng.mtr1.I),
      (RegName.obsFsLo, 0x078#12, s.eng.fs.extractLsb' 0 32),
      (RegName.obsFsHi, 0x07C#12, s.eng.fs.extractLsb' 32 32),
      (RegName.pIngainDb, 0x100#12, s.host.pIngainDb),
      (RegName.pOutgainDb, 0x104#12, s.host.pOutgainDb),
      (RegName.pLimitDb, 0x108#12, s.host.pLimitDb),
      (RegName.pHardlimitDb, 0x10C#12, s.host.pHardlimitDb),
      (RegName.pAttackMs, 0x110#12, s.host.pAttackMs),
      (RegName.pReleaseMs, 0x114#12, s.host.pReleaseMs),
      (RegName.pWin0Ms, 0x118#12, s.host.pWin0Ms),
      (RegName.pWin1Ms, 0x11C#12, s.host.pWin1Ms),
      (RegName.pIntervalMs, 0x120#12, s.host.pIntervalMs),
      (RegName.pDelayMs, 0x124#12, s.host.pDelayMs),
      (RegName.pFlags, 0x128#12, s.host.pFlags.setWidth 32) ] →
    map.map Prod.fst = allRegisters ∧
    ∀ x ∈ map, offsetOf x.1 = x.2.1 ∧ readRegister x.1 s = x.2.2 ∧
      memRead x.2.1 .byte4 s = { s with readData := some x.2.2 }) ∧
  (∀ r : RegName, r ∈ allRegisters) ∧
  (∀ (s : State) (r : RegName) (w : Word), r = .id ∨ r = .version →
    memWrite (offsetOf r) .byte4 w s = .next s)

/-- R35 and R36: every field of STATUS, computed from the state at the time of the read; LSTATE encodes
Cold, AtLimit, Tracking and InfiniteSustain. -/
def Obligations.StatusFieldsReflectTheState : Prop :=
  ∀ s : State,
    (readRegister .status s).getLsbD 0 = s.eng.cfg ∧
    (readRegister .status s).getLsbD 1 = s.eng.seen ∧
    (readRegister .status s).getLsbD 2 = s.eng.sustain ∧
    (readRegister .status s).getLsbD 3 = s.eng.mtr0.valid ∧
    (readRegister .status s).getLsbD 4 = s.eng.mtr1.valid ∧
    (readRegister .status s).getLsbD 5 = decide (s.faults.fault ≠ 0#5) ∧
    (readRegister .status s).getLsbD 6 = s.eng.nf ∧
    (readRegister .status s).getLsbD 7 = s.eng.muted ∧
    (readRegister .status s).extractLsb' 8 2 =
      (if s.eng.cfg = false ∨ (s.eng.sustain = false ∧ s.eng.seen = false) then 0#2
       else if s.eng.cfg = true ∧ s.eng.sustain = true then 3#2
       else if s.eng.cfg = true ∧ s.eng.sustain = false ∧ s.eng.seen = true ∧
         fgt s.eng.peak s.eng.L = true then 2#2
       else 1#2) ∧
    (readRegister .status s).extractLsb' 10 22 = 0#22

/-- R340: the hardware reset gives every host-visible register and every piece of engine state its
reset value, from any state. -/
def Obligations.HardwareResetSetsEveryValue : Prop :=
  ∀ (s : State) (rest : List HostEvent), s.pending = .hardwareReset :: rest →
    ∃ t, step s = .next t ∧
      allRegisters.map (fun r => readRegister r t) =
        [0x4A4C4331#32, 0x00000001#32, 0x0000002A#32, 0#32, 0#32, 0#32, 0#32, 0#32, 0#32,
         0#32, 0#32, 0#32, 0#32, 0#32, 0#32, 0#32, 0#32, 0x0000BB80#32,
         0#32, 0#32, 0#32, 0#32, 0#32, 0#32, 0#32, 0#32, 0#32, 0#32, 0#32, 0#32,
         0#32, 0#32, 0#32, 0#32, 0x41200000#32, 0x43480000#32, 0x43C80000#32, 0x453B8000#32,
         0#32, 0#32, 0#32] ∧
      t.faults = { fault := 0#5, fcode := 0#32, finfo := 0#32, fdetail := 0#32 } ∧
      t.eng =
        { cfg := false, fs := 0#64, ctrl := 0x2A#7
          coefShelf := { b0 := 0#64, b1 := 0#64, b2 := 0#64, a1 := 0#64, a2 := 0#64 }
          coefPass := { b0 := 0#64, b1 := 0#64, b2 := 0#64, a1 := 0#64, a2 := 0#64 }
          histLeftShelf := { x1 := 0#64, x2 := 0#64, y1 := 0#64, y2 := 0#64 }
          histLeftPass := { x1 := 0#64, x2 := 0#64, y1 := 0#64, y2 := 0#64 }
          histRightShelf := { x1 := 0#64, x2 := 0#64, y1 := 0#64, y2 := 0#64 }
          histRightPass := { x1 := 0#64, x2 := 0#64, y1 := 0#64, y2 := 0#64 }
          win0 := { W := 0#32, buf := [], sum := 0#64, comp := 0#64, cur := 0#32, fill := 0#32 }
          win1 := { W := 0#32, buf := [], sum := 0#64, comp := 0#64, cur := 0#32, fill := 0#32 }
          mtr0 := { I := 0#32, dc := 0#32, val := 0#64, valid := false }
          mtr1 := { I := 0#32, dc := 0#32, val := 0#64, valid := false }
          env := 0#64, catt := 0#64, crel := 0#64, cup := 0#64, cdown := 0#64
          L := 0#64, peak := 0#64, gain := 0#64, rf := 0#64
          seen := false, sustain := false, silrun := 0#32, prevReset := false
          gin := 0#64, gout := 0#64, H := 0#64
          D := 0#32, dbuf := [], dcur := 0#32, muted := false, nf := false } ∧
      (∀ (m : MeterId) (i : Nat), (t.eng.win m).slot i = 0#64) ∧
      (∀ i : Nat, t.eng.delaySlot i = { l := 0#32, r := 0#32 })

/-! ## System commands (40_system.md) -/

/-- R140: NOP leaves every register and every engine value unchanged, configured or not; its only word
is 0, and one with a selector or a low half is illegal. -/
def Obligations.NopChangesNothing : Prop :=
  (∀ s : State, exec .nop s = .next s) ∧ encode .nop = 0x00000000#32 ∧
  ∀ w : Word, (commandFields w).opc = 0x00#8 → w ≠ 0x00000000#32 → ∃ e, decode w = .error e

/-- CONFIG with a rate and parameters that pass every check builds the whole engine, on a configured
engine or not, and keeps `S.nf`, the register window and the fault registers. The constants are the
binary64 values 8000.0, 768000.0, 4000.0, 80.0, 20.0 and 1.0 (40_system.md, 2. CONFIG; 00_scope.md,
4. Implementation parameters and 6. Numeric formats and primitives). -/
def Obligations.ConfigBuildsTheEngine : Prop :=
  ∀ (s : State) (w0 w1 dl : Word) (gi go li ha : F64),
    gi = pow10Of Config.functionUnits (fdiv (f64 s.host.pIngainDb) 0x4034000000000000#64) →
    go = pow10Of Config.functionUnits (fdiv (f64 s.host.pOutgainDb) 0x4034000000000000#64) →
    li = pow10Of Config.functionUnits (fdiv (f64 s.host.pLimitDb) 0x4034000000000000#64) →
    ha = pow10Of Config.functionUnits (fdiv (f64 s.host.pHardlimitDb) 0x4034000000000000#64) →
    fge s.host.opa 0x40BF400000000000#64 = true → fle s.host.opa 0x4127700000000000#64 = true →
    samples s.host.pWin0Ms s.host.opa = some w0 → 1 ≤ w0.toNat → w0.toNat ≤ 1048576 →
    samples s.host.pWin1Ms s.host.opa = some w1 → 1 ≤ w1.toNat → w1.toNat ≤ 1048576 →
    samples s.host.pDelayMs s.host.opa = some dl → dl.toNat ≤ 65535 →
    fgt li 0#64 = true →
    flt li 0x7FF0000000000000#64 = true →
    exec .config s = .next { s with
      eng :=
        { cfg := true, fs := s.host.opa, ctrl := s.host.ctrl
          coefShelf := coefficientsShelf Config.functionUnits s.host.opa
          coefPass := coefficientsPass Config.functionUnits s.host.opa
          histLeftShelf := { x1 := 0#64, x2 := 0#64, y1 := 0#64, y2 := 0#64 }
          histLeftPass := { x1 := 0#64, x2 := 0#64, y1 := 0#64, y2 := 0#64 }
          histRightShelf := { x1 := 0#64, x2 := 0#64, y1 := 0#64, y2 := 0#64 }
          histRightPass := { x1 := 0#64, x2 := 0#64, y1 := 0#64, y2 := 0#64 }
          win0 := { W := w0, buf := [], sum := 0#64, comp := 0#64, cur := 0#32, fill := 0#32 }
          win1 := { W := w1, buf := [], sum := 0#64, comp := 0#64, cur := 0#32, fill := 0#32 }
          mtr0 := { I := ivl (samples s.host.pIntervalMs s.host.opa) w0, dc := 0#32, val := 0#64,
                    valid := false }
          mtr1 := { I := ivl (samples s.host.pIntervalMs s.host.opa) w1, dc := 0#32, val := 0#64,
                    valid := false }
          env := 0#64
          catt := minsel 0x3FF0000000000000#64 (fdiv 0x40AF400000000000#64 (tc s.host.pAttackMs s.host.opa))
          crel := minsel 0x3FF0000000000000#64 (fdiv 0x40AF400000000000#64 (tc s.host.pReleaseMs s.host.opa))
          cup := pow10Of Config.functionUnits
            (fdiv (fdiv 0x4054000000000000#64 (tc s.host.pAttackMs s.host.opa)) 0x4034000000000000#64)
          cdown := pow10Of Config.functionUnits
            (fneg (fdiv (fdiv 0x4054000000000000#64 (tc s.host.pReleaseMs s.host.opa)) 0x4034000000000000#64))
          L := li
          peak := li
          gain := 0x3FF0000000000000#64
          rf := pow10Of Config.functionUnits
            (fneg (fdiv (fdiv 0x4054000000000000#64 (tc s.host.pReleaseMs s.host.opa)) 0x4034000000000000#64))
          seen := false, sustain := s.host.pFlags.getLsbD 1, silrun := 0#32
          prevReset := s.host.pFlags.getLsbD 0
          gin := gi
          gout := go
          H := rtz32 ha
          D := dl, dbuf := [], dcur := 0#32, muted := false, nf := s.eng.nf } }

/-- R302: FDETAIL of CONFIG_INVALID and PARAM_INVALID has one bit per failed check, in the places FS,
WIN0, WIN1, DELAY, LIMIT, and no other bit; a failed FS at CONFIG is bit 0 alone; COMMIT, and PROCESS
with NC clear, never set bit 0; with no failed check no fault is raised. -/
def Obligations.FailedCheckMaskNamesTheFailedChecks : Prop :=
  ∀ (s : State) (li : F64),
    li = pow10Of Config.functionUnits (fdiv (f64 s.host.pLimitDb) 0x4034000000000000#64) →
    (∀ mask : Word,
      mask = (if fge s.host.opa 0x40BF400000000000#64 && fle s.host.opa 0x4127700000000000#64 then
          (if checkWin (samples s.host.pWin0Ms s.host.opa) then 0x00#32 else 0x02#32) |||
          (if checkWin (samples s.host.pWin1Ms s.host.opa) then 0x00#32 else 0x04#32) |||
          (if checkDelay (samples s.host.pDelayMs s.host.opa) then 0x00#32 else 0x08#32) |||
          (if (fgt li 0#64 && flt li 0x7FF0000000000000#64) then 0x00#32 else 0x10#32)
        else 0x01#32) →
      ∃ t, exec .config s = .next t ∧
        (mask = 0#32 → t.faults = s.faults) ∧
        (mask ≠ 0#32 → t = { s with
          faults := { fault := s.faults.fault ||| 0b00100#5, fcode := 3#32, finfo := s.host.cmd,
                      fdetail := mask } })) ∧
    (∀ mask : Word, s.eng.cfg = true →
      mask = (if checkWin (samples s.host.pWin0Ms s.eng.fs) then 0x00#32 else 0x02#32) |||
          (if checkWin (samples s.host.pWin1Ms s.eng.fs) then 0x00#32 else 0x04#32) |||
          (if checkDelay (samples s.host.pDelayMs s.eng.fs) then 0x00#32 else 0x08#32) |||
          (if (fgt li 0#64 && flt li 0x7FF0000000000000#64) then 0x00#32 else 0x10#32) →
      ∀ (i : Instr) (t : State), i = .commit ∨ i = .process false → exec i s = .next t →
        (mask = 0#32 → t.faults = s.faults) ∧
        (mask ≠ 0#32 → t.faults =
          { fault := s.faults.fault ||| 0b01000#5, fcode := 4#32, finfo := s.host.cmd,
            fdetail := mask }))

/-- COMMIT on a configured engine completes whatever the parameters hold, and takes over every derived
value; a length, the delay or the limit that fails its check keeps its old value. What a commit does
not touch is unchanged: the rate, the coefficients, the filter history, the silence run, MUTED, NF and
the register window (40_system.md, 3. COMMIT). -/
def Obligations.CommitTakesTheSnapshot : Prop :=
  ∀ (s : State) (gi go li ha : F64),
    gi = pow10Of Config.functionUnits (fdiv (f64 s.host.pIngainDb) 0x4034000000000000#64) →
    go = pow10Of Config.functionUnits (fdiv (f64 s.host.pOutgainDb) 0x4034000000000000#64) →
    li = pow10Of Config.functionUnits (fdiv (f64 s.host.pLimitDb) 0x4034000000000000#64) →
    ha = pow10Of Config.functionUnits (fdiv (f64 s.host.pHardlimitDb) 0x4034000000000000#64) →
    s.eng.cfg = true → ∃ t, exec .commit s = .next t ∧
    t.host = s.host ∧ t.pending = s.pending ∧ t.readData = s.readData ∧
    t.eng.gin = gi ∧
    t.eng.gout = go ∧
    t.eng.H = rtz32 ha ∧
    t.eng.catt = minsel 0x3FF0000000000000#64 (fdiv 0x40AF400000000000#64 (tc s.host.pAttackMs s.eng.fs)) ∧
    t.eng.crel = minsel 0x3FF0000000000000#64 (fdiv 0x40AF400000000000#64 (tc s.host.pReleaseMs s.eng.fs)) ∧
    t.eng.cup = pow10Of Config.functionUnits
      (fdiv (fdiv 0x4054000000000000#64 (tc s.host.pAttackMs s.eng.fs)) 0x4034000000000000#64) ∧
    t.eng.cdown = pow10Of Config.functionUnits
      (fneg (fdiv (fdiv 0x4054000000000000#64 (tc s.host.pReleaseMs s.eng.fs)) 0x4034000000000000#64)) ∧
    t.eng.rf = pow10Of Config.functionUnits
      (fneg (fdiv (fdiv 0x4054000000000000#64 (tc s.host.pReleaseMs s.eng.fs)) 0x4034000000000000#64)) ∧
    t.eng.L = (if fgt li 0#64 && flt li 0x7FF0000000000000#64 then li else s.eng.L) ∧
    t.eng.ctrl = s.host.ctrl ∧
    t.eng.win0.W = (if checkWin (samples s.host.pWin0Ms s.eng.fs) then
      (samples s.host.pWin0Ms s.eng.fs).getD 0#32 else s.eng.win0.W) ∧
    t.eng.win1.W = (if checkWin (samples s.host.pWin1Ms s.eng.fs) then
      (samples s.host.pWin1Ms s.eng.fs).getD 0#32 else s.eng.win1.W) ∧
    t.eng.mtr0.I = ivl (samples s.host.pIntervalMs s.eng.fs) t.eng.win0.W ∧
    t.eng.mtr1.I = ivl (samples s.host.pIntervalMs s.eng.fs) t.eng.win1.W ∧
    t.eng.D = (if checkDelay (samples s.host.pDelayMs s.eng.fs) then
      (samples s.host.pDelayMs s.eng.fs).getD 0#32 else s.eng.D) ∧
    t.eng.sustain = s.host.pFlags.getLsbD 1 ∧ t.eng.prevReset = s.host.pFlags.getLsbD 0 ∧
    t.eng.cfg = true ∧ t.eng.fs = s.eng.fs ∧ t.eng.coefShelf = s.eng.coefShelf ∧
    t.eng.coefPass = s.eng.coefPass ∧ t.eng.histLeftShelf = s.eng.histLeftShelf ∧
    t.eng.histLeftPass = s.eng.histLeftPass ∧ t.eng.histRightShelf = s.eng.histRightShelf ∧
    t.eng.histRightPass = s.eng.histRightPass ∧ t.eng.silrun = s.eng.silrun ∧
    t.eng.muted = s.eng.muted ∧ t.eng.nf = s.eng.nf

/-- A commit clears a window and its meter when its length changes, when DUAL turns on (meter 1) or on
a RESET_FLAG edge, and otherwise keeps every slot, the sum, the cursor, the fill and the reading,
restarting only a decimation counter at or beyond the new interval; it clears the delay line exactly
when the delay changes; and it sets the peak to the limit, the gain to 1.0, the envelope to +0.0 and
SEEN to 0 exactly on a RESET_FLAG edge (40_system.md, 3. COMMIT; 42_accumulator_meter.md,
1. Accumulator; 45_delay.md, 3. Length and resize). -/
def Obligations.CommitClearsOnlyWhatChanged : Prop :=
  ∀ s t : State, s.eng.cfg = true → exec .commit s = .next t →
    (∀ m : MeterId,
      if (t.eng.win m).W ≠ (s.eng.win m).W ∨
          (m = .m1 ∧ s.host.ctrl.getLsbD 0 = true ∧ s.eng.ctrl.getLsbD 0 = false) ∨
          (s.host.pFlags.getLsbD 0 = true ∧ s.eng.prevReset = false) then
        t.eng.win m = { W := (t.eng.win m).W, buf := [], sum := 0#64, comp := 0#64, cur := 0#32,
                        fill := 0#32 } ∧
        t.eng.mtr m = { I := (t.eng.mtr m).I, dc := 0#32, val := 0#64, valid := false }
      else
        t.eng.win m = s.eng.win m ∧
        t.eng.mtr m = { I := (t.eng.mtr m).I
                        dc := if (t.eng.mtr m).I ≤ (s.eng.mtr m).dc then 0#32 else (s.eng.mtr m).dc
                        val := (s.eng.mtr m).val, valid := (s.eng.mtr m).valid }) ∧
    (if t.eng.D = s.eng.D then t.eng.dbuf = s.eng.dbuf ∧ t.eng.dcur = s.eng.dcur
      else t.eng.dbuf = [] ∧ t.eng.dcur = 0#32) ∧
    (if s.host.pFlags.getLsbD 0 = true ∧ s.eng.prevReset = false then
        t.eng.peak = t.eng.L ∧ t.eng.gain = Config.one64 ∧ t.eng.env = 0#64 ∧ t.eng.seen = false
      else t.eng.peak = s.eng.peak ∧ t.eng.gain = s.eng.gain ∧ t.eng.env = s.eng.env ∧
        t.eng.seen = s.eng.seen)

/-- LIM_RESET sets the peak to the limit and the gain to 1.0, clears both windows and meters and
the envelope and SEEN, and keeps everything else: the filter history, the delay line, the silence run,
the sustain flag, every derived coefficient, the registers. LSTATE becomes Cold, or InfiniteSustain
under sustain. Its word is 0x04000000 (40_system.md, 4. LIM_RESET). -/
def Obligations.LimResetRestoresTheLimit : Prop :=
  encode .limReset = 0x04000000#32 ∧
  ∀ s : State, s.eng.cfg = true → ∃ t, exec .limReset s = .next t ∧
    t = { s with
      eng := { s.eng with
        win0 := { W := s.eng.win0.W, buf := [], sum := 0#64, comp := 0#64, cur := 0#32,
                  fill := 0#32 }
        win1 := { W := s.eng.win1.W, buf := [], sum := 0#64, comp := 0#64, cur := 0#32,
                  fill := 0#32 }
        mtr0 := { I := s.eng.mtr0.I, dc := 0#32, val := 0#64, valid := false }
        mtr1 := { I := s.eng.mtr1.I, dc := 0#32, val := 0#64, valid := false }
        peak := s.eng.L, gain := Config.one64, env := 0#64, seen := false } } ∧
    (readRegister .status t).extractLsb' 8 2 = (if s.eng.sustain = true then 3#2 else 0#2)

/-- The ten coefficients of a rate, from the pre-warped frequencies, with the filter constants as the
spec lists them and the operations in the order it writes them (41_prefilter.md, 1. Coefficients). -/
def Obligations.CoefficientsFollowTheBilinearFormulas : Prop :=
  ∀ (u : FunctionUnits) (fs kS kkS kqS aS kP kkP kqP aP : F64),
    kS = tanOf u (fdiv (fmul 0x400921FB54442D18#64 0x409A47E5D678A648#64) fs) → kkS = fmul kS kS →
    kqS = fdiv kS 0x3FE6A12DF668776C#64 → aS = fadd (fadd 0x3FF0000000000000#64 kqS) kkS →
    kP = tanOf u (fdiv (fmul 0x400921FB54442D18#64 0x404311571C130AF0#64) fs) → kkP = fmul kP kP →
    kqP = fdiv kP 0x3FE002ADD8D38A3C#64 → aP = fadd (fadd 0x3FF0000000000000#64 kqP) kkP →
    coefficientsShelf u fs =
      { b0 := fdiv (fadd (fadd 0x3FF95B9B16BF11C6#64 (fmul 0x3FF423B88EE23B99#64 kqS)) kkS) aS
        b1 := fdiv (fmul 0x4000000000000000#64 (fsub kkS 0x3FF95B9B16BF11C6#64)) aS
        b2 := fdiv (fadd (fsub 0x3FF95B9B16BF11C6#64 (fmul 0x3FF423B88EE23B99#64 kqS)) kkS) aS
        a1 := fdiv (fmul 0x4000000000000000#64 (fsub kkS 0x3FF0000000000000#64)) aS
        a2 := fdiv (fadd (fsub 0x3FF0000000000000#64 kqS) kkS) aS } ∧
    coefficientsPass u fs =
      { b0 := 0x3FF0000000000000#64, b1 := 0xC000000000000000#64, b2 := 0x3FF0000000000000#64
        a1 := fdiv (fmul 0x4000000000000000#64 (fsub kkP 0x3FF0000000000000#64)) aP
        a2 := fdiv (fadd (fsub 0x3FF0000000000000#64 kqP) kkP) aP }

/-- R18: the number of samples of a time is the whole part of `(ms · fs) / 1000.0`, INVALID for a NaN,
a negative value or one of `2^32` or more; a time of −0.0 at a positive finite rate is 0 samples. -/
def Obligations.SamplesIsTheFloorOfTheTime : Prop :=
  (∀ (ms : F32) (fs x : F64), x = fdiv (fmul (f64 ms) fs) 0x408F400000000000#64 →
    (samples ms fs = none ↔
      isNaN64 x = true ∨ flt x 0#64 = true ∨ fge x 0x41F0000000000000#64 = true) ∧
    (∀ n : Word, samples ms fs = some n →
      isFinite64 x = true ∧ ((n.toNat : Nat) : ℚ) ≤ valueOf x ∧ valueOf x < (n.toNat : ℚ) + 1)) ∧
  (∀ fs : F64, isFinite64 fs = true → fgt fs 0#64 = true →
    samples 0x80000000#32 fs = some 0#32)

/-- R19: a time constant is the larger of `(ms · fs) / 1000.0` and 1.0 by `maxsel`, so at least 1.0 for
every input; a negative, zero or NaN time gives 1.0 and +Infinity gives +Infinity, at every positive
finite rate. -/
def Obligations.TimeConstantIsAtLeastOne : Prop :=
  (∀ (ms : F32) (fs : F64),
    tc ms fs =
      maxsel (fdiv (fmul (f64 ms) fs) 0x408F400000000000#64) 0x3FF0000000000000#64 ∧
    fge (tc ms fs) 0x3FF0000000000000#64 = true) ∧
  (∀ (ms : F32) (fs : F64), isFinite64 fs = true → fgt fs 0#64 = true →
    ((isNaN32 ms = true ∨ sign32 ms = true ∨ mag32 ms = 0) → tc ms fs = 0x3FF0000000000000#64) ∧
    (ms = 0x7F800000#32 → tc ms fs = 0x7FF0000000000000#64))

/-- R143: the calculation interval lies between 1 and the window length, and is 1 for an INVALID or
zero parameter, the window length for a larger one and the parameter otherwise. -/
def Obligations.IntervalStaysInTheWindow : Prop :=
  ∀ (iv : Option Word) (w : Word), 1 ≤ w.toNat →
    1 ≤ (ivl iv w).toNat ∧ (ivl iv w).toNat ≤ w.toNat ∧
    (iv = none ∨ iv = some 0#32 → ivl iv w = 1#32) ∧
    (∀ n, iv = some n → w < n → ivl iv w = w) ∧
    (∀ n, iv = some n → n ≠ 0#32 → n ≤ w → ivl iv w = n)

/-! ## Prefilter (41_prefilter.md) -/

/-- R171: one stage step, literally: the output, the shifted history of that stage of that channel,
the result, and nothing else. -/
def Obligations.StageFollowsTheRecurrence : Prop :=
  ∀ (ch : Channel) (st : Stage) (s : State) (x y : F64) (c : Coefs) (h : History),
    s.eng.cfg = true → x = s.host.opa → c = s.eng.coef st → h = s.eng.hist ch st →
    y = fsub (fsub (fadd (fadd (fmul c.b0 x) (fmul c.b1 h.x1)) (fmul c.b2 h.x2)) (fmul c.a1 h.y1))
      (fmul c.a2 h.y2) →
    ∃ t, exec (.pfStage ch st) s = .next t ∧
      t.eng.hist ch st = { x1 := x, x2 := h.x1, y1 := y, y2 := h.y1 } ∧
      (∀ ch' st', (ch', st') ≠ (ch, st) → t.eng.hist ch' st' = s.eng.hist ch' st') ∧
      t = { s with
        host := { s.host with res0 := y }
        eng := { s.eng with
          histLeftShelf := t.eng.histLeftShelf, histLeftPass := t.eng.histLeftPass
          histRightShelf := t.eng.histRightShelf, histRightPass := t.eng.histRightPass } }

/-- R173: a stage step writes no other engine state than its own history and depends on no other than
that and the coefficients of its stage; steps of the two channels commute; and PF_APPLY is the high-shelf step followed by the
high-pass step on its output, `RES0` the output of the cascade and `RES1` that of the shelf. -/
def Obligations.StagesCascadeAndChannelsAreIndependent : Prop :=
  (∀ (ch : Channel) (st : Stage) (s : State), s.eng.cfg = true →
    ∃ t, exec (.pfStage ch st) s = .next t ∧
      (∀ ch' st', (ch', st') ≠ (ch, st) → t.eng.hist ch' st' = s.eng.hist ch' st') ∧
      t = { s with
        host := { s.host with res0 := t.host.res0 }
        eng := { s.eng with
          histLeftShelf := t.eng.histLeftShelf, histLeftPass := t.eng.histLeftPass
          histRightShelf := t.eng.histRightShelf, histRightPass := t.eng.histRightPass } }) ∧
  (∀ (ch : Channel) (st : Stage) (s s' : State),
    s.eng.cfg = true → s'.eng.cfg = true → s.host.opa = s'.host.opa →
    s.eng.coef st = s'.eng.coef st → s.eng.hist ch st = s'.eng.hist ch st →
    ∃ t t', exec (.pfStage ch st) s = .next t ∧ exec (.pfStage ch st) s' = .next t' ∧
      t.host.res0 = t'.host.res0 ∧ t.eng.hist ch st = t'.eng.hist ch st) ∧
  (∀ (stL stR : Stage) (x y : F64) (s : State), s.eng.cfg = true →
    ∃ a b c d, exec (.pfStage .left stL) (withOpa x s) = .next a ∧
      exec (.pfStage .right stR) (withOpa y a) = .next b ∧
      exec (.pfStage .right stR) (withOpa y s) = .next c ∧
      exec (.pfStage .left stL) (withOpa x c) = .next d ∧
      b.eng = d.eng ∧ a.host.res0 = d.host.res0 ∧ b.host.res0 = c.host.res0) ∧
  (∀ (ch : Channel) (s : State), s.eng.cfg = true →
    ∃ a b, exec (.pfStage ch .highShelf) s = .next a ∧
      exec (.pfStage ch .highPass) (withOpa a.host.res0 a) = .next b ∧
      exec (.pfApply ch) s = .next { s with
        eng := b.eng
        host := { s.host with res0 := b.host.res0, res1 := a.host.res0 } })

/-- A NaN input or a NaN kept from an earlier output makes the output of a stage step NaN, and once
the newest output in a stage's history is NaN it stays so through every step of the machine but a
CONFIG or a hardware reset (41_prefilter.md, 3. Commands). -/
def Obligations.NaNStaysInTheFilterHistory : Prop :=
  (∀ (ch : Channel) (st : Stage) (s : State), s.eng.cfg = true →
    isNaN64 s.host.opa = true ∨ isNaN64 (s.eng.hist ch st).y1 = true →
    ∃ t, exec (.pfStage ch st) s = .next t ∧ isNaN64 t.host.res0 = true ∧
      isNaN64 (t.eng.hist ch st).y1 = true) ∧
  (∀ (ch : Channel) (st : Stage) (s t : State), isNaN64 (s.eng.hist ch st).y1 = true →
    s.pending.head? ≠ some .hardwareReset →
    s.pending.head? ≠ some (.write 0x020#12 .byte4 0x01000000#32) →
    step s = .next t → isNaN64 (t.eng.hist ch st).y1 = true)

/-! ## Accumulator and meter (42_accumulator_meter.md) -/

/-- ACC_ADD subtracts the value that leaves the window and adds the new one in two compensated steps, in
that order; the new value takes the slot at the cursor, the cursor wraps at the window length, the fill
count saturates at it. ACC_ADD answers the sum and the mean and changes nothing else. A NaN or infinite
operand makes the sum a NaN, and the sum stays a NaN through any run of ACC_ADD commands, until LIM_RESET
clears the window (42_accumulator_meter.md, 1. Accumulator). That the sum is a NaN already at the
insertion of an infinite operand is the corner case of R192, against the arithmetic of R190 (log entry
18). -/
def Obligations.InsertionIsTwoCompensatedSteps : Prop :=
  (∀ (m : MeterId) (s : State) (w : Window) (v old y1 t1 c1 y2 t2 c2 : F64),
    s.eng.cfg = true → w = s.eng.win m → w.cur.toNat < 1048576 →
    Memory.wf 0#64 1048576 w.buf → v = s.host.opa → old = w.slot w.cur.toNat →
    y1 = fsub (fneg old) w.comp → t1 = fadd w.sum y1 → c1 = fsub (fsub t1 w.sum) y1 →
    y2 = fsub v c1 → t2 = fadd t1 y2 → c2 = fsub (fsub t2 t1) y2 →
    ∃ t u, exec (.accAdd m) s = .next t ∧ u = t.eng.win m ∧
      (isInf64 v = false → u.sum = t2) ∧
      (isNaN64 v = true ∨ isInf64 v = true → isNaN64 u.sum = true) ∧
      u.comp = c2 ∧ u.W = w.W ∧
      (∀ i, u.slot i = if i = w.cur.toNat then v else w.slot i) ∧
      u.cur.toNat = (if w.cur.toNat + 1 = w.W.toNat then 0 else w.cur.toNat + 1) ∧
      u.fill.toNat = (if w.fill.toNat < w.W.toNat then w.fill.toNat + 1 else w.fill.toNat) ∧
      t = { s with
        host := { s.host with res0 := u.sum, res1 := fdiv u.sum (f64u w.W.toNat) }
        eng := match m with
          | .m0 => { s.eng with win0 := u }
          | .m1 => { s.eng with win1 := u } }) ∧
  (∀ (m : MeterId) (s : State) (vs : List F64), s.eng.cfg = true →
    (s.eng.win m).cur.toNat < (s.eng.win m).W.toNat → (s.eng.win m).W.toNat ≤ 1048576 →
    isNaN64 (s.eng.win m).sum = true →
    ∃ t u, runEach withOpa (.accAdd m) vs s = .next t ∧ isNaN64 (t.eng.win m).sum = true ∧
      exec .limReset t = .next u ∧ (u.eng.win m).sum = 0#64)

/-- From a cleared window of `W` slots, after any run of ACC_ADD commands the `j`-th slot behind the
cursor holds the `j`-th most recent value inserted, or +0.0 when fewer were; the cursor and the fill
count follow the number of insertions, so the slot at the cursor is the oldest
(42_accumulator_meter.md, 1. Accumulator). -/
def Obligations.WindowHoldsTheLastInsertions : Prop :=
  ∀ (m : MeterId) (s : State) (W : Word) (vs : List F64), s.eng.cfg = true →
    s.eng.win m = { W := W, buf := [], sum := 0#64, comp := 0#64, cur := 0#32, fill := 0#32 } →
    1 ≤ W.toNat → W.toNat ≤ 1048576 →
    ∃ t, runEach withOpa (.accAdd m) vs s = .next t ∧ (t.eng.win m).W = W ∧
      (t.eng.win m).cur.toNat = vs.length % W.toNat ∧
      (t.eng.win m).fill.toNat = min vs.length W.toNat ∧
      ∀ j, j < W.toNat →
        (t.eng.win m).slot ((vs.length + W.toNat - 1 - j) % W.toNat) = vs.reverse.getD j 0#64

/-- R195: the reading is KCAL times the square root of the mean, with a sum of 0 or less read as +0.0
and a NaN sum giving a NaN. MTR_STEP counts the interval, recomputes the reading when it has elapsed
and sets the ready flag then if the window is full; it answers the reading and the flag and changes
nothing else. -/
def Obligations.MeterReadsTheRootMeanSquare : Prop :=
  ∀ (m : MeterId) (s : State) (w : Window) (o : Meter) (r : F64),
    s.eng.cfg = true → w = s.eng.win m → o = s.eng.mtr m →
    r = fmul 0x3FED8D8A4AF73D79#64
      (fsqrt (fdiv (if fle w.sum 0#64 then 0#64 else w.sum) (f64u w.W.toNat))) →
    (isNaN64 w.sum = true → isNaN64 r = true) ∧
    ∃ t u, exec (.mtrStep m) s = .next t ∧ u = t.eng.mtr m ∧ u.I = o.I ∧
      (if o.I.toNat ≤ o.dc.toNat + 1 then
        u.dc = 0#32 ∧ u.val = r ∧ u.valid = (o.valid || decide (w.fill = w.W))
      else u.dc.toNat = o.dc.toNat + 1 ∧ u.val = o.val ∧ u.valid = o.valid) ∧
      t = { s with
        host := { s.host with res0 := u.val, res1 := if u.valid then 1#64 else 0#64 }
        eng := match m with
          | .m0 => { s.eng with mtr0 := u }
          | .m1 => { s.eng with mtr1 := u } }

/-- From a cleared window and meter, after any number `n` of insertions each followed by MTR_STEP, the
decimation counter is `n` modulo the interval and the reading is valid exactly when a recomputation
has seen the window full: the last multiple of the interval up to `n` is at least the window length
(42_accumulator_meter.md, 2. Meter). -/
def Obligations.MeterBecomesValidAfterAFullWindow : Prop :=
  ∀ (m : MeterId) (s : State) (W I : Word) (vs : List F64), s.eng.cfg = true →
    s.eng.win m = { W := W, buf := [], sum := 0#64, comp := 0#64, cur := 0#32, fill := 0#32 } →
    s.eng.mtr m = { I := I, dc := 0#32, val := 0#64, valid := false } →
    1 ≤ W.toNat → W.toNat ≤ 1048576 → 1 ≤ I.toNat →
    ∃ t, runCommands (vs.flatMap fun v => [(.accAdd m, v), (.mtrStep m, 0#64)]) s = .next t ∧
      (t.eng.mtr m).dc.toNat = vs.length % I.toNat ∧
      ((t.eng.mtr m).valid = true ↔ W.toNat ≤ I.toNat * (vs.length / I.toNat))

/-! ## Envelope (43_envelope.md) -/

/-- ENV_CALC runs the model that ENV_MODEL selects, literally, answers the new value and changes
nothing but it, whether ENV_EN is set or not; a NaN target makes the value a NaN in both models, and a
target of +Infinity makes a linear value that is not a NaN +Infinity (43_envelope.md, 2. The two models and
3. Command). In the exponential model the NaN is the corner case of R222, against the formula of R224 (log
entry 14); in the linear model the +Infinity is that of R222 and R225, against the formula of R223 at a zero
coefficient and at T = v (log entry 19). That every other linear target follows the formula also where it
gives a NaN, and that an infinite exponential value stays one through a finite target, are the model's
readings (log entries 20 and 21). -/
def Obligations.EnvelopeStepFollowsItsModel : Prop :=
  ∀ (s : State) (T v r : F64), s.eng.cfg = true → T = s.host.opa →
    (s.eng.ctrl.getLsbD 2 = false → v = s.eng.env ∧
      r = (if fgt T v then
          (if fgt (fadd v (fmul (fsub T v) s.eng.catt)) T then T
            else fadd v (fmul (fsub T v) s.eng.catt))
        else
          (if flt (fadd v (fmul (fsub T v) s.eng.crel)) T then T
            else fadd v (fmul (fsub T v) s.eng.crel)))) →
    (s.eng.ctrl.getLsbD 2 = true →
      v = (if flt s.eng.env 0x3D70000000000000#64 then 0x3D70000000000000#64 else s.eng.env) ∧
      r = (if fgt T v then (if fgt (fmul v s.eng.cup) T then T else fmul v s.eng.cup)
        else (if flt (fmul v s.eng.cdown) T then T else fmul v s.eng.cdown))) →
    ∃ w, exec .envCalc s = .next { s with
        host := { s.host with res0 := w }, eng := { s.eng with env := w } } ∧
      (isNaN64 T = true → isNaN64 w = true) ∧
      (s.eng.ctrl.getLsbD 2 = false → T = 0x7FF0000000000000#64 → isNaN64 v = false → w = T) ∧
      ((s.eng.ctrl.getLsbD 2 = false → T ≠ 0x7FF0000000000000#64 ∨ isNaN64 v = true) →
        (s.eng.ctrl.getLsbD 2 = true → isNaN64 T = false) →
        w = (if flt r 0x3D70000000000000#64 then 0x3D70000000000000#64 else r))

/-- For a finite target and a finite value of 0 or more, with coefficients in their ranges, an output
is at least EPS; when the target is above the value (and not below EPS) the output lies between the
value and the target, and when the target is not above a value of at least EPS the output lies between
the larger of target and EPS and the value (43_envelope.md, 4. Properties). A linear release coefficient of
0 is covered wherever the difference of target and value is finite; where it is -Infinity, for a finite
target that is an overflow, the output is a NaN: the model's choice (log entry 20). -/
def Obligations.EnvelopeMovesTowardsTheTarget : Prop :=
  (∀ s : State, s.eng.cfg = true → isFinite64 s.host.opa = true → isFinite64 s.eng.env = true →
    fle Config.zero64 s.eng.env = true →
    (s.eng.ctrl.getLsbD 2 = false →
      fle Config.zero64 s.eng.catt = true ∧ fle s.eng.catt Config.one64 = true ∧
      fle Config.zero64 s.eng.crel = true ∧ fle s.eng.crel Config.one64 = true ∧
      (flt Config.zero64 s.eng.crel = true ∨ isFinite64 (fsub s.host.opa s.eng.env) = true)) →
    (s.eng.ctrl.getLsbD 2 = true →
      fle Config.one64 s.eng.cup = true ∧ fle Config.zero64 s.eng.cdown = true ∧
      fle s.eng.cdown Config.one64 = true) →
    ∃ t, exec .envCalc s = .next t ∧ t.host.res0 = t.eng.env ∧
      fle Config.EPS t.eng.env = true ∧
      (flt s.eng.env s.host.opa = true → fle Config.EPS s.host.opa = true →
        fle s.eng.env t.eng.env = true ∧ fle t.eng.env s.host.opa = true) ∧
      (fle s.host.opa s.eng.env = true → fle Config.EPS s.eng.env = true →
        fle (maxsel s.host.opa Config.EPS) t.eng.env = true ∧ fle t.eng.env s.eng.env = true)) ∧
  (∀ s : State, s.eng.cfg = true → s.eng.ctrl.getLsbD 2 = false → isZero64 s.eng.crel = true →
    fle s.host.opa s.eng.env = true → fsub s.host.opa s.eng.env = 0xFFF0000000000000#64 →
    ∃ t, exec .envCalc s = .next t ∧ t.host.res0 = t.eng.env ∧ isNaN64 t.eng.env = true)

/-- A NaN target makes the envelope and the result NaN in both models; a NaN envelope stays NaN through
any run of ENV_CALC commands in either model, whatever the targets; LIM_RESET clears it to +0.0
(43_envelope.md, 3. Command). In the exponential model the NaN of a NaN target is the corner case of R222,
against the formula of R224 (log entry 14). -/
def Obligations.EnvelopeKeepsANaN : Prop :=
  (∀ s : State, s.eng.cfg = true → isNaN64 s.host.opa = true →
    ∃ t, exec .envCalc s = .next t ∧ isNaN64 t.eng.env = true ∧ t.host.res0 = t.eng.env) ∧
  (∀ (s : State) (targets : List F64), s.eng.cfg = true → isNaN64 s.eng.env = true →
    ∃ t u, runEach withOpa .envCalc targets s = .next t ∧ isNaN64 t.eng.env = true ∧
      exec .limReset t = .next u ∧ u.eng.env = 0#64)

/-- The block's function units meet all that is required of `Pow10` and `Tan` (00_scope.md, 6. Numeric
formats and primitives): faithful rounding, the special values, monotonicity and positivity; so
`Pow10(1.0)` is exactly 10.0. Hence, whatever the times and the rate, the linear coefficients lie between
0 and 1, the rising factor is at least 1.0, and the falling and release factors are above 0 and at most
1.0 (43_envelope.md, 1. Model selection and coefficients; 44_limiter.md, 2. Transition), for the block's
units and for any other pair that meets the requirement. -/
def Obligations.FunctionUnitsAndSmoothingCoefficientsStayInRange : Prop :=
  (∀ x : F64, isFinite64 x = true →
    Faithful (pow10Of Config.functionUnits x) ((10 : ℝ) ^ ((valueOf x : ℚ) : ℝ)) ∧
    Faithful (tanOf Config.functionUnits x) (Real.tan ((valueOf x : ℚ) : ℝ)) ∧
    (((valueOf 1#64 : ℚ) : ℝ) ≤ (10 : ℝ) ^ ((valueOf x : ℚ) : ℝ) →
      fgt (pow10Of Config.functionUnits x) 0#64 = true)) ∧
  (∀ x y : F64, fle x y = true →
    fle (pow10Of Config.functionUnits x) (pow10Of Config.functionUnits y) = true) ∧
  pow10Of Config.functionUnits 0x3FF0000000000000#64 = 0x4024000000000000#64 ∧
  (∀ u : FunctionUnits,
    pow10Of u 0x0000000000000000#64 = 0x3FF0000000000000#64 ∧
    pow10Of u 0x8000000000000000#64 = 0x3FF0000000000000#64 ∧
    pow10Of u 0x7FF0000000000000#64 = 0x7FF0000000000000#64 ∧
    pow10Of u 0xFFF0000000000000#64 = 0x0000000000000000#64 ∧
    ∀ x : F64, isNaN64 x = true → isNaN64 (pow10Of u x) = true ∧ isNaN64 (tanOf u x) = true) ∧
  (∀ (u : FunctionUnits) (h : HostRegs) (fs : F64),
    u = Config.functionUnits ∨ Machine.FunctionUnits.Lawful u →
    (fle Config.zero64 (deriveOf u h fs).catt = true ∧
      fle (deriveOf u h fs).catt Config.one64 = true) ∧
    (fle Config.zero64 (deriveOf u h fs).crel = true ∧
      fle (deriveOf u h fs).crel Config.one64 = true) ∧
    fle Config.one64 (deriveOf u h fs).cup = true ∧
    (flt Config.zero64 (deriveOf u h fs).cdown = true ∧
      fle (deriveOf u h fs).cdown Config.one64 = true) ∧
    (flt Config.zero64 (deriveOf u h fs).rf = true ∧
      fle (deriveOf u h fs).rf Config.one64 = true))

/-! ## Limiter (44_limiter.md) -/

/-- The limiter transition, literally (44_limiter.md, 2. Transition): the floor at the limit, the instantaneous attack, the
release unless sustained, the hold, and the gain recomputed in every case. After the floor the peak is
positive, the limit being so. LIM_UPDATE answers the gain and the peak and changes nothing else. -/
def Obligations.LimiterTransitionFollowsTheRule : Prop :=
  ∀ (s : State) (e p0 p1 g : F64), s.eng.cfg = true → e = s.host.opa →
    p0 = (if flt s.eng.peak s.eng.L then s.eng.L else s.eng.peak) →
    p1 = (if fgt e p0 then e
      else if flt e p0 = true ∧ fgt p0 s.eng.L = true ∧ s.eng.sustain = false then
        maxsel (fmul p0 s.eng.rf) (maxsel e s.eng.L)
      else p0) →
    g = (if fgt p1 0#64 then fdiv s.eng.L p1 else 0x3FF0000000000000#64) →
    exec .limUpdate s = .next { s with
      host := { s.host with res0 := g, res1 := p1 }
      eng := { s.eng with peak := p1, gain := g } } ∧
    (fgt s.eng.L 0#64 = true → isNaN64 s.eng.peak = false →
      fgt p0 0#64 = true ∧ fgt p1 0#64 = true)

/-- After LIM_UPDATE with a finite peak, on a positive finite limit: the peak is at least the limit,
the gain is limit over peak rounded once and at most 1.0, it is 1.0 exactly when the peak equals the
limit, and it is positive for a limit of at least 2^-51 (44_limiter.md, 4. Gain ceiling and
invariants). -/
def Obligations.GainNeverExceedsOne : Prop :=
  ∀ s t : State, s.eng.cfg = true → isFinite64 s.eng.L = true →
    fgt s.eng.L Config.zero64 = true → isNaN64 s.eng.peak = false →
    exec .limUpdate s = .next t → isFinite64 t.eng.peak = true →
    fle s.eng.L t.eng.peak = true ∧ t.eng.gain = fdiv s.eng.L t.eng.peak ∧
    fle t.eng.gain Config.one64 = true ∧
    (feq t.eng.gain Config.one64 = true ↔ feq t.eng.peak s.eng.L = true) ∧
    (fle 0x3CC0000000000000#64 s.eng.L = true → flt Config.zero64 t.eng.gain = true)

/-- Under infinite sustain, a run of LIM_UPDATE commands leaves the peak at the largest of the old
peak, the limit and the estimates that are not NaN (44_limiter.md, 2. Transition). -/
def Obligations.SustainHoldsTheRunningMaximum : Prop :=
  ∀ (s : State) (es : List F64), s.eng.cfg = true → s.eng.sustain = true →
    fgt s.eng.L Config.zero64 = true → isNaN64 s.eng.peak = false → es ≠ [] →
    ∃ t, runEach withOpa .limUpdate es s = .next t ∧
      fle s.eng.peak t.eng.peak = true ∧ fle s.eng.L t.eng.peak = true ∧
      (∀ e ∈ es, isNaN64 e = false → fle e t.eng.peak = true) ∧
      (t.eng.peak = s.eng.peak ∨ t.eng.peak = s.eng.L ∨ t.eng.peak ∈ es)

/-- An infinite estimate makes the peak +Infinity and the gain +0.0; both then stay through any run of
LIM_UPDATE commands, while the release factor is positive; and no estimate makes the peak NaN
(44_limiter.md, 2. Transition). -/
def Obligations.InfiniteEstimateMutes : Prop :=
  (∀ s : State, s.eng.cfg = true → isFinite64 s.eng.L = true → fgt s.eng.L Config.zero64 = true →
    isNaN64 s.eng.peak = false → s.host.opa = Config.inf64 →
    ∃ t, exec .limUpdate s = .next t ∧ t.eng.gain = 0#64 ∧ t.eng.peak = Config.inf64 ∧
      t.host.res0 = 0#64 ∧ t.host.res1 = Config.inf64) ∧
  (∀ (s : State) (es : List F64), s.eng.cfg = true → isFinite64 s.eng.L = true →
    fgt s.eng.L Config.zero64 = true → fgt s.eng.rf Config.zero64 = true →
    s.eng.peak = Config.inf64 → s.eng.gain = 0#64 →
    ∃ t, runEach withOpa .limUpdate es s = .next t ∧ t.eng.peak = Config.inf64 ∧
      t.eng.gain = 0#64) ∧
  (∀ s t : State, isNaN64 s.eng.L = false → isNaN64 s.eng.peak = false →
    exec .limUpdate s = .next t → isNaN64 t.eng.peak = false)

/-! ## Delay line (45_delay.md) -/

/-- R262: DLY_ADD stores the two bit patterns of its operands in the slot at the cursor and leaves every
other slot as it was, moves the cursor, and answers the two patterns of the slot now at the cursor,
unchanged; it changes nothing else. -/
def Obligations.DelayStepStoresTheBitsExactly : Prop :=
  ∀ s : State, s.eng.cfg = true → s.eng.D.toNat ≤ 65535 → s.eng.dcur.toNat ≤ s.eng.D.toNat →
    Memory.wf { l := 0#32, r := 0#32 } 65536 s.eng.dbuf →
    ∃ t, exec .dlyAdd s = .next t ∧
      (∀ i, t.eng.delaySlot i = if i = s.eng.dcur.toNat then
          { l := s.host.opa.extractLsb' 0 32, r := s.host.opb.extractLsb' 0 32 }
        else s.eng.delaySlot i) ∧
      t.eng.dcur.toNat = (if s.eng.dcur = s.eng.D then 0 else s.eng.dcur.toNat + 1) ∧
      t = { s with
        host := { s.host with
          res0 := (t.eng.delaySlot t.eng.dcur.toNat).l.setWidth 64
          res1 := (t.eng.delaySlot t.eng.dcur.toNat).r.setWidth 64 }
        eng := { s.eng with dbuf := t.eng.dbuf, dcur := t.eng.dcur } }

/-- From a cleared delay line of length `D`, the first `D` outputs of a run of DLY_ADD commands are
(+0.0, +0.0) and output `n` after them is input `n − D`, bit for bit, whatever the pairs; with `D = 0`
every output is its input (45_delay.md, 4. Properties). -/
def Obligations.DelayLineDelaysByItsLength : Prop :=
  ∀ (s : State) (earlier : List StereoSample) (p : StereoSample), s.eng.cfg = true →
    s.eng.D.toNat ≤ 65535 → s.eng.dbuf = [] → s.eng.dcur = 0#32 →
    ∃ t, runEach withPair .dlyAdd (earlier ++ [p]) s = .next t ∧
      (earlier.length < s.eng.D.toNat → t.host.res0 = 0#64 ∧ t.host.res1 = 0#64) ∧
      (s.eng.D.toNat ≤ earlier.length →
        ∃ q, (earlier ++ [p])[earlier.length - s.eng.D.toNat]? = some q ∧
          t.host.res0 = q.l.setWidth 64 ∧ t.host.res1 = q.r.setWidth 64)

/-! ## PROCESS (46_process.md) -/

/-- PROCESS without the commit step is the component commands run in their fixed order on the same
engine: the silence detector, both channels of PF_APPLY, ACC_ADD and MTR_STEP of meter 0 and, under
DUAL, of meter 1, ENV_CALC under ENV_EN, LIM_UPDATE, DLY_ADD, then the gate and the output stage. It
completes for every input, and leaves no other trace than its results
(46_process.md, 3. The whole step; 70_reset_and_hazards.md, 3. Hazards). -/
def Obligations.ProcessIsTheComponentSequence : Prop :=
  ∀ (s : State) (p : StereoSample) (mL mR mag : F64), s.eng.cfg = true →
    s.eng.win0.cur.toNat < 1048576 → s.eng.win1.cur.toNat < 1048576 →
    s.eng.dcur.toNat ≤ s.eng.D.toNat → s.eng.D.toNat ≤ 65535 →
    p = { l := s.host.opa.extractLsb' 0 32, r := s.host.opb.extractLsb' 0 32 } →
    mL = (if s.eng.ctrl.getLsbD 6 then fmul (f64 p.l) s.eng.gin else f64 p.l) →
    mR = (if s.eng.ctrl.getLsbD 6 then fmul (f64 p.r) s.eng.gin else f64 p.r) →
    mag = maxsel (fabs mL) (fabs mR) →
    ∃ (s1 s2 s3 s4 s5 s6 s7 s8 s9 t : State) (pw est e : F64) (muted : Bool) (oL oR : F32),
      exec (.pfApply .left)
        (withOpa mL { s with eng := s.eng.silence s.host.silmin mag }) = .next s1 ∧
      exec (.pfApply .right) (withOpa mR s1) = .next s2 ∧
      pw = fadd (fmul s1.host.res0 s1.host.res0) (fmul s2.host.res0 s2.host.res0) ∧
      exec (.accAdd .m0) (withOpa pw s2) = .next s3 ∧ exec (.mtrStep .m0) s3 = .next s4 ∧
      (if s.eng.ctrl.getLsbD 0 then
        exec (.accAdd .m1) (withOpa pw s4) = .next s5 ∧ exec (.mtrStep .m1) s5 = .next s6 ∧
        est = maxsel (if s6.eng.mtr0.valid then s6.eng.mtr0.val else mag)
          (if s6.eng.mtr1.valid then s6.eng.mtr1.val else mag)
      else s5 = s4 ∧ s6 = s4 ∧ est = if s6.eng.mtr0.valid then s6.eng.mtr0.val else mag) ∧
      (if s.eng.ctrl.getLsbD 1 then exec .envCalc (withOpa est s6) = .next s7 ∧ e = s7.host.res0
      else s7 = s6 ∧ e = est) ∧
      exec .limUpdate (withOpa e s7) = .next s8 ∧ exec .dlyAdd (withPair p s8) = .next s9 ∧
      muted = (s.eng.ctrl.getLsbD 4 && s.eng.sustain && !s9.eng.seen) ∧
      oL = ({ s9.eng with muted := muted } : Engine).output (s9.host.res0.extractLsb' 0 32) ∧
      oR = ({ s9.eng with muted := muted } : Engine).output (s9.host.res1.extractLsb' 0 32) ∧
      exec (.process true) s = .next t ∧
      t = { s with
        host := { s.host with res0 := oL.setWidth 64, res1 := oR.setWidth 64 }
        eng := { s9.eng with muted := muted, nf := t.eng.nf } }

/-- PROCESS with NC clear is COMMIT followed by PROCESS with NC set, and it completes whatever the
parameters hold: a commit that raises PARAM_INVALID does not stop it, the fault stays recorded and the
results are written (46_process.md, 1. The command). -/
def Obligations.CommittingProcessIsCommitThenProcess : Prop :=
  ∀ s : State, s.eng.cfg = true → s.eng.win0.cur.toNat < 1048576 →
    s.eng.win1.cur.toNat < 1048576 → s.eng.dcur.toNat ≤ s.eng.D.toNat → s.eng.D.toNat ≤ 65535 →
    ∃ u t, exec .commit s = .next u ∧ exec (.process true) u = .next t ∧
      exec (.process false) s = .next t ∧ t.faults = u.faults ∧ u.host = s.host

/-- The output stage, literally: the gained product from left to right, +0.0 when muted, the clamp
between −H and H under HARD_EN, one rounding to binary32. A muted output is +0.0 when the clamp is off
or its bound is 0 or more; with a NaN bound the clamp does nothing (46_process.md, 2. Steps). -/
def Obligations.OutputStageFollowsTheFormula : Prop :=
  ∀ (e : Engine) (d : F32) (t t1 t2 : F64),
    t = (if e.muted then 0#64 else fmul (fmul (fmul (f64 d) e.gin) e.gout) e.gain) →
    t1 = (if e.ctrl.getLsbD 3 = true ∧ fgt t e.H = true then e.H else t) →
    t2 = (if e.ctrl.getLsbD 3 = true ∧ flt t1 (fneg e.H) = true then fneg e.H else t1) →
    e.output d = rne32 t2 ∧
    (isNaN64 e.H = true → t2 = t) ∧
    (e.muted = true → e.ctrl.getLsbD 3 = false ∨ fle 0#64 e.H = true → e.output d = 0#32)

/-- The hard ceiling: after PROCESS with HARD_EN set and a bound of 0 or more, each output is NaN or
has a magnitude of at most `S.H`. The bound is always a binary64 rounded toward zero to binary32: it is
one after reset and after every step (46_process.md, 2. Steps; 40_system.md, 1. Derived parameters). -/
def Obligations.HardCeilingHolds : Prop :=
  (∀ (nc : Bool) (s t : State) (v : F64), s.eng.cfg = true → exec (.process nc) s = .next t →
    t.eng.ctrl.getLsbD 3 = true → t.eng.H = rtz32 v → fle Config.zero64 t.eng.H = true →
    ∀ o : F32, o = t.host.res0.extractLsb' 0 32 ∨ o = t.host.res1.extractLsb' 0 32 →
      isNaN32 o = true ∨ fle (fabs (f64 o)) t.eng.H = true) ∧
  (∃ v, State.reset.eng.H = rtz32 v) ∧
  (∀ s t : State, (∃ v, s.eng.H = rtz32 v) → step s = .next t → ∃ v, t.eng.H = rtz32 v)

/-- The silence detector (46_process.md, 2. Steps). A magnitude that is NaN or at least 2^-20 ends the run and sets SEEN. A
run of near-silent samples counts up to SILMIN and stops there; the sample that makes it reach SILMIN
performs the limiter reset when SILRST_EN is set, later ones do nothing, and SILMIN = 0 disables it. -/
def Obligations.SilenceGapResetsOnce : Prop :=
  Config.SIL_THR = 0x3EB0000000000000#64 ∧ State.reset.host.silmin = 48000#32 ∧
  (∀ (e : Engine) (silmin : Word) (mag : F64),
    isNaN64 mag = true ∨ fle Config.SIL_THR mag = true →
    e.silence silmin mag = { e with silrun := 0#32, seen := true }) ∧
  (∀ (e : Engine) (silmin : Word) (mag : F64), flt mag Config.SIL_THR = true →
    (silmin ≤ e.silrun → e.silence silmin mag = e) ∧
    (e.silrun < silmin →
      e.silence silmin mag =
        if e.silrun.toNat + 1 = silmin.toNat ∧ e.ctrl.getLsbD 5 = true then
          { e.limReset with silrun := e.silrun + 1#32 }
        else { e with silrun := e.silrun + 1#32 })) ∧
  (∀ (e : Engine) (silmin : Word) (mags : List F64), e.silrun = 0#32 →
    (∀ mag ∈ mags, flt mag Config.SIL_THR = true) →
    ∃ e', e' = mags.foldl (fun a mag => a.silence silmin mag) e ∧
      e'.silrun.toNat = min mags.length silmin.toNat ∧
      e' = (if silmin ≠ 0#32 ∧ silmin.toNat ≤ mags.length ∧ e.ctrl.getLsbD 5 = true then
          { e.limReset with silrun := e'.silrun }
        else { e with silrun := e'.silrun }))

/-- R283: PROCESS sets NF when an input or an output is a NaN or an infinity (its exponent field is all
ones), no other command touches it, no step but a hardware reset clears it, and STATUS shows it. -/
def Obligations.NonFiniteFlagIsSticky : Prop :=
  (∀ (nc : Bool) (s t : State), s.eng.cfg = true → exec (.process nc) s = .next t →
    (t.eng.nf = true ↔ s.eng.nf = true ∨
      ∃ x ∈ [s.host.opa.extractLsb' 0 32, s.host.opb.extractLsb' 0 32,
          t.host.res0.extractLsb' 0 32, t.host.res1.extractLsb' 0 32],
        BitVec.extractLsb' 23 8 x = 0xFF#8)) ∧
  (∀ (i : Instr) (s t : State), (∀ nc, i ≠ .process nc) → exec i s = .next t →
    t.eng.nf = s.eng.nf) ∧
  (∀ s t : State, s.pending.head? ≠ some .hardwareReset → step s = .next t →
    s.eng.nf = true → t.eng.nf = true) ∧
  (∀ s : State, (hardwareReset s).eng.nf = false) ∧
  (∀ s : State, (readRegister .status s).getLsbD 6 = s.eng.nf)

/-! ## The whole machine -/

/-- The reset state satisfies the invariant of Safety.lean (10_state.md, 2. Engine state;
70_reset_and_hazards.md, 1. Reset). -/
def Obligations.ResetSatisfiesTheInvariant : Prop := State.reset.Inv

/-- Every step keeps the invariant: the three buffers stay in canonical form, and on a configured
engine the window lengths, cursors, fill counts, intervals, decimation counters, the delay and its
cursor, the limit and the peak keep the bounds 10_state.md gives (10_state.md, 2. Engine state;
44_limiter.md, 2. Transition). -/
def Obligations.EveryStepKeepsTheInvariant : Prop :=
  ∀ s t : State, s.Inv → step s = .next t → t.Inv

/-- On a state that satisfies the invariant no step stops and every command completes: no index is out
of range and no value is an error (10_state.md, 2. Engine state; 60_exceptions.md, 2. Fault
action). -/
def Obligations.InvariantStepsNeverStop : Prop :=
  ∀ s : State, s.Inv → (∃ t, step s = .next t) ∧ ∀ i : Instr, ∃ t, exec i s = .next t

/-- The frame of the commands on the register window: no command writes a register but RES0, RES1 and
the fault registers; NOP, CONFIG, COMMIT and LIM_RESET keep both results, PF_STAGE and ENV_CALC keep
RES1; and a command other than PROCESS that raises a fault writes no result (30_encoding.md, 1. Format;
60_exceptions.md, 2. Fault action). -/
def Obligations.CommandsWriteOnlyTheirResults : Prop :=
  ∀ (i : Instr) (s t : State), exec i s = .next t →
    t.host = { s.host with res0 := t.host.res0, res1 := t.host.res1 } ∧
    t.pending = s.pending ∧ t.readData = s.readData ∧
    (i = .nop ∨ i = .config ∨ i = .commit ∨ i = .limReset → t.host = s.host) ∧
    ((∃ ch st, i = .pfStage ch st) ∨ i = .envCalc → t.host.res1 = s.host.res1) ∧
    ((∀ nc, i ≠ .process nc) → t.faults ≠ s.faults → t.host = s.host) ∧
    (isComponent i = true → s.eng.cfg = true → t.faults = s.faults)

/-- No step but a CONFIG or a hardware reset changes the sample rate or a filter coefficient
(70_reset_and_hazards.md, 2. Boot; 41_prefilter.md, 1. Coefficients). -/
def Obligations.OnlyConfigBuildsCoefficients : Prop :=
  ∀ s t : State, s.pending.head? ≠ some .hardwareReset →
    s.pending.head? ≠ some (.write 0x020#12 .byte4 0x01000000#32) → step s = .next t →
    t.eng.fs = s.eng.fs ∧ t.eng.coefShelf = s.eng.coefShelf ∧ t.eng.coefPass = s.eng.coefPass

/-- A write to CTRL or to a parameter register changes no engine value, and every command but CONFIG,
COMMIT and PROCESS with NC clear does exactly what it would have done without the write
(70_reset_and_hazards.md, 3. Hazards). -/
def Obligations.ParameterWritesWaitForCommit : Prop :=
  ∀ (r : RegName) (v : Word) (s : State),
    r ∈ [RegName.ctrl, .pIngainDb, .pOutgainDb, .pLimitDb, .pHardlimitDb, .pAttackMs, .pReleaseMs,
      .pWin0Ms, .pWin1Ms, .pIntervalMs, .pDelayMs, .pFlags] →
    ∃ u, memWrite (offsetOf r) .byte4 v s = .next u ∧ u.eng = s.eng ∧
      ∀ (i : Instr) (t : State), i ≠ .config → i ≠ .commit → i ≠ .process false →
        exec i s = .next t → exec i u = .next (writeRegister r v t)

/-! ## Arithmetic (00_scope.md) -/

/-- The four operations and the square root are correctly rounded with roundTiesToEven on finite
operands, subnormals kept, an exact zero with the sign the standard gives it. With an infinite operand,
a zero divisor or a NaN they give the default results: the infinity or the zero of the right sign, and a
NaN for a NaN operand and for each invalid operation, the difference of equal infinities, zero times
infinity, infinity over infinity, zero over zero and the root of a negative value (00_scope.md,
6. Numeric formats and primitives). -/
def Obligations.OperationsRoundToNearestEven : Prop :=
  (∀ a b : F64, isFinite64 a = true → isFinite64 b = true →
    NearestEven (fadd a b) (((valueOf a : ℚ) : ℝ) + ((valueOf b : ℚ) : ℝ)) ∧
    NearestEven (fsub a b) (((valueOf a : ℚ) : ℝ) - ((valueOf b : ℚ) : ℝ)) ∧
    NearestEven (fmul a b) (((valueOf a : ℚ) : ℝ) * ((valueOf b : ℚ) : ℝ)) ∧
    (valueOf b ≠ 0 → NearestEven (fdiv a b) (((valueOf a : ℚ) : ℝ) / ((valueOf b : ℚ) : ℝ))) ∧
    (valueOf b = 0 → valueOf a ≠ 0 → fdiv a b = inf64 (sign64 a != sign64 b)) ∧
    (valueOf b = 0 → valueOf a = 0 → isNaN64 (fdiv a b) = true)) ∧
  (∀ a b : F64, isFinite64 a = true → isFinite64 b = true →
    (valueOf a + valueOf b = 0 → fadd a b = zero64 (sign64 a && sign64 b)) ∧
    (valueOf a - valueOf b = 0 → fsub a b = zero64 (sign64 a && !sign64 b)) ∧
    sign64 (fmul a b) = (sign64 a != sign64 b) ∧
    (valueOf b ≠ 0 → sign64 (fdiv a b) = (sign64 a != sign64 b))) ∧
  (∀ a : F64, isFinite64 a = true → 0 ≤ valueOf a →
    NearestEven (fsqrt a) (Real.sqrt ((valueOf a : ℚ) : ℝ))) ∧
  (∀ a : F64, isNaN64 a = true ∨ valueOf a < 0 → isNaN64 (fsqrt a) = true) ∧
  fsqrt (inf64 false) = inf64 false ∧ isNaN64 (fsqrt (inf64 true)) = true ∧
  (∀ s : Bool, fsqrt (zero64 s) = zero64 s) ∧
  (∀ a b : F64, isNaN64 a = true ∨ isNaN64 b = true →
    isNaN64 (fadd a b) = true ∧ isNaN64 (fsub a b) = true ∧ isNaN64 (fmul a b) = true ∧
    isNaN64 (fdiv a b) = true) ∧
  (∀ (s : Bool) (b : F64), isFinite64 b = true →
    fadd (inf64 s) b = inf64 s ∧ fadd b (inf64 s) = inf64 s ∧
    fsub (inf64 s) b = inf64 s ∧ fsub b (inf64 s) = inf64 (!s) ∧
    (valueOf b ≠ 0 → fmul (inf64 s) b = inf64 (s != sign64 b) ∧
      fmul b (inf64 s) = inf64 (s != sign64 b)) ∧
    (valueOf b = 0 → isNaN64 (fmul (inf64 s) b) = true ∧ isNaN64 (fmul b (inf64 s)) = true) ∧
    fdiv (inf64 s) b = inf64 (s != sign64 b) ∧ fdiv b (inf64 s) = zero64 (s != sign64 b)) ∧
  (∀ s t : Bool,
    (s = t → fadd (inf64 s) (inf64 t) = inf64 s ∧ isNaN64 (fsub (inf64 s) (inf64 t)) = true) ∧
    (s ≠ t → isNaN64 (fadd (inf64 s) (inf64 t)) = true ∧ fsub (inf64 s) (inf64 t) = inf64 s) ∧
    fmul (inf64 s) (inf64 t) = inf64 (s != t) ∧ isNaN64 (fdiv (inf64 s) (inf64 t)) = true)

/-- R13: `f64` is exact on every binary32 but the NaNs, which give quiet NaNs; `rne32` undoes it and
rounds every finite value to the nearest binary32, ties to even, beyond the range to the infinity;
`rtz32` gives the binary32 value of the largest magnitude not above its operand's; `f64u` is exact
below 2^53 (00_scope.md, 6. Numeric formats and primitives). -/
def Obligations.ConversionsAreExactOrRounded : Prop :=
  (∀ x : F32, isNaN32 x = false →
    sign64 (f64 x) = sign32 x ∧ rne32 (f64 x) = x ∧ rtz32 (f64 x) = f64 x ∧
    (isFinite32 x = true → isFinite64 (f64 x) = true ∧ units64 (f64 x) = units32 x * 2 ^ 925) ∧
    (isFinite32 x = false → isInf64 (f64 x) = true)) ∧
  (∀ x : F32, isNaN32 x = true → isNaN64 (f64 x) = true ∧ (f64 x).getLsbD 51 = true) ∧
  (∀ v : F64, isNaN64 v = true → isNaN32 (rne32 v) = true ∧ isNaN64 (rtz32 v) = true) ∧
  (∀ v : F64, isFinite64 v = true →
    sign32 (rne32 v) = sign64 v ∧
    (isFinite32 (rne32 v) = true ↔ |valueOf v| < 2 ^ 128 - 2 ^ 103) ∧
    (isFinite32 (rne32 v) = false → isInf32 (rne32 v) = true) ∧
    (isFinite32 (rne32 v) = true → ∀ c : F32, isFinite32 c = true →
      |valueOf (f64 (rne32 v)) - valueOf v| ≤ |valueOf (f64 c) - valueOf v| ∧
      (|valueOf (f64 (rne32 v)) - valueOf v| = |valueOf (f64 c) - valueOf v| →
        valueOf (f64 c) ≠ valueOf (f64 (rne32 v)) → mag32 (rne32 v) % 2 = 0))) ∧
  (∀ v : F64, isNaN64 v = false →
    (∃ b, rtz32 v = f64 b) ∧ sign64 (rtz32 v) = sign64 v ∧ fle (fabs (rtz32 v)) (fabs v) = true ∧
    ∀ b : F32, isNaN32 b = false → fle (fabs (f64 b)) (fabs v) = true →
      fle (fabs (f64 b)) (fabs (rtz32 v)) = true) ∧
  (∀ n : Nat, n < 2 ^ 53 → isFinite64 (f64u n) = true ∧ valueOf (f64u n) = n)

/-- R14: the comparisons order the values, the infinities at the ends, are false on NaN operands and
take +0 and −0 as equal; `maxsel` and `minsel` select by them, so that a NaN first operand is dropped
and a NaN second one kept; `abs` clears and `neg` flips the sign bit, also of a NaN. -/
def Obligations.ComparisonsOrderTheValues : Prop :=
  (∀ a b : F64, isFinite64 a = true → isFinite64 b = true →
    (flt a b = true ↔ valueOf a < valueOf b) ∧ (feq a b = true ↔ valueOf a = valueOf b)) ∧
  (∀ a : F64, isFinite64 a = true →
    flt a (inf64 false) = true ∧ flt (inf64 true) a = true) ∧
  (∀ s t : Bool, flt (inf64 s) (inf64 t) = (s && !t) ∧ feq (inf64 s) (inf64 t) = (s == t)) ∧
  (∀ a b : F64, fgt a b = flt b a ∧ fle a b = (flt a b || feq a b) ∧ fge a b = fle b a ∧
    (flt a b = true → flt b a = false ∧ feq a b = false ∧ feq b a = false)) ∧
  (∀ a b : F64, isNaN64 a = true ∨ isNaN64 b = true →
    flt a b = false ∧ fgt a b = false ∧ fle a b = false ∧ fge a b = false ∧ feq a b = false ∧
    maxsel a b = b ∧ minsel a b = b) ∧
  feq (zero64 false) (zero64 true) = true ∧
  maxsel (zero64 false) (zero64 true) = zero64 true ∧
  (∀ a b : F64, maxsel a b = (if fgt a b then a else b) ∧
    minsel a b = (if flt a b then a else b)) ∧
  (∀ a : F64, sign64 (fabs a) = false ∧ mag64 (fabs a) = mag64 a ∧
    sign64 (fneg a) = !sign64 a ∧ mag64 (fneg a) = mag64 a)
end

