-- ==== Sys2Proof/Laws/State.lean ====
section
/-! SUPPORT. Laws/State.lean: one lemma per field per update. Each says that a named update leaves a
field alone, or what it puts there, so that no proof unfolds a record update. -/

namespace Sys2Proof.Machine

/-! ## State updates -/

@[simp] theorem raiseFault_host (f : JlcFault) (s : State) :
    (raiseFault f s).host = s.host := rfl
@[simp] theorem raiseFault_eng (f : JlcFault) (s : State) :
    (raiseFault f s).eng = s.eng := rfl
@[simp] theorem raiseFault_pending (f : JlcFault) (s : State) :
    (raiseFault f s).pending = s.pending := rfl
@[simp] theorem raiseFault_readData (f : JlcFault) (s : State) :
    (raiseFault f s).readData = s.readData := rfl
@[simp] theorem raiseFault_faults (f : JlcFault) (s : State) :
    (raiseFault f s).faults = s.faults.record s.host.cmd f := rfl
@[simp] theorem finish0_eng (s : State) (e : Engine) (r : BitVec 64) :
    (finish0 s e r).eng = e := rfl
@[simp] theorem finish0_faults (s : State) (e : Engine) (r : BitVec 64) :
    (finish0 s e r).faults = s.faults := rfl
@[simp] theorem finish0_pending (s : State) (e : Engine) (r : BitVec 64) :
    (finish0 s e r).pending = s.pending := rfl
@[simp] theorem finish0_readData (s : State) (e : Engine) (r : BitVec 64) :
    (finish0 s e r).readData = s.readData := rfl
@[simp] theorem finish0_host (s : State) (e : Engine) (r : BitVec 64) :
    (finish0 s e r).host = { s.host with res0 := r } := rfl
@[simp] theorem finish01_eng (s : State) (e : Engine) (r0 r1 : BitVec 64) :
    (finish01 s e r0 r1).eng = e := rfl
@[simp] theorem finish01_faults (s : State) (e : Engine) (r0 r1 : BitVec 64) :
    (finish01 s e r0 r1).faults = s.faults := rfl
@[simp] theorem finish01_pending (s : State) (e : Engine) (r0 r1 : BitVec 64) :
    (finish01 s e r0 r1).pending = s.pending := rfl
@[simp] theorem finish01_readData (s : State) (e : Engine) (r0 r1 : BitVec 64) :
    (finish01 s e r0 r1).readData = s.readData := rfl
@[simp] theorem finish01_host (s : State) (e : Engine) (r0 r1 : BitVec 64) :
    (finish01 s e r0 r1).host = { s.host with res0 := r0, res1 := r1 } := rfl
@[simp] theorem writeRegister_eng (r : RegName) (v : Word) (s : State) :
    (writeRegister r v s).eng = s.eng := rfl
@[simp] theorem writeRegister_faults (r : RegName) (v : Word) (s : State) :
    (writeRegister r v s).faults = s.faults := rfl
@[simp] theorem writeRegister_pending (r : RegName) (v : Word) (s : State) :
    (writeRegister r v s).pending = s.pending := rfl
@[simp] theorem writeRegister_readData (r : RegName) (v : Word) (s : State) :
    (writeRegister r v s).readData = s.readData := rfl
@[simp] theorem writeRegister_host (r : RegName) (v : Word) (s : State) :
    (writeRegister r v s).host = storeRegister r v s.host := rfl

/-! ## Engine updates -/

@[simp] theorem Engine.setHist_cfg (e : Engine) (ch : Channel) (st : Stage) (h : History) :
    (e.setHist ch st h).cfg = e.cfg := by cases ch <;> cases st <;> rfl
@[simp] theorem Engine.setHist_fs (e : Engine) (ch : Channel) (st : Stage) (h : History) :
    (e.setHist ch st h).fs = e.fs := by cases ch <;> cases st <;> rfl
@[simp] theorem Engine.setHist_ctrl (e : Engine) (ch : Channel) (st : Stage) (h : History) :
    (e.setHist ch st h).ctrl = e.ctrl := by cases ch <;> cases st <;> rfl
@[simp] theorem Engine.setHist_coefShelf (e : Engine) (ch : Channel) (st : Stage) (h : History) :
    (e.setHist ch st h).coefShelf = e.coefShelf := by cases ch <;> cases st <;> rfl
@[simp] theorem Engine.setHist_coefPass (e : Engine) (ch : Channel) (st : Stage) (h : History) :
    (e.setHist ch st h).coefPass = e.coefPass := by cases ch <;> cases st <;> rfl
@[simp] theorem Engine.setHist_win0 (e : Engine) (ch : Channel) (st : Stage) (h : History) :
    (e.setHist ch st h).win0 = e.win0 := by cases ch <;> cases st <;> rfl
@[simp] theorem Engine.setHist_win1 (e : Engine) (ch : Channel) (st : Stage) (h : History) :
    (e.setHist ch st h).win1 = e.win1 := by cases ch <;> cases st <;> rfl
@[simp] theorem Engine.setHist_mtr0 (e : Engine) (ch : Channel) (st : Stage) (h : History) :
    (e.setHist ch st h).mtr0 = e.mtr0 := by cases ch <;> cases st <;> rfl
@[simp] theorem Engine.setHist_mtr1 (e : Engine) (ch : Channel) (st : Stage) (h : History) :
    (e.setHist ch st h).mtr1 = e.mtr1 := by cases ch <;> cases st <;> rfl
@[simp] theorem Engine.setHist_env (e : Engine) (ch : Channel) (st : Stage) (h : History) :
    (e.setHist ch st h).env = e.env := by cases ch <;> cases st <;> rfl
@[simp] theorem Engine.setHist_catt (e : Engine) (ch : Channel) (st : Stage) (h : History) :
    (e.setHist ch st h).catt = e.catt := by cases ch <;> cases st <;> rfl
@[simp] theorem Engine.setHist_crel (e : Engine) (ch : Channel) (st : Stage) (h : History) :
    (e.setHist ch st h).crel = e.crel := by cases ch <;> cases st <;> rfl
@[simp] theorem Engine.setHist_cup (e : Engine) (ch : Channel) (st : Stage) (h : History) :
    (e.setHist ch st h).cup = e.cup := by cases ch <;> cases st <;> rfl
@[simp] theorem Engine.setHist_cdown (e : Engine) (ch : Channel) (st : Stage) (h : History) :
    (e.setHist ch st h).cdown = e.cdown := by cases ch <;> cases st <;> rfl
@[simp] theorem Engine.setHist_L (e : Engine) (ch : Channel) (st : Stage) (h : History) :
    (e.setHist ch st h).L = e.L := by cases ch <;> cases st <;> rfl
@[simp] theorem Engine.setHist_peak (e : Engine) (ch : Channel) (st : Stage) (h : History) :
    (e.setHist ch st h).peak = e.peak := by cases ch <;> cases st <;> rfl
@[simp] theorem Engine.setHist_gain (e : Engine) (ch : Channel) (st : Stage) (h : History) :
    (e.setHist ch st h).gain = e.gain := by cases ch <;> cases st <;> rfl
@[simp] theorem Engine.setHist_rf (e : Engine) (ch : Channel) (st : Stage) (h : History) :
    (e.setHist ch st h).rf = e.rf := by cases ch <;> cases st <;> rfl
@[simp] theorem Engine.setHist_seen (e : Engine) (ch : Channel) (st : Stage) (h : History) :
    (e.setHist ch st h).seen = e.seen := by cases ch <;> cases st <;> rfl
@[simp] theorem Engine.setHist_sustain (e : Engine) (ch : Channel) (st : Stage) (h : History) :
    (e.setHist ch st h).sustain = e.sustain := by cases ch <;> cases st <;> rfl
@[simp] theorem Engine.setHist_silrun (e : Engine) (ch : Channel) (st : Stage) (h : History) :
    (e.setHist ch st h).silrun = e.silrun := by cases ch <;> cases st <;> rfl
@[simp] theorem Engine.setHist_prevReset (e : Engine) (ch : Channel) (st : Stage) (h : History) :
    (e.setHist ch st h).prevReset = e.prevReset := by cases ch <;> cases st <;> rfl
@[simp] theorem Engine.setHist_gin (e : Engine) (ch : Channel) (st : Stage) (h : History) :
    (e.setHist ch st h).gin = e.gin := by cases ch <;> cases st <;> rfl
@[simp] theorem Engine.setHist_gout (e : Engine) (ch : Channel) (st : Stage) (h : History) :
    (e.setHist ch st h).gout = e.gout := by cases ch <;> cases st <;> rfl
@[simp] theorem Engine.setHist_H (e : Engine) (ch : Channel) (st : Stage) (h : History) :
    (e.setHist ch st h).H = e.H := by cases ch <;> cases st <;> rfl
@[simp] theorem Engine.setHist_D (e : Engine) (ch : Channel) (st : Stage) (h : History) :
    (e.setHist ch st h).D = e.D := by cases ch <;> cases st <;> rfl
@[simp] theorem Engine.setHist_dbuf (e : Engine) (ch : Channel) (st : Stage) (h : History) :
    (e.setHist ch st h).dbuf = e.dbuf := by cases ch <;> cases st <;> rfl
@[simp] theorem Engine.setHist_dcur (e : Engine) (ch : Channel) (st : Stage) (h : History) :
    (e.setHist ch st h).dcur = e.dcur := by cases ch <;> cases st <;> rfl
@[simp] theorem Engine.setHist_muted (e : Engine) (ch : Channel) (st : Stage) (h : History) :
    (e.setHist ch st h).muted = e.muted := by cases ch <;> cases st <;> rfl
@[simp] theorem Engine.setHist_nf (e : Engine) (ch : Channel) (st : Stage) (h : History) :
    (e.setHist ch st h).nf = e.nf := by cases ch <;> cases st <;> rfl
@[simp] theorem Engine.setWin_cfg (e : Engine) (m : MeterId) (w : Window) :
    (e.setWin m w).cfg = e.cfg := by cases m <;> rfl
@[simp] theorem Engine.setWin_fs (e : Engine) (m : MeterId) (w : Window) :
    (e.setWin m w).fs = e.fs := by cases m <;> rfl
@[simp] theorem Engine.setWin_ctrl (e : Engine) (m : MeterId) (w : Window) :
    (e.setWin m w).ctrl = e.ctrl := by cases m <;> rfl
@[simp] theorem Engine.setWin_coefShelf (e : Engine) (m : MeterId) (w : Window) :
    (e.setWin m w).coefShelf = e.coefShelf := by cases m <;> rfl
@[simp] theorem Engine.setWin_coefPass (e : Engine) (m : MeterId) (w : Window) :
    (e.setWin m w).coefPass = e.coefPass := by cases m <;> rfl
@[simp] theorem Engine.setWin_histLeftShelf (e : Engine) (m : MeterId) (w : Window) :
    (e.setWin m w).histLeftShelf = e.histLeftShelf := by cases m <;> rfl
@[simp] theorem Engine.setWin_histLeftPass (e : Engine) (m : MeterId) (w : Window) :
    (e.setWin m w).histLeftPass = e.histLeftPass := by cases m <;> rfl
@[simp] theorem Engine.setWin_histRightShelf (e : Engine) (m : MeterId) (w : Window) :
    (e.setWin m w).histRightShelf = e.histRightShelf := by cases m <;> rfl
@[simp] theorem Engine.setWin_histRightPass (e : Engine) (m : MeterId) (w : Window) :
    (e.setWin m w).histRightPass = e.histRightPass := by cases m <;> rfl
@[simp] theorem Engine.setWin_mtr0 (e : Engine) (m : MeterId) (w : Window) :
    (e.setWin m w).mtr0 = e.mtr0 := by cases m <;> rfl
@[simp] theorem Engine.setWin_mtr1 (e : Engine) (m : MeterId) (w : Window) :
    (e.setWin m w).mtr1 = e.mtr1 := by cases m <;> rfl
@[simp] theorem Engine.setWin_env (e : Engine) (m : MeterId) (w : Window) :
    (e.setWin m w).env = e.env := by cases m <;> rfl
@[simp] theorem Engine.setWin_catt (e : Engine) (m : MeterId) (w : Window) :
    (e.setWin m w).catt = e.catt := by cases m <;> rfl
@[simp] theorem Engine.setWin_crel (e : Engine) (m : MeterId) (w : Window) :
    (e.setWin m w).crel = e.crel := by cases m <;> rfl
@[simp] theorem Engine.setWin_cup (e : Engine) (m : MeterId) (w : Window) :
    (e.setWin m w).cup = e.cup := by cases m <;> rfl
@[simp] theorem Engine.setWin_cdown (e : Engine) (m : MeterId) (w : Window) :
    (e.setWin m w).cdown = e.cdown := by cases m <;> rfl
@[simp] theorem Engine.setWin_L (e : Engine) (m : MeterId) (w : Window) :
    (e.setWin m w).L = e.L := by cases m <;> rfl
@[simp] theorem Engine.setWin_peak (e : Engine) (m : MeterId) (w : Window) :
    (e.setWin m w).peak = e.peak := by cases m <;> rfl
@[simp] theorem Engine.setWin_gain (e : Engine) (m : MeterId) (w : Window) :
    (e.setWin m w).gain = e.gain := by cases m <;> rfl
@[simp] theorem Engine.setWin_rf (e : Engine) (m : MeterId) (w : Window) :
    (e.setWin m w).rf = e.rf := by cases m <;> rfl
@[simp] theorem Engine.setWin_seen (e : Engine) (m : MeterId) (w : Window) :
    (e.setWin m w).seen = e.seen := by cases m <;> rfl
@[simp] theorem Engine.setWin_sustain (e : Engine) (m : MeterId) (w : Window) :
    (e.setWin m w).sustain = e.sustain := by cases m <;> rfl
@[simp] theorem Engine.setWin_silrun (e : Engine) (m : MeterId) (w : Window) :
    (e.setWin m w).silrun = e.silrun := by cases m <;> rfl
@[simp] theorem Engine.setWin_prevReset (e : Engine) (m : MeterId) (w : Window) :
    (e.setWin m w).prevReset = e.prevReset := by cases m <;> rfl
@[simp] theorem Engine.setWin_gin (e : Engine) (m : MeterId) (w : Window) :
    (e.setWin m w).gin = e.gin := by cases m <;> rfl
@[simp] theorem Engine.setWin_gout (e : Engine) (m : MeterId) (w : Window) :
    (e.setWin m w).gout = e.gout := by cases m <;> rfl
@[simp] theorem Engine.setWin_H (e : Engine) (m : MeterId) (w : Window) :
    (e.setWin m w).H = e.H := by cases m <;> rfl
@[simp] theorem Engine.setWin_D (e : Engine) (m : MeterId) (w : Window) :
    (e.setWin m w).D = e.D := by cases m <;> rfl
@[simp] theorem Engine.setWin_dbuf (e : Engine) (m : MeterId) (w : Window) :
    (e.setWin m w).dbuf = e.dbuf := by cases m <;> rfl
@[simp] theorem Engine.setWin_dcur (e : Engine) (m : MeterId) (w : Window) :
    (e.setWin m w).dcur = e.dcur := by cases m <;> rfl
@[simp] theorem Engine.setWin_muted (e : Engine) (m : MeterId) (w : Window) :
    (e.setWin m w).muted = e.muted := by cases m <;> rfl
@[simp] theorem Engine.setWin_nf (e : Engine) (m : MeterId) (w : Window) :
    (e.setWin m w).nf = e.nf := by cases m <;> rfl
@[simp] theorem Engine.setMtr_cfg (e : Engine) (m : MeterId) (t : Meter) :
    (e.setMtr m t).cfg = e.cfg := by cases m <;> rfl
@[simp] theorem Engine.setMtr_fs (e : Engine) (m : MeterId) (t : Meter) :
    (e.setMtr m t).fs = e.fs := by cases m <;> rfl
@[simp] theorem Engine.setMtr_ctrl (e : Engine) (m : MeterId) (t : Meter) :
    (e.setMtr m t).ctrl = e.ctrl := by cases m <;> rfl
@[simp] theorem Engine.setMtr_coefShelf (e : Engine) (m : MeterId) (t : Meter) :
    (e.setMtr m t).coefShelf = e.coefShelf := by cases m <;> rfl
@[simp] theorem Engine.setMtr_coefPass (e : Engine) (m : MeterId) (t : Meter) :
    (e.setMtr m t).coefPass = e.coefPass := by cases m <;> rfl
@[simp] theorem Engine.setMtr_histLeftShelf (e : Engine) (m : MeterId) (t : Meter) :
    (e.setMtr m t).histLeftShelf = e.histLeftShelf := by cases m <;> rfl
@[simp] theorem Engine.setMtr_histLeftPass (e : Engine) (m : MeterId) (t : Meter) :
    (e.setMtr m t).histLeftPass = e.histLeftPass := by cases m <;> rfl
@[simp] theorem Engine.setMtr_histRightShelf (e : Engine) (m : MeterId) (t : Meter) :
    (e.setMtr m t).histRightShelf = e.histRightShelf := by cases m <;> rfl
@[simp] theorem Engine.setMtr_histRightPass (e : Engine) (m : MeterId) (t : Meter) :
    (e.setMtr m t).histRightPass = e.histRightPass := by cases m <;> rfl
@[simp] theorem Engine.setMtr_win0 (e : Engine) (m : MeterId) (t : Meter) :
    (e.setMtr m t).win0 = e.win0 := by cases m <;> rfl
@[simp] theorem Engine.setMtr_win1 (e : Engine) (m : MeterId) (t : Meter) :
    (e.setMtr m t).win1 = e.win1 := by cases m <;> rfl
@[simp] theorem Engine.setMtr_env (e : Engine) (m : MeterId) (t : Meter) :
    (e.setMtr m t).env = e.env := by cases m <;> rfl
@[simp] theorem Engine.setMtr_catt (e : Engine) (m : MeterId) (t : Meter) :
    (e.setMtr m t).catt = e.catt := by cases m <;> rfl
@[simp] theorem Engine.setMtr_crel (e : Engine) (m : MeterId) (t : Meter) :
    (e.setMtr m t).crel = e.crel := by cases m <;> rfl
@[simp] theorem Engine.setMtr_cup (e : Engine) (m : MeterId) (t : Meter) :
    (e.setMtr m t).cup = e.cup := by cases m <;> rfl
@[simp] theorem Engine.setMtr_cdown (e : Engine) (m : MeterId) (t : Meter) :
    (e.setMtr m t).cdown = e.cdown := by cases m <;> rfl
@[simp] theorem Engine.setMtr_L (e : Engine) (m : MeterId) (t : Meter) :
    (e.setMtr m t).L = e.L := by cases m <;> rfl
@[simp] theorem Engine.setMtr_peak (e : Engine) (m : MeterId) (t : Meter) :
    (e.setMtr m t).peak = e.peak := by cases m <;> rfl
@[simp] theorem Engine.setMtr_gain (e : Engine) (m : MeterId) (t : Meter) :
    (e.setMtr m t).gain = e.gain := by cases m <;> rfl
@[simp] theorem Engine.setMtr_rf (e : Engine) (m : MeterId) (t : Meter) :
    (e.setMtr m t).rf = e.rf := by cases m <;> rfl
@[simp] theorem Engine.setMtr_seen (e : Engine) (m : MeterId) (t : Meter) :
    (e.setMtr m t).seen = e.seen := by cases m <;> rfl
@[simp] theorem Engine.setMtr_sustain (e : Engine) (m : MeterId) (t : Meter) :
    (e.setMtr m t).sustain = e.sustain := by cases m <;> rfl
@[simp] theorem Engine.setMtr_silrun (e : Engine) (m : MeterId) (t : Meter) :
    (e.setMtr m t).silrun = e.silrun := by cases m <;> rfl
@[simp] theorem Engine.setMtr_prevReset (e : Engine) (m : MeterId) (t : Meter) :
    (e.setMtr m t).prevReset = e.prevReset := by cases m <;> rfl
@[simp] theorem Engine.setMtr_gin (e : Engine) (m : MeterId) (t : Meter) :
    (e.setMtr m t).gin = e.gin := by cases m <;> rfl
@[simp] theorem Engine.setMtr_gout (e : Engine) (m : MeterId) (t : Meter) :
    (e.setMtr m t).gout = e.gout := by cases m <;> rfl
@[simp] theorem Engine.setMtr_H (e : Engine) (m : MeterId) (t : Meter) :
    (e.setMtr m t).H = e.H := by cases m <;> rfl
@[simp] theorem Engine.setMtr_D (e : Engine) (m : MeterId) (t : Meter) :
    (e.setMtr m t).D = e.D := by cases m <;> rfl
@[simp] theorem Engine.setMtr_dbuf (e : Engine) (m : MeterId) (t : Meter) :
    (e.setMtr m t).dbuf = e.dbuf := by cases m <;> rfl
@[simp] theorem Engine.setMtr_dcur (e : Engine) (m : MeterId) (t : Meter) :
    (e.setMtr m t).dcur = e.dcur := by cases m <;> rfl
@[simp] theorem Engine.setMtr_muted (e : Engine) (m : MeterId) (t : Meter) :
    (e.setMtr m t).muted = e.muted := by cases m <;> rfl
@[simp] theorem Engine.setMtr_nf (e : Engine) (m : MeterId) (t : Meter) :
    (e.setMtr m t).nf = e.nf := by cases m <;> rfl
@[simp] theorem Engine.clearWindow_cfg (e : Engine) (m : MeterId) :
    (e.clearWindow m).cfg = e.cfg := by cases m <;> rfl
@[simp] theorem Engine.clearWindow_fs (e : Engine) (m : MeterId) :
    (e.clearWindow m).fs = e.fs := by cases m <;> rfl
@[simp] theorem Engine.clearWindow_ctrl (e : Engine) (m : MeterId) :
    (e.clearWindow m).ctrl = e.ctrl := by cases m <;> rfl
@[simp] theorem Engine.clearWindow_coefShelf (e : Engine) (m : MeterId) :
    (e.clearWindow m).coefShelf = e.coefShelf := by cases m <;> rfl
@[simp] theorem Engine.clearWindow_coefPass (e : Engine) (m : MeterId) :
    (e.clearWindow m).coefPass = e.coefPass := by cases m <;> rfl
@[simp] theorem Engine.clearWindow_histLeftShelf (e : Engine) (m : MeterId) :
    (e.clearWindow m).histLeftShelf = e.histLeftShelf := by cases m <;> rfl
@[simp] theorem Engine.clearWindow_histLeftPass (e : Engine) (m : MeterId) :
    (e.clearWindow m).histLeftPass = e.histLeftPass := by cases m <;> rfl
@[simp] theorem Engine.clearWindow_histRightShelf (e : Engine) (m : MeterId) :
    (e.clearWindow m).histRightShelf = e.histRightShelf := by cases m <;> rfl
@[simp] theorem Engine.clearWindow_histRightPass (e : Engine) (m : MeterId) :
    (e.clearWindow m).histRightPass = e.histRightPass := by cases m <;> rfl
@[simp] theorem Engine.clearWindow_env (e : Engine) (m : MeterId) :
    (e.clearWindow m).env = e.env := by cases m <;> rfl
@[simp] theorem Engine.clearWindow_catt (e : Engine) (m : MeterId) :
    (e.clearWindow m).catt = e.catt := by cases m <;> rfl
@[simp] theorem Engine.clearWindow_crel (e : Engine) (m : MeterId) :
    (e.clearWindow m).crel = e.crel := by cases m <;> rfl
@[simp] theorem Engine.clearWindow_cup (e : Engine) (m : MeterId) :
    (e.clearWindow m).cup = e.cup := by cases m <;> rfl
@[simp] theorem Engine.clearWindow_cdown (e : Engine) (m : MeterId) :
    (e.clearWindow m).cdown = e.cdown := by cases m <;> rfl
@[simp] theorem Engine.clearWindow_L (e : Engine) (m : MeterId) :
    (e.clearWindow m).L = e.L := by cases m <;> rfl
@[simp] theorem Engine.clearWindow_peak (e : Engine) (m : MeterId) :
    (e.clearWindow m).peak = e.peak := by cases m <;> rfl
@[simp] theorem Engine.clearWindow_gain (e : Engine) (m : MeterId) :
    (e.clearWindow m).gain = e.gain := by cases m <;> rfl
@[simp] theorem Engine.clearWindow_rf (e : Engine) (m : MeterId) :
    (e.clearWindow m).rf = e.rf := by cases m <;> rfl
@[simp] theorem Engine.clearWindow_seen (e : Engine) (m : MeterId) :
    (e.clearWindow m).seen = e.seen := by cases m <;> rfl
@[simp] theorem Engine.clearWindow_sustain (e : Engine) (m : MeterId) :
    (e.clearWindow m).sustain = e.sustain := by cases m <;> rfl
@[simp] theorem Engine.clearWindow_silrun (e : Engine) (m : MeterId) :
    (e.clearWindow m).silrun = e.silrun := by cases m <;> rfl
@[simp] theorem Engine.clearWindow_prevReset (e : Engine) (m : MeterId) :
    (e.clearWindow m).prevReset = e.prevReset := by cases m <;> rfl
@[simp] theorem Engine.clearWindow_gin (e : Engine) (m : MeterId) :
    (e.clearWindow m).gin = e.gin := by cases m <;> rfl
@[simp] theorem Engine.clearWindow_gout (e : Engine) (m : MeterId) :
    (e.clearWindow m).gout = e.gout := by cases m <;> rfl
@[simp] theorem Engine.clearWindow_H (e : Engine) (m : MeterId) :
    (e.clearWindow m).H = e.H := by cases m <;> rfl
@[simp] theorem Engine.clearWindow_D (e : Engine) (m : MeterId) :
    (e.clearWindow m).D = e.D := by cases m <;> rfl
@[simp] theorem Engine.clearWindow_dbuf (e : Engine) (m : MeterId) :
    (e.clearWindow m).dbuf = e.dbuf := by cases m <;> rfl
@[simp] theorem Engine.clearWindow_dcur (e : Engine) (m : MeterId) :
    (e.clearWindow m).dcur = e.dcur := by cases m <;> rfl
@[simp] theorem Engine.clearWindow_muted (e : Engine) (m : MeterId) :
    (e.clearWindow m).muted = e.muted := by cases m <;> rfl
@[simp] theorem Engine.clearWindow_nf (e : Engine) (m : MeterId) :
    (e.clearWindow m).nf = e.nf := by cases m <;> rfl
@[simp] theorem Engine.limReset_cfg (e : Engine) : e.limReset.cfg = e.cfg := rfl
@[simp] theorem Engine.limReset_fs (e : Engine) : e.limReset.fs = e.fs := rfl
@[simp] theorem Engine.limReset_ctrl (e : Engine) : e.limReset.ctrl = e.ctrl := rfl
@[simp] theorem Engine.limReset_coefShelf (e : Engine) : e.limReset.coefShelf = e.coefShelf := rfl
@[simp] theorem Engine.limReset_coefPass (e : Engine) : e.limReset.coefPass = e.coefPass := rfl
@[simp] theorem Engine.limReset_histLeftShelf (e : Engine) : e.limReset.histLeftShelf = e.histLeftShelf := rfl
@[simp] theorem Engine.limReset_histLeftPass (e : Engine) : e.limReset.histLeftPass = e.histLeftPass := rfl
@[simp] theorem Engine.limReset_histRightShelf (e : Engine) : e.limReset.histRightShelf = e.histRightShelf := rfl
@[simp] theorem Engine.limReset_histRightPass (e : Engine) : e.limReset.histRightPass = e.histRightPass := rfl
@[simp] theorem Engine.limReset_catt (e : Engine) : e.limReset.catt = e.catt := rfl
@[simp] theorem Engine.limReset_crel (e : Engine) : e.limReset.crel = e.crel := rfl
@[simp] theorem Engine.limReset_cup (e : Engine) : e.limReset.cup = e.cup := rfl
@[simp] theorem Engine.limReset_cdown (e : Engine) : e.limReset.cdown = e.cdown := rfl
@[simp] theorem Engine.limReset_L (e : Engine) : e.limReset.L = e.L := rfl
@[simp] theorem Engine.limReset_rf (e : Engine) : e.limReset.rf = e.rf := rfl
@[simp] theorem Engine.limReset_sustain (e : Engine) : e.limReset.sustain = e.sustain := rfl
@[simp] theorem Engine.limReset_silrun (e : Engine) : e.limReset.silrun = e.silrun := rfl
@[simp] theorem Engine.limReset_prevReset (e : Engine) : e.limReset.prevReset = e.prevReset := rfl
@[simp] theorem Engine.limReset_gin (e : Engine) : e.limReset.gin = e.gin := rfl
@[simp] theorem Engine.limReset_gout (e : Engine) : e.limReset.gout = e.gout := rfl
@[simp] theorem Engine.limReset_H (e : Engine) : e.limReset.H = e.H := rfl
@[simp] theorem Engine.limReset_D (e : Engine) : e.limReset.D = e.D := rfl
@[simp] theorem Engine.limReset_dbuf (e : Engine) : e.limReset.dbuf = e.dbuf := rfl
@[simp] theorem Engine.limReset_dcur (e : Engine) : e.limReset.dcur = e.dcur := rfl
@[simp] theorem Engine.limReset_muted (e : Engine) : e.limReset.muted = e.muted := rfl
@[simp] theorem Engine.limReset_nf (e : Engine) : e.limReset.nf = e.nf := rfl
@[simp] theorem Engine.limReset_peak (e : Engine) : e.limReset.peak = e.L := rfl
@[simp] theorem Engine.limReset_gain (e : Engine) : e.limReset.gain = Config.one64 := rfl
@[simp] theorem Engine.limReset_env (e : Engine) : e.limReset.env = Config.zero64 := rfl
@[simp] theorem Engine.limReset_seen (e : Engine) : e.limReset.seen = false := rfl
@[simp] theorem Engine.limReset_win0 (e : Engine) : e.limReset.win0 = e.win0.clear := rfl
@[simp] theorem Engine.limReset_win1 (e : Engine) : e.limReset.win1 = e.win1.clear := rfl
@[simp] theorem Engine.limReset_mtr0 (e : Engine) : e.limReset.mtr0 = e.mtr0.clear := rfl
@[simp] theorem Engine.limReset_mtr1 (e : Engine) : e.limReset.mtr1 = e.mtr1.clear := rfl

/-! ## Accessors after an update -/

@[simp] theorem Engine.hist_setHist_same (e : Engine) (ch : Channel) (st : Stage) (h : History) :
    (e.setHist ch st h).hist ch st = h := by cases ch <;> cases st <;> rfl

theorem Engine.hist_setHist_other (e : Engine) {ch ch' : Channel} {st st' : Stage} (h : History)
    (hne : ch' ≠ ch ∨ st' ≠ st) : (e.setHist ch st h).hist ch' st' = e.hist ch' st' := by
  cases ch <;> cases st <;> cases ch' <;> cases st' <;> simp_all [Engine.setHist, Engine.hist]

@[simp] theorem Engine.coef_setHist (e : Engine) (ch : Channel) (st st' : Stage) (h : History) :
    (e.setHist ch st h).coef st' = e.coef st' := by cases st' <;> simp [Engine.coef]

@[simp] theorem Engine.win_setWin_same (e : Engine) (m : MeterId) (w : Window) :
    (e.setWin m w).win m = w := by cases m <;> rfl

theorem Engine.win_setWin_other (e : Engine) {m m' : MeterId} (w : Window) (h : m' ≠ m) :
    (e.setWin m w).win m' = e.win m' := by
  cases m <;> cases m' <;> simp_all [Engine.setWin, Engine.win]

@[simp] theorem Engine.mtr_setMtr_same (e : Engine) (m : MeterId) (t : Meter) :
    (e.setMtr m t).mtr m = t := by cases m <;> rfl

theorem Engine.mtr_setMtr_other (e : Engine) {m m' : MeterId} (t : Meter) (h : m' ≠ m) :
    (e.setMtr m t).mtr m' = e.mtr m' := by
  cases m <;> cases m' <;> simp_all [Engine.setMtr, Engine.mtr]

@[simp] theorem Engine.mtr_setWin (e : Engine) (m m' : MeterId) (w : Window) :
    (e.setWin m w).mtr m' = e.mtr m' := by cases m <;> cases m' <;> rfl

@[simp] theorem Engine.win_setMtr (e : Engine) (m m' : MeterId) (t : Meter) :
    (e.setMtr m t).win m' = e.win m' := by cases m <;> cases m' <;> rfl

@[simp] theorem Engine.win_clearWindow_same (e : Engine) (m : MeterId) :
    (e.clearWindow m).win m = (e.win m).clear := by cases m <;> rfl

@[simp] theorem Engine.mtr_clearWindow_same (e : Engine) (m : MeterId) :
    (e.clearWindow m).mtr m = (e.mtr m).clear := by cases m <;> rfl

/-- Clearing a meter leaves the other meter's window alone. -/
theorem Engine.win_clearWindow_other (e : Engine) {m m' : MeterId} (h : m' ≠ m) :
    (e.clearWindow m).win m' = e.win m' := by
  cases m <;> cases m' <;> simp_all [Engine.clearWindow, Engine.setWin, Engine.setMtr, Engine.win]

/-- Clearing a meter leaves the other meter alone. -/
theorem Engine.mtr_clearWindow_other (e : Engine) {m m' : MeterId} (h : m' ≠ m) :
    (e.clearWindow m).mtr m' = e.mtr m' := by
  cases m <;> cases m' <;> simp_all [Engine.clearWindow, Engine.setWin, Engine.setMtr, Engine.mtr]

/-! ## Cleared buffers read as zero everywhere (R145) -/

@[simp] theorem Window.slot_clear (w : Window) (i : Nat) : w.clear.slot i = 0#64 := rfl
@[simp] theorem Window.slot_fresh (w : Word) (i : Nat) : (Window.fresh w).slot i = 0#64 := rfl
@[simp] theorem Engine.delaySlot_clearDelay (e : Engine) (i : Nat) :
    e.clearDelay.delaySlot i = StereoSample.zero := rfl

end Sys2Proof.Machine
end

