-- ==== Sys2Proof/Laws/Commands.lean ====
section
/-! SUPPORT. Laws/Commands.lean: what each command and each step can do, said once.

One lemma per command: if the command answers `next t`, then `t` is one of the states listed. Later
proofs cite these and do not unfold a meaning. -/

namespace Sys2Proof.Machine

/-- A command that needs a configured engine either runs its body or raises NOT_CONFIGURED. -/
theorem whenConfigured_cases {s t : State} {k : Host.Outcome State Fault Refusal}
    (h : whenConfigured s k = .next t) :
    (s.eng.cfg = false ∧ t = raiseFault .notConfigured s) ∨ (s.eng.cfg = true ∧ k = .next t) := by
  unfold whenConfigured at h
  split at h
  · next hc => exact .inr ⟨hc, h⟩
  · next hc => exact .inl ⟨by simpa using hc, (Host.Outcome.next.inj h).symm⟩

theorem whenConfigured_true {s : State} (k : Host.Outcome State Fault Refusal)
    (h : s.eng.cfg = true) : whenConfigured s k = k := by simp [whenConfigured, h]

theorem whenConfigured_false {s : State} (k : Host.Outcome State Fault Refusal)
    (h : s.eng.cfg = false) : whenConfigured s k = .next (raiseFault .notConfigured s) := by
  simp [whenConfigured, h]

theorem execConfig_cases {s t : State} (h : execConfig s = .next t) :
    (configMask s.host s.host.opa = 0#5 ∧
      t = { s with eng := s.eng.configure s.host s.host.opa }) ∨
    (configMask s.host s.host.opa ≠ 0#5 ∧
      t = raiseFault (.configInvalid (configMask s.host s.host.opa)) s) := by
  unfold execConfig at h
  split at h
  · next hm => exact .inl ⟨hm, (Host.Outcome.next.inj h).symm⟩
  · next hm => exact .inr ⟨hm, (Host.Outcome.next.inj h).symm⟩

theorem commitState_cases (s : State) :
    (commitMask s = 0#5 ∧ commitState s = { s with eng := s.eng.snapshot s.host }) ∨
    (commitMask s ≠ 0#5 ∧ commitState s =
      raiseFault (.paramInvalid (commitMask s)) { s with eng := s.eng.snapshot s.host }) := by
  unfold commitState
  by_cases hm : commitMask s = 0#5 <;> simp [hm]

@[simp] theorem commitState_eng (s : State) : (commitState s).eng = s.eng.snapshot s.host := by
  rcases commitState_cases s with ⟨_, h⟩ | ⟨_, h⟩ <;> simp [h]
@[simp] theorem commitState_host (s : State) : (commitState s).host = s.host := by
  rcases commitState_cases s with ⟨_, h⟩ | ⟨_, h⟩ <;> simp [h]
@[simp] theorem commitState_pending (s : State) : (commitState s).pending = s.pending := by
  rcases commitState_cases s with ⟨_, h⟩ | ⟨_, h⟩ <;> simp [h]
@[simp] theorem commitState_readData (s : State) : (commitState s).readData = s.readData := by
  rcases commitState_cases s with ⟨_, h⟩ | ⟨_, h⟩ <;> simp [h]

theorem execCommit_cases {s t : State} (h : execCommit s = .next t) :
    (s.eng.cfg = false ∧ t = raiseFault .notConfigured s) ∨
    (s.eng.cfg = true ∧ t = commitState s) := by
  rcases whenConfigured_cases h with h | ⟨hc, h⟩
  · exact .inl h
  · exact .inr ⟨hc, (Host.Outcome.next.inj h).symm⟩

theorem execLimReset_cases {s t : State} (h : execLimReset s = .next t) :
    (s.eng.cfg = false ∧ t = raiseFault .notConfigured s) ∨
    (s.eng.cfg = true ∧ t = { s with eng := s.eng.limReset }) := by
  rcases whenConfigured_cases h with h | ⟨hc, h⟩
  · exact .inl h
  · exact .inr ⟨hc, (Host.Outcome.next.inj h).symm⟩

theorem execPfStage_cases {ch : Channel} {st : Stage} {s t : State}
    (h : execPfStage ch st s = .next t) :
    (s.eng.cfg = false ∧ t = raiseFault .notConfigured s) ∨
    (s.eng.cfg = true ∧ t = finish0 s (s.eng.stageStep ch st s.host.opa)
      (s.eng.stageValue ch st s.host.opa)) := by
  rcases whenConfigured_cases h with h | ⟨hc, h⟩
  · exact .inl h
  · exact .inr ⟨hc, (Host.Outcome.next.inj h).symm⟩

theorem execPfApply_cases {ch : Channel} {s t : State} (h : execPfApply ch s = .next t) :
    (s.eng.cfg = false ∧ t = raiseFault .notConfigured s) ∨
    (s.eng.cfg = true ∧ t = finish01 s (s.eng.cascadeStep ch s.host.opa)
      (s.eng.cascadeValue ch s.host.opa) (s.eng.stageValue ch .highShelf s.host.opa)) := by
  rcases whenConfigured_cases h with h | ⟨hc, h⟩
  · exact .inl h
  · exact .inr ⟨hc, (Host.Outcome.next.inj h).symm⟩

theorem execAccAdd_cases {m : MeterId} {s t : State} (h : execAccAdd m s = .next t) :
    (s.eng.cfg = false ∧ t = raiseFault .notConfigured s) ∨
    (s.eng.cfg = true ∧ s.eng.cursorInRange m = true ∧ t = finish01 s (s.eng.accAdd m s.host.opa)
      ((s.eng.win m).insert s.host.opa).sum ((s.eng.win m).insert s.host.opa).mean) := by
  rcases whenConfigured_cases h with h | ⟨hc, h⟩
  · exact .inl h
  · split at h
    · next hr => exact .inr ⟨hc, hr, (Host.Outcome.next.inj h).symm⟩
    · cases h

theorem execMtrStep_cases {m : MeterId} {s t : State} (h : execMtrStep m s = .next t) :
    (s.eng.cfg = false ∧ t = raiseFault .notConfigured s) ∨
    (s.eng.cfg = true ∧ t = finish01 s (s.eng.mtrStep m)
      ((s.eng.mtr m).step (s.eng.win m)).val
      (resultFlag ((s.eng.mtr m).step (s.eng.win m)).valid)) := by
  rcases whenConfigured_cases h with h | ⟨hc, h⟩
  · exact .inl h
  · exact .inr ⟨hc, (Host.Outcome.next.inj h).symm⟩

theorem execEnvCalc_cases {s t : State} (h : execEnvCalc s = .next t) :
    (s.eng.cfg = false ∧ t = raiseFault .notConfigured s) ∨
    (s.eng.cfg = true ∧ t = finish0 s (s.eng.envStep s.host.opa) (s.eng.envValue s.host.opa)) := by
  rcases whenConfigured_cases h with h | ⟨hc, h⟩
  · exact .inl h
  · exact .inr ⟨hc, (Host.Outcome.next.inj h).symm⟩

theorem execLimUpdate_cases {s t : State} (h : execLimUpdate s = .next t) :
    (s.eng.cfg = false ∧ t = raiseFault .notConfigured s) ∨
    (s.eng.cfg = true ∧ t = finish01 s (s.eng.limUpdate s.host.opa)
      (s.eng.gainValue s.host.opa) (s.eng.peakValue s.host.opa)) := by
  rcases whenConfigured_cases h with h | ⟨hc, h⟩
  · exact .inl h
  · exact .inr ⟨hc, (Host.Outcome.next.inj h).symm⟩

theorem execDlyAdd_cases {s t : State} (h : execDlyAdd s = .next t) :
    (s.eng.cfg = false ∧ t = raiseFault .notConfigured s) ∨
    (s.eng.cfg = true ∧ s.eng.delayInRange = true ∧
      t = finishPair s (s.eng.dlyAdd (inputPair s), s.eng.dlyValue (inputPair s))) := by
  rcases whenConfigured_cases h with h | ⟨hc, h⟩
  · exact .inl h
  · split at h
    · next hr => exact .inr ⟨hc, hr, (Host.Outcome.next.inj h).symm⟩
    · cases h

theorem processSample_cases {s t : State} (h : processSample s = .next t) :
    s.eng.processInRange = true ∧
      t = finishPair s (s.eng.processPair s.host.silmin (inputPair s)) := by
  unfold processSample at h
  split at h
  · next hr => exact ⟨hr, (Host.Outcome.next.inj h).symm⟩
  · cases h

theorem execProcess_cases {nc : Bool} {s t : State} (h : execProcess nc s = .next t) :
    (s.eng.cfg = false ∧ t = raiseFault .notConfigured s) ∨
    (s.eng.cfg = true ∧ ∃ u, u = (if nc then s else commitState s) ∧
      u.eng.processInRange = true ∧
      t = finishPair u (u.eng.processPair u.host.silmin (inputPair u))) := by
  rcases whenConfigured_cases h with h | ⟨hc, h⟩
  · exact .inl h
  · obtain ⟨h1, h2⟩ := processSample_cases h
    exact .inr ⟨hc, _, rfl, h1, h2⟩

/-- No command touches the events still to come. -/
theorem exec_pending {i : Instr} {s t : State} (h : exec i s = .next t) :
    t.pending = s.pending := by
  cases i with
  | nop => obtain rfl := Host.Outcome.next.inj h; rfl
  | config => rcases execConfig_cases h with ⟨_, rfl⟩ | ⟨_, rfl⟩ <;> rfl
  | commit => rcases execCommit_cases h with ⟨_, rfl⟩ | ⟨_, rfl⟩ <;> simp
  | process nc =>
    rcases execProcess_cases h with ⟨_, rfl⟩ | ⟨_, u, rfl, _, rfl⟩
    · rfl
    · cases nc <;> simp [finishPair]
  | limReset => rcases execLimReset_cases h with ⟨_, rfl⟩ | ⟨_, rfl⟩ <;> rfl
  | pfStage ch st => rcases execPfStage_cases h with ⟨_, rfl⟩ | ⟨_, rfl⟩ <;> rfl
  | pfApply ch => rcases execPfApply_cases h with ⟨_, rfl⟩ | ⟨_, rfl⟩ <;> rfl
  | accAdd m => rcases execAccAdd_cases h with ⟨_, rfl⟩ | ⟨_, _, rfl⟩ <;> rfl
  | mtrStep m => rcases execMtrStep_cases h with ⟨_, rfl⟩ | ⟨_, rfl⟩ <;> rfl
  | envCalc => rcases execEnvCalc_cases h with ⟨_, rfl⟩ | ⟨_, rfl⟩ <;> rfl
  | limUpdate => rcases execLimUpdate_cases h with ⟨_, rfl⟩ | ⟨_, rfl⟩ <;> rfl
  | dlyAdd => rcases execDlyAdd_cases h with ⟨_, rfl⟩ | ⟨_, _, rfl⟩ <;> rfl

/-! ## Events -/

theorem offsetOf_injective {r r' : RegName} (h : offsetOf r = offsetOf r') : r = r' := by
  cases r <;> cases r' <;> first | rfl | (exact absurd h (by decide))

@[simp] theorem registerAt_offsetOf (r : RegName) : registerAt (offsetOf r) = some r := by
  cases r <;> decide

theorem registerAt_some {off : Offset} {r : RegName} (h : registerAt off = some r) :
    offsetOf r = off := by
  unfold registerAt at h
  simpa using List.find?_some h

@[simp] theorem legalAccess_offsetOf (r : RegName) : legalAccess (offsetOf r) .byte4 = true := by
  cases r <;> decide

/-- A write to a register other than `CMD` stores the word and answers. -/
theorem memWrite_offsetOf {r : RegName} (v : Word) (s : State) (h : r ≠ .cmd) :
    memWrite (offsetOf r) .byte4 v s = .next (writeRegister r v s) := by
  simp [memWrite, writeLegal, h]

/-- A write to `CMD` stores the word and runs it. -/
theorem memWrite_cmd (v : Word) (s : State) :
    memWrite (offsetOf .cmd) .byte4 v s = runCommand v (writeRegister .cmd v s) := by
  simp [memWrite, writeLegal]

theorem memWrite_illegal {off : Offset} {width : Width} (v : Word) (s : State)
    (h : legalAccess off width = false) :
    memWrite off width v s = .next (raiseFault (.bus off) s) := by
  unfold memWrite
  split
  · simp [h]
  · rfl

/-- A bus write either runs a command, stores a word in another register or raises the bus fault. -/
theorem memWrite_cases {off : Offset} {width : Width} {v : Word} {s t : State}
    (h : memWrite off width v s = .next t) :
    (legalAccess off width = false ∧ t = raiseFault (.bus off) s) ∨
    (∃ r, r ≠ .cmd ∧ off = offsetOf r ∧ width = .byte4 ∧ t = writeRegister r v s) ∨
    (off = offsetOf .cmd ∧ width = .byte4 ∧ runCommand v (writeRegister .cmd v s) = .next t) := by
  unfold memWrite at h
  split at h
  · next r hr =>
    have hoff := registerAt_some hr
    split at h
    · next hl =>
      have hw : width = .byte4 := by
        simp [legalAccess] at hl; exact hl.1.1
      unfold writeLegal at h
      split at h
      · next hc => exact .inr (.inr ⟨by rw [← hoff, hc], hw, by rw [← hc]; rw [hc] at h ⊢; exact h⟩)
      · next hc => exact .inr (.inl ⟨r, hc, hoff.symm, hw, (Host.Outcome.next.inj h).symm⟩)
    · next hl => exact .inl ⟨by simpa using hl, (Host.Outcome.next.inj h).symm⟩
  · next hr => exact .inl ⟨by simp [legalAccess, hr], (Host.Outcome.next.inj h).symm⟩

theorem runCommand_ok {w : Word} {i : Instr} (s : State) (h : decode w = .ok i) :
    runCommand w s = exec i s := by simp [runCommand, h]

theorem runCommand_cases {w : Word} {s t : State} (h : runCommand w s = .next t) :
    (∃ i, decode w = .ok i ∧ exec i s = .next t) ∨
    ((∃ e, decode w = .error e) ∧ t = raiseFault .illegalCmd s) := by
  unfold runCommand at h
  split at h
  · next i hi => exact .inl ⟨i, hi, h⟩
  · next e he => exact .inr ⟨⟨e, he⟩, (Host.Outcome.next.inj h).symm⟩

/-- What a step can do, said once: nothing without an event; otherwise it answers a read, resets, or
makes a bus write on the state with the event taken. -/
theorem step_cases {s t : State} (h : step s = .next t) :
    (s.pending = [] ∧ t = s) ∨
    (∃ off width rest, s.pending = .read off width :: rest ∧
      t = memRead off width { s with pending := rest }) ∨
    (∃ rest, s.pending = .hardwareReset :: rest ∧ t = { State.reset with pending := rest }) ∨
    (∃ off width v rest, s.pending = .write off width v :: rest ∧
      memWrite off width v { s with pending := rest } = .next t) := by
  unfold step acceptNext at h
  split at h
  · next hp => exact .inl ⟨hp, (Host.Outcome.next.inj h).symm⟩
  · next ev rest hp =>
    cases ev with
    | read off width => exact .inr (.inl ⟨off, width, rest, hp, (Host.Outcome.next.inj h).symm⟩)
    | write off width v => exact .inr (.inr (.inr ⟨off, width, v, rest, hp, h⟩))
    | hardwareReset =>
      exact .inr (.inr (.inl ⟨rest, hp, (Host.Outcome.next.inj h).symm⟩))

end Sys2Proof.Machine
end

