-- ==== Sys2Proof/Laws/Commit.lean ====
section
/-! SUPPORT. Laws/Commit.lean: what each part of a commit changes, one lemma per field, and the fields
of the whole snapshot (R150). -/

namespace Sys2Proof.Machine

@[simp] theorem Engine.takeGains_cfg (e : Engine) (d : Derived) :
    (e.takeGains d).cfg = e.cfg := rfl
@[simp] theorem Engine.takeGains_fs (e : Engine) (d : Derived) :
    (e.takeGains d).fs = e.fs := rfl
@[simp] theorem Engine.takeGains_ctrl (e : Engine) (d : Derived) :
    (e.takeGains d).ctrl = e.ctrl := rfl
@[simp] theorem Engine.takeGains_coefShelf (e : Engine) (d : Derived) :
    (e.takeGains d).coefShelf = e.coefShelf := rfl
@[simp] theorem Engine.takeGains_coefPass (e : Engine) (d : Derived) :
    (e.takeGains d).coefPass = e.coefPass := rfl
@[simp] theorem Engine.takeGains_histLeftShelf (e : Engine) (d : Derived) :
    (e.takeGains d).histLeftShelf = e.histLeftShelf := rfl
@[simp] theorem Engine.takeGains_histLeftPass (e : Engine) (d : Derived) :
    (e.takeGains d).histLeftPass = e.histLeftPass := rfl
@[simp] theorem Engine.takeGains_histRightShelf (e : Engine) (d : Derived) :
    (e.takeGains d).histRightShelf = e.histRightShelf := rfl
@[simp] theorem Engine.takeGains_histRightPass (e : Engine) (d : Derived) :
    (e.takeGains d).histRightPass = e.histRightPass := rfl
@[simp] theorem Engine.takeGains_win0 (e : Engine) (d : Derived) :
    (e.takeGains d).win0 = e.win0 := rfl
@[simp] theorem Engine.takeGains_win1 (e : Engine) (d : Derived) :
    (e.takeGains d).win1 = e.win1 := rfl
@[simp] theorem Engine.takeGains_mtr0 (e : Engine) (d : Derived) :
    (e.takeGains d).mtr0 = e.mtr0 := rfl
@[simp] theorem Engine.takeGains_mtr1 (e : Engine) (d : Derived) :
    (e.takeGains d).mtr1 = e.mtr1 := rfl
@[simp] theorem Engine.takeGains_env (e : Engine) (d : Derived) :
    (e.takeGains d).env = e.env := rfl
@[simp] theorem Engine.takeGains_peak (e : Engine) (d : Derived) :
    (e.takeGains d).peak = e.peak := rfl
@[simp] theorem Engine.takeGains_gain (e : Engine) (d : Derived) :
    (e.takeGains d).gain = e.gain := rfl
@[simp] theorem Engine.takeGains_seen (e : Engine) (d : Derived) :
    (e.takeGains d).seen = e.seen := rfl
@[simp] theorem Engine.takeGains_sustain (e : Engine) (d : Derived) :
    (e.takeGains d).sustain = e.sustain := rfl
@[simp] theorem Engine.takeGains_silrun (e : Engine) (d : Derived) :
    (e.takeGains d).silrun = e.silrun := rfl
@[simp] theorem Engine.takeGains_prevReset (e : Engine) (d : Derived) :
    (e.takeGains d).prevReset = e.prevReset := rfl
@[simp] theorem Engine.takeGains_D (e : Engine) (d : Derived) :
    (e.takeGains d).D = e.D := rfl
@[simp] theorem Engine.takeGains_dbuf (e : Engine) (d : Derived) :
    (e.takeGains d).dbuf = e.dbuf := rfl
@[simp] theorem Engine.takeGains_dcur (e : Engine) (d : Derived) :
    (e.takeGains d).dcur = e.dcur := rfl
@[simp] theorem Engine.takeGains_muted (e : Engine) (d : Derived) :
    (e.takeGains d).muted = e.muted := rfl
@[simp] theorem Engine.takeGains_nf (e : Engine) (d : Derived) :
    (e.takeGains d).nf = e.nf := rfl
@[simp] theorem Engine.takeCtrl_cfg (e : Engine) (c : BitVec 7) :
    (e.takeCtrl c).cfg = e.cfg := by
  unfold Engine.takeCtrl; split <;> rfl
@[simp] theorem Engine.takeCtrl_fs (e : Engine) (c : BitVec 7) :
    (e.takeCtrl c).fs = e.fs := by
  unfold Engine.takeCtrl; split <;> rfl
@[simp] theorem Engine.takeCtrl_coefShelf (e : Engine) (c : BitVec 7) :
    (e.takeCtrl c).coefShelf = e.coefShelf := by
  unfold Engine.takeCtrl; split <;> rfl
@[simp] theorem Engine.takeCtrl_coefPass (e : Engine) (c : BitVec 7) :
    (e.takeCtrl c).coefPass = e.coefPass := by
  unfold Engine.takeCtrl; split <;> rfl
@[simp] theorem Engine.takeCtrl_histLeftShelf (e : Engine) (c : BitVec 7) :
    (e.takeCtrl c).histLeftShelf = e.histLeftShelf := by
  unfold Engine.takeCtrl; split <;> rfl
@[simp] theorem Engine.takeCtrl_histLeftPass (e : Engine) (c : BitVec 7) :
    (e.takeCtrl c).histLeftPass = e.histLeftPass := by
  unfold Engine.takeCtrl; split <;> rfl
@[simp] theorem Engine.takeCtrl_histRightShelf (e : Engine) (c : BitVec 7) :
    (e.takeCtrl c).histRightShelf = e.histRightShelf := by
  unfold Engine.takeCtrl; split <;> rfl
@[simp] theorem Engine.takeCtrl_histRightPass (e : Engine) (c : BitVec 7) :
    (e.takeCtrl c).histRightPass = e.histRightPass := by
  unfold Engine.takeCtrl; split <;> rfl
@[simp] theorem Engine.takeCtrl_win0 (e : Engine) (c : BitVec 7) :
    (e.takeCtrl c).win0 = e.win0 := by
  unfold Engine.takeCtrl; split <;> rfl
@[simp] theorem Engine.takeCtrl_mtr0 (e : Engine) (c : BitVec 7) :
    (e.takeCtrl c).mtr0 = e.mtr0 := by
  unfold Engine.takeCtrl; split <;> rfl
@[simp] theorem Engine.takeCtrl_env (e : Engine) (c : BitVec 7) :
    (e.takeCtrl c).env = e.env := by
  unfold Engine.takeCtrl; split <;> rfl
@[simp] theorem Engine.takeCtrl_catt (e : Engine) (c : BitVec 7) :
    (e.takeCtrl c).catt = e.catt := by
  unfold Engine.takeCtrl; split <;> rfl
@[simp] theorem Engine.takeCtrl_crel (e : Engine) (c : BitVec 7) :
    (e.takeCtrl c).crel = e.crel := by
  unfold Engine.takeCtrl; split <;> rfl
@[simp] theorem Engine.takeCtrl_cup (e : Engine) (c : BitVec 7) :
    (e.takeCtrl c).cup = e.cup := by
  unfold Engine.takeCtrl; split <;> rfl
@[simp] theorem Engine.takeCtrl_cdown (e : Engine) (c : BitVec 7) :
    (e.takeCtrl c).cdown = e.cdown := by
  unfold Engine.takeCtrl; split <;> rfl
@[simp] theorem Engine.takeCtrl_L (e : Engine) (c : BitVec 7) :
    (e.takeCtrl c).L = e.L := by
  unfold Engine.takeCtrl; split <;> rfl
@[simp] theorem Engine.takeCtrl_peak (e : Engine) (c : BitVec 7) :
    (e.takeCtrl c).peak = e.peak := by
  unfold Engine.takeCtrl; split <;> rfl
@[simp] theorem Engine.takeCtrl_gain (e : Engine) (c : BitVec 7) :
    (e.takeCtrl c).gain = e.gain := by
  unfold Engine.takeCtrl; split <;> rfl
@[simp] theorem Engine.takeCtrl_rf (e : Engine) (c : BitVec 7) :
    (e.takeCtrl c).rf = e.rf := by
  unfold Engine.takeCtrl; split <;> rfl
@[simp] theorem Engine.takeCtrl_seen (e : Engine) (c : BitVec 7) :
    (e.takeCtrl c).seen = e.seen := by
  unfold Engine.takeCtrl; split <;> rfl
@[simp] theorem Engine.takeCtrl_sustain (e : Engine) (c : BitVec 7) :
    (e.takeCtrl c).sustain = e.sustain := by
  unfold Engine.takeCtrl; split <;> rfl
@[simp] theorem Engine.takeCtrl_silrun (e : Engine) (c : BitVec 7) :
    (e.takeCtrl c).silrun = e.silrun := by
  unfold Engine.takeCtrl; split <;> rfl
@[simp] theorem Engine.takeCtrl_prevReset (e : Engine) (c : BitVec 7) :
    (e.takeCtrl c).prevReset = e.prevReset := by
  unfold Engine.takeCtrl; split <;> rfl
@[simp] theorem Engine.takeCtrl_gin (e : Engine) (c : BitVec 7) :
    (e.takeCtrl c).gin = e.gin := by
  unfold Engine.takeCtrl; split <;> rfl
@[simp] theorem Engine.takeCtrl_gout (e : Engine) (c : BitVec 7) :
    (e.takeCtrl c).gout = e.gout := by
  unfold Engine.takeCtrl; split <;> rfl
@[simp] theorem Engine.takeCtrl_H (e : Engine) (c : BitVec 7) :
    (e.takeCtrl c).H = e.H := by
  unfold Engine.takeCtrl; split <;> rfl
@[simp] theorem Engine.takeCtrl_D (e : Engine) (c : BitVec 7) :
    (e.takeCtrl c).D = e.D := by
  unfold Engine.takeCtrl; split <;> rfl
@[simp] theorem Engine.takeCtrl_dbuf (e : Engine) (c : BitVec 7) :
    (e.takeCtrl c).dbuf = e.dbuf := by
  unfold Engine.takeCtrl; split <;> rfl
@[simp] theorem Engine.takeCtrl_dcur (e : Engine) (c : BitVec 7) :
    (e.takeCtrl c).dcur = e.dcur := by
  unfold Engine.takeCtrl; split <;> rfl
@[simp] theorem Engine.takeCtrl_muted (e : Engine) (c : BitVec 7) :
    (e.takeCtrl c).muted = e.muted := by
  unfold Engine.takeCtrl; split <;> rfl
@[simp] theorem Engine.takeCtrl_nf (e : Engine) (c : BitVec 7) :
    (e.takeCtrl c).nf = e.nf := by
  unfold Engine.takeCtrl; split <;> rfl
@[simp] theorem Engine.takeLength_cfg (e : Engine) (m : MeterId) (wn : Option Word) :
    (e.takeLength m wn).cfg = e.cfg := by
  unfold Engine.takeLength; split <;> first | rfl | (split <;> simp)
@[simp] theorem Engine.takeLength_fs (e : Engine) (m : MeterId) (wn : Option Word) :
    (e.takeLength m wn).fs = e.fs := by
  unfold Engine.takeLength; split <;> first | rfl | (split <;> simp)
@[simp] theorem Engine.takeLength_ctrl (e : Engine) (m : MeterId) (wn : Option Word) :
    (e.takeLength m wn).ctrl = e.ctrl := by
  unfold Engine.takeLength; split <;> first | rfl | (split <;> simp)
@[simp] theorem Engine.takeLength_coefShelf (e : Engine) (m : MeterId) (wn : Option Word) :
    (e.takeLength m wn).coefShelf = e.coefShelf := by
  unfold Engine.takeLength; split <;> first | rfl | (split <;> simp)
@[simp] theorem Engine.takeLength_coefPass (e : Engine) (m : MeterId) (wn : Option Word) :
    (e.takeLength m wn).coefPass = e.coefPass := by
  unfold Engine.takeLength; split <;> first | rfl | (split <;> simp)
@[simp] theorem Engine.takeLength_histLeftShelf (e : Engine) (m : MeterId) (wn : Option Word) :
    (e.takeLength m wn).histLeftShelf = e.histLeftShelf := by
  unfold Engine.takeLength; split <;> first | rfl | (split <;> simp)
@[simp] theorem Engine.takeLength_histLeftPass (e : Engine) (m : MeterId) (wn : Option Word) :
    (e.takeLength m wn).histLeftPass = e.histLeftPass := by
  unfold Engine.takeLength; split <;> first | rfl | (split <;> simp)
@[simp] theorem Engine.takeLength_histRightShelf (e : Engine) (m : MeterId) (wn : Option Word) :
    (e.takeLength m wn).histRightShelf = e.histRightShelf := by
  unfold Engine.takeLength; split <;> first | rfl | (split <;> simp)
@[simp] theorem Engine.takeLength_histRightPass (e : Engine) (m : MeterId) (wn : Option Word) :
    (e.takeLength m wn).histRightPass = e.histRightPass := by
  unfold Engine.takeLength; split <;> first | rfl | (split <;> simp)
@[simp] theorem Engine.takeLength_env (e : Engine) (m : MeterId) (wn : Option Word) :
    (e.takeLength m wn).env = e.env := by
  unfold Engine.takeLength; split <;> first | rfl | (split <;> simp)
@[simp] theorem Engine.takeLength_catt (e : Engine) (m : MeterId) (wn : Option Word) :
    (e.takeLength m wn).catt = e.catt := by
  unfold Engine.takeLength; split <;> first | rfl | (split <;> simp)
@[simp] theorem Engine.takeLength_crel (e : Engine) (m : MeterId) (wn : Option Word) :
    (e.takeLength m wn).crel = e.crel := by
  unfold Engine.takeLength; split <;> first | rfl | (split <;> simp)
@[simp] theorem Engine.takeLength_cup (e : Engine) (m : MeterId) (wn : Option Word) :
    (e.takeLength m wn).cup = e.cup := by
  unfold Engine.takeLength; split <;> first | rfl | (split <;> simp)
@[simp] theorem Engine.takeLength_cdown (e : Engine) (m : MeterId) (wn : Option Word) :
    (e.takeLength m wn).cdown = e.cdown := by
  unfold Engine.takeLength; split <;> first | rfl | (split <;> simp)
@[simp] theorem Engine.takeLength_L (e : Engine) (m : MeterId) (wn : Option Word) :
    (e.takeLength m wn).L = e.L := by
  unfold Engine.takeLength; split <;> first | rfl | (split <;> simp)
@[simp] theorem Engine.takeLength_peak (e : Engine) (m : MeterId) (wn : Option Word) :
    (e.takeLength m wn).peak = e.peak := by
  unfold Engine.takeLength; split <;> first | rfl | (split <;> simp)
@[simp] theorem Engine.takeLength_gain (e : Engine) (m : MeterId) (wn : Option Word) :
    (e.takeLength m wn).gain = e.gain := by
  unfold Engine.takeLength; split <;> first | rfl | (split <;> simp)
@[simp] theorem Engine.takeLength_rf (e : Engine) (m : MeterId) (wn : Option Word) :
    (e.takeLength m wn).rf = e.rf := by
  unfold Engine.takeLength; split <;> first | rfl | (split <;> simp)
@[simp] theorem Engine.takeLength_seen (e : Engine) (m : MeterId) (wn : Option Word) :
    (e.takeLength m wn).seen = e.seen := by
  unfold Engine.takeLength; split <;> first | rfl | (split <;> simp)
@[simp] theorem Engine.takeLength_sustain (e : Engine) (m : MeterId) (wn : Option Word) :
    (e.takeLength m wn).sustain = e.sustain := by
  unfold Engine.takeLength; split <;> first | rfl | (split <;> simp)
@[simp] theorem Engine.takeLength_silrun (e : Engine) (m : MeterId) (wn : Option Word) :
    (e.takeLength m wn).silrun = e.silrun := by
  unfold Engine.takeLength; split <;> first | rfl | (split <;> simp)
@[simp] theorem Engine.takeLength_prevReset (e : Engine) (m : MeterId) (wn : Option Word) :
    (e.takeLength m wn).prevReset = e.prevReset := by
  unfold Engine.takeLength; split <;> first | rfl | (split <;> simp)
@[simp] theorem Engine.takeLength_gin (e : Engine) (m : MeterId) (wn : Option Word) :
    (e.takeLength m wn).gin = e.gin := by
  unfold Engine.takeLength; split <;> first | rfl | (split <;> simp)
@[simp] theorem Engine.takeLength_gout (e : Engine) (m : MeterId) (wn : Option Word) :
    (e.takeLength m wn).gout = e.gout := by
  unfold Engine.takeLength; split <;> first | rfl | (split <;> simp)
@[simp] theorem Engine.takeLength_H (e : Engine) (m : MeterId) (wn : Option Word) :
    (e.takeLength m wn).H = e.H := by
  unfold Engine.takeLength; split <;> first | rfl | (split <;> simp)
@[simp] theorem Engine.takeLength_D (e : Engine) (m : MeterId) (wn : Option Word) :
    (e.takeLength m wn).D = e.D := by
  unfold Engine.takeLength; split <;> first | rfl | (split <;> simp)
@[simp] theorem Engine.takeLength_dbuf (e : Engine) (m : MeterId) (wn : Option Word) :
    (e.takeLength m wn).dbuf = e.dbuf := by
  unfold Engine.takeLength; split <;> first | rfl | (split <;> simp)
@[simp] theorem Engine.takeLength_dcur (e : Engine) (m : MeterId) (wn : Option Word) :
    (e.takeLength m wn).dcur = e.dcur := by
  unfold Engine.takeLength; split <;> first | rfl | (split <;> simp)
@[simp] theorem Engine.takeLength_muted (e : Engine) (m : MeterId) (wn : Option Word) :
    (e.takeLength m wn).muted = e.muted := by
  unfold Engine.takeLength; split <;> first | rfl | (split <;> simp)
@[simp] theorem Engine.takeLength_nf (e : Engine) (m : MeterId) (wn : Option Word) :
    (e.takeLength m wn).nf = e.nf := by
  unfold Engine.takeLength; split <;> first | rfl | (split <;> simp)
@[simp] theorem Engine.takeInterval_cfg (e : Engine) (m : MeterId) (iv : Option Word) :
    (e.takeInterval m iv).cfg = e.cfg := by
  simp [Engine.takeInterval]
@[simp] theorem Engine.takeInterval_fs (e : Engine) (m : MeterId) (iv : Option Word) :
    (e.takeInterval m iv).fs = e.fs := by
  simp [Engine.takeInterval]
@[simp] theorem Engine.takeInterval_ctrl (e : Engine) (m : MeterId) (iv : Option Word) :
    (e.takeInterval m iv).ctrl = e.ctrl := by
  simp [Engine.takeInterval]
@[simp] theorem Engine.takeInterval_coefShelf (e : Engine) (m : MeterId) (iv : Option Word) :
    (e.takeInterval m iv).coefShelf = e.coefShelf := by
  simp [Engine.takeInterval]
@[simp] theorem Engine.takeInterval_coefPass (e : Engine) (m : MeterId) (iv : Option Word) :
    (e.takeInterval m iv).coefPass = e.coefPass := by
  simp [Engine.takeInterval]
@[simp] theorem Engine.takeInterval_histLeftShelf (e : Engine) (m : MeterId) (iv : Option Word) :
    (e.takeInterval m iv).histLeftShelf = e.histLeftShelf := by
  simp [Engine.takeInterval]
@[simp] theorem Engine.takeInterval_histLeftPass (e : Engine) (m : MeterId) (iv : Option Word) :
    (e.takeInterval m iv).histLeftPass = e.histLeftPass := by
  simp [Engine.takeInterval]
@[simp] theorem Engine.takeInterval_histRightShelf (e : Engine) (m : MeterId) (iv : Option Word) :
    (e.takeInterval m iv).histRightShelf = e.histRightShelf := by
  simp [Engine.takeInterval]
@[simp] theorem Engine.takeInterval_histRightPass (e : Engine) (m : MeterId) (iv : Option Word) :
    (e.takeInterval m iv).histRightPass = e.histRightPass := by
  simp [Engine.takeInterval]
@[simp] theorem Engine.takeInterval_win0 (e : Engine) (m : MeterId) (iv : Option Word) :
    (e.takeInterval m iv).win0 = e.win0 := by
  simp [Engine.takeInterval]
@[simp] theorem Engine.takeInterval_win1 (e : Engine) (m : MeterId) (iv : Option Word) :
    (e.takeInterval m iv).win1 = e.win1 := by
  simp [Engine.takeInterval]
@[simp] theorem Engine.takeInterval_env (e : Engine) (m : MeterId) (iv : Option Word) :
    (e.takeInterval m iv).env = e.env := by
  simp [Engine.takeInterval]
@[simp] theorem Engine.takeInterval_catt (e : Engine) (m : MeterId) (iv : Option Word) :
    (e.takeInterval m iv).catt = e.catt := by
  simp [Engine.takeInterval]
@[simp] theorem Engine.takeInterval_crel (e : Engine) (m : MeterId) (iv : Option Word) :
    (e.takeInterval m iv).crel = e.crel := by
  simp [Engine.takeInterval]
@[simp] theorem Engine.takeInterval_cup (e : Engine) (m : MeterId) (iv : Option Word) :
    (e.takeInterval m iv).cup = e.cup := by
  simp [Engine.takeInterval]
@[simp] theorem Engine.takeInterval_cdown (e : Engine) (m : MeterId) (iv : Option Word) :
    (e.takeInterval m iv).cdown = e.cdown := by
  simp [Engine.takeInterval]
@[simp] theorem Engine.takeInterval_L (e : Engine) (m : MeterId) (iv : Option Word) :
    (e.takeInterval m iv).L = e.L := by
  simp [Engine.takeInterval]
@[simp] theorem Engine.takeInterval_peak (e : Engine) (m : MeterId) (iv : Option Word) :
    (e.takeInterval m iv).peak = e.peak := by
  simp [Engine.takeInterval]
@[simp] theorem Engine.takeInterval_gain (e : Engine) (m : MeterId) (iv : Option Word) :
    (e.takeInterval m iv).gain = e.gain := by
  simp [Engine.takeInterval]
@[simp] theorem Engine.takeInterval_rf (e : Engine) (m : MeterId) (iv : Option Word) :
    (e.takeInterval m iv).rf = e.rf := by
  simp [Engine.takeInterval]
@[simp] theorem Engine.takeInterval_seen (e : Engine) (m : MeterId) (iv : Option Word) :
    (e.takeInterval m iv).seen = e.seen := by
  simp [Engine.takeInterval]
@[simp] theorem Engine.takeInterval_sustain (e : Engine) (m : MeterId) (iv : Option Word) :
    (e.takeInterval m iv).sustain = e.sustain := by
  simp [Engine.takeInterval]
@[simp] theorem Engine.takeInterval_silrun (e : Engine) (m : MeterId) (iv : Option Word) :
    (e.takeInterval m iv).silrun = e.silrun := by
  simp [Engine.takeInterval]
@[simp] theorem Engine.takeInterval_prevReset (e : Engine) (m : MeterId) (iv : Option Word) :
    (e.takeInterval m iv).prevReset = e.prevReset := by
  simp [Engine.takeInterval]
@[simp] theorem Engine.takeInterval_gin (e : Engine) (m : MeterId) (iv : Option Word) :
    (e.takeInterval m iv).gin = e.gin := by
  simp [Engine.takeInterval]
@[simp] theorem Engine.takeInterval_gout (e : Engine) (m : MeterId) (iv : Option Word) :
    (e.takeInterval m iv).gout = e.gout := by
  simp [Engine.takeInterval]
@[simp] theorem Engine.takeInterval_H (e : Engine) (m : MeterId) (iv : Option Word) :
    (e.takeInterval m iv).H = e.H := by
  simp [Engine.takeInterval]
@[simp] theorem Engine.takeInterval_D (e : Engine) (m : MeterId) (iv : Option Word) :
    (e.takeInterval m iv).D = e.D := by
  simp [Engine.takeInterval]
@[simp] theorem Engine.takeInterval_dbuf (e : Engine) (m : MeterId) (iv : Option Word) :
    (e.takeInterval m iv).dbuf = e.dbuf := by
  simp [Engine.takeInterval]
@[simp] theorem Engine.takeInterval_dcur (e : Engine) (m : MeterId) (iv : Option Word) :
    (e.takeInterval m iv).dcur = e.dcur := by
  simp [Engine.takeInterval]
@[simp] theorem Engine.takeInterval_muted (e : Engine) (m : MeterId) (iv : Option Word) :
    (e.takeInterval m iv).muted = e.muted := by
  simp [Engine.takeInterval]
@[simp] theorem Engine.takeInterval_nf (e : Engine) (m : MeterId) (iv : Option Word) :
    (e.takeInterval m iv).nf = e.nf := by
  simp [Engine.takeInterval]
@[simp] theorem Engine.takeDelay_cfg (e : Engine) (dl : Option Word) :
    (e.takeDelay dl).cfg = e.cfg := by
  unfold Engine.takeDelay; split <;> first | rfl | (split <;> rfl)
@[simp] theorem Engine.takeDelay_fs (e : Engine) (dl : Option Word) :
    (e.takeDelay dl).fs = e.fs := by
  unfold Engine.takeDelay; split <;> first | rfl | (split <;> rfl)
@[simp] theorem Engine.takeDelay_ctrl (e : Engine) (dl : Option Word) :
    (e.takeDelay dl).ctrl = e.ctrl := by
  unfold Engine.takeDelay; split <;> first | rfl | (split <;> rfl)
@[simp] theorem Engine.takeDelay_coefShelf (e : Engine) (dl : Option Word) :
    (e.takeDelay dl).coefShelf = e.coefShelf := by
  unfold Engine.takeDelay; split <;> first | rfl | (split <;> rfl)
@[simp] theorem Engine.takeDelay_coefPass (e : Engine) (dl : Option Word) :
    (e.takeDelay dl).coefPass = e.coefPass := by
  unfold Engine.takeDelay; split <;> first | rfl | (split <;> rfl)
@[simp] theorem Engine.takeDelay_histLeftShelf (e : Engine) (dl : Option Word) :
    (e.takeDelay dl).histLeftShelf = e.histLeftShelf := by
  unfold Engine.takeDelay; split <;> first | rfl | (split <;> rfl)
@[simp] theorem Engine.takeDelay_histLeftPass (e : Engine) (dl : Option Word) :
    (e.takeDelay dl).histLeftPass = e.histLeftPass := by
  unfold Engine.takeDelay; split <;> first | rfl | (split <;> rfl)
@[simp] theorem Engine.takeDelay_histRightShelf (e : Engine) (dl : Option Word) :
    (e.takeDelay dl).histRightShelf = e.histRightShelf := by
  unfold Engine.takeDelay; split <;> first | rfl | (split <;> rfl)
@[simp] theorem Engine.takeDelay_histRightPass (e : Engine) (dl : Option Word) :
    (e.takeDelay dl).histRightPass = e.histRightPass := by
  unfold Engine.takeDelay; split <;> first | rfl | (split <;> rfl)
@[simp] theorem Engine.takeDelay_win0 (e : Engine) (dl : Option Word) :
    (e.takeDelay dl).win0 = e.win0 := by
  unfold Engine.takeDelay; split <;> first | rfl | (split <;> rfl)
@[simp] theorem Engine.takeDelay_win1 (e : Engine) (dl : Option Word) :
    (e.takeDelay dl).win1 = e.win1 := by
  unfold Engine.takeDelay; split <;> first | rfl | (split <;> rfl)
@[simp] theorem Engine.takeDelay_mtr0 (e : Engine) (dl : Option Word) :
    (e.takeDelay dl).mtr0 = e.mtr0 := by
  unfold Engine.takeDelay; split <;> first | rfl | (split <;> rfl)
@[simp] theorem Engine.takeDelay_mtr1 (e : Engine) (dl : Option Word) :
    (e.takeDelay dl).mtr1 = e.mtr1 := by
  unfold Engine.takeDelay; split <;> first | rfl | (split <;> rfl)
@[simp] theorem Engine.takeDelay_env (e : Engine) (dl : Option Word) :
    (e.takeDelay dl).env = e.env := by
  unfold Engine.takeDelay; split <;> first | rfl | (split <;> rfl)
@[simp] theorem Engine.takeDelay_catt (e : Engine) (dl : Option Word) :
    (e.takeDelay dl).catt = e.catt := by
  unfold Engine.takeDelay; split <;> first | rfl | (split <;> rfl)
@[simp] theorem Engine.takeDelay_crel (e : Engine) (dl : Option Word) :
    (e.takeDelay dl).crel = e.crel := by
  unfold Engine.takeDelay; split <;> first | rfl | (split <;> rfl)
@[simp] theorem Engine.takeDelay_cup (e : Engine) (dl : Option Word) :
    (e.takeDelay dl).cup = e.cup := by
  unfold Engine.takeDelay; split <;> first | rfl | (split <;> rfl)
@[simp] theorem Engine.takeDelay_cdown (e : Engine) (dl : Option Word) :
    (e.takeDelay dl).cdown = e.cdown := by
  unfold Engine.takeDelay; split <;> first | rfl | (split <;> rfl)
@[simp] theorem Engine.takeDelay_L (e : Engine) (dl : Option Word) :
    (e.takeDelay dl).L = e.L := by
  unfold Engine.takeDelay; split <;> first | rfl | (split <;> rfl)
@[simp] theorem Engine.takeDelay_peak (e : Engine) (dl : Option Word) :
    (e.takeDelay dl).peak = e.peak := by
  unfold Engine.takeDelay; split <;> first | rfl | (split <;> rfl)
@[simp] theorem Engine.takeDelay_gain (e : Engine) (dl : Option Word) :
    (e.takeDelay dl).gain = e.gain := by
  unfold Engine.takeDelay; split <;> first | rfl | (split <;> rfl)
@[simp] theorem Engine.takeDelay_rf (e : Engine) (dl : Option Word) :
    (e.takeDelay dl).rf = e.rf := by
  unfold Engine.takeDelay; split <;> first | rfl | (split <;> rfl)
@[simp] theorem Engine.takeDelay_seen (e : Engine) (dl : Option Word) :
    (e.takeDelay dl).seen = e.seen := by
  unfold Engine.takeDelay; split <;> first | rfl | (split <;> rfl)
@[simp] theorem Engine.takeDelay_sustain (e : Engine) (dl : Option Word) :
    (e.takeDelay dl).sustain = e.sustain := by
  unfold Engine.takeDelay; split <;> first | rfl | (split <;> rfl)
@[simp] theorem Engine.takeDelay_silrun (e : Engine) (dl : Option Word) :
    (e.takeDelay dl).silrun = e.silrun := by
  unfold Engine.takeDelay; split <;> first | rfl | (split <;> rfl)
@[simp] theorem Engine.takeDelay_prevReset (e : Engine) (dl : Option Word) :
    (e.takeDelay dl).prevReset = e.prevReset := by
  unfold Engine.takeDelay; split <;> first | rfl | (split <;> rfl)
@[simp] theorem Engine.takeDelay_gin (e : Engine) (dl : Option Word) :
    (e.takeDelay dl).gin = e.gin := by
  unfold Engine.takeDelay; split <;> first | rfl | (split <;> rfl)
@[simp] theorem Engine.takeDelay_gout (e : Engine) (dl : Option Word) :
    (e.takeDelay dl).gout = e.gout := by
  unfold Engine.takeDelay; split <;> first | rfl | (split <;> rfl)
@[simp] theorem Engine.takeDelay_H (e : Engine) (dl : Option Word) :
    (e.takeDelay dl).H = e.H := by
  unfold Engine.takeDelay; split <;> first | rfl | (split <;> rfl)
@[simp] theorem Engine.takeDelay_muted (e : Engine) (dl : Option Word) :
    (e.takeDelay dl).muted = e.muted := by
  unfold Engine.takeDelay; split <;> first | rfl | (split <;> rfl)
@[simp] theorem Engine.takeDelay_nf (e : Engine) (dl : Option Word) :
    (e.takeDelay dl).nf = e.nf := by
  unfold Engine.takeDelay; split <;> first | rfl | (split <;> rfl)
@[simp] theorem Engine.takeFlags_cfg (e : Engine) (h : HostRegs) :
    (e.takeFlags h).cfg = e.cfg := by
  unfold Engine.takeFlags; cases h.resetFlag <;> cases e.prevReset <;> rfl
@[simp] theorem Engine.takeFlags_fs (e : Engine) (h : HostRegs) :
    (e.takeFlags h).fs = e.fs := by
  unfold Engine.takeFlags; cases h.resetFlag <;> cases e.prevReset <;> rfl
@[simp] theorem Engine.takeFlags_ctrl (e : Engine) (h : HostRegs) :
    (e.takeFlags h).ctrl = e.ctrl := by
  unfold Engine.takeFlags; cases h.resetFlag <;> cases e.prevReset <;> rfl
@[simp] theorem Engine.takeFlags_coefShelf (e : Engine) (h : HostRegs) :
    (e.takeFlags h).coefShelf = e.coefShelf := by
  unfold Engine.takeFlags; cases h.resetFlag <;> cases e.prevReset <;> rfl
@[simp] theorem Engine.takeFlags_coefPass (e : Engine) (h : HostRegs) :
    (e.takeFlags h).coefPass = e.coefPass := by
  unfold Engine.takeFlags; cases h.resetFlag <;> cases e.prevReset <;> rfl
@[simp] theorem Engine.takeFlags_histLeftShelf (e : Engine) (h : HostRegs) :
    (e.takeFlags h).histLeftShelf = e.histLeftShelf := by
  unfold Engine.takeFlags; cases h.resetFlag <;> cases e.prevReset <;> rfl
@[simp] theorem Engine.takeFlags_histLeftPass (e : Engine) (h : HostRegs) :
    (e.takeFlags h).histLeftPass = e.histLeftPass := by
  unfold Engine.takeFlags; cases h.resetFlag <;> cases e.prevReset <;> rfl
@[simp] theorem Engine.takeFlags_histRightShelf (e : Engine) (h : HostRegs) :
    (e.takeFlags h).histRightShelf = e.histRightShelf := by
  unfold Engine.takeFlags; cases h.resetFlag <;> cases e.prevReset <;> rfl
@[simp] theorem Engine.takeFlags_histRightPass (e : Engine) (h : HostRegs) :
    (e.takeFlags h).histRightPass = e.histRightPass := by
  unfold Engine.takeFlags; cases h.resetFlag <;> cases e.prevReset <;> rfl
@[simp] theorem Engine.takeFlags_catt (e : Engine) (h : HostRegs) :
    (e.takeFlags h).catt = e.catt := by
  unfold Engine.takeFlags; cases h.resetFlag <;> cases e.prevReset <;> rfl
@[simp] theorem Engine.takeFlags_crel (e : Engine) (h : HostRegs) :
    (e.takeFlags h).crel = e.crel := by
  unfold Engine.takeFlags; cases h.resetFlag <;> cases e.prevReset <;> rfl
@[simp] theorem Engine.takeFlags_cup (e : Engine) (h : HostRegs) :
    (e.takeFlags h).cup = e.cup := by
  unfold Engine.takeFlags; cases h.resetFlag <;> cases e.prevReset <;> rfl
@[simp] theorem Engine.takeFlags_cdown (e : Engine) (h : HostRegs) :
    (e.takeFlags h).cdown = e.cdown := by
  unfold Engine.takeFlags; cases h.resetFlag <;> cases e.prevReset <;> rfl
@[simp] theorem Engine.takeFlags_L (e : Engine) (h : HostRegs) :
    (e.takeFlags h).L = e.L := by
  unfold Engine.takeFlags; cases h.resetFlag <;> cases e.prevReset <;> rfl
@[simp] theorem Engine.takeFlags_rf (e : Engine) (h : HostRegs) :
    (e.takeFlags h).rf = e.rf := by
  unfold Engine.takeFlags; cases h.resetFlag <;> cases e.prevReset <;> rfl
@[simp] theorem Engine.takeFlags_silrun (e : Engine) (h : HostRegs) :
    (e.takeFlags h).silrun = e.silrun := by
  unfold Engine.takeFlags; cases h.resetFlag <;> cases e.prevReset <;> rfl
@[simp] theorem Engine.takeFlags_gin (e : Engine) (h : HostRegs) :
    (e.takeFlags h).gin = e.gin := by
  unfold Engine.takeFlags; cases h.resetFlag <;> cases e.prevReset <;> rfl
@[simp] theorem Engine.takeFlags_gout (e : Engine) (h : HostRegs) :
    (e.takeFlags h).gout = e.gout := by
  unfold Engine.takeFlags; cases h.resetFlag <;> cases e.prevReset <;> rfl
@[simp] theorem Engine.takeFlags_H (e : Engine) (h : HostRegs) :
    (e.takeFlags h).H = e.H := by
  unfold Engine.takeFlags; cases h.resetFlag <;> cases e.prevReset <;> rfl
@[simp] theorem Engine.takeFlags_D (e : Engine) (h : HostRegs) :
    (e.takeFlags h).D = e.D := by
  unfold Engine.takeFlags; cases h.resetFlag <;> cases e.prevReset <;> rfl
@[simp] theorem Engine.takeFlags_dbuf (e : Engine) (h : HostRegs) :
    (e.takeFlags h).dbuf = e.dbuf := by
  unfold Engine.takeFlags; cases h.resetFlag <;> cases e.prevReset <;> rfl
@[simp] theorem Engine.takeFlags_dcur (e : Engine) (h : HostRegs) :
    (e.takeFlags h).dcur = e.dcur := by
  unfold Engine.takeFlags; cases h.resetFlag <;> cases e.prevReset <;> rfl
@[simp] theorem Engine.takeFlags_muted (e : Engine) (h : HostRegs) :
    (e.takeFlags h).muted = e.muted := by
  unfold Engine.takeFlags; cases h.resetFlag <;> cases e.prevReset <;> rfl
@[simp] theorem Engine.takeFlags_nf (e : Engine) (h : HostRegs) :
    (e.takeFlags h).nf = e.nf := by
  unfold Engine.takeFlags; cases h.resetFlag <;> cases e.prevReset <;> rfl
@[simp] theorem Engine.takeGains_gin (e : Engine) (d : Derived) :
    (e.takeGains d).gin = d.gin := rfl
@[simp] theorem Engine.takeGains_gout (e : Engine) (d : Derived) :
    (e.takeGains d).gout = d.gout := rfl
@[simp] theorem Engine.takeGains_H (e : Engine) (d : Derived) :
    (e.takeGains d).H = d.H := rfl
@[simp] theorem Engine.takeGains_catt (e : Engine) (d : Derived) :
    (e.takeGains d).catt = d.catt := rfl
@[simp] theorem Engine.takeGains_crel (e : Engine) (d : Derived) :
    (e.takeGains d).crel = d.crel := rfl
@[simp] theorem Engine.takeGains_cup (e : Engine) (d : Derived) :
    (e.takeGains d).cup = d.cup := rfl
@[simp] theorem Engine.takeGains_cdown (e : Engine) (d : Derived) :
    (e.takeGains d).cdown = d.cdown := rfl
@[simp] theorem Engine.takeGains_rf (e : Engine) (d : Derived) :
    (e.takeGains d).rf = d.rf := rfl
@[simp] theorem Engine.takeGains_L (e : Engine) (d : Derived) :
    (e.takeGains d).L = if checkLimit d.L then d.L else e.L := rfl
@[simp] theorem Engine.takeCtrl_ctrl (e : Engine) (c : BitVec 7) : (e.takeCtrl c).ctrl = c := rfl
@[simp] theorem Engine.takeFlags_sustain (e : Engine) (h : HostRegs) :
    (e.takeFlags h).sustain = h.infSustain := by
  unfold Engine.takeFlags; cases h.resetFlag <;> cases e.prevReset <;> rfl
@[simp] theorem Engine.takeFlags_prevReset (e : Engine) (h : HostRegs) :
    (e.takeFlags h).prevReset = h.resetFlag := rfl

/-! ## Windows, meters and the delay line -/

theorem Engine.takeLength_win (e : Engine) (m : MeterId) (wn : Option Word) :
    (e.takeLength m wn).win m =
      if checkWin wn = true ∧ wn.getD 0#32 ≠ (e.win m).W then Window.fresh (wn.getD 0#32)
      else e.win m := by
  unfold Engine.takeLength
  cases wn with
  | none => simp [checkWin]
  | some w =>
    by_cases h : checkWin (some w) && w != (e.win m).W
    · simp only [h, if_true]
      simp at h
      simp [h, Window.clear, Window.fresh]
    · simp only [h]
      simp at h ⊢
      intro h1 h2
      exact absurd (h h1) h2

theorem Engine.takeLength_mtr (e : Engine) (m : MeterId) (wn : Option Word) :
    (e.takeLength m wn).mtr m =
      if checkWin wn = true ∧ wn.getD 0#32 ≠ (e.win m).W then (e.mtr m).clear else e.mtr m := by
  unfold Engine.takeLength
  cases wn with
  | none => simp [checkWin]
  | some w =>
    by_cases h : checkWin (some w) && w != (e.win m).W
    · simp only [h, if_true]
      simp at h
      simp [h]
    · simp only [h]
      simp at h ⊢
      intro h1 h2
      exact absurd (h h1) h2

theorem Engine.takeLength_win_other (e : Engine) {m m' : MeterId} (wn : Option Word)
    (h : m' ≠ m) : (e.takeLength m wn).win m' = e.win m' := by
  unfold Engine.takeLength
  split
  · rfl
  · split
    · rw [Engine.win_clearWindow_other _ h, Engine.win_setWin_other _ _ h]
    · rfl

theorem Engine.takeLength_mtr_other (e : Engine) {m m' : MeterId} (wn : Option Word)
    (h : m' ≠ m) : (e.takeLength m wn).mtr m' = e.mtr m' := by
  unfold Engine.takeLength
  split
  · rfl
  · split
    · rw [Engine.mtr_clearWindow_other _ h, Engine.mtr_setWin]
    · rfl

@[simp] theorem Engine.takeInterval_win (e : Engine) (m m' : MeterId) (iv : Option Word) :
    (e.takeInterval m iv).win m' = e.win m' := by simp [Engine.takeInterval]

theorem Engine.takeInterval_mtr (e : Engine) (m : MeterId) (iv : Option Word) :
    (e.takeInterval m iv).mtr m =
      { e.mtr m with
        I := ivl iv (e.win m).W
        dc := if ivl iv (e.win m).W ≤ (e.mtr m).dc then 0#32 else (e.mtr m).dc } := by
  simp [Engine.takeInterval]

theorem Engine.takeInterval_mtr_other (e : Engine) {m m' : MeterId} (iv : Option Word)
    (h : m' ≠ m) : (e.takeInterval m iv).mtr m' = e.mtr m' := by
  unfold Engine.takeInterval
  exact Engine.mtr_setMtr_other _ _ h

theorem Engine.takeCtrl_win (e : Engine) (c : BitVec 7) (m : MeterId) :
    (e.takeCtrl c).win m =
      if m = .m1 ∧ c.getLsbD 0 = true ∧ e.ctrl.getLsbD 0 = false then (e.win m).clear
      else e.win m := by
  unfold Engine.takeCtrl
  cases m <;> cases h1 : c.getLsbD 0 <;> cases h2 : e.ctrl.getLsbD 0 <;> rfl

theorem Engine.takeCtrl_mtr (e : Engine) (c : BitVec 7) (m : MeterId) :
    (e.takeCtrl c).mtr m =
      if m = .m1 ∧ c.getLsbD 0 = true ∧ e.ctrl.getLsbD 0 = false then (e.mtr m).clear
      else e.mtr m := by
  unfold Engine.takeCtrl
  cases m <;> cases h1 : c.getLsbD 0 <;> cases h2 : e.ctrl.getLsbD 0 <;> rfl

@[simp] theorem Engine.limReset_win (e : Engine) (m : MeterId) :
    e.limReset.win m = (e.win m).clear := by cases m <;> rfl

@[simp] theorem Engine.limReset_mtr (e : Engine) (m : MeterId) :
    e.limReset.mtr m = (e.mtr m).clear := by cases m <;> rfl

theorem Engine.takeFlags_win (e : Engine) (h : HostRegs) (m : MeterId) :
    (e.takeFlags h).win m =
      if h.resetFlag = true ∧ e.prevReset = false then (e.win m).clear else e.win m := by
  unfold Engine.takeFlags
  cases m <;> cases h1 : h.resetFlag <;> cases h2 : e.prevReset <;> rfl

theorem Engine.takeFlags_mtr (e : Engine) (h : HostRegs) (m : MeterId) :
    (e.takeFlags h).mtr m =
      if h.resetFlag = true ∧ e.prevReset = false then (e.mtr m).clear else e.mtr m := by
  unfold Engine.takeFlags
  cases m <;> cases h1 : h.resetFlag <;> cases h2 : e.prevReset <;> rfl

@[simp] theorem Engine.takeGains_win (e : Engine) (d : Derived) (m : MeterId) :
    (e.takeGains d).win m = e.win m := by cases m <;> rfl
@[simp] theorem Engine.takeGains_mtr (e : Engine) (d : Derived) (m : MeterId) :
    (e.takeGains d).mtr m = e.mtr m := by cases m <;> rfl
@[simp] theorem Engine.takeDelay_win (e : Engine) (dl : Option Word) (m : MeterId) :
    (e.takeDelay dl).win m = e.win m := by cases m <;> simp [Engine.win]
@[simp] theorem Engine.takeDelay_mtr (e : Engine) (dl : Option Word) (m : MeterId) :
    (e.takeDelay dl).mtr m = e.mtr m := by cases m <;> simp [Engine.mtr]

/-- A delay that passes its check and differs from the current one is taken and clears the line; any
other leaves it alone (R150, R264). -/
theorem Engine.takeDelay_cases (e : Engine) (dl : Option Word) :
    (∃ n, dl = some n ∧ checkDelay dl = true ∧ n ≠ e.D ∧ (e.takeDelay dl).D = n ∧
      (e.takeDelay dl).dbuf = [] ∧ (e.takeDelay dl).dcur = 0#32) ∨
    ((checkDelay dl = false ∨ dl = some e.D) ∧ e.takeDelay dl = e) := by
  unfold Engine.takeDelay
  cases dl with
  | none => exact .inr ⟨.inl rfl, rfl⟩
  | some n =>
    by_cases h : checkDelay (some n) && n != e.D
    · simp only [h, if_true]
      simp at h
      exact .inl ⟨n, rfl, h.1, h.2, rfl, rfl, rfl⟩
    · simp only [h]
      refine .inr ⟨?_, rfl⟩
      simp at h
      cases hc : checkDelay (some n) with
      | false => exact .inl rfl
      | true => exact .inr (by rw [h hc])

theorem Engine.takeFlags_peak (e : Engine) (h : HostRegs) :
    (e.takeFlags h).peak = if h.resetFlag = true ∧ e.prevReset = false then e.L else e.peak := by
  unfold Engine.takeFlags
  cases h1 : h.resetFlag <;> cases h2 : e.prevReset <;> rfl
theorem Engine.takeFlags_gain (e : Engine) (h : HostRegs) :
    (e.takeFlags h).gain =
      if h.resetFlag = true ∧ e.prevReset = false then Config.one64 else e.gain := by
  unfold Engine.takeFlags
  cases h1 : h.resetFlag <;> cases h2 : e.prevReset <;> rfl
theorem Engine.takeFlags_env (e : Engine) (h : HostRegs) :
    (e.takeFlags h).env =
      if h.resetFlag = true ∧ e.prevReset = false then Config.zero64 else e.env := by
  unfold Engine.takeFlags
  cases h1 : h.resetFlag <;> cases h2 : e.prevReset <;> rfl
theorem Engine.takeFlags_seen (e : Engine) (h : HostRegs) :
    (e.takeFlags h).seen =
      if h.resetFlag = true ∧ e.prevReset = false then false else e.seen := by
  unfold Engine.takeFlags
  cases h1 : h.resetFlag <;> cases h2 : e.prevReset <;> rfl

/-! ## The snapshot as a whole -/

/-- The parts of a commit, in order (R150). -/
theorem Engine.snapshot_eq (e : Engine) (h : HostRegs) : e.snapshot h =
    ((((((((e.takeGains (derive h e.fs)).takeCtrl h.ctrl).takeLength .m0
      (derive h e.fs).W0).takeInterval .m0 (derive h e.fs).Iv).takeLength .m1
      (derive h e.fs).W1).takeInterval .m1 (derive h e.fs).Iv).takeDelay
      (derive h e.fs).Dl).takeFlags h) := rfl

@[simp] theorem Engine.snapshot_cfg (e : Engine) (h : HostRegs) :
    (e.snapshot h).cfg = e.cfg := by simp [Engine.snapshot_eq]
@[simp] theorem Engine.snapshot_fs (e : Engine) (h : HostRegs) :
    (e.snapshot h).fs = e.fs := by simp [Engine.snapshot_eq]
@[simp] theorem Engine.snapshot_coefShelf (e : Engine) (h : HostRegs) :
    (e.snapshot h).coefShelf = e.coefShelf := by simp [Engine.snapshot_eq]
@[simp] theorem Engine.snapshot_coefPass (e : Engine) (h : HostRegs) :
    (e.snapshot h).coefPass = e.coefPass := by simp [Engine.snapshot_eq]
@[simp] theorem Engine.snapshot_histLeftShelf (e : Engine) (h : HostRegs) :
    (e.snapshot h).histLeftShelf = e.histLeftShelf := by simp [Engine.snapshot_eq]
@[simp] theorem Engine.snapshot_histLeftPass (e : Engine) (h : HostRegs) :
    (e.snapshot h).histLeftPass = e.histLeftPass := by simp [Engine.snapshot_eq]
@[simp] theorem Engine.snapshot_histRightShelf (e : Engine) (h : HostRegs) :
    (e.snapshot h).histRightShelf = e.histRightShelf := by simp [Engine.snapshot_eq]
@[simp] theorem Engine.snapshot_histRightPass (e : Engine) (h : HostRegs) :
    (e.snapshot h).histRightPass = e.histRightPass := by simp [Engine.snapshot_eq]
@[simp] theorem Engine.snapshot_silrun (e : Engine) (h : HostRegs) :
    (e.snapshot h).silrun = e.silrun := by simp [Engine.snapshot_eq]
@[simp] theorem Engine.snapshot_muted (e : Engine) (h : HostRegs) :
    (e.snapshot h).muted = e.muted := by simp [Engine.snapshot_eq]
@[simp] theorem Engine.snapshot_nf (e : Engine) (h : HostRegs) :
    (e.snapshot h).nf = e.nf := by simp [Engine.snapshot_eq]
@[simp] theorem Engine.snapshot_gin (e : Engine) (h : HostRegs) :
    (e.snapshot h).gin = (derive h e.fs).gin := by simp [Engine.snapshot_eq]
@[simp] theorem Engine.snapshot_gout (e : Engine) (h : HostRegs) :
    (e.snapshot h).gout = (derive h e.fs).gout := by simp [Engine.snapshot_eq]
@[simp] theorem Engine.snapshot_H (e : Engine) (h : HostRegs) :
    (e.snapshot h).H = (derive h e.fs).H := by simp [Engine.snapshot_eq]
@[simp] theorem Engine.snapshot_catt (e : Engine) (h : HostRegs) :
    (e.snapshot h).catt = (derive h e.fs).catt := by simp [Engine.snapshot_eq]
@[simp] theorem Engine.snapshot_crel (e : Engine) (h : HostRegs) :
    (e.snapshot h).crel = (derive h e.fs).crel := by simp [Engine.snapshot_eq]
@[simp] theorem Engine.snapshot_cup (e : Engine) (h : HostRegs) :
    (e.snapshot h).cup = (derive h e.fs).cup := by simp [Engine.snapshot_eq]
@[simp] theorem Engine.snapshot_cdown (e : Engine) (h : HostRegs) :
    (e.snapshot h).cdown = (derive h e.fs).cdown := by simp [Engine.snapshot_eq]
@[simp] theorem Engine.snapshot_rf (e : Engine) (h : HostRegs) :
    (e.snapshot h).rf = (derive h e.fs).rf := by simp [Engine.snapshot_eq]
@[simp] theorem Engine.snapshot_L (e : Engine) (h : HostRegs) :
    (e.snapshot h).L = if checkLimit (derive h e.fs).L then (derive h e.fs).L else e.L := by
  simp [Engine.snapshot_eq]
@[simp] theorem Engine.snapshot_ctrl (e : Engine) (h : HostRegs) :
    (e.snapshot h).ctrl = h.ctrl := by simp [Engine.snapshot_eq]
@[simp] theorem Engine.snapshot_sustain (e : Engine) (h : HostRegs) :
    (e.snapshot h).sustain = h.infSustain := by simp [Engine.snapshot_eq]
@[simp] theorem Engine.snapshot_prevReset (e : Engine) (h : HostRegs) :
    (e.snapshot h).prevReset = h.resetFlag := by simp [Engine.snapshot_eq]


/-! ## Windows and meters after the snapshot -/

/-- The window length parameter of a meter, in samples. -/
def Derived.windowOf (d : Derived) : MeterId → Option Word
  | .m0 => d.W0
  | .m1 => d.W1

/-- The length a commit leaves a meter's window: the new one if it passes its check (R150). -/
def Engine.nextLength (e : Engine) (d : Derived) (m : MeterId) : Word :=
  if checkWin (d.windowOf m) then (d.windowOf m).getD 0#32 else (e.win m).W

/-- Whether a commit clears a meter: its length changes, DUAL turns on (meter 1) or the reset edge
fires (R150). -/
abbrev Engine.commitClears (e : Engine) (h : HostRegs) (m : MeterId) : Prop :=
  e.nextLength (derive h e.fs) m ≠ (e.win m).W ∨
    (m = .m1 ∧ h.ctrl.getLsbD 0 = true ∧ e.ctrl.getLsbD 0 = false) ∨
    (h.resetFlag = true ∧ e.prevReset = false)

theorem Window.clear_eq_fresh (w : Window) : w.clear = Window.fresh w.W := rfl

theorem Meter.clear_eq_fresh (t : Meter) : t.clear = Meter.fresh t.I := rfl

/-- The window a commit's length step leaves, before the reset edge. -/
theorem Engine.lengths_win (e : Engine) (h : HostRegs) (m : MeterId) :
    ((((((e.takeGains (derive h e.fs)).takeCtrl h.ctrl).takeLength .m0
      (derive h e.fs).W0).takeInterval .m0 (derive h e.fs).Iv).takeLength .m1
      (derive h e.fs).W1).takeInterval .m1 (derive h e.fs).Iv).win m =
    if e.nextLength (derive h e.fs) m ≠ (e.win m).W ∨
        (m = .m1 ∧ h.ctrl.getLsbD 0 = true ∧ e.ctrl.getLsbD 0 = false) then
      Window.fresh (e.nextLength (derive h e.fs) m)
    else e.win m := by
  have hW : ((if m = .m1 ∧ h.ctrl.getLsbD 0 = true ∧ e.ctrl.getLsbD 0 = false then
      (e.win m).clear else e.win m) : Window).W = (e.win m).W := by split <;> rfl
  have key : ∀ wn : Option Word, wn = (derive h e.fs).windowOf m →
      (if checkWin wn = true ∧ wn.getD 0#32 ≠ (e.win m).W then Window.fresh (wn.getD 0#32)
        else if m = .m1 ∧ h.ctrl.getLsbD 0 = true ∧ e.ctrl.getLsbD 0 = false then (e.win m).clear
        else e.win m) =
      if e.nextLength (derive h e.fs) m ≠ (e.win m).W ∨
          (m = .m1 ∧ h.ctrl.getLsbD 0 = true ∧ e.ctrl.getLsbD 0 = false) then
        Window.fresh (e.nextLength (derive h e.fs) m)
      else e.win m := by
    intro wn hwn
    unfold Engine.nextLength
    rw [← hwn]
    by_cases h1 : checkWin wn = true
    · by_cases h2 : wn.getD 0#32 = (e.win m).W
      · by_cases h3 : m = .m1 ∧ h.ctrl.getLsbD 0 = true ∧ e.ctrl.getLsbD 0 = false
        · rw [if_neg (by simp [h2]), if_pos h3, if_pos (.inr h3), if_pos h1, h2,
            Window.clear_eq_fresh]
        · rw [if_neg (by simp [h2]), if_neg h3, if_neg (by simp only [h1, h2, if_true]; simpa using h3)]
      · rw [if_pos ⟨h1, h2⟩, if_pos (.inl (by simpa [h1] using h2)), if_pos h1]
    · by_cases h3 : m = .m1 ∧ h.ctrl.getLsbD 0 = true ∧ e.ctrl.getLsbD 0 = false
      · rw [if_neg (by simp [h1]), if_pos h3, if_pos (.inr h3), if_neg h1, Window.clear_eq_fresh]
      · rw [if_neg (by simp [h1]), if_neg h3, if_neg (by simp only [h1]; simpa using h3)]
  cases m with
  | m0 =>
    rw [Engine.takeInterval_win, Engine.takeLength_win_other _ _ (by decide),
      Engine.takeInterval_win, Engine.takeLength_win, Engine.takeCtrl_win, Engine.takeGains_win,
      Engine.takeGains_ctrl, hW]
    exact key _ rfl
  | m1 =>
    rw [Engine.takeInterval_win, Engine.takeLength_win, Engine.takeInterval_win,
      Engine.takeLength_win_other _ _ (by decide), Engine.takeCtrl_win, Engine.takeGains_win,
      Engine.takeGains_ctrl, hW]
    exact key _ rfl

/-- The window a commit leaves (R150). -/
theorem Engine.snapshot_win (e : Engine) (h : HostRegs) (m : MeterId) :
    (e.snapshot h).win m =
      if e.commitClears h m then Window.fresh (e.nextLength (derive h e.fs) m) else e.win m := by
  rw [Engine.snapshot_eq, Engine.takeFlags_win, Engine.takeDelay_win, Engine.lengths_win]
  simp only [Engine.takeDelay_prevReset, Engine.takeInterval_prevReset,
    Engine.takeLength_prevReset, Engine.takeCtrl_prevReset, Engine.takeGains_prevReset]
  unfold Engine.commitClears
  by_cases h1 : e.nextLength (derive h e.fs) m = (e.win m).W <;>
    by_cases h2 : m = .m1 ∧ h.ctrl.getLsbD 0 = true ∧ e.ctrl.getLsbD 0 = false <;>
    by_cases h3 : h.resetFlag = true ∧ e.prevReset = false <;>
    simp only [ne_eq, h1, h2, h3, not_true, not_false_eq_true, or_true, or_false, if_true, if_false,
      and_true] <;> rfl

/-- The meter a commit's interval step makes of a window of length `w` and a meter. -/
def Meter.retimed (iv : Option Word) (w : Word) (t : Meter) : Meter :=
  { I := ivl iv w, dc := if ivl iv w ≤ t.dc then 0#32 else t.dc, val := t.val, valid := t.valid }

theorem Meter.retimed_clear (iv : Option Word) (w : Word) (t : Meter) :
    Meter.retimed iv w t.clear = Meter.fresh (ivl iv w) := by
  simp [Meter.retimed, Meter.clear, Meter.fresh]

theorem Meter.clear_retimed (iv : Option Word) (w : Word) (t : Meter) :
    (Meter.retimed iv w t).clear = Meter.fresh (ivl iv w) := rfl

/-- The meter a commit's length and interval steps leave, before the reset edge. -/
theorem Engine.lengths_mtr (e : Engine) (h : HostRegs) (m : MeterId) :
    ((((((e.takeGains (derive h e.fs)).takeCtrl h.ctrl).takeLength .m0
      (derive h e.fs).W0).takeInterval .m0 (derive h e.fs).Iv).takeLength .m1
      (derive h e.fs).W1).takeInterval .m1 (derive h e.fs).Iv).mtr m =
    if e.nextLength (derive h e.fs) m ≠ (e.win m).W ∨
        (m = .m1 ∧ h.ctrl.getLsbD 0 = true ∧ e.ctrl.getLsbD 0 = false) then
      Meter.fresh (ivl (derive h e.fs).Iv (e.nextLength (derive h e.fs) m))
    else Meter.retimed (derive h e.fs).Iv (e.win m).W (e.mtr m) := by
  have hW : ((if m = .m1 ∧ h.ctrl.getLsbD 0 = true ∧ e.ctrl.getLsbD 0 = false then
      (e.win m).clear else e.win m) : Window).W = (e.win m).W := by split <;> rfl
  have key : ∀ wn : Option Word, wn = (derive h e.fs).windowOf m →
      Meter.retimed (derive h e.fs).Iv
        (if checkWin wn = true ∧ wn.getD 0#32 ≠ (e.win m).W then Window.fresh (wn.getD 0#32)
          else if m = .m1 ∧ h.ctrl.getLsbD 0 = true ∧ e.ctrl.getLsbD 0 = false then (e.win m).clear
          else e.win m).W
        (if checkWin wn = true ∧ wn.getD 0#32 ≠ (e.win m).W then
          (if m = .m1 ∧ h.ctrl.getLsbD 0 = true ∧ e.ctrl.getLsbD 0 = false then (e.mtr m).clear
            else e.mtr m).clear
          else if m = .m1 ∧ h.ctrl.getLsbD 0 = true ∧ e.ctrl.getLsbD 0 = false then (e.mtr m).clear
          else e.mtr m) =
      if e.nextLength (derive h e.fs) m ≠ (e.win m).W ∨
          (m = .m1 ∧ h.ctrl.getLsbD 0 = true ∧ e.ctrl.getLsbD 0 = false) then
        Meter.fresh (ivl (derive h e.fs).Iv (e.nextLength (derive h e.fs) m))
      else Meter.retimed (derive h e.fs).Iv (e.win m).W (e.mtr m) := by
    intro wn hwn
    unfold Engine.nextLength
    rw [← hwn]
    by_cases h1 : checkWin wn = true
    · by_cases h2 : wn.getD 0#32 = (e.win m).W
      · have hA : ¬(checkWin wn = true ∧ wn.getD 0#32 ≠ (e.win m).W) := by simp [h2]
        by_cases h3 : m = .m1 ∧ h.ctrl.getLsbD 0 = true ∧ e.ctrl.getLsbD 0 = false
        · simp only [if_neg hA, if_pos h3, if_pos h1, Meter.retimed_clear]
          rw [if_pos (Or.inr h3), h2]; rfl
        · simp only [if_neg hA, if_neg h3, if_pos h1]
          rw [if_neg (fun hc => hc.elim (fun hne => hne h2) h3)]
      · have hA : checkWin wn = true ∧ wn.getD 0#32 ≠ (e.win m).W := ⟨h1, h2⟩
        simp only [if_pos hA, if_pos h1, Meter.retimed_clear]
        rw [if_pos (Or.inl h2)]; rfl
    · have hA : ¬(checkWin wn = true ∧ wn.getD 0#32 ≠ (e.win m).W) := by simp [h1]
      by_cases h3 : m = .m1 ∧ h.ctrl.getLsbD 0 = true ∧ e.ctrl.getLsbD 0 = false
      · simp only [if_neg hA, if_pos h3, if_neg h1, Meter.retimed_clear]
        rw [if_pos (Or.inr h3)]; rfl
      · simp only [if_neg hA, if_neg h3, if_neg h1]
        rw [if_neg (fun hc => hc.elim (fun hne => hne rfl) h3)]
  cases m with
  | m0 =>
    rw [Engine.takeInterval_mtr_other _ _ (by decide), Engine.takeLength_mtr_other _ _ (by decide),
      Engine.takeInterval_mtr, Engine.takeLength_mtr, Engine.takeLength_win, Engine.takeCtrl_win,
      Engine.takeCtrl_mtr, Engine.takeGains_win, Engine.takeGains_mtr, Engine.takeGains_ctrl, hW]
    exact key _ rfl
  | m1 =>
    rw [Engine.takeInterval_mtr, Engine.takeLength_mtr, Engine.takeLength_win,
      Engine.takeInterval_win, Engine.takeInterval_mtr_other _ _ (by decide),
      Engine.takeLength_win_other _ _ (by decide), Engine.takeLength_mtr_other _ _ (by decide),
      Engine.takeCtrl_win, Engine.takeCtrl_mtr, Engine.takeGains_win, Engine.takeGains_mtr,
      Engine.takeGains_ctrl, hW]
    exact key _ rfl

/-- The meter a commit leaves (R143, R150). -/
theorem Engine.snapshot_mtr (e : Engine) (h : HostRegs) (m : MeterId) :
    (e.snapshot h).mtr m =
      if e.commitClears h m then
        Meter.fresh (ivl (derive h e.fs).Iv (e.nextLength (derive h e.fs) m))
      else Meter.retimed (derive h e.fs).Iv (e.win m).W (e.mtr m) := by
  rw [Engine.snapshot_eq, Engine.takeFlags_mtr, Engine.takeDelay_mtr, Engine.lengths_mtr]
  simp only [Engine.takeDelay_prevReset, Engine.takeInterval_prevReset,
    Engine.takeLength_prevReset, Engine.takeCtrl_prevReset, Engine.takeGains_prevReset]
  unfold Engine.commitClears
  by_cases h1 : e.nextLength (derive h e.fs) m = (e.win m).W <;>
    by_cases h2 : m = .m1 ∧ h.ctrl.getLsbD 0 = true ∧ e.ctrl.getLsbD 0 = false <;>
    by_cases h3 : h.resetFlag = true ∧ e.prevReset = false <;>
    simp only [ne_eq, h1, h2, h3, not_true, not_false_eq_true, or_true, or_false, if_true, if_false,
      and_true] <;> rfl

/-! ## The delay line and the limiter after the snapshot -/

/-- The delay line a commit leaves: the new delay with a cleared line, or the old one untouched (R150,
R264). -/
theorem Engine.snapshot_delay (e : Engine) (h : HostRegs) :
    (∃ n, (derive h e.fs).Dl = some n ∧ checkDelay (some n) = true ∧ n ≠ e.D ∧
      (e.snapshot h).D = n ∧ (e.snapshot h).dbuf = [] ∧ (e.snapshot h).dcur = 0#32) ∨
    ((checkDelay (derive h e.fs).Dl = false ∨ (derive h e.fs).Dl = some e.D) ∧
      (e.snapshot h).D = e.D ∧ (e.snapshot h).dbuf = e.dbuf ∧ (e.snapshot h).dcur = e.dcur) := by
  rw [Engine.snapshot_eq]
  simp only [Engine.takeFlags_D, Engine.takeFlags_dbuf, Engine.takeFlags_dcur]
  generalize hx : (((((((e.takeGains (derive h e.fs)).takeCtrl h.ctrl).takeLength .m0
      (derive h e.fs).W0).takeInterval .m0 (derive h e.fs).Iv).takeLength .m1
      (derive h e.fs).W1).takeInterval .m1 (derive h e.fs).Iv)) = x
  have hD : x.D = e.D := by rw [← hx]; simp
  have hb : x.dbuf = e.dbuf := by rw [← hx]; simp
  have hc : x.dcur = e.dcur := by rw [← hx]; simp
  rcases Engine.takeDelay_cases x (derive h e.fs).Dl with ⟨n, h1, h2, h3, h4, h5, h6⟩ | ⟨h1, h2⟩
  · exact .inl ⟨n, h1, h1 ▸ h2, hD ▸ h3, h4, h5, h6⟩
  · rw [h2, ← hD, ← hb, ← hc]
    exact .inr ⟨h1, rfl, rfl, rfl⟩

/-- A commit touches the peak, the gain, the envelope and SEEN only on a reset edge (R150, R158). -/
theorem Engine.snapshot_edge (e : Engine) (h : HostRegs) :
    if h.resetFlag = true ∧ e.prevReset = false then
      (e.snapshot h).peak = (e.snapshot h).L ∧ (e.snapshot h).gain = Config.one64 ∧
        (e.snapshot h).env = Config.zero64 ∧ (e.snapshot h).seen = false
    else (e.snapshot h).peak = e.peak ∧ (e.snapshot h).gain = e.gain ∧
      (e.snapshot h).env = e.env ∧ (e.snapshot h).seen = e.seen := by
  rw [Engine.snapshot_eq]
  simp only [Engine.takeFlags_peak, Engine.takeFlags_gain, Engine.takeFlags_env,
    Engine.takeFlags_seen, Engine.takeFlags_L, Engine.takeDelay_prevReset,
    Engine.takeInterval_prevReset, Engine.takeLength_prevReset, Engine.takeCtrl_prevReset,
    Engine.takeGains_prevReset]
  by_cases h3 : h.resetFlag = true ∧ e.prevReset = false <;> simp [h3]

end Sys2Proof.Machine
end

