-- ==== Sys2Proof/Laws/Memory.lean ====
section
/-! SUPPORT. Laws/Memory.lean: what a read sees after a write, and that every buffer operation keeps
the canonical form. -/

namespace Sys2Proof.Machine

variable {α : Type} [DecidableEq α] {d : α} {cap : Nat}

@[simp] theorem Memory.read_nil {α : Type} (d : α) (i : Nat) :
    Memory.read d i ([] : Memory α) = d := rfl

theorem Memory.read_cons {α : Type} (d : α) (i j : Nat) (v : α) (m : Memory α) :
    Memory.read d i ((j, v) :: m) = if i = j then v else Memory.read d i m := rfl

/-- Below the first listed slot every slot holds the empty value. -/
theorem Memory.read_of_lt {α : Type} {d : α} {i : Nat} {m : Memory α} (h : ∀ c ∈ m, i < c.1) :
    Memory.read d i m = d := by
  induction m with
  | nil => rfl
  | cons c m ih =>
    obtain ⟨j, v⟩ := c
    have hj : i < j := h (j, v) (List.mem_cons_self ..)
    rw [Memory.read_cons, if_neg (by omega)]
    exact ih (fun c hc => h c (List.mem_cons_of_mem _ hc))

/-- In a canonical buffer the slots after the first entry lie above it. -/
theorem Memory.wf_tail {j : Nat} {u : α} {m : Memory α} (h : Memory.wf d cap ((j, u) :: m)) :
    Memory.wf d cap m ∧ (∀ c ∈ m, j < c.1) ∧ j < cap ∧ u ≠ d := by
  obtain ⟨h1, h2⟩ := h
  rw [List.pairwise_cons] at h1
  exact ⟨⟨h1.2, fun c hc => h2 c (List.mem_cons_of_mem _ hc)⟩, h1.1,
    (h2 (j, u) (List.mem_cons_self ..)).1, (h2 (j, u) (List.mem_cons_self ..)).2⟩

theorem Memory.wf_nil : Memory.wf d cap ([] : Memory α) :=
  ⟨List.Pairwise.nil, fun _ hc => absurd hc (List.not_mem_nil)⟩

/-- A slot just written reads as the value written. -/
theorem Memory.read_write_same {i : Nat} {v : α} {m : Memory α} (h : Memory.wf d cap m) :
    Memory.read d i (Memory.write d i v m) = v := by
  induction m with
  | nil => simp only [Memory.write]; split <;> simp_all [Memory.read]
  | cons c m ih =>
    obtain ⟨j, u⟩ := c
    obtain ⟨ht, hlt, _, _⟩ := Memory.wf_tail h
    simp only [Memory.write]
    split
    · next hij =>
      split
      · next hv =>
        rw [hv]
        refine Memory.read_of_lt (fun c hc => ?_)
        rcases List.mem_cons.mp hc with rfl | hc
        · exact hij
        · exact lt_trans hij (hlt c hc)
      · simp [Memory.read_cons]
    · split
      · next hij =>
        split
        · next hv =>
          rw [hv, hij]
          exact Memory.read_of_lt hlt
        · simp [Memory.read_cons]
      · next hij =>
        rw [Memory.read_cons, if_neg hij]
        exact ih ht

/-- A write leaves every other slot alone. -/
theorem Memory.read_write_other {i k : Nat} {v : α} {m : Memory α} (hk : k ≠ i) :
    Memory.read d k (Memory.write d i v m) = Memory.read d k m := by
  induction m with
  | nil => simp only [Memory.write]; split <;> simp [Memory.read_cons, hk]
  | cons c m ih =>
    obtain ⟨j, u⟩ := c
    simp only [Memory.write]
    split
    · split
      · rfl
      · rw [Memory.read_cons, if_neg hk]
    · split
      · next hij =>
        split
        · rw [Memory.read_cons, if_neg (by omega)]
        · rw [Memory.read_cons, Memory.read_cons, if_neg hk, if_neg (by omega)]
      · rw [Memory.read_cons, Memory.read_cons, ih]

/-- Every slot a write lists was listed before or is the slot written. -/
theorem Memory.mem_write {i : Nat} {v : α} {m : Memory α} {c : Nat × α}
    (hc : c ∈ Memory.write d i v m) : c ∈ m ∨ (c = (i, v) ∧ v ≠ d) := by
  induction m with
  | nil => simp only [Memory.write] at hc; split at hc <;> simp_all
  | cons e m ih =>
    obtain ⟨j, u⟩ := e
    simp only [Memory.write] at hc
    split at hc
    · split at hc
      · exact .inl hc
      · next hv =>
        rcases List.mem_cons.mp hc with rfl | hc
        · exact .inr ⟨rfl, hv⟩
        · exact .inl hc
    · split at hc
      · split at hc
        · exact .inl (List.mem_cons_of_mem _ hc)
        · next hv =>
          rcases List.mem_cons.mp hc with rfl | hc
          · exact .inr ⟨rfl, hv⟩
          · exact .inl (List.mem_cons_of_mem _ hc)
      · rcases List.mem_cons.mp hc with rfl | hc
        · exact .inl (List.mem_cons_self ..)
        · rcases ih hc with h | h
          · exact .inl (List.mem_cons_of_mem _ h)
          · exact .inr h

/-- A write to a slot the buffer has keeps the canonical form. -/
theorem Memory.wf_write {i : Nat} {v : α} {m : Memory α} (h : Memory.wf d cap m) (hi : i < cap) :
    Memory.wf d cap (Memory.write d i v m) := by
  refine ⟨?_, fun c hc => ?_⟩
  · induction m with
    | nil => simp only [Memory.write]; split <;> simp
    | cons e m ih =>
      obtain ⟨j, u⟩ := e
      obtain ⟨ht, hlt, _, _⟩ := Memory.wf_tail h
      simp only [Memory.write]
      split
      · next hij =>
        split
        · exact h.1
        · refine List.pairwise_cons.mpr ⟨fun c hc => ?_, h.1⟩
          rcases List.mem_cons.mp hc with rfl | hc
          · exact hij
          · exact lt_trans hij (hlt c hc)
      · split
        · next hij =>
          split
          · exact ht.1
          · exact List.pairwise_cons.mpr ⟨fun c hc => hij ▸ hlt c hc, ht.1⟩
        · next hni hne =>
          refine List.pairwise_cons.mpr ⟨fun c hc => ?_, ih ht⟩
          rcases Memory.mem_write hc with hc | ⟨rfl, _⟩
          · exact hlt c hc
          · simp only; omega
  · rcases Memory.mem_write hc with hc | ⟨rfl, hv⟩
    · exact h.2 c hc
    · exact ⟨hi, hv⟩

/-- Canonical buffers that read alike are the same list. -/
theorem Memory.ext_of_read {m n : Memory α} (hm : Memory.wf d cap m) (hn : Memory.wf d cap n)
    (h : ∀ i, Memory.read d i m = Memory.read d i n) : m = n := by
  induction m generalizing n with
  | nil =>
    cases n with
    | nil => rfl
    | cons c n =>
      obtain ⟨j, u⟩ := c
      have := h j
      rw [Memory.read_cons, if_pos rfl] at this
      exact absurd this.symm (Memory.wf_tail hn).2.2.2
  | cons c m ih =>
    obtain ⟨j, u⟩ := c
    obtain ⟨hm', hjm, _, hu⟩ := Memory.wf_tail hm
    cases n with
    | nil =>
      have := h j
      rw [Memory.read_cons, if_pos rfl] at this
      exact absurd this hu
    | cons c n =>
      obtain ⟨k, w⟩ := c
      obtain ⟨hn', hkn, _, hw⟩ := Memory.wf_tail hn
      have hj := h j
      have hk := h k
      simp only [Memory.read_cons, if_true] at hj hk
      have hjk : j = k := by
        rcases Nat.lt_trichotomy j k with hlt | heq | hgt
        · rw [if_neg (by omega), Memory.read_of_lt (fun c hc => lt_trans hlt (hkn c hc))] at hj
          exact absurd hj hu
        · exact heq
        · rw [if_neg (by omega), Memory.read_of_lt (fun c hc => lt_trans hgt (hjm c hc))] at hk
          exact absurd hk.symm hw
      subst hjk
      rw [if_pos rfl] at hj
      have : m = n := by
        refine ih hm' hn' (fun i => ?_)
        by_cases hi : i = j
        · subst hi
          rw [Memory.read_of_lt hjm, Memory.read_of_lt hkn]
        · have := h i
          rwa [Memory.read_cons, Memory.read_cons, if_neg hi, if_neg hi] at this
      rw [hj, this]

end Sys2Proof.Machine
end

