-- ==== Sys2Proof/Laws/Process.lean ====
section
/-! SUPPORT. Laws/Process.lean: what the pieces of PROCESS change, said once per piece, and what the
component commands leave alone. -/

namespace Sys2Proof.Machine

/-- The engine values that only CONFIG and a parameter snapshot write. -/
structure Engine.SameSettings (e e' : Engine) : Prop where
  cfg : e'.cfg = e.cfg
  fs : e'.fs = e.fs
  ctrl : e'.ctrl = e.ctrl
  coefShelf : e'.coefShelf = e.coefShelf
  coefPass : e'.coefPass = e.coefPass
  catt : e'.catt = e.catt
  crel : e'.crel = e.crel
  cup : e'.cup = e.cup
  cdown : e'.cdown = e.cdown
  L : e'.L = e.L
  rf : e'.rf = e.rf
  sustain : e'.sustain = e.sustain
  prevReset : e'.prevReset = e.prevReset
  gin : e'.gin = e.gin
  gout : e'.gout = e.gout
  H : e'.H = e.H
  D : e'.D = e.D

theorem Engine.SameSettings.refl (e : Engine) : e.SameSettings e := by constructor <;> rfl

theorem Engine.SameSettings.trans {a b c : Engine} (h : a.SameSettings b) (h' : b.SameSettings c) :
    a.SameSettings c where
  cfg := h'.cfg.trans h.cfg
  fs := h'.fs.trans h.fs
  ctrl := h'.ctrl.trans h.ctrl
  coefShelf := h'.coefShelf.trans h.coefShelf
  coefPass := h'.coefPass.trans h.coefPass
  catt := h'.catt.trans h.catt
  crel := h'.crel.trans h.crel
  cup := h'.cup.trans h.cup
  cdown := h'.cdown.trans h.cdown
  L := h'.L.trans h.L
  rf := h'.rf.trans h.rf
  sustain := h'.sustain.trans h.sustain
  prevReset := h'.prevReset.trans h.prevReset
  gin := h'.gin.trans h.gin
  gout := h'.gout.trans h.gout
  H := h'.H.trans h.H
  D := h'.D.trans h.D

/-! ## Ranges -/

theorem Engine.cursorInRange_iff {e : Engine} {m : MeterId} :
    e.cursorInRange m = true ↔ (e.win m).cur.toNat < 1048576 := by
  unfold Engine.cursorInRange Config.WMAX; rw [decide_eq_true_eq]

theorem Engine.cursorInRange_congr {e e' : Engine} {m : MeterId} (h : e'.win m = e.win m) :
    e'.cursorInRange m = e.cursorInRange m := by unfold Engine.cursorInRange; rw [h]

/-- The delay cursor after a step, in numbers (R260). -/
theorem delayNext_toNat {D c : Word} (h : c.toNat ≤ D.toNat) :
    (delayNext D c).toNat = if c = D then 0 else c.toNat + 1 := by
  unfold delayNext
  split
  · rfl
  · next hne =>
    have : c.toNat ≠ D.toNat := fun h => hne (BitVec.eq_of_toNat_eq h)
    rw [BitVec.toNat_add]; simp; omega

/-- A delay line within the bounds of R52 touches only slots it has. -/
theorem Engine.delayInRange_of_bounds {e : Engine} (h1 : e.dcur.toNat ≤ e.D.toNat)
    (h2 : e.D.toNat ≤ 65535) : e.delayInRange = true := by
  unfold Engine.delayInRange Config.DMAX
  rw [delayNext_toNat h1]
  simp only [Bool.and_eq_true, decide_eq_true_eq]
  refine ⟨by omega, ?_⟩
  split
  · omega
  · next hne =>
    have : e.dcur.toNat ≠ e.D.toNat := fun h => hne (BitVec.eq_of_toNat_eq h)
    omega

/-- What `processInRange` asks, from the bounds of R52. -/
theorem Engine.processInRange_of_bounds {e : Engine} (h0 : e.win0.cur.toNat < 1048576)
    (h1 : e.win1.cur.toNat < 1048576) (hd : e.dcur.toNat ≤ e.D.toNat) (hD : e.D.toNat ≤ 65535) :
    e.processInRange = true := by
  have a : e.cursorInRange .m0 = true := Engine.cursorInRange_iff.mpr h0
  have b : e.cursorInRange .m1 = true := Engine.cursorInRange_iff.mpr h1
  unfold Engine.processInRange
  rw [a, b, Engine.delayInRange_of_bounds hd hD]; simp

/-! ## One frame equation per piece -/

theorem Engine.stageStep_eq (e : Engine) (ch : Channel) (st : Stage) (x : F64) :
    e.stageStep ch st x = { e with
      histLeftShelf := (e.stageStep ch st x).histLeftShelf
      histLeftPass := (e.stageStep ch st x).histLeftPass
      histRightShelf := (e.stageStep ch st x).histRightShelf
      histRightPass := (e.stageStep ch st x).histRightPass } := by
  cases ch <;> cases st <;> rfl

theorem Engine.setWin_eq (e : Engine) (m : MeterId) (w : Window) :
    e.setWin m w = { e with win0 := (e.setWin m w).win0, win1 := (e.setWin m w).win1 } := by
  cases m <;> rfl

theorem Engine.setMtr_eq (e : Engine) (m : MeterId) (t : Meter) :
    e.setMtr m t = { e with mtr0 := (e.setMtr m t).mtr0, mtr1 := (e.setMtr m t).mtr1 } := by
  cases m <;> rfl

/-- The silence detector counts, or notes a signal, or performs the limiter reset. -/
theorem Engine.silence_cases (e : Engine) (silmin : Word) (mag : F64) :
    e.silence silmin mag = { e with silrun := 0#32, seen := true } ∨ e.silence silmin mag = e ∨
      e.silence silmin mag = { e with silrun := e.silrun + 1#32 } ∨
      e.silence silmin mag = { e.limReset with silrun := e.silrun + 1#32 } := by
  unfold Engine.silence Engine.quietSample
  split
  · split
    · simp only
      split
      · exact .inr (.inr (.inr rfl))
      · exact .inr (.inr (.inl rfl))
    · exact .inr (.inl rfl)
  · exact .inl rfl

/-! ## The settings survive every piece -/

theorem Engine.SameSettings.stageStep (e : Engine) (ch : Channel) (st : Stage) (x : F64) :
    e.SameSettings (e.stageStep ch st x) := by
  rw [Engine.stageStep_eq]; constructor <;> rfl

theorem Engine.SameSettings.cascadeStep (e : Engine) (ch : Channel) (x : F64) :
    e.SameSettings (e.cascadeStep ch x) :=
  (Engine.SameSettings.stageStep ..).trans (Engine.SameSettings.stageStep ..)

theorem Engine.SameSettings.powerStep (e : Engine) (mL mR : F64) :
    e.SameSettings (e.powerStep mL mR) :=
  (Engine.SameSettings.cascadeStep ..).trans (Engine.SameSettings.cascadeStep ..)

theorem Engine.SameSettings.setWin (e : Engine) (m : MeterId) (w : Window) :
    e.SameSettings (e.setWin m w) := by
  rw [Engine.setWin_eq]; constructor <;> rfl

theorem Engine.SameSettings.setMtr (e : Engine) (m : MeterId) (t : Meter) :
    e.SameSettings (e.setMtr m t) := by
  rw [Engine.setMtr_eq]; constructor <;> rfl

theorem Engine.SameSettings.meterStep (e : Engine) (m : MeterId) (p : F64) :
    e.SameSettings (e.meterStep m p) :=
  (Engine.SameSettings.setWin ..).trans (Engine.SameSettings.setMtr ..)

theorem Engine.SameSettings.metersStep (e : Engine) (p : F64) : e.SameSettings (e.metersStep p) := by
  unfold Engine.metersStep
  split
  · exact (Engine.SameSettings.meterStep ..).trans (Engine.SameSettings.meterStep ..)
  · exact Engine.SameSettings.meterStep ..

theorem Engine.SameSettings.silence (e : Engine) (silmin : Word) (mag : F64) :
    e.SameSettings (e.silence silmin mag) := by
  rcases Engine.silence_cases e silmin mag with h | h | h | h <;> rw [h] <;> constructor <;> rfl

theorem Engine.SameSettings.smoothStep (e : Engine) (est : F64) :
    e.SameSettings (e.smoothStep est) := by
  unfold Engine.smoothStep Engine.envStep
  split <;> constructor <;> rfl

theorem Engine.SameSettings.limUpdate (e : Engine) (est : F64) : e.SameSettings (e.limUpdate est) := by
  constructor <;> rfl

theorem Engine.SameSettings.meterPath (e : Engine) (silmin : Word) (mL mR : F64) :
    e.SameSettings (e.meterPath silmin mL mR) :=
  ((((Engine.SameSettings.silence ..).trans (Engine.SameSettings.powerStep ..)).trans
    (Engine.SameSettings.metersStep ..)).trans (Engine.SameSettings.smoothStep ..)).trans
    (Engine.SameSettings.limUpdate ..)

theorem Engine.SameSettings.outputStage (e : Engine) (p : StereoSample) :
    e.SameSettings (e.outputStage p).1 := by
  constructor <;> rfl

theorem Engine.SameSettings.processPair (e : Engine) (silmin : Word) (p : StereoSample) :
    e.SameSettings (e.processPair silmin p).1 :=
  (Engine.SameSettings.meterPath ..).trans (Engine.SameSettings.outputStage ..)

/-- A command other than CONFIG, COMMIT and PROCESS with NC clear leaves every setting alone. -/
theorem exec_sameSettings {i : Instr} {s t : State} (h : exec i s = .next t) (h1 : i ≠ .config)
    (h2 : i ≠ .commit) (h3 : i ≠ .process false) : s.eng.SameSettings t.eng := by
  cases i with
  | nop => obtain rfl := Host.Outcome.next.inj h; exact Engine.SameSettings.refl _
  | config => exact absurd rfl h1
  | commit => exact absurd rfl h2
  | process nc =>
    cases nc with
    | false => exact absurd rfl h3
    | true =>
      rcases execProcess_cases h with ⟨_, rfl⟩ | ⟨_, u, rfl, _, rfl⟩
      · exact Engine.SameSettings.refl _
      · exact Engine.SameSettings.processPair ..
  | limReset =>
    rcases execLimReset_cases h with ⟨_, rfl⟩ | ⟨_, rfl⟩
    · exact Engine.SameSettings.refl _
    · constructor <;> rfl
  | pfStage ch st =>
    rcases execPfStage_cases h with ⟨_, rfl⟩ | ⟨_, rfl⟩
    · exact Engine.SameSettings.refl _
    · exact Engine.SameSettings.stageStep ..
  | pfApply ch =>
    rcases execPfApply_cases h with ⟨_, rfl⟩ | ⟨_, rfl⟩
    · exact Engine.SameSettings.refl _
    · exact Engine.SameSettings.cascadeStep ..
  | accAdd m =>
    rcases execAccAdd_cases h with ⟨_, rfl⟩ | ⟨_, _, rfl⟩
    · exact Engine.SameSettings.refl _
    · exact Engine.SameSettings.setWin ..
  | mtrStep m =>
    rcases execMtrStep_cases h with ⟨_, rfl⟩ | ⟨_, rfl⟩
    · exact Engine.SameSettings.refl _
    · exact Engine.SameSettings.setMtr ..
  | envCalc =>
    rcases execEnvCalc_cases h with ⟨_, rfl⟩ | ⟨_, rfl⟩
    · exact Engine.SameSettings.refl _
    · constructor <;> rfl
  | limUpdate =>
    rcases execLimUpdate_cases h with ⟨_, rfl⟩ | ⟨_, rfl⟩
    · exact Engine.SameSettings.refl _
    · constructor <;> rfl
  | dlyAdd =>
    rcases execDlyAdd_cases h with ⟨_, rfl⟩ | ⟨_, _, rfl⟩
    · exact Engine.SameSettings.refl _
    · constructor <;> rfl

/-! ## What the pieces do to the rest -/

/-- The filter histories of the meter path: only the prefilter moves them. -/
theorem Engine.processPair_hist (e : Engine) (silmin : Word) (p : StereoSample) (ch : Channel)
    (st : Stage) :
    (e.processPair silmin p).1.hist ch st =
      (((e.silence silmin (magnitude (e.tap (f64 p.l)) (e.tap (f64 p.r)))).powerStep
        (e.tap (f64 p.l)) (e.tap (f64 p.r))).hist ch st) := by
  have h1 : ∀ (a : Engine) (x : F64), (a.metersStep x).hist ch st = a.hist ch st := by
    intro a x
    unfold Engine.metersStep Engine.meterStep Engine.accAdd Engine.mtrStep
    split <;> cases ch <;> cases st <;> simp [Engine.hist]
  have h2 : ∀ (a : Engine) (x : F64), (a.smoothStep x).hist ch st = a.hist ch st := by
    intro a x
    unfold Engine.smoothStep Engine.envStep
    split <;> cases ch <;> cases st <;> rfl
  have h3 : ∀ (a : Engine) (x : F64), (a.limUpdate x).hist ch st = a.hist ch st := by
    intro a x; cases ch <;> cases st <;> rfl
  have h4 : ∀ (a : Engine), (a.outputStage p).1.hist ch st = a.hist ch st := by
    intro a; cases ch <;> cases st <;> rfl
  unfold Engine.processPair Engine.meterPath
  rw [h4, h3, h2, h1]

theorem Engine.silence_hist (e : Engine) (silmin : Word) (mag : F64) (ch : Channel) (st : Stage) :
    (e.silence silmin mag).hist ch st = e.hist ch st := by
  rcases Engine.silence_cases e silmin mag with h | h | h | h <;> rw [h] <;>
    cases ch <;> cases st <;> rfl

/-- The windows and the delay line keep their cursors through the silence detector, or restart. -/
theorem Engine.silence_win (e : Engine) (silmin : Word) (mag : F64) (m : MeterId) :
    (e.silence silmin mag).win m = e.win m ∨ (e.silence silmin mag).win m = (e.win m).clear := by
  rcases Engine.silence_cases e silmin mag with h | h | h | h <;> rw [h]
  · exact .inl (by cases m <;> rfl)
  · exact .inl rfl
  · exact .inl (by cases m <;> rfl)
  · exact .inr (by cases m <;> rfl)

end Sys2Proof.Machine
end

