-- ==== Sys2Proof/Laws/Invariant.lean ====
section
/-! SUPPORT. Laws/Invariant.lean: what each piece of the engine does to the bounds of Safety.lean, said
once per piece: a meter's bounds, the delay line's bounds, the limit and the peak. -/

namespace Sys2Proof.Machine

/-! ## One meter -/

/-- A cleared window and meter keep the bounds (R145). -/
theorem MeterBounds.clear {w : Window} {t : Meter} (h : MeterBounds w t) :
    MeterBounds w.clear t.clear := by
  obtain ⟨h1, h2, -, -, h5, h6, -⟩ := h
  exact ⟨h1, h2, h1, Nat.zero_le _, h5, h6, h5⟩

/-- The insertion cursor in numbers (R191). -/
theorem Window.nextCur_toNat {w : Window} (h1 : w.cur.toNat < w.W.toNat) :
    w.nextCur.toNat = if w.cur.toNat + 1 = w.W.toNat then 0 else w.cur.toNat + 1 := by
  have hlt := w.W.isLt
  have hadd : (w.cur + 1#32).toNat = w.cur.toNat + 1 := by
    rw [BitVec.toNat_add]; exact Nat.mod_eq_of_lt (by simp; omega)
  unfold Window.nextCur
  by_cases h : w.cur + 1#32 = w.W
  · rw [if_pos h, if_pos (by rw [← hadd, h])]; rfl
  · rw [if_neg h, if_neg (fun hc => h (BitVec.eq_of_toNat_eq (hadd.trans hc))), hadd]

/-- The fill count in numbers (R191). -/
theorem Window.nextFill_toNat (w : Window) :
    w.nextFill.toNat = if w.fill.toNat < w.W.toNat then w.fill.toNat + 1 else w.fill.toNat := by
  have hlt := w.W.isLt
  unfold Window.nextFill
  by_cases h : w.fill.toNat < w.W.toNat
  · rw [if_pos (BitVec.lt_def.mpr h), if_pos h, BitVec.toNat_add]
    exact Nat.mod_eq_of_lt (by simp; omega)
  · rw [if_neg (fun hc => h (BitVec.lt_def.mp hc)), if_neg h]

/-- An insertion keeps a meter's bounds (R191). -/
theorem MeterBounds.insert {w : Window} {t : Meter} (h : MeterBounds w t) (v : F64) :
    MeterBounds (w.insert v) t := by
  obtain ⟨h1, h2, h3, h4, h5, h6, h7⟩ := h
  refine ⟨h1, h2, ?_, ?_, h5, h6, h7⟩
  · show w.nextCur.toNat < w.W.toNat
    rw [Window.nextCur_toNat h3]; split <;> omega
  · show w.nextFill.toNat ≤ w.W.toNat
    rw [Window.nextFill_toNat]; split <;> omega

/-- A meter step keeps a meter's bounds (R196). -/
theorem MeterBounds.step {w : Window} {t : Meter} (h : MeterBounds w t) (u : Window) :
    MeterBounds w (t.step u) := by
  obtain ⟨h1, h2, h3, h4, h5, h6, h7⟩ := h
  unfold Meter.step
  split
  · exact ⟨h1, h2, h3, h4, h5, h6, h5⟩
  · next hlt =>
    have hI := t.I.isLt
    have hadd : (t.dc + 1#32).toNat = t.dc.toNat + 1 := by
      rw [BitVec.toNat_add]; exact Nat.mod_eq_of_lt (by simp; omega)
    exact ⟨h1, h2, h3, h4, h5, h6, by
      show (t.dc + 1#32).toNat < t.I.toNat; rw [hadd]; omega⟩

/-- The calculation interval lies in the window (R143). -/
theorem ivl_bounds (iv : Option Word) {w : Word} (h : 1 ≤ w.toNat) :
    1 ≤ (ivl iv w).toNat ∧ (ivl iv w).toNat ≤ w.toNat := by
  unfold ivl
  split
  · exact ⟨le_refl _, h⟩
  · next i =>
    split
    · exact ⟨le_refl _, h⟩
    · next h0 =>
      have hi : i.toNat ≠ 0 := fun hc => h0 (BitVec.eq_of_toNat_eq hc)
      split
      · exact ⟨h, le_refl _⟩
      · next hgt =>
        have : ¬w.toNat < i.toNat := hgt
        omega

/-- A fresh window of a checked length and its meter have the bounds (R144, R145). -/
theorem MeterBounds.fresh {w : Word} (h : checkWin (some w) = true) (iv : Option Word) :
    MeterBounds (Window.fresh w) (Meter.fresh (ivl iv w)) := by
  simp only [checkWin, Bool.and_eq_true, decide_eq_true_eq] at h
  obtain ⟨h1, h2⟩ := ivl_bounds iv h.1
  exact ⟨h.1, h.2, h.1, Nat.zero_le _, h1, h2, h1⟩

/-! ## What a piece of the engine keeps -/

/-- The invariant of one meter of an engine whose configured flag is `c`. -/
abbrev MeterInv (c : Bool) (w : Window) (t : Meter) : Prop :=
  Memory.wf 0#64 Config.WMAX w.buf ∧ (c = true → MeterBounds w t)

/-- The invariant of the delay line. -/
abbrev DelayInv (e : Engine) : Prop :=
  Memory.wf StereoSample.zero (Config.DMAX + 1) e.dbuf ∧ (e.cfg = true → DelayBounds e)

/-- The invariant of the limiter. -/
abbrev LimiterInv (e : Engine) : Prop := e.cfg = true → LimitGood e ∧ isNaN64 e.peak = false

/-- The invariant, piece by piece. -/
theorem Engine.inv_iff (e : Engine) :
    e.Inv ↔ MeterInv e.cfg e.win0 e.mtr0 ∧ MeterInv e.cfg e.win1 e.mtr1 ∧ DelayInv e ∧
      LimiterInv e := by
  constructor
  · rintro ⟨⟨a, b, c⟩, h⟩
    exact ⟨⟨a, fun hc => (h hc).1⟩, ⟨b, fun hc => (h hc).2.1⟩, ⟨c, fun hc => (h hc).2.2.1⟩,
      fun hc => ⟨(h hc).2.2.2.1, (h hc).2.2.2.2⟩⟩
  · rintro ⟨⟨a, h0⟩, ⟨b, h1⟩, ⟨c, hd⟩, hl⟩
    exact ⟨⟨a, b, c⟩, fun hc => ⟨h0 hc, h1 hc, hd hc, (hl hc).1, (hl hc).2⟩⟩

theorem MeterInv.clear {c : Bool} {w : Window} {t : Meter} (h : MeterInv c w t) :
    MeterInv c w.clear t.clear := ⟨Memory.wf_nil, fun hc => (h.2 hc).clear⟩

theorem MeterInv.insert {c : Bool} {w : Window} {t : Meter} (h : MeterInv c w t) (v : F64)
    (hr : w.cur.toNat < Config.WMAX) : MeterInv c (w.insert v) t :=
  ⟨Memory.wf_write h.1 hr, fun hc => (h.2 hc).insert v⟩

theorem MeterInv.step {c : Bool} {w : Window} {t : Meter} (h : MeterInv c w t) (u : Window) :
    MeterInv c w (t.step u) := ⟨h.1, fun hc => (h.2 hc).step u⟩

/-- An estimate never makes the peak a NaN (R241, R243). -/
theorem limPeak_notNaN {L rf p e : F64} {b : Bool} (hL : isNaN64 L = false)
    (hp : isNaN64 p = false) : isNaN64 (limPeak L rf b p e) = false := by
  have hf : isNaN64 (limFloor L p) = false := by unfold limFloor; split <;> assumption
  unfold limPeak
  split
  · next h => exact (fgt_iff.mp h).1
  · split
    · next h =>
      have he : isNaN64 e = false := by
        rw [Bool.and_eq_true, Bool.and_eq_true] at h; exact (flt_iff.mp h.1.1).1
      rcases maxsel_cases (fmul (limFloor L p) rf) (maxsel e L) with ⟨h1, h2⟩ | ⟨h1, -⟩
      · rw [h1]; exact (fgt_iff.mp h2).1
      · rw [h1]
        rcases maxsel_cases e L with ⟨h3, -⟩ | ⟨h3, -⟩ <;> rw [h3] <;> assumption
    · exact hf

/-- The delay cursor stays in the line (R260). -/
theorem DelayBounds.dlyAdd {e : Engine} (h : DelayBounds e) (p : StereoSample) :
    DelayBounds (e.dlyAdd p) := by
  refine ⟨h.1, ?_⟩
  show (delayNext e.D e.dcur).toNat ≤ e.D.toNat
  rw [delayNext_toNat h.2]
  split
  · omega
  · next hne =>
    have : e.dcur.toNat ≠ e.D.toNat := fun hc => hne (BitVec.eq_of_toNat_eq hc)
    have := h.2
    omega

/-- On a state within its bounds every window cursor is in range. -/
theorem MeterBounds.cursor {w : Window} {t : Meter} (h : MeterBounds w t) :
    w.cur.toNat < Config.WMAX := lt_of_lt_of_le h.2.2.1 h.2.1

theorem checkLimit_good {L : F64} (h : checkLimit L = true) :
    isFinite64 L = true ∧ fgt L Config.zero64 = true ∧ isNaN64 L = false := by
  rw [checkLimit, Bool.and_eq_true] at h
  obtain ⟨h1, h2⟩ := h
  obtain ⟨hn, -, hpos⟩ := fgt_iff.mp h1
  obtain ⟨-, -, hlt⟩ := flt_iff.mp h2
  refine ⟨isFinite64_iff.mpr ?_, h1, hn⟩
  have e0 : orderKey Config.zero64 = 0 := by decide
  have e1 : orderKey Config.inf64 = infMag64 := by decide
  rw [e0] at hpos
  rw [e1] at hlt
  unfold orderKey at hpos hlt
  split at hpos
  · omega
  · next h => rw [if_neg h] at hlt; omega

/-! ## Frames of the meter path -/

theorem Engine.stageStep_win (e : Engine) (ch : Channel) (st : Stage) (x : F64) (m : MeterId) :
    (e.stageStep ch st x).win m = e.win m := by cases ch <;> cases st <;> cases m <;> rfl

theorem Engine.powerStep_win (e : Engine) (mL mR : F64) (m : MeterId) :
    (e.powerStep mL mR).win m = e.win m := by
  unfold Engine.powerStep Engine.cascadeStep
  rw [Engine.stageStep_win, Engine.stageStep_win, Engine.stageStep_win, Engine.stageStep_win]

/-- `e'` has the delay line of `e`. -/
structure Engine.SameDelay (e e' : Engine) : Prop where
  D : e'.D = e.D
  dbuf : e'.dbuf = e.dbuf
  dcur : e'.dcur = e.dcur

theorem Engine.SameDelay.trans {a b c : Engine} (h : a.SameDelay b) (h' : b.SameDelay c) :
    a.SameDelay c where
  D := h'.D.trans h.D
  dbuf := h'.dbuf.trans h.dbuf
  dcur := h'.dcur.trans h.dcur

theorem Engine.SameDelay.stageStep (e : Engine) (ch : Channel) (st : Stage) (x : F64) :
    e.SameDelay (e.stageStep ch st x) := by rw [Engine.stageStep_eq]; constructor <;> rfl

theorem Engine.SameDelay.cascadeStep (e : Engine) (ch : Channel) (x : F64) :
    e.SameDelay (e.cascadeStep ch x) :=
  (Engine.SameDelay.stageStep ..).trans (Engine.SameDelay.stageStep ..)

theorem Engine.SameDelay.powerStep (e : Engine) (mL mR : F64) : e.SameDelay (e.powerStep mL mR) :=
  (Engine.SameDelay.cascadeStep ..).trans (Engine.SameDelay.cascadeStep ..)

theorem Engine.SameDelay.meterStep (e : Engine) (m : MeterId) (p : F64) :
    e.SameDelay (e.meterStep m p) := by cases m <;> constructor <;> rfl

theorem Engine.SameDelay.metersStep (e : Engine) (p : F64) : e.SameDelay (e.metersStep p) := by
  unfold Engine.metersStep
  split
  · exact (Engine.SameDelay.meterStep ..).trans (Engine.SameDelay.meterStep ..)
  · exact Engine.SameDelay.meterStep ..

theorem Engine.SameDelay.silence (e : Engine) (silmin : Word) (mag : F64) :
    e.SameDelay (e.silence silmin mag) := by
  rcases Engine.silence_cases e silmin mag with h | h | h | h <;> rw [h] <;> constructor <;> rfl

theorem Engine.SameDelay.smoothStep (e : Engine) (est : F64) : e.SameDelay (e.smoothStep est) := by
  unfold Engine.smoothStep Engine.envStep
  split <;> constructor <;> rfl

theorem Engine.SameDelay.limUpdate (e : Engine) (est : F64) : e.SameDelay (e.limUpdate est) := by
  constructor <;> rfl

/-- The meter path never touches the delay line (R279). -/
theorem Engine.SameDelay.meterPath (e : Engine) (silmin : Word) (mL mR : F64) :
    e.SameDelay (e.meterPath silmin mL mR) :=
  ((((Engine.SameDelay.silence ..).trans (Engine.SameDelay.powerStep ..)).trans
    (Engine.SameDelay.metersStep ..)).trans (Engine.SameDelay.smoothStep ..)).trans
    (Engine.SameDelay.limUpdate ..)

end Sys2Proof.Machine
end

