-- ==== Sys2Proof/Laws/Nearest.lean ====
section
/-! SUPPORT. Laws/Nearest.lean: `roundNearest` rounds to the nearest magnitude, ties to even (R11), and
the real values of rounded results. -/

namespace Sys2Proof.Machine

/-- The value of the magnitude `sh · 2^frac + k` for a significand `k` in range at shift `sh`. -/
theorem unitsOf_shifted {frac sh k : Nat} (hk : k ≤ 2 ^ (frac + 1)) (hs : sh ≠ 0 → 2 ^ frac ≤ k) :
    unitsOf frac (sh * 2 ^ frac + k) = k * 2 ^ sh := by
  have hp := Nat.two_pow_pos frac
  rw [pow_succ] at hk
  rcases Nat.lt_or_ge k (2 ^ frac) with h1 | h1
  · have h0 : sh = 0 := by by_contra h; have := hs h; omega
    subst h0
    have : k / 2 ^ frac = 0 := Nat.div_eq_of_lt h1
    simp [unitsOf, this]
  · rcases Nat.lt_or_ge k (2 ^ frac * 2) with h2 | h2
    · obtain ⟨r, rfl⟩ := Nat.exists_eq_add_of_le h1
      have hr : r < 2 ^ frac := by omega
      have e : sh * 2 ^ frac + (2 ^ frac + r) = r + 2 ^ frac * (sh + 1) := by ring
      have hd : (r + 2 ^ frac * (sh + 1)) / 2 ^ frac = sh + 1 := by
        rw [Nat.add_mul_div_left _ _ hp, Nat.div_eq_of_lt hr, Nat.zero_add]
      have hm : (r + 2 ^ frac * (sh + 1)) % 2 ^ frac = r := by
        rw [Nat.add_mul_mod_self_left, Nat.mod_eq_of_lt hr]
      rw [e, unitsOf, hd, hm, if_neg (Nat.succ_ne_zero _), Nat.add_sub_cancel]
    · have hk2 : k = 2 ^ frac * 2 := le_antisymm hk h2
      subst hk2
      have e : sh * 2 ^ frac + 2 ^ frac * 2 = 2 ^ frac * (sh + 2) := by ring
      have hd : (2 ^ frac * (sh + 2)) / 2 ^ frac = sh + 2 := Nat.mul_div_cancel_left _ hp
      have hm : (2 ^ frac * (sh + 2)) % 2 ^ frac = 0 := Nat.mul_mod_right _ _
      rw [e, unitsOf, hd, hm, if_neg (Nat.succ_ne_zero _), Nat.add_zero,
        show sh + 2 - 1 = sh + 1 by omega, pow_succ]
      ring

/-- Rounding is to nearest, ties to even, for the real `y` that `num / den` stands for: `num / den`
itself, or any real on the same side of every half quantum. -/
theorem roundUncapped_nearest {frac num den : Nat} (hf : 0 < frac) (hd : 0 < den) {y : ℝ}
    (hy : ∀ j : ℕ, (y < j * 2 ^ roundShift frac (num / den) / 2 ↔
        (num : ℝ) / den < j * 2 ^ roundShift frac (num / den) / 2) ∧
      (j * 2 ^ roundShift frac (num / den) / 2 < y ↔
        j * 2 ^ roundShift frac (num / den) / 2 < (num : ℝ) / den)) (m : Nat) :
    |(unitsOf frac (roundUncapped frac num den) : ℝ) - y| ≤ |(unitsOf frac m : ℝ) - y| ∧
      (|(unitsOf frac (roundUncapped frac num den) : ℝ) - y| = |(unitsOf frac m : ℝ) - y| →
        m ≠ roundUncapped frac num den → roundUncapped frac num den % 2 = 0) := by
  obtain ⟨hr1, hr2⟩ := roundShift_range frac (num / den)
  unfold roundUncapped
  generalize roundShift frac (num / den) = sh at *
  have hq : (0 : ℝ) < 2 ^ sh := by positivity
  have hdr : (0 : ℝ) < den := by exact_mod_cast hd
  have hDp : 0 < den * 2 ^ sh := Nat.mul_pos hd (Nat.two_pow_pos _)
  have hdm := Nat.div_add_mod num (den * 2 ^ sh)
  have hml := Nat.mod_lt num hDp
  rw [Nat.div_div_eq_div_mul] at hr1 hr2
  set k := num / (den * 2 ^ sh) with hk
  set rem := num % (den * 2 ^ sh) with hrem
  -- the place of `num / den` in its quantum, in reals
  have hP : (num : ℝ) / den = k * 2 ^ sh + rem / den := by
    rw [← hdm]; push_cast; field_simp
  have hremR : (rem : ℝ) / den < 2 ^ sh := by
    rw [div_lt_iff₀ hdr, mul_comm]; exact_mod_cast hml
  have hrem0 : (0 : ℝ) ≤ (rem : ℝ) / den := by positivity
  -- the two neighbours
  have hlo : unitsOf frac (sh * 2 ^ frac + k) = k * 2 ^ sh := unitsOf_shifted (by omega) hr2
  have hhi : unitsOf frac (sh * 2 ^ frac + (k + 1)) = (k + 1) * 2 ^ sh :=
    unitsOf_shifted (by omega) (fun h => by have := hr2 h; omega)
  have hloR : ((unitsOf frac (sh * 2 ^ frac + k) : Nat) : ℝ) = k * 2 ^ sh := by
    rw [hlo]; push_cast; ring
  have hhiR : ((unitsOf frac (sh * 2 ^ frac + (k + 1)) : Nat) : ℝ) = (k + 1) * 2 ^ sh := by
    rw [hhi]; push_cast; ring
  -- `y` lies in the same quantum
  have hylo : (k : ℝ) * 2 ^ sh ≤ y := by
    have := (hy (2 * k)).1
    rw [← not_lt]; intro hc
    have h2 : (num : ℝ) / den < ((2 * k : ℕ) : ℝ) * 2 ^ sh / 2 := this.mp (by push_cast; linarith)
    push_cast at h2; linarith
  have hyhi : y < ((k : ℝ) + 1) * 2 ^ sh := by
    have := (hy (2 * (k + 1))).1.mpr (by push_cast; rw [hP]; nlinarith)
    push_cast at this; linarith
  have hmid1 := (hy (2 * k + 1)).1
  have hmid2 := (hy (2 * k + 1)).2
  push_cast at hmid1 hmid2
  -- rounding up or down, in reals
  have hup : roundsUp k rem (den * 2 ^ sh) = true →
      (2 * k + 1) * 2 ^ sh / 2 ≤ y ∧ ((2 * k + 1) * 2 ^ sh / 2 = y → k % 2 = 1) := by
    intro hu
    simp only [roundsUp, Bool.or_eq_true, decide_eq_true_eq, Bool.and_eq_true, beq_iff_eq] at hu
    have h2 : ((den * 2 ^ sh : ℕ) : ℝ) ≤ 2 * rem := by
      have : den * 2 ^ sh ≤ 2 * rem := by rcases hu with h | ⟨h, _⟩ <;> omega
      exact_mod_cast this
    push_cast at h2
    have h3 : (2 : ℝ) ^ sh / 2 ≤ rem / den := by rw [le_div_iff₀ hdr]; linarith
    refine ⟨?_, fun he => ?_⟩
    · rw [← not_lt, hmid1, hP]; intro hc; linarith
    · rcases hu with h | ⟨_, h⟩
      · exfalso
        have h4 : ((den * 2 ^ sh : ℕ) : ℝ) < 2 * rem := by exact_mod_cast h
        push_cast at h4
        have h5 : (2 : ℝ) ^ sh / 2 < rem / den := by rw [lt_div_iff₀ hdr]; linarith
        have := hmid2.mpr (by rw [hP]; linarith)
        linarith
      · exact h
  have hdown : roundsUp k rem (den * 2 ^ sh) = false →
      y ≤ (2 * k + 1) * 2 ^ sh / 2 ∧ ((2 * k + 1) * 2 ^ sh / 2 = y → k % 2 = 0) := by
    intro hu
    simp only [roundsUp, Bool.or_eq_false_iff, decide_eq_false_iff_not, Bool.and_eq_false_iff,
      beq_eq_false_iff_ne] at hu
    have h2 : (2 : ℝ) * rem ≤ ((den * 2 ^ sh : ℕ) : ℝ) := by
      have : 2 * rem ≤ den * 2 ^ sh := by omega
      exact_mod_cast this
    push_cast at h2
    have h3 : (rem : ℝ) / den ≤ 2 ^ sh / 2 := by rw [div_le_iff₀ hdr]; linarith
    refine ⟨?_, fun he => ?_⟩
    · rw [← not_lt, hmid2, hP]; intro hc; linarith
    · rcases hu.2 with h | h
      · exfalso
        have h4 : (2 : ℝ) * rem < ((den * 2 ^ sh : ℕ) : ℝ) := by
          have : 2 * rem < den * 2 ^ sh := by omega
          exact_mod_cast this
        push_cast at h4
        have h5 : (rem : ℝ) / den < 2 ^ sh / 2 := by rw [div_lt_iff₀ hdr]; linarith
        have := hmid1.mpr (by rw [hP]; linarith)
        linarith
      · omega
  -- every magnitude lies at or below the lower neighbour or at or above the upper
  have heven : ∀ x, (sh * 2 ^ frac + x) % 2 = x % 2 := by
    intro x
    obtain ⟨f, rfl⟩ := Nat.exists_eq_succ_of_ne_zero (by omega : frac ≠ 0)
    rw [Nat.succ_eq_add_one, pow_succ, ← Nat.mul_assoc, Nat.mul_comm _ 2, Nat.mul_add_mod]
  rcases Nat.lt_or_ge (sh * 2 ^ frac + k) m with hm | hm
  · have hmle : (unitsOf frac (sh * 2 ^ frac + (k + 1)) : ℝ) ≤ unitsOf frac m := by
      exact_mod_cast (unitsOf_strictMono frac).monotone (by omega)
    have habs : |(unitsOf frac m : ℝ) - y| = unitsOf frac m - y := abs_of_nonneg (by
      rw [hhiR] at hmle; linarith)
    cases hu : roundsUp k rem (den * 2 ^ sh) with
    | true =>
      simp only [Bool.toNat_true]
      rw [habs, abs_of_nonneg (by rw [hhiR]; linarith)]
      refine ⟨by linarith, fun he hne => ?_⟩
      have : (unitsOf frac m : ℝ) = unitsOf frac (sh * 2 ^ frac + (k + 1)) := by linarith
      exact absurd ((unitsOf_strictMono frac).injective (by exact_mod_cast this)) hne
    | false =>
      simp only [Bool.toNat_false, Nat.add_zero]
      obtain ⟨h1, h2⟩ := hdown hu
      rw [habs, abs_of_nonpos (by rw [hloR]; linarith), hloR]
      rw [hhiR] at hmle
      refine ⟨by linarith, fun he _ => ?_⟩
      rw [heven]; exact h2 (by linarith)
  · have hmle : (unitsOf frac m : ℝ) ≤ unitsOf frac (sh * 2 ^ frac + k) := by
      exact_mod_cast (unitsOf_strictMono frac).monotone hm
    have habs : |(unitsOf frac m : ℝ) - y| = y - unitsOf frac m := by
      rw [abs_of_nonpos (by rw [hloR] at hmle; linarith)]; ring
    cases hu : roundsUp k rem (den * 2 ^ sh) with
    | false =>
      simp only [Bool.toNat_false, Nat.add_zero]
      rw [habs, abs_of_nonpos (by rw [hloR]; linarith)]
      refine ⟨by linarith, fun he hne => ?_⟩
      have : (unitsOf frac m : ℝ) = unitsOf frac (sh * 2 ^ frac + k) := by linarith
      exact absurd ((unitsOf_strictMono frac).injective (by exact_mod_cast this)) hne
    | true =>
      simp only [Bool.toNat_true]
      obtain ⟨h1, h2⟩ := hup hu
      rw [habs, abs_of_nonneg (by rw [hhiR]; linarith), hhiR]
      rw [hloR] at hmle
      refine ⟨by linarith, fun he _ => ?_⟩
      have := h2 (by linarith)
      have := heven (k + 1)
      omega

/-! ## Values of binary64 results -/

theorem unitsPerOne_posR : (0 : ℝ) < (unitsPerOne : ℝ) := by exact_mod_cast unitsPerOne_pos

theorem cast_signedUnits64 (x : F64) :
    ((signedUnits64 x : Int) : ℝ) = if sign64 x then -(units64 x : ℝ) else units64 x := by
  unfold signedUnits64
  generalize units64 x = u
  cases sign64 x <;> simp

theorem valueOf_cast (x : F64) :
    ((valueOf x : ℚ) : ℝ) = (if sign64 x then -(units64 x : ℝ) else units64 x) / unitsPerOne := by
  rw [← cast_signedUnits64]
  unfold valueOf
  generalize signedUnits64 x = z
  generalize unitsPerOne = u
  push_cast
  rfl

theorem abs_neg_sub_neg (a b : ℝ) : |-a - -b| = |a - b| := by
  rw [← abs_neg (a - b)]; congr 1; ring

theorem valueOf_eq_iff {x y : F64} : valueOf x = valueOf y ↔ signedUnits64 x = signedUnits64 y := by
  have : (unitsPerOne : ℚ) ≠ 0 := by exact_mod_cast unitsPerOne_pos.ne'
  unfold valueOf
  rw [div_left_inj' this]
  exact_mod_cast Iff.rfl

theorem cast_two_pow (n : Nat) : ((2 ^ n : Nat) : ℝ) = 2 ^ n := by push_cast; rfl

set_option exponentiation.threshold 2200 in
/-- The place of the infinity, in units. -/
theorem units_inf : unitsOf 52 infMag64 = 2 ^ 1024 * unitsPerOne := by decide +kernel

set_option exponentiation.threshold 2200 in
/-- The largest finite magnitude, in units. -/
theorem units_max : unitsOf 52 (infMag64 - 1) + 2 ^ 971 * unitsPerOne = 2 ^ 1024 * unitsPerOne := by
  decide +kernel

/-- The half-way point between the largest finite value and the infinity's place, in units. -/
theorem units_overflow : (unitsOf 52 (infMag64 - 1) : ℝ) + unitsOf 52 infMag64 =
    2 * ((2 ^ 1024 - 2 ^ 970) * unitsPerOne) := by
  have h1 := units_inf
  have h2 := units_max
  have e1 := cast_two_pow 1024
  have e2 := cast_two_pow 971
  have e3 : (2 : ℝ) ^ 971 = 2 * 2 ^ 970 := pow_succ' 2 970
  generalize (2 : Nat) ^ 1024 = a at *
  generalize (2 : Nat) ^ 971 = b at *
  generalize (2 : ℝ) ^ 1024 = a' at *
  generalize (2 : ℝ) ^ 971 = b' at *
  generalize (2 : ℝ) ^ 970 = c' at *
  generalize unitsPerOne = u at *
  generalize unitsOf 52 infMag64 = p at *
  generalize unitsOf 52 (infMag64 - 1) = q at *
  have h1' : (p : ℝ) = a * u := by exact_mod_cast h1
  have h2' : (q : ℝ) + b * u = a * u := by exact_mod_cast h2
  rw [e1] at h1' h2'
  rw [e2, e3] at h2'
  rw [h1']
  linarith

/-- A rounded result overflows exactly from the half-way point on. -/
theorem roundNearest_finite_iff {num den : Nat} (hd : 0 < den) {y : ℝ}
    (hy : ∀ j : ℕ, (y < j * 2 ^ roundShift 52 (num / den) / 2 ↔
        (num : ℝ) / den < j * 2 ^ roundShift 52 (num / den) / 2) ∧
      (j * 2 ^ roundShift 52 (num / den) / 2 < y ↔
        j * 2 ^ roundShift 52 (num / den) / 2 < (num : ℝ) / den)) :
    roundNearest 52 infMag64 num den < infMag64 ↔
      y < (2 ^ 1024 - 2 ^ 970) * unitsPerOne := by
  have hmid := units_overflow
  have hmono := (unitsOf_strictMono 52)
  have hgap : (unitsOf 52 (infMag64 - 1) : ℝ) < unitsOf 52 infMag64 := by
    exact_mod_cast hmono (by norm_num [infMag64])
  have hnear := roundUncapped_nearest (by norm_num : 0 < 52) hd hy
  rw [roundNearest_eq, min_lt_iff]
  generalize roundUncapped 52 num den = r at *
  simp only [lt_irrefl, false_or]
  constructor
  · intro hr
    by_contra hc
    rw [not_lt] at hc
    have h1 : (unitsOf 52 r : ℝ) ≤ unitsOf 52 (infMag64 - 1) := by
      exact_mod_cast hmono.monotone (by omega)
    obtain ⟨h2, h3⟩ := hnear infMag64
    rw [abs_of_nonpos (by linarith)] at h2 h3
    rcases le_or_gt y (unitsOf 52 infMag64 : ℝ) with hle | hgt
    · rw [abs_of_nonneg (by linarith)] at h2 h3
      have heq : (unitsOf 52 r : ℝ) = unitsOf 52 (infMag64 - 1) := by linarith
      have hr' : r = infMag64 - 1 := hmono.injective (by exact_mod_cast heq)
      have := h3 (by linarith) (by omega)
      rw [hr'] at this
      norm_num [infMag64] at this
    · rw [abs_of_nonpos (by linarith)] at h2
      linarith
  · intro hlt
    by_contra hc
    rw [not_lt] at hc
    have h1 : (unitsOf 52 infMag64 : ℝ) ≤ unitsOf 52 r := by
      exact_mod_cast hmono.monotone hc
    obtain ⟨h2, _⟩ := hnear (infMag64 - 1)
    rw [abs_of_nonneg (by linarith)] at h2
    rcases le_or_gt y (unitsOf 52 (infMag64 - 1) : ℝ) with hle | hgt
    · rw [abs_of_nonneg (by linarith)] at h2; linarith
    · rw [abs_of_nonpos (by linarith)] at h2; linarith

/-- `round64` rounds the signed real that `num / den` units stand for to nearest, ties to even. -/
theorem nearestEven_round64 {s : Bool} {num den : Nat} (hd : 0 < den) {y x : ℝ} (hy0 : 0 ≤ y)
    (hy : ∀ j : ℕ, (y < j * 2 ^ roundShift 52 (num / den) / 2 ↔
        (num : ℝ) / den < j * 2 ^ roundShift 52 (num / den) / 2) ∧
      (j * 2 ^ roundShift 52 (num / den) / 2 < y ↔
        j * 2 ^ roundShift 52 (num / den) / 2 < (num : ℝ) / den))
    (hx : x * unitsPerOne = if s then -y else y) : NearestEven (round64 s num den) x := by
  have hU := unitsPerOne_posR
  have hval := valueOf_cast
  have hov := roundNearest_finite_iff hd hy
  have hvi := @valueOf_eq_iff
  generalize (unitsPerOne : ℝ) = U at *
  have hxabs : |x| * U = y := by
    rw [← abs_of_pos hU, ← abs_mul, hx]
    cases s <;> simp [abs_of_nonneg hy0]
  refine ⟨isNaN64_round64 .., ?_, ?_, ?_, ?_⟩
  · rw [isFinite64_iff, mag64_round64, hov, ← hxabs,
      mul_lt_mul_iff_of_pos_right hU]
  · intro hneg
    rw [sign64_round64]
    cases s
    · have : x * U < 0 := mul_neg_of_neg_of_pos hneg hU
      simp at hx; linarith
    · rfl
  · intro hpos
    rw [sign64_round64]
    cases s
    · rfl
    · have : 0 < x * U := mul_pos hpos hU
      simp at hx; linarith
  · intro hfin c hc
    have hr : mag64 (round64 s num den) = roundUncapped 52 num den := by
      have h1 := isFinite64_iff.mp hfin
      rw [mag64_round64, roundNearest_eq] at h1 ⊢
      rcases min_lt_iff.mp h1 with h | h
      · omega
      · exact min_eq_right (by omega)
    have hnear := roundUncapped_nearest (by norm_num : 0 < 52) hd hy
    rw [← hr] at hnear
    have hscale : ∀ v : F64, |((valueOf v : ℚ) : ℝ) - x| * U =
        |(if sign64 v then -(units64 v : ℝ) else units64 v) - (if s then -y else y)| := by
      intro v
      rw [← hx, ← abs_of_pos hU, ← abs_mul, abs_of_pos hU, hval, sub_mul,
        div_mul_cancel₀ _ hU.ne']
    have hself : |((valueOf (round64 s num den) : ℚ) : ℝ) - x| * U =
        |(units64 (round64 s num den) : ℝ) - y| := by
      rw [hscale, sign64_round64]
      cases s
      · simp
      · simp only [if_true]; exact abs_neg_sub_neg _ _
    have hother : |(units64 c : ℝ) - y| ≤ |((valueOf c : ℚ) : ℝ) - x| * U := by
      rw [hscale]
      have hc0 : (0 : ℝ) ≤ units64 c := Nat.cast_nonneg _
      cases s <;> cases sign64 c <;> simp only [if_true, if_false, Bool.false_eq_true]
      · exact le_refl _
      · rw [abs_of_nonpos (by linarith : -(units64 c : ℝ) - y ≤ 0)]
        exact abs_le.mpr ⟨by linarith, by linarith⟩
      · rw [abs_of_nonneg (by linarith : (0 : ℝ) ≤ (units64 c : ℝ) - -y)]
        exact abs_le.mpr ⟨by linarith, by linarith⟩
      · exact (abs_neg_sub_neg _ _).ge
    obtain ⟨h1, h2⟩ := hnear (mag64 c)
    have hle : |((valueOf (round64 s num den) : ℚ) : ℝ) - x| * U ≤
        |((valueOf c : ℚ) : ℝ) - x| * U := by
      rw [hself]; exact le_trans h1 hother
    refine ⟨le_of_mul_le_mul_right hle hU, fun he hne => ?_⟩
    have heq : |(units64 (round64 s num den) : ℝ) - y| = |(units64 c : ℝ) - y| := by
      refine le_antisymm h1 ?_
      rw [← hself, he]; exact hother
    by_cases hm : mag64 c = mag64 (round64 s num den)
    · -- the same magnitude with the other sign: the distance is equal only at zero
      exfalso
      have hu : units64 c = units64 (round64 s num den) := by rw [units64, units64, hm]
      have hs : sign64 c ≠ s := by
        intro hs
        apply hne
        rw [valueOf_eq_iff, signedUnits64, signedUnits64, hu, sign64_round64, hs]
      have h3 : |((valueOf c : ℚ) : ℝ) - x| * U = |(units64 c : ℝ) - y| := by
        rw [← he, hself, hu]
      rw [hscale] at h3
      have hc0 : (0 : ℝ) ≤ units64 c := Nat.cast_nonneg _
      have hzero : units64 c = 0 ∨ y = 0 := by
        have h4 : (units64 c : ℝ) + y = |(units64 c : ℝ) - y| := by
          rw [← h3]
          clear h3 hscale hself hother hnear he hle heq hr h1 h2
          generalize (units64 c : ℝ) = uc at *
          revert hs
          cases s <;> cases sign64 c <;> intro hs <;>
            simp only [if_true, if_false, Bool.false_eq_true, ne_eq, not_true_eq_false] at hs ⊢
          · rw [abs_of_nonpos (by linarith)]; ring
          · rw [abs_of_nonneg (by linarith)]; ring
        rcases abs_cases ((units64 c : ℝ) - y) with ⟨h5, _⟩ | ⟨h5, _⟩
        · right; linarith
        · left
          have : (units64 c : ℝ) = 0 := by linarith
          exact_mod_cast this
      rcases hzero with h0 | h0
      · apply hne
        rw [valueOf_eq_iff, signedUnits64, signedUnits64, ← hu, h0]
        simp
      · have h6 := (hnear 0).1
        have hz : unitsOf 52 0 = 0 := units_zero
        rw [hz, h0] at h6
        have h7 : unitsOf 52 (mag64 (round64 s num den)) = 0 := by
          have : |(unitsOf 52 (mag64 (round64 s num den)) : ℝ) - 0| ≤ 0 := by simpa using h6
          have := abs_nonpos_iff.mp this
          rw [sub_zero] at this
          exact_mod_cast this
        apply hne
        rw [valueOf_eq_iff, signedUnits64, signedUnits64, hu]
        unfold units64
        rw [h7]; simp
    · exact h2 heq hm

/-! ## The square root -/

/-- `intSqrt` is the integer square root. -/
theorem intSqrt_spec (k n : Nat) (h : n < 4 ^ k) :
    intSqrt k n * intSqrt k n ≤ n ∧ n < (intSqrt k n + 1) * (intSqrt k n + 1) := by
  induction k generalizing n with
  | zero => simp at h; subst h; simp [intSqrt]
  | succ k ih =>
    have := ih (n / 4) (by rw [pow_succ] at h; omega)
    simp only [intSqrt, sqrtDigit]
    generalize intSqrt k (n/4) = r at *
    have h1 : 4 * (n / 4) ≤ n := by omega
    have h2 : n < 4 * (n / 4) + 4 := by omega
    generalize n / 4 = m at *
    split
    · next h => exact ⟨h, by nlinarith⟩
    · next h => exact ⟨by nlinarith, by nlinarith⟩

/-- A real square root against a multiple of the quantum `p`, given its whole part `r`. -/
theorem sqrt_lt_iff {n r p : Nat} (hlo : (r * p) * (r * p) ≤ n)
    (hhi : n < ((r + 1) * p) * ((r + 1) * p)) (J : Nat) : Real.sqrt n < ((J * p : ℕ) : ℝ) ↔ r < J := by
  rw [Real.sqrt_lt (Nat.cast_nonneg _) (Nat.cast_nonneg _)]
  constructor
  · intro h
    have h' : n < (J * p)^2 := by exact_mod_cast h
    by_contra hc
    have h1 : J * p ≤ r * p := Nat.mul_le_mul_right _ (by omega)
    have h2 := Nat.mul_le_mul h1 h1
    rw [pow_two] at h'
    omega
  · intro h
    have h1 : (r + 1) * p ≤ J * p := Nat.mul_le_mul_right _ h
    have h2 := Nat.mul_le_mul h1 h1
    have : n < (J * p)^2 := by rw [pow_two]; omega
    exact_mod_cast this

/-- The same from below, `st` being 0 when the root is exact. -/
theorem lt_sqrt_iff {n r p st : Nat} (hp : 0 < p) (hlo : (r * p) * (r * p) ≤ n)
    (hhi : n < ((r + 1) * p) * ((r + 1) * p)) (hst1 : st ≤ 1) (hexact : st = 0 ↔ (r * p) * (r * p) = n)
    (J : Nat) : ((J * p : ℕ) : ℝ) < Real.sqrt n ↔ (J < r ∨ (J = r ∧ st = 1)) := by
  rw [Real.lt_sqrt (Nat.cast_nonneg _)]
  constructor
  · intro h
    have h' : (J * p)^2 < n := by exact_mod_cast h
    rw [pow_two] at h'
    rcases lt_trichotomy J r with hc | hc | hc
    · exact .inl hc
    · right; refine ⟨hc, ?_⟩
      by_contra h0
      have := hexact.mp (by omega)
      subst hc; omega
    · have h1 : (r + 1) * p ≤ J * p := Nat.mul_le_mul_right _ hc
      have h2 := Nat.mul_le_mul h1 h1
      omega
  · rintro (h | ⟨h, h1⟩)
    · have h1 : (J + 1) * p ≤ r * p := Nat.mul_le_mul_right _ h
      have h3 : J * p < (J + 1) * p := Nat.mul_lt_mul_of_pos_right (by omega) hp
      have h2 : (J * p) * (J * p) < (r * p) * (r * p) := Nat.mul_lt_mul'' (by omega) (by omega)
      have : (J * p)^2 < n := by rw [pow_two]; omega
      exact_mod_cast this
    · subst h
      have h2 := mt hexact.mpr (by omega)
      have : (J * p) ^ 2 < n := by rw [pow_two]; omega
      exact_mod_cast this

end Sys2Proof.Machine
end

