-- ==== Sys2Proof/Laws/NonFinite.lean ====
section
/-! SUPPORT. Laws/NonFinite.lean: a NaN goes through the arithmetic, and what NaN and infinite values do
to a window and to the envelope (R12, R192, R222). -/

namespace Sys2Proof.Machine

/-! ## The operations -/

theorem fadd_nan_left {a b : F64} (h : isNaN64 a = true) : isNaN64 (fadd a b) = true := by
  simp [fadd, addCore, h]

theorem fadd_nan_right {a b : F64} (h : isNaN64 b = true) : isNaN64 (fadd a b) = true := by
  simp [fadd, addCore, h]

theorem fsub_nan_left {a b : F64} (h : isNaN64 a = true) : isNaN64 (fsub a b) = true := by
  simp [fsub, addCore, h]

theorem fmul_nan_left {a b : F64} (h : isNaN64 a = true) : isNaN64 (fmul a b) = true := by
  simp [fmul, h]

/-- The difference of an infinity and itself is a NaN (R11). -/
theorem fsub_self_of_inf {a : F64} (h : isInf64 a = true) : isNaN64 (fsub a a) = true := by
  have hb : isInf64 (fneg a) = true := by rw [isInf64, mag64_fneg]; exact h
  simp [fsub, addCore, h, hb]

/-! ## The window (R190 to R192) -/

/-- One compensated step with a NaN value, or on a NaN sum, leaves a NaN sum. -/
theorem Window.kahan_sum_nan {w : Window} {v : F64} (h : isNaN64 w.sum = true ∨ isNaN64 v = true) :
    isNaN64 (w.kahan v).sum = true := by
  unfold Window.kahan
  exact h.elim fadd_nan_left fun hv => fadd_nan_right (fsub_nan_left hv)

theorem Window.insert_of_not_inf {w : Window} {v : F64} (h : isInf64 v = false) :
    (w.insert v).sum = (w.slide v).sum := by
  simp [Window.insert, Window.insertedSum, h]

/-- A NaN or infinite power makes the sum a NaN, and a NaN sum stays one (R192, I7). -/
theorem Window.insert_sum_nan {w : Window} {v : F64}
    (h : isNaN64 w.sum = true ∨ isNaN64 v = true ∨ isInf64 v = true) :
    isNaN64 (w.insert v).sum = true := by
  show isNaN64 (w.insertedSum v) = true
  unfold Window.insertedSum
  split
  · next hv => exact fsub_self_of_inf hv
  · next hv =>
    rcases h with h | h | h
    · exact Window.kahan_sum_nan (.inl (Window.kahan_sum_nan (.inl h)))
    · exact Window.kahan_sum_nan (.inr h)
    · exact absurd h hv

/-! ## The envelope (R222 to R225) -/

theorem floorEps_nan {r : F64} (h : isNaN64 r = true) : floorEps r = r := by
  simp [floorEps, flt_nan_left h]

/-- For a target that is not a NaN the exponential step is R224's pseudocode. -/
theorem envExp_of_not_nan {cup cdown v T : F64} (h : isNaN64 T = false) :
    envExp cup cdown v T = floorEps
      (if fgt T (floorEps v) then clampAbove (fmul (floorEps v) cup) T
      else clampBelow (fmul (floorEps v) cdown) T) := by
  simp [envExp, releaseTo, h]

/-- A NaN target, or a NaN value, makes the exponential envelope a NaN (R222). -/
theorem envExp_nan {cup cdown v T : F64} (h : isNaN64 v = true ∨ isNaN64 T = true) :
    isNaN64 (envExp cup cdown v T) = true := by
  have hbranch : fgt T (floorEps v) = false := by
    rcases h with h | h
    · rw [floorEps_nan h]; exact flt_nan_left h
    · exact flt_nan_right h
  have hr : isNaN64 (releaseTo (fmul (floorEps v) cdown) T) = true := by
    unfold releaseTo
    split
    · next hT => exact fadd_nan_right hT
    · next hT =>
      have hp : isNaN64 (fmul (floorEps v) cdown) = true := by
        rcases h with h | h
        · rw [floorEps_nan h]; exact fmul_nan_left h
        · exact absurd h hT
      simp [clampBelow, flt_nan_left hp, hp]
  simp only [envExp, hbranch, Bool.false_eq_true, if_false]
  rw [floorEps_nan hr]; exact hr

/-- But for a target of `+Infinity` the linear step is R223's formula; on a NaN value always. -/
theorem linearStep_of_ne {v c T : F64} (h : T ≠ Config.inf64 ∨ isNaN64 v = true) :
    linearStep v c T = fadd v (fmul (fsub T v) c) := by
  rcases h with h | h <;> simp [linearStep, h]

theorem linearStep_inf {v c : F64} (h : isNaN64 v = false) :
    linearStep v c Config.inf64 = Config.inf64 := by simp [linearStep, h]

/-- A target of `+Infinity` sets the linear envelope to `+Infinity`, from `+Infinity` itself too (R222,
R225). -/
theorem envLinear_inf {catt crel v : F64} (h : isNaN64 v = false) :
    envLinear catt crel v Config.inf64 = Config.inf64 := by
  have h1 : fgt Config.inf64 Config.inf64 = false := by decide
  have h2 : flt Config.inf64 Config.inf64 = false := by decide
  have h3 : flt Config.inf64 Config.EPS = false := by decide
  simp [envLinear, linearStep_inf h, clampAbove, clampBelow, floorEps, h1, h2, h3]

/-- A NaN target, or a NaN value, makes the linear envelope a NaN (R222, R223). -/
theorem envLinear_nan {catt crel v T : F64} (h : isNaN64 v = true ∨ isNaN64 T = true) :
    isNaN64 (envLinear catt crel v T) = true := by
  have hbranch : fgt T v = false := h.elim (fun h => flt_nan_left h) (fun h => flt_nan_right h)
  have hinf : isNaN64 Config.inf64 = false := by decide
  have hT : T ≠ Config.inf64 ∨ isNaN64 v = true :=
    h.elim .inr fun h => .inl fun he => by rw [he, hinf] at h; cases h
  have hs : isNaN64 (linearStep v crel T) = true := by
    rw [linearStep_of_ne hT]
    exact h.elim (fun h => fadd_nan_left h)
      (fun h => fadd_nan_right (fmul_nan_left (fsub_nan_left h)))
  have hr : clampBelow (linearStep v crel T) T = linearStep v crel T := by
    simp [clampBelow, flt_nan_left hs]
  simp only [envLinear, hbranch, Bool.false_eq_true, if_false, hr]
  rw [floorEps_nan hs]; exact hs

/-- A NaN target makes the envelope a NaN in both models, and a NaN envelope stays one (R222, V25). -/
theorem Engine.envValue_nan {e : Engine} {T : F64} (h : isNaN64 e.env = true ∨ isNaN64 T = true) :
    isNaN64 (e.envValue T) = true := by
  unfold Engine.envValue
  split
  · exact envExp_nan h
  · exact envLinear_nan h

end Sys2Proof.Machine
end

