-- ==== Sys2Proof/Laws/PerInstr.lean ====
section
/-! SUPPORT. Laws/PerInstr.lean: what holds of each command as syntax, one lemma per constructor.

The family `OpcodeRow` says that the word of a command lies in the row of R116 with its mnemonic, that
the row is the only one of that name, and that the word decodes to the command. -/

namespace Sys2Proof.Laws.OpcodeRow

/-- The word of `i` lies in the row of R116 that has its mnemonic, and decodes to `i`. -/
def Statement (i : Instr) : Prop :=
  (opcodeRows.filter fun r => r.mnemonic == mnemonicOf i).map
      (fun r => encode i &&& r.maskWord == r.matchWord) = [true] ∧
    decode (encode i) = .ok i

theorem nop : Statement .nop := by unfold Statement; decide
theorem config : Statement .config := by unfold Statement; decide
theorem commit : Statement .commit := by unfold Statement; decide
theorem process (nc : Bool) : Statement (.process nc) := by
  unfold Statement; revert nc; decide
theorem limReset : Statement .limReset := by unfold Statement; decide
theorem pfStage (ch : Channel) (st : Stage) : Statement (.pfStage ch st) := by
  unfold Statement; cases ch <;> cases st <;> decide
theorem pfApply (ch : Channel) : Statement (.pfApply ch) := by
  unfold Statement; cases ch <;> decide
theorem accAdd (m : MeterId) : Statement (.accAdd m) := by unfold Statement; cases m <;> decide
theorem mtrStep (m : MeterId) : Statement (.mtrStep m) := by unfold Statement; cases m <;> decide
theorem envCalc : Statement .envCalc := by unfold Statement; decide
theorem limUpdate : Statement .limUpdate := by unfold Statement; decide
theorem dlyAdd : Statement .dlyAdd := by unfold Statement; decide

end Sys2Proof.Laws.OpcodeRow
end

