-- ==== Sys2Proof/Tests/Slice0.lean ====
section
/-! SUPPORT. Tests/Slice0.lean: tests of one decoding or one step each, and for every obligation with
hypotheses a named witness that meets them.

Expected values come from spec/95_test_vectors.md (the vector is named) or from the rules by hand. -/

namespace Sys2Proof.Tests

-- One theorem at a time: the kernel evaluations would each hold a thread otherwise.
set_option Elab.async false

open Sys2Proof Sys2Proof.Machine

/-! ## WellFormed: each check refuses an ill-formed word -/

theorem test_wf_opcode_refused :
    CommandFields.opcInTable { opc := 0x05#8, sel := 0x00#8, low := 0x0000#16 } = false ∧
    CommandFields.wellFormed { opc := 0x05#8, sel := 0x00#8, low := 0x0000#16 } = false := by decide
theorem test_wf_selector_refused :
    CommandFields.selLegal { opc := 0x10#8, sel := 0x04#8, low := 0x0000#16 } = false ∧
    CommandFields.wellFormed { opc := 0x10#8, sel := 0x04#8, low := 0x0000#16 } = false := by decide
theorem test_wf_low_refused :
    CommandFields.lowZero { opc := 0x00#8, sel := 0x00#8, low := 0x0001#16 } = false ∧
    CommandFields.wellFormed { opc := 0x00#8, sel := 0x00#8, low := 0x0001#16 } = false := by decide
theorem test_wf_accepts_pf_stage :
    CommandFields.wellFormed { opc := 0x10#8, sel := 0x03#8, low := 0x0000#16 } = true := by decide

/-! ## Decode: words written out from R111, R114 and R115 (OPC 31:24, SEL 23:16, zero 15:0) -/

theorem test_decode_nop : decode 0b00000000_00000000_0000000000000000#32 = .ok .nop := by decide
theorem test_decode_config : decode 0b00000001_00000000_0000000000000000#32 = .ok .config := by decide
theorem test_decode_commit : decode 0b00000010_00000000_0000000000000000#32 = .ok .commit := by decide
theorem test_decode_process :
    decode 0b00000011_00000000_0000000000000000#32 = .ok (.process false) ∧
    decode 0b00000011_00000001_0000000000000000#32 = .ok (.process true) := by decide
theorem test_decode_limReset :
    decode 0b00000100_00000000_0000000000000000#32 = .ok .limReset := by decide
theorem test_decode_pfStage :
    decode 0b00010000_00000010_0000000000000000#32 = .ok (.pfStage .left .highPass) ∧
    decode 0b00010000_00000001_0000000000000000#32 = .ok (.pfStage .right .highShelf) := by decide
theorem test_decode_pfApply :
    decode 0b00010001_00000001_0000000000000000#32 = .ok (.pfApply .right) := by decide
theorem test_decode_accAdd :
    decode 0b00010010_00000001_0000000000000000#32 = .ok (.accAdd .m1) := by decide
theorem test_decode_mtrStep :
    decode 0b00010011_00000000_0000000000000000#32 = .ok (.mtrStep .m0) := by decide
theorem test_decode_envCalc : decode 0b00010100_00000000_0000000000000000#32 = .ok .envCalc := by decide
theorem test_decode_limUpdate :
    decode 0b00010101_00000000_0000000000000000#32 = .ok .limUpdate := by decide
theorem test_decode_dlyAdd : decode 0b00010110_00000000_0000000000000000#32 = .ok .dlyAdd := by decide
/-- V3 and V70: the reserved words, each refused by its own check. -/
theorem test_decode_reserved :
    decode 0x10040000#32 = .error .reservedSelector ∧ decode 0x03020000#32 = .error .reservedSelector ∧
    decode 0x05000000#32 = .error .unknownOpcode ∧ decode 0x00000001#32 = .error .lowHalfNotZero := by
  decide
/-- The bytes of a word are carried least significant first (R82). -/
theorem test_decode_bytes :
    decodeBytes [0x00#8, 0x00#8, 0x02#8, 0x10#8] = .ok (.pfStage .left .highPass) ∧
    decodeBytes [0x00#8, 0x00#8, 0x02#8] = .error .notOneWord := by decide
theorem test_tableWord :
    decodeTableWord 32 0x03010000 = some (.process true) ∧ decodeTableWord 32 0x05000000 = none := by
  decide

/-! ## A small machine for the step tests -/

/-- The machine of the vectors at 48 kHz with reset parameters: the coefficients of V1 and the derived
values of V59, placed by hand. -/
def engine48 : Engine :=
  { Engine.reset with
    cfg := true, fs := 0x40E7700000000000#64
    coefShelf := { b0 := 0x3FF88FDF15B33DF8#64, b1 := 0xC005889803022554#64,
                   b2 := 0x3FF32C9DF0A5FDF9#64, a1 := 0xBFFB0CF0C24E59D1#64,
                   a2 := 0x3FE7707B85469636#64 }
    coefPass := { b0 := 0x3FF0000000000000#64, b1 := 0xC000000000000000#64,
                  b2 := 0x3FF0000000000000#64, a1 := 0xBFFFD73BFFFFFFEB#64,
                  a2 := 0x3FEFAEABFFFFFFF7#64 }
    win0 := Window.fresh 19200#32, win1 := Window.fresh 144000#32
    mtr0 := Meter.fresh 1#32, mtr1 := Meter.fresh 1#32
    catt := Config.one64, crel := 0x3FDAAAAAAAAAAAAB#64
    cup := 0x3FF04F5A92884587#64, cdown := 0x3FEFF824EF70F12B#64, rf := 0x3FEFF824EF70F12B#64
    L := Config.one64, peak := Config.one64, gain := Config.one64
    gin := Config.one64, gout := Config.one64, H := Config.one64 }

/-- `engine48` behind the reset registers, with the two operands given. -/
def machine (opa opb : F64) (e : Engine) : State :=
  { State.reset with eng := e, host := { HostRegs.reset with opa := opa, opb := opb } }

/-- `engine48` with the given operand in `OPA`. -/
def machine48 (opa : F64) : State := machine opa 0#64 engine48

/-- The state an outcome goes on to; the reset state where it stops. -/
def after (o : Host.Outcome State Fault Refusal) : State :=
  match o with
  | .next t => t
  | .fault _ => State.reset
  | .refused _ => State.reset

/-- The two results of a command. -/
def results (i : Instr) (s : State) : F64 × F64 :=
  ((after (exec i s)).host.res0, (after (exec i s)).host.res1)

/-! ## One step of each command -/

theorem test_nop : exec .nop State.reset = .next State.reset := rfl

/-- V59: `CONFIG 48000.0` after reset. -/
theorem test_config_derives :
    let t := after (exec .config (machine 0x40E7700000000000#64 0#64 Engine.reset))
    (t.eng.cfg, t.eng.win0.W, t.eng.win1.W, t.eng.mtr0.I, t.eng.D, t.eng.crel, t.eng.gain) =
      (true, 19200#32, 144000#32, 1#32, 0#32, 0x3FDAAAAAAAAAAAAB#64, Config.one64) := by
  decide +kernel
/-- V70 row 3: a rate below FS_MIN is CONFIG_INVALID with FDETAIL bit 0. -/
theorem test_config_bad_rate :
    let t := after (exec .config (machine 0x408F400000000000#64 0#64 Engine.reset))
    (t.eng.cfg, t.faults.fault, t.faults.fcode, t.faults.fdetail) = (false, 4#5, 3#32, 1#32) := by
  decide +kernel

/-- V16: a window length that changes clears the window and the meter. -/
theorem test_commit_resize :
    let s := machine48 0#64
    let t := after (exec .commit { s with
      host := { s.host with pWin0Ms := 0x3E800000#32 }
      eng := { s.eng with
        win0 := { s.eng.win0 with sum := Config.two64, cur := 5#32, fill := 7#32 }
        mtr0 := { s.eng.mtr0 with valid := true } } })
    (t.eng.win0.W, t.eng.win0.sum, t.eng.win0.cur, t.eng.win0.fill, t.eng.mtr0.valid) =
      (12#32, 0#64, 0#32, 0#32, false) := by decide +kernel
/-- V58: a commit whose window check fails keeps the length and raises PARAM_INVALID. -/
theorem test_commit_invalid :
    let s := machine48 0#64
    let t := after (exec .commit { s with host := { s.host with pWin0Ms := 0#32 } })
    (t.eng.win0.W, t.faults.fault, t.faults.fcode, t.faults.fdetail) =
      (19200#32, 8#5, 4#32, 2#32) := by decide +kernel

/-- V52: the second over-limit sample, 0.5 twice from a peak of 2.0 and an envelope of 2.0. -/
theorem test_process_release :
    let t := after (exec (.process true)
      (machine 0x3F000000#64 0x3F000000#64 { engine48 with
        seen := true, peak := Config.two64, gain := 0x3FE0000000000000#64, env := Config.two64 }))
    (t.host.res0, t.host.res1, t.eng.env, t.eng.peak, t.eng.gain) =
      (0x3E801F74#64, 0x3E801F74#64, 0x3FF6000000000000#64, 0x3FFFF824EF70F12B#64,
        0x3FE003EE7F5DA463#64) := by decide +kernel
/-- V53, METER_TAP set: the first `PROCESS 0.9, -0.3` with an input gain of 6 dB. -/
theorem test_process_tap :
    let t := after (exec (.process true)
      (machine 0x3F666666#64 0xBE99999A#64 { engine48 with
        ctrl := 0x6A#7, gin := 0x3FFFEC982D5BB8AF#64 }))
    (t.host.res0, t.host.res1) = (0x3F800000#64, 0xBEAAAAAB#64) := by decide +kernel

/-- S4: after a limiter reset the gain is 1.0 and the peak is the limit. -/
theorem test_limReset :
    let t := after (exec .limReset (machine 0#64 0#64 { engine48 with
      peak := Config.inf64, gain := 0#64, env := Config.two64, seen := true }))
    (t.eng.peak, t.eng.gain, t.eng.env, t.eng.seen) = (Config.one64, Config.one64, 0#64, false) := by
  decide +kernel

/-- V3: the high-pass stage has `b0 = 1.0`, and the shelf history does not move. -/
theorem test_pfStage :
    let t := after (exec (.pfStage .left .highPass) (machine48 Config.one64))
    (t.host.res0, t.eng.histLeftShelf, t.eng.histLeftPass.x1) =
      (Config.one64, History.zero, Config.one64) := by decide +kernel
/-- V2, n = 0: the impulse through the cascade. -/
theorem test_pfApply_impulse :
    results (.pfApply .left) (machine48 Config.one64) =
      (0x3FF88FDF15B33DF8#64, 0x3FF88FDF15B33DF8#64) := by decide +kernel
/-- V2, n = 1, from the history the impulse leaves. -/
theorem test_pfApply_second :
    (results (.pfApply .left) (machine 0#64 0#64 { engine48 with
      histLeftShelf := { History.zero with x1 := Config.one64, y1 := 0x3FF88FDF15B33DF8#64 }
      histLeftPass := { History.zero with
        x1 := 0x3FF88FDF15B33DF8#64, y1 := 0x3FF88FDF15B33DF8#64 } })).1 =
      0xBFBC91EA1DD980C0#64 := by decide +kernel

/-- V10, push 5 into a full window of 4 whose cursor has wrapped: 5.0 replaces 1.0. -/
theorem test_accAdd_wraps :
    let t := after (exec (.accAdd .m0) (machine 0x4014000000000000#64 0#64 { engine48 with
      win0 := { W := 4#32, sum := 0x4024000000000000#64, comp := 0#64, cur := 0#32, fill := 4#32
                buf := [(0, 0x3FF0000000000000#64), (1, 0x4000000000000000#64),
                        (2, 0x4008000000000000#64), (3, 0x4010000000000000#64)] } }))
    (t.host.res0, t.host.res1, t.eng.win0.cur, t.eng.win0.fill) =
      (0x402C000000000000#64, 0x400C000000000000#64, 1#32, 4#32) := by decide +kernel
/-- V13, push 3: the compensation term carries the 1.0 that push 2 lost. -/
theorem test_accAdd_compensates :
    let t := after (exec (.accAdd .m0) (machine Config.one64 0#64 { engine48 with
      win0 := { W := 4#32, sum := 0x4341C37937E08000#64, comp := 0xBFF0000000000000#64, cur := 2#32
                fill := 2#32, buf := [(0, 0x4341C37937E08000#64), (1, 0x3FF0000000000000#64)] } }))
    (t.host.res0, t.eng.win0.comp) = (0x4341C37937E08001#64, 0#64) := by decide +kernel

/-- V11, push 4: `KCAL * Sqrt(10.0/4.0)`, and the window is full. -/
theorem test_mtrStep_reads :
    results (.mtrStep .m0) (machine 0#64 0#64 { engine48 with
      win0 := { W := 4#32, sum := 0x4024000000000000#64, comp := 0#64, cur := 0#32, fill := 4#32
                buf := [] } }) = (0x3FF75D15AE99B49E#64, 1#64) := by decide +kernel
/-- V12, push 5: between recomputations the reading is held. -/
theorem test_mtrStep_holds :
    let t := after (exec (.mtrStep .m0) (machine 0#64 0#64 { engine48 with
      mtr0 := { I := 4#32, dc := 0#32, val := Config.two64, valid := true } }))
    (t.host.res0, t.host.res1, t.eng.mtr0.dc) = (Config.two64, 1#64, 1#32) := by decide +kernel

/-- V20, step 2: release from 0.5 towards 0.0. -/
theorem test_envCalc_linear :
    (results .envCalc (machine 0#64 0#64 { engine48 with env := 0x3FE0000000000000#64 })).1 =
      0x3FD2AAAAAAAAAAAA#64 := by decide +kernel
/-- V22, row 2: the exponential model rises from 0.5 towards 1.0. -/
theorem test_envCalc_exponential :
    (results .envCalc (machine Config.one64 0#64 { engine48 with
      ctrl := 0x2E#7, env := 0x3FE0000000000000#64 })).1 = 0x3FE04F5A92884587#64 := by decide +kernel

/-- V30, step 1: attack to 2.0. -/
theorem test_limUpdate_attack :
    results .limUpdate (machine48 Config.two64) = (0x3FE0000000000000#64, Config.two64) := by
  decide +kernel
/-- P2: release from a peak of 3.0. -/
theorem test_limUpdate_release :
    results .limUpdate (machine Config.one64 0#64 { engine48 with
      peak := 0x4008000000000000#64, gain := 0x3FD5555555555555#64 }) =
      (0x3FD55A93547CDB2E#64, 0x4007FA1BB394B4E0#64) := by decide +kernel

/-- V41: with a delay of 0 a signalling NaN and a negative zero come back bit for bit. -/
theorem test_dlyAdd_bits :
    results .dlyAdd (machine 0x123456787FA00001#64 0x80000000#64 engine48) =
      (0x7FA00001#64, 0x80000000#64) := by decide +kernel
/-- V40, step 3: with a delay of 2 the pair of two steps before comes back and the cursor wraps. -/
theorem test_dlyAdd_delays :
    let t := after (exec .dlyAdd (machine 0x40400000#64 0xC0400000#64 { engine48 with
      D := 2#32, dcur := 2#32
      dbuf := [(0, { l := 0x3F800000#32, r := 0xBF800000#32 }),
               (1, { l := 0x40000000#32, r := 0xC0000000#32 })] }))
    (t.host.res0, t.host.res1, t.eng.dcur) = (0x3F800000#64, 0xBF800000#64, 0#32) := by
  decide +kernel

/-! ## The bus -/

/-- V70 rows 8 and 10: an unmapped read answers 0 and a 2-byte write stores nothing; both raise the
bus fault. -/
theorem test_bus_faults :
    (memRead 0x024#12 .byte4 State.reset).readData = some 0#32 ∧
    (memRead 0x024#12 .byte4 State.reset).faults = ⟨16#5, 5#32, 0x024#32, 0#32⟩ ∧
    (after (memWrite 0x008#12 .byte2 0#32 State.reset)).faults = ⟨16#5, 5#32, 0x008#32, 0#32⟩ ∧
    (after (memWrite 0x008#12 .byte2 0#32 State.reset)).host = HostRegs.reset := by decide
/-- V71 and the last line of P4. -/
theorem test_bus_identification :
    (memRead 0x000#12 .byte4 State.reset).readData = some 0x4A4C4331#32 ∧
    (memRead 0x004#12 .byte4 State.reset).readData = some 0x00000001#32 ∧
    memWrite (offsetOf .status) .byte4 0xFFFFFFFF#32 State.reset = .next State.reset :=
  ⟨rfl, rfl, rfl⟩
/-- P2: STATUS under infinite sustain. -/
theorem test_status_sustain :
    readRegister .status (machine 0#64 0#64 { engine48 with sustain := true }) = 0x00000305#32 := by
  decide +kernel

/-! ## Witnesses: states and operands that meet the hypotheses of the obligations

The name of each is `wit_` and the obligation's name; the clauses stand in its order. Where the
hypotheses are equations that only name a value, the value is the right-hand side. -/

/-- A state about to accept `ev`. -/
def awaiting (ev : HostEvent) (s : State) : State := { s with pending := [ev] }

/-- The write of a command word. -/
def command (w : Word) : HostEvent := .write 0x020#12 .byte4 w

theorem wit_OpcodeTableMatchesTheDecoder :
    (⟨"PROCESS", 0x03000000#32, 0xFFFEFFFF#32⟩ : OpcodeRow) ∈ opcodeRows ∧
    0x03010000#32 &&& 0xFFFEFFFF#32 = 0x03000000#32 ∧
    decode 0x03010000#32 = .ok (.process true) := by decide

theorem wit_IllegalWordsOnlyFault :
    (∀ row ∈ opcodeRows, 0x05000000#32 &&& row.maskWord ≠ row.matchWord) ∧
    (0x05#8 ≤ (commandFields 0x05000000#32).opc ∧ (commandFields 0x0F000000#32).opc ≤ 0x0F#8) ∧
    0x17#8 ≤ (commandFields 0x17000000#32).opc ∧ 0x17#8 ≤ (commandFields 0xFF000000#32).opc ∧
    (commandFields 0x00000001#32).low ≠ 0#16 ∧
    selMask (commandFields 0x10040000#32).opc = some 0x03#8 ∧
    (commandFields 0x10040000#32).sel &&& ~~~0x03#8 ≠ 0#8 := by decide

theorem wit_StepRunsTheDecodedCommand :
    (awaiting (command 0x03010000#32) (machine48 0#64)).pending =
      .write 0x020#12 .byte4 0x03010000#32 :: [] ∧
    decode 0x03010000#32 = .ok (.process true) ∧ State.reset.pending = [] := by decide

theorem wit_StepTakesExactlyOneEvent :
    (awaiting (command 0x00000000#32) State.reset).pending = command 0x00000000#32 :: [] ∧
    ∃ t, step (awaiting (command 0x00000000#32) State.reset) = .next t := ⟨rfl, _, rfl⟩

/-- Every line of a script can be the next one. -/
theorem wit_ScriptLinesLoadOperandsThenRun :
    ∀ line ∈ [ScriptLine.wr .silmin 1#32, .rd .status, .nop, .config 0x40E7700000000000#64, .commit,
      .process 0#32 0#32, .processNc 0#32 0#32, .limReset, .pfStage .left .highPass Config.one64,
      .pfApply .right Config.one64, .accAdd .m1 Config.one64, .mtrStep .m0, .envCalc Config.one64,
      .limUpdate Config.two64, .dlyAdd 0#32 0#32],
      ({ State.reset with pending := line.expand } : State).pending = line.expand ++ [] :=
  fun _ _ => (List.append_nil _).symm

/-- The second clause: a CONFIG at 48 kHz from reset configures the engine. -/
theorem wit_OnlyNopAndConfigRunUnconfigured :
    Instr.commit ≠ .nop ∧ Instr.commit ≠ .config ∧ State.reset.eng.cfg = false ∧
    (∃ t, step (awaiting (command 0x01000000#32) (machine 0x40E7700000000000#64 0#64 Engine.reset)) =
      .next t ∧ t.eng.cfg = true) := by
  refine ⟨by decide, by decide, rfl, ?_⟩
  have h : configMask (machine 0x40E7700000000000#64 0#64 Engine.reset).host
      0x40E7700000000000#64 = 0#5 := by decide +kernel
  generalize hm : machine 0x40E7700000000000#64 0#64 Engine.reset = s at h
  have ho : s.host.opa = 0x40E7700000000000#64 := by rw [← hm]; rfl
  refine ⟨{ s with
    pending := [], host := { s.host with cmd := 0x01000000#32 }
    eng := s.eng.configure { s.host with cmd := 0x01000000#32 } s.host.opa }, ?_, rfl⟩
  show execConfig _ = _
  exact if_pos (show configMask { s.host with cmd := 0x01000000#32 } s.host.opa = 0#5 by
    rw [ho]; exact h)

/-- COMMIT runs on a configured engine. -/
theorem commit_runs {s : State} (h : s.eng.cfg = true) : exec .commit s = .next (commitState s) :=
  if_pos h

/-- The state in which a CONFIG at the rate +0.0 fails, and one in which a commit fails its first check. -/
def badConfig : State := { State.reset with host := { HostRegs.reset with cmd := 0x01000000#32 } }
def badCommit : State :=
  { machine48 0#64 with host := { HostRegs.reset with pWin0Ms := 0#32, cmd := 0x02000000#32 } }

/-- A step whose event writes a legal command word runs the command. -/
theorem step_command (w : Word) (i : Instr) (s : State) (h : decode w = .ok i) :
    step (awaiting (command w) s) =
      exec i { s with pending := [], host := { s.host with cmd := w } } :=
  (memWrite_cmd w { s with pending := [] }).trans (runCommand_ok _ h)

/-- A step that raises a fault of each kind but NOT_CONFIGURED: an illegal word, a CONFIG at a rate out of
range, a commit with a bad window length and an access to an unmapped offset. -/
theorem wit_FaultRegistersDescribeTheLatestFault :
    (∃ t, step (awaiting (command 0x05000000#32) State.reset) = .next t ∧ t.faults.fcode = 1#32) ∧
    (∃ t, step (awaiting (command 0x01000000#32) badConfig) = .next t ∧ t.faults.fcode = 3#32) ∧
    (∃ t, step (awaiting (command 0x02000000#32) badCommit) = .next t ∧ t.faults.fcode = 4#32) ∧
    (∃ t, step (awaiting (.read 0x024#12 .byte4) State.reset) = .next t ∧ t.faults.fcode = 5#32) ∧
    command 0x05000000#32 ≠ .hardwareReset ∧
    RegName.fault ∈ [RegName.fault, .fcode, .finfo, .fdetail] := by
  have h3 : exec .config badConfig =
      .next (raiseFault (.configInvalid (configMask badConfig.host badConfig.host.opa)) badConfig) :=
    show execConfig badConfig = _ from if_neg (by decide)
  have hm : commitMask badCommit ≠ 0#5 := by decide +kernel
  have h4 : exec .commit badCommit = .next (commitState badCommit) := commit_runs rfl
  have hf : (commitState badCommit).faults.fcode = 4#32 := by
    obtain ⟨h0, -⟩ | ⟨-, h1⟩ := commitState_cases badCommit
    · exact absurd h0 hm
    · rw [h1]; rfl
  have e3 := step_command 0x01000000#32 .config badConfig rfl
  have e4 := step_command 0x02000000#32 .commit badCommit rfl
  rw [show ({ badConfig with
    pending := [], host := { badConfig.host with cmd := 0x01000000#32 } } : State) = badConfig from rfl,
    h3] at e3
  rw [show ({ badCommit with
    pending := [], host := { badCommit.host with cmd := 0x02000000#32 } } : State) = badCommit from rfl,
    h4] at e4
  exact ⟨⟨_, rfl, by decide⟩, ⟨_, e3, rfl⟩, ⟨_, e4, hf⟩, ⟨_, rfl, by decide⟩, by decide, by decide⟩

/-- The offsets at the edges of the unmapped ranges, and one access illegal by its width, one by its
alignment. -/
theorem wit_IllegalAccessesRaiseTheBusFault :
    (0x080#12 ≤ 0x080#12 ∧ 0x0FF#12 ≤ 0x0FF#12) ∧ 0x12C#12 ≤ 0x12C#12 ∧ 0x12C#12 ≤ 0xFFF#12 ∧
    legalAccess 0x024#12 .byte4 = false ∧ legalAccess 0x04C#12 .byte4 = false ∧
    legalAccess 0x080#12 .byte4 = false ∧ legalAccess 0x0FC#12 .byte4 = false ∧
    legalAccess 0x12C#12 .byte4 = false ∧ legalAccess 0x002#12 .byte4 = false ∧
    legalAccess 0x008#12 .byte2 = false := by decide

theorem wit_WritesToReadOnlyRegistersAreIgnored :
    RegName.id ∈ readOnlyRegisters ∧ RegName.obsFsHi ∈ readOnlyRegisters := by decide

theorem wit_LegalReadsAreIdempotent : legalAccess 0x024#12 .byte4 = false := by decide

theorem wit_WritesStoreTheDefinedBits :
    RegName.ctrl ∈ storableRegisters ∧ RegName.pFlags ∈ storableRegisters ∧
    RegName.silmin ∈ storableRegisters := by decide

/-- A register of the map at its first and one at its last offset. -/
theorem wit_RegisterMapReadsTheState :
    (RegName.id ∈ allRegisters ∧ offsetOf .id = 0x000#12) ∧
    (RegName.pFlags ∈ allRegisters ∧ offsetOf .pFlags = 0x128#12) := by decide

theorem wit_HardwareResetSetsEveryValue :
    (awaiting .hardwareReset (machine48 Config.one64)).pending = .hardwareReset :: [] := rfl

theorem wit_NopChangesNothing :
    (commandFields 0x00010000#32).opc = 0x00#8 ∧ 0x00010000#32 ≠ 0x00000000#32 ∧
    (commandFields 0x00000001#32).opc = 0x00#8 ∧ 0x00000001#32 ≠ 0x00000000#32 := by decide

/-- The edges of every check at once: the lowest rate 8000 Hz, windows of 1 slot (0.125 ms) and of
1048576 slots (131072 ms), and a delay of 65535 samples (8191.875 ms). -/
def edgeState : State :=
  { State.reset with
    host := { HostRegs.reset with
      opa := 0x40BF400000000000#64, pWin0Ms := 0x3E000000#32, pWin1Ms := 0x48000000#32
      pDelayMs := 0x45FFFF00#32 } }

theorem wit_ConfigBuildsTheEngine :
    fge edgeState.host.opa Config.FS_MIN = true ∧ fle edgeState.host.opa Config.FS_MAX = true ∧
    samples edgeState.host.pWin0Ms edgeState.host.opa = some 1#32 ∧ 1 ≤ (1#32).toNat ∧
    samples edgeState.host.pWin1Ms edgeState.host.opa = some 1048576#32 ∧
    (1048576#32).toNat ≤ 1048576 ∧
    samples edgeState.host.pDelayMs edgeState.host.opa = some 65535#32 ∧ (65535#32).toNat ≤ 65535 ∧
    fgt (pow10Of Config.functionUnits (fdiv (f64 edgeState.host.pLimitDb) Config.twenty64))
      Config.zero64 = true ∧
    flt (pow10Of Config.functionUnits (fdiv (f64 edgeState.host.pLimitDb) Config.twenty64))
      Config.inf64 = true := by
  decide +kernel

/-- PROCESS runs on a configured engine whose cursors are in range. -/
theorem process_runs {nc : Bool} {s : State} (h : s.eng.cfg = true)
    (hr : (if nc then s else commitState s).eng.processInRange = true) :
    ∃ t, exec (.process nc) s = .next t ∧
      t = finishPair (if nc then s else commitState s)
        ((if nc then s else commitState s).eng.processPair
          (if nc then s else commitState s).host.silmin (inputPair (if nc then s else commitState s))) :=
  ⟨_, (if_pos h).trans (if_pos hr), rfl⟩

/-- The commit clause, with no failed check and with a failed one. -/
theorem wit_FailedCheckMaskNamesTheFailedChecks :
    (machine48 0#64).eng.cfg = true ∧ commitMask (machine48 0#64) = 0#5 ∧
    commitMask { machine48 0#64 with host := { HostRegs.reset with pWin0Ms := 0#32 } } = 2#5 ∧
    (∃ t, exec .commit (machine48 0#64) = .next t) ∧
    (∃ t, exec (.process false) (machine48 0#64) = .next t) := by
  refine ⟨by decide, by decide +kernel, by decide +kernel, ⟨_, commit_runs rfl⟩, ?_⟩
  have h : (commitState (machine48 0#64)).eng.processInRange = true := by decide +kernel
  have hc : (machine48 0#64).eng.cfg = true := rfl
  generalize machine48 0#64 = s at h hc
  obtain ⟨t, ht, -⟩ := process_runs (nc := false) hc h
  exact ⟨t, ht⟩

theorem wit_CommitTakesTheSnapshot : (machine48 0#64).eng.cfg = true := rfl

/-- A commit that changes one window, turns DUAL on, changes the delay and sees a RESET_FLAG edge. -/
def commitAll : State :=
  let s := machine48 0#64
  { s with
    host := { s.host with ctrl := 0x2B#7, pDelayMs := 0x3E800000#32, pFlags := 1#2 } }

/-- The commit clauses: a commit that changes nothing, one that does all of it, one that changes the
first length only. -/
theorem wit_CommitClearsOnlyWhatChanged :
    (machine48 0#64).eng.cfg = true ∧ (∃ t, exec .commit (machine48 0#64) = .next t ∧
      t.eng.win0.W = 19200#32 ∧ t.eng.D = 0#32) ∧
    (∃ t, exec .commit commitAll = .next t ∧ commitAll.host.ctrl.getLsbD 0 = true ∧
      commitAll.eng.ctrl.getLsbD 0 = false ∧ t.eng.D = 12#32 ∧
      commitAll.host.pFlags.getLsbD 0 = true ∧ commitAll.eng.prevReset = false) ∧
    (∃ t, exec .commit { machine48 0#64 with
        host := { HostRegs.reset with pWin0Ms := 0x3E800000#32 } } = .next t ∧
      t.eng.win0.W = 12#32 ∧ t.eng.win1.W = 144000#32) := by
  refine ⟨rfl, ⟨_, commit_runs rfl, ?_⟩, ⟨_, commit_runs rfl, ?_⟩, ⟨_, commit_runs rfl, ?_⟩⟩ <;>
    decide +kernel

theorem wit_LimResetRestoresTheLimit : (machine48 0#64).eng.cfg = true := rfl

theorem wit_SamplesIsTheFloorOfTheTime :
    samples 0x43C80000#32 0x40E7700000000000#64 = some 19200#32 ∧
    samples 0x00000000#32 0x40E7700000000000#64 = some 0#32 ∧
    samples 0xBF800000#32 0x40E7700000000000#64 = none ∧
    isFinite64 0x0000000000000001#64 = true ∧ fgt 0x0000000000000001#64 Config.zero64 = true ∧
    isFinite64 0x7FEFFFFFFFFFFFFF#64 = true ∧ fgt 0x7FEFFFFFFFFFFFFF#64 Config.zero64 = true := by
  decide +kernel

theorem wit_TimeConstantIsAtLeastOne :
    isFinite64 0x0000000000000001#64 = true ∧ fgt 0x0000000000000001#64 Config.zero64 = true ∧
    isNaN32 0x7FC00000#32 = true ∧ sign32 0x80000000#32 = true ∧ mag32 0x00000000#32 = 0 := by
  decide +kernel

theorem wit_IntervalStaysInTheWindow :
    1 ≤ (1#32).toNat ∧ (some 0#32 : Option Word) = some 0#32 ∧ (1#32 < 2#32) ∧ (1#32 ≠ 0#32) ∧
    (1#32 ≤ 1#32) := by decide

theorem wit_StageFollowsTheRecurrence : (machine48 Config.one64).eng.cfg = true := rfl

/-- The first clause: two configured states that agree on the operand, the stage and its history, and
differ in the other channel's history. -/
theorem wit_StagesCascadeAndChannelsAreIndependent :
    let s := machine48 Config.one64
    let u := machine Config.one64 0#64 { engine48 with
      histRightPass := { History.zero with x1 := Config.one64 } }
    s.eng.cfg = true ∧ u.eng.cfg = true ∧ s.host.opa = u.host.opa ∧
    s.eng.coef .highPass = u.eng.coef .highPass ∧
    s.eng.hist .left .highPass = u.eng.hist .left .highPass ∧ s.eng ≠ u.eng := by decide

/-- A NaN operand, a NaN output kept from before, and a step that is neither CONFIG nor reset. -/
theorem wit_NaNStaysInTheFilterHistory :
    let s := machine48 0x7FF8000000000000#64
    let u := awaiting (command 0x10000000#32) (machine 0#64 0#64 { engine48 with
      histLeftShelf := { History.zero with y1 := 0x7FF8000000000000#64 } })
    (s.eng.cfg = true ∧ isNaN64 s.host.opa = true) ∧
    isNaN64 (u.eng.hist .left .highShelf).y1 = true ∧ u.pending.head? ≠ some .hardwareReset ∧
    u.pending.head? ≠ some (.write 0x020#12 .byte4 0x01000000#32) ∧ ∃ t, step u = .next t := by
  refine ⟨by decide +kernel, by decide +kernel, by decide, by decide, _, rfl⟩

/-- The last slot a buffer can have, an operand of each kind, and a window with a NaN sum. -/
theorem wit_InsertionIsTwoCompensatedSteps :
    let w : Window := { Window.fresh 1048576#32 with cur := 1048575#32 }
    let s := machine Config.one64 0#64 { engine48 with win0 := w }
    let n := machine48 0x7FF8000000000000#64
    let x := machine48 Config.inf64
    let y := machine 0#64 0#64 { engine48 with win0 := { w with sum := 0x7FF8000000000000#64 } }
    (s.eng.cfg = true ∧ s.eng.win .m0 = w ∧ w.cur.toNat < 1048576 ∧
      Memory.wf 0#64 1048576 w.buf ∧ isInf64 s.host.opa = false) ∧
    (n.eng.cfg = true ∧ (n.eng.win .m0).cur.toNat < 1048576 ∧
      Memory.wf 0#64 1048576 (n.eng.win .m0).buf ∧ isNaN64 n.host.opa = true) ∧
    (x.eng.cfg = true ∧ (x.eng.win .m1).cur.toNat < 1048576 ∧
      Memory.wf 0#64 1048576 (x.eng.win .m1).buf ∧ isInf64 x.host.opa = true) ∧
    (y.eng.cfg = true ∧ (y.eng.win .m0).cur.toNat < (y.eng.win .m0).W.toNat ∧
      (y.eng.win .m0).W.toNat ≤ 1048576 ∧ isNaN64 (y.eng.win .m0).sum = true) := by decide

theorem wit_WindowHoldsTheLastInsertions :
    (machine48 0#64).eng.cfg = true ∧
    (machine48 0#64).eng.win .m0 = { W := 19200#32, buf := [], sum := 0#64, comp := 0#64
                                     cur := 0#32, fill := 0#32 } ∧
    1 ≤ (19200#32).toNat ∧ (19200#32).toNat ≤ 1048576 := by decide

/-- Both sides of the decimation: an interval of 1 elapses at once, one of 4 does not; and a NaN
sum. -/
theorem wit_MeterReadsTheRootMeanSquare :
    (machine48 0#64).eng.cfg = true ∧
    (machine48 0#64).eng.mtr0.I.toNat ≤ (machine48 0#64).eng.mtr0.dc.toNat + 1 ∧
    ¬(Meter.fresh 4#32).I.toNat ≤ (Meter.fresh 4#32).dc.toNat + 1 ∧
    isNaN64 ({ Window.fresh 4#32 with sum := 0x7FF8000000000000#64 } : Window).sum = true := by
  decide +kernel

theorem wit_MeterBecomesValidAfterAFullWindow :
    (machine48 0#64).eng.cfg = true ∧
    (machine48 0#64).eng.win .m1 = { W := 144000#32, buf := [], sum := 0#64, comp := 0#64
                                     cur := 0#32, fill := 0#32 } ∧
    (machine48 0#64).eng.mtr .m1 = { I := 1#32, dc := 0#32, val := 0#64, valid := false } ∧
    1 ≤ (144000#32).toNat ∧ (144000#32).toNat ≤ 1048576 ∧ 1 ≤ (1#32).toNat := by decide

/-- Both models are selected by some configured state, with a NaN target and with another; and a
`+Infinity` target from a finite value and from `+Infinity`. -/
theorem wit_EnvelopeStepFollowsItsModel :
    let x := machine 0x7FF0000000000000#64 0#64 { engine48 with env := Config.inf64 }
    (machine48 0#64).eng.cfg = true ∧ (machine48 0#64).eng.ctrl.getLsbD 2 = false ∧
    isNaN64 (machine48 0#64).host.opa = false ∧
    (machine 0x7FF8000000000000#64 0#64 { engine48 with ctrl := 0x2E#7 }).eng.ctrl.getLsbD 2 = true ∧
    isNaN64 (machine 0x7FF8000000000000#64 0#64 { engine48 with ctrl := 0x2E#7 }).host.opa = true ∧
    (machine48 0x7FF8000000000000#64).eng.ctrl.getLsbD 2 = false ∧
    x.eng.cfg = true ∧ x.eng.ctrl.getLsbD 2 = false ∧ x.host.opa = 0x7FF0000000000000#64 ∧
    isNaN64 x.eng.env = false ∧ isNaN64 (machine48 0#64).eng.env = false := by decide

/-- A rising linear step at coefficient 1.0, a falling one from the floor, one with a release coefficient of
0 towards a negative target, one whose difference overflows, and the exponential
model at the edge factors 1.0. -/
theorem wit_EnvelopeMovesTowardsTheTarget :
    let s := machine48 0x3FE0000000000000#64
    let u := machine 0#64 0#64 { engine48 with env := Config.EPS }
    let x := machine Config.EPS 0#64 { engine48 with
      ctrl := 0x2E#7, cup := Config.one64, cdown := Config.one64, env := Config.EPS }
    let o := machine 0xFFEFFFFFFFFFFFFF#64 0#64 { engine48 with
      crel := 0#64, env := 0x7FEFFFFFFFFFFFFF#64 }
    let z := machine 0xBFF0000000000000#64 0#64 { engine48 with crel := 0#64, env := Config.one64 }
    (s.eng.cfg = true ∧ isFinite64 s.host.opa = true ∧ isFinite64 s.eng.env = true ∧
      fle Config.zero64 s.eng.env = true ∧ s.eng.ctrl.getLsbD 2 = false ∧
      fle Config.zero64 s.eng.catt = true ∧ fle s.eng.catt Config.one64 = true ∧
      fle Config.zero64 s.eng.crel = true ∧ fle s.eng.crel Config.one64 = true ∧
      flt Config.zero64 s.eng.crel = true ∧ flt s.eng.env s.host.opa = true ∧
      fle Config.EPS s.host.opa = true) ∧
    (fle u.host.opa u.eng.env = true ∧ fle Config.EPS u.eng.env = true ∧
      flt Config.zero64 u.eng.crel = true) ∧
    (z.eng.cfg = true ∧ isFinite64 z.host.opa = true ∧ fle Config.zero64 z.eng.crel = true ∧
      flt Config.zero64 z.eng.crel = false ∧ isFinite64 (fsub z.host.opa z.eng.env) = true ∧
      fle z.host.opa z.eng.env = true ∧ fle Config.EPS z.eng.env = true) ∧
    (o.eng.cfg = true ∧ o.eng.ctrl.getLsbD 2 = false ∧ isZero64 o.eng.crel = true ∧
      fle o.host.opa o.eng.env = true ∧ fsub o.host.opa o.eng.env = 0xFFF0000000000000#64) ∧
    (x.eng.ctrl.getLsbD 2 = true ∧ fle Config.one64 x.eng.cup = true ∧
      fle Config.zero64 x.eng.cdown = true ∧ fle x.eng.cdown Config.one64 = true) := by
  decide +kernel

theorem wit_EnvelopeKeepsANaN :
    let s := machine48 0x7FF8000000000000#64
    let x := machine 0x7FF8000000000000#64 0#64 { engine48 with ctrl := 0x2E#7 }
    let u := machine 0#64 0#64 { engine48 with env := 0x7FF8000000000000#64 }
    (s.eng.cfg = true ∧ s.eng.ctrl.getLsbD 2 = false ∧ isNaN64 s.host.opa = true) ∧
    (x.eng.cfg = true ∧ x.eng.ctrl.getLsbD 2 = true ∧ isNaN64 x.host.opa = true) ∧
    u.eng.cfg = true ∧ isNaN64 u.eng.env = true := by decide +kernel

/-- A finite operand whose power is at least the smallest positive value (ten to the power 0 is 1),
two ordered operands, a NaN, and a lawful pair beside the block's own. -/
theorem wit_FunctionUnitsAndSmoothingCoefficientsStayInRange :
    isFinite64 Config.zero64 = true ∧
    ((valueOf 1#64 : ℚ) : ℝ) ≤ (10 : ℝ) ^ ((valueOf Config.zero64 : ℚ) : ℝ) ∧
    fle Config.zero64 Config.one64 = true ∧ isNaN64 0x7FF8000000000000#64 = true ∧
    ∃ u : FunctionUnits, Machine.FunctionUnits.Lawful u := by
  refine ⟨by decide, ?_, by decide, by decide, referencePair, referencePair_lawful⟩
  have h : ((valueOf 1#64 : ℚ) : ℝ) ≤ ((valueOf Config.one64 : ℚ) : ℝ) :=
    valueOf_le_iff.mpr (by decide)
  rw [valueOf_zero (x := Config.zero64) (by decide), Rat.cast_zero, Real.rpow_zero]
  rwa [valueOf_one, Rat.cast_one] at h

/-- The peak below a raised limit, and a peak above it. -/
theorem wit_LimiterTransitionFollowsTheRule :
    (machine48 Config.two64).eng.cfg = true ∧ fgt (machine48 0#64).eng.L 0#64 = true ∧
    isNaN64 (machine48 0#64).eng.peak = false ∧
    flt (machine48 0#64).eng.peak ({ engine48 with L := Config.two64 } : Engine).L = true := by
  decide +kernel

/-- An attack to 2.0, with the limit 1.0 and with the smallest limit of the last clause, 2^-51. -/
theorem wit_GainNeverExceedsOne :
    (let s := machine48 Config.two64
     s.eng.cfg = true ∧ isFinite64 s.eng.L = true ∧ fgt s.eng.L Config.zero64 = true ∧
      isNaN64 s.eng.peak = false ∧ ∃ t, exec .limUpdate s = .next t ∧ isFinite64 t.eng.peak = true) ∧
    (let s := machine Config.two64 0#64 { engine48 with L := 0x3CC0000000000000#64 }
     isFinite64 s.eng.L = true ∧ fgt s.eng.L Config.zero64 = true ∧
      fle 0x3CC0000000000000#64 s.eng.L = true ∧
      ∃ t, exec .limUpdate s = .next t ∧ isFinite64 t.eng.peak = true) := by
  refine ⟨⟨rfl, by decide +kernel, by decide +kernel, by decide +kernel, _, rfl, ?_⟩,
    by decide +kernel, by decide +kernel, by decide +kernel, _, rfl, ?_⟩ <;> decide +kernel

theorem wit_SustainHoldsTheRunningMaximum :
    let s := machine 0#64 0#64 { engine48 with sustain := true }
    s.eng.cfg = true ∧ s.eng.sustain = true ∧ fgt s.eng.L Config.zero64 = true ∧
    isNaN64 s.eng.peak = false ∧ [Config.two64, Config.one64] ≠ [] ∧
    isNaN64 Config.two64 = false := by decide +kernel

theorem wit_InfiniteEstimateMutes :
    (let s := machine48 Config.inf64
     s.eng.cfg = true ∧ isFinite64 s.eng.L = true ∧ fgt s.eng.L Config.zero64 = true ∧
      isNaN64 s.eng.peak = false ∧ s.host.opa = Config.inf64) ∧
    (let s := machine 0#64 0#64 { engine48 with peak := Config.inf64, gain := 0#64 }
     s.eng.cfg = true ∧ fgt s.eng.rf Config.zero64 = true ∧ s.eng.peak = Config.inf64 ∧
      s.eng.gain = 0#64) ∧
    (isNaN64 (machine48 0#64).eng.L = false ∧ isNaN64 (machine48 0#64).eng.peak = false ∧
      ∃ t, exec .limUpdate (machine48 0#64) = .next t) :=
  ⟨by decide +kernel, by decide +kernel, by decide +kernel, by decide +kernel, _, rfl⟩

/-- The longest delay with the cursor on its last slot. -/
theorem wit_DelayStepStoresTheBitsExactly :
    let s := machine 0#64 0#64 { engine48 with D := 65535#32, dcur := 65535#32 }
    s.eng.cfg = true ∧ s.eng.D.toNat ≤ 65535 ∧ s.eng.dcur.toNat ≤ s.eng.D.toNat ∧
    Memory.wf { l := 0#32, r := 0#32 } 65536 s.eng.dbuf := by decide

/-- A delay of 2: no earlier pair, and two of them. -/
theorem wit_DelayLineDelaysByItsLength :
    let s := machine 0#64 0#64 { engine48 with D := 2#32 }
    s.eng.cfg = true ∧ s.eng.D.toNat ≤ 65535 ∧ s.eng.dbuf = [] ∧ s.eng.dcur = 0#32 ∧
    ([] : List StereoSample).length < s.eng.D.toNat ∧
    s.eng.D.toNat ≤ [StereoSample.zero, StereoSample.zero].length := by decide

theorem wit_ProcessIsTheComponentSequence :
    let s := machine 0x3F666666#64 0xBE99999A#64 { engine48 with ctrl := 0x6B#7 }
    s.eng.cfg = true ∧ s.eng.win0.cur.toNat < 1048576 ∧ s.eng.win1.cur.toNat < 1048576 ∧
    s.eng.dcur.toNat ≤ s.eng.D.toNat ∧ s.eng.D.toNat ≤ 65535 := by decide

theorem wit_CommittingProcessIsCommitThenProcess :
    let s := machine48 0#64
    s.eng.cfg = true ∧ s.eng.win0.cur.toNat < 1048576 ∧ s.eng.win1.cur.toNat < 1048576 ∧
    s.eng.dcur.toNat ≤ s.eng.D.toNat ∧ s.eng.D.toNat ≤ 65535 := by decide

/-- A NaN bound; a muted engine without the clamp and one with a bound of 0. -/
theorem wit_OutputStageFollowsTheFormula :
    isNaN64 ({ engine48 with H := 0x7FF8000000000000#64 } : Engine).H = true ∧
    ({ engine48 with muted := true, ctrl := 0x22#7 } : Engine).ctrl.getLsbD 3 = false ∧
    ({ engine48 with muted := true } : Engine).muted = true ∧
    fle 0#64 ({ engine48 with muted := true, H := 0#64 } : Engine).H = true := by decide +kernel

/-- An over-limit sample under the hard ceiling 1.0, which is a rounded bound. -/
theorem wit_HardCeilingHolds :
    let s := machine 0x3F666666#64 0xBE99999A#64 { engine48 with gin := 0x3FFFEC982D5BB8AF#64 }
    s.eng.cfg = true ∧ s.eng.H = rtz32 Config.one64 ∧
    (∃ t, exec (.process true) s = .next t ∧ t.eng.ctrl.getLsbD 3 = true ∧
      t.eng.H = rtz32 Config.one64 ∧ fle Config.zero64 t.eng.H = true) ∧
    ∃ t, step s = .next t := by
  obtain ⟨t, ht, hv⟩ := process_runs (nc := true) (s := machine 0x3F666666#64 0xBE99999A#64
    { engine48 with gin := 0x3FFFEC982D5BB8AF#64 }) rfl (by decide)
  refine ⟨rfl, by decide +kernel, ⟨t, ht, ?_⟩, _, rfl⟩
  rw [hv]
  decide +kernel

/-- The magnitudes at the threshold and just below it; a run that has reached SILMIN and one that
reaches it now. -/
theorem wit_SilenceGapResetsOnce :
    isNaN64 0x7FF8000000000000#64 = true ∧ fle Config.SIL_THR Config.SIL_THR = true ∧
    flt 0x3EAFFFFFFFFFFFFF#64 Config.SIL_THR = true ∧ (3#32 ≤ 3#32) ∧ (2#32 < 3#32) ∧
    (2#32).toNat + 1 = (3#32).toNat ∧ engine48.ctrl.getLsbD 5 = true ∧ engine48.silrun = 0#32 ∧
    (∀ mag ∈ List.replicate 2 0#64, flt mag Config.SIL_THR = true) := by
  refine ⟨by decide +kernel, by decide +kernel, by decide +kernel, by decide, by decide, by decide,
    by decide, by decide, fun mag h => ?_⟩
  rw [List.eq_of_mem_replicate h]
  decide +kernel

/-- A NaN input, a command that is not PROCESS, and a step with NF set. -/
theorem wit_NonFiniteFlagIsSticky :
    let s := machine 0x7FC00000#64 0#64 engine48
    let u := awaiting (command 0x03010000#32) (machine 0#64 0#64 { engine48 with nf := true })
    (s.eng.cfg = true ∧ ∃ t, exec (.process true) s = .next t) ∧
    (∀ nc, Instr.limReset ≠ .process nc) ∧ (∃ t, exec .limReset s = .next t) ∧
    u.pending.head? ≠ some .hardwareReset ∧ u.eng.nf = true ∧ ∃ t, step u = .next t := by
  obtain ⟨t, ht, -⟩ := process_runs (nc := true) (s := machine 0x7FC00000#64 0#64 engine48) rfl
    (by decide)
  obtain ⟨u, hu, -⟩ := process_runs (nc := true)
    (s := { machine 0#64 0#64 { engine48 with nf := true } with
      host := { (machine 0#64 0#64 { engine48 with nf := true }).host with cmd := 0x03010000#32 } })
    rfl (by decide)
  exact ⟨⟨rfl, t, ht⟩, by decide, ⟨_, rfl⟩, by decide, rfl, u, hu⟩

/-- The invariant holds of a configured engine too, and a step runs from it. -/
theorem wit_EveryStepKeepsTheInvariant :
    (awaiting (command 0x12000000#32) (machine48 Config.one64)).Inv ∧
    ∃ t, step (awaiting (command 0x12000000#32) (machine48 Config.one64)) = .next t := by
  have run : ∀ s : State, s.eng.cfg = true → s.eng.cursorInRange .m0 = true →
      ∃ t, exec (.accAdd .m0) s = .next t := fun s h hc => ⟨_, (if_pos h).trans (if_pos hc)⟩
  exact ⟨by decide +kernel, run { machine48 Config.one64 with
    host := { (machine48 Config.one64).host with cmd := 0x12000000#32 } } rfl (by decide)⟩

theorem wit_InvariantStepsNeverStop : (machine48 Config.one64).Inv := by decide +kernel

/-- An unconfigured commit raises a fault; a component command on a configured engine runs. -/
theorem wit_CommandsWriteOnlyTheirResults :
    (∃ t, exec .commit State.reset = .next t ∧ t.faults ≠ State.reset.faults) ∧
    isComponent .limUpdate = true ∧ (machine48 0#64).eng.cfg = true ∧
    ∃ t, exec .limUpdate (machine48 0#64) = .next t :=
  ⟨⟨_, rfl, by decide⟩, rfl, rfl, _, rfl⟩

theorem wit_OnlyConfigBuildsCoefficients :
    let s := awaiting (command 0x02000000#32) (machine48 0#64)
    s.pending.head? ≠ some .hardwareReset ∧
    s.pending.head? ≠ some (.write 0x020#12 .byte4 0x01000000#32) ∧ ∃ t, step s = .next t :=
  ⟨by decide, by decide, _, rfl⟩

theorem wit_ParameterWritesWaitForCommit :
    RegName.pOutgainDb ∈ commitRegisters ∧ Instr.process true ≠ .process false ∧
    Instr.limUpdate ≠ .config ∧ Instr.limUpdate ≠ .commit ∧
    ∃ t, exec .limUpdate (machine48 0#64) = .next t :=
  ⟨by decide, by decide, by decide, by decide, _, rfl⟩

/-- Finite operands, a zero divisor, a sum of zeros, a negative radicand and a NaN. -/
theorem wit_OperationsRoundToNearestEven :
    valueOf 0x8000000000000000#64 + valueOf 0x8000000000000000#64 = 0 ∧
    valueOf 0x8000000000000000#64 - valueOf 0x8000000000000000#64 = 0 ∧
    isFinite64 0x7FEFFFFFFFFFFFFF#64 = true ∧ isFinite64 0x0000000000000001#64 = true ∧
    valueOf Config.one64 ≠ 0 ∧ valueOf 0x8000000000000000#64 = 0 ∧
    0 ≤ valueOf 0x8000000000000000#64 ∧ valueOf 0xBFF0000000000000#64 < 0 ∧
    isNaN64 0x7FF0000000000001#64 = true := by
  have h1 : signedUnits64 Config.one64 ≠ 0 := by decide +kernel
  have h0 : signedUnits64 0x8000000000000000#64 = 0 := by decide +kernel
  have hn : signedUnits64 0xBFF0000000000000#64 < 0 := by decide +kernel
  have hp : (0 : ℚ) < (unitsPerOne : ℚ) := Nat.cast_pos.mpr unitsPerOne_pos
  generalize hu : (unitsPerOne : ℚ) = u at hp
  have hv : ∀ x, valueOf x = (signedUnits64 x : ℚ) / u := fun x => by rw [valueOf, hu]
  refine ⟨?_, sub_self _, by decide, by decide, ?_, ?_, ?_, ?_, by decide⟩
  · rw [hv, h0, Int.cast_zero, zero_div, add_zero]
  · rw [hv]; exact div_ne_zero (Int.cast_ne_zero.mpr h1) hp.ne'
  · rw [hv, h0, Int.cast_zero, zero_div]
  · rw [hv, h0, Int.cast_zero, zero_div]
  · rw [hv]; exact div_neg_of_neg_of_pos (Int.cast_lt_zero.mpr hn) hp

/-- The largest and smallest binary32 numbers, the values on the two sides of the overflow, an infinity, a signalling NaN, a non-NaN binary64 beyond
the binary32 range, and the largest exact integer. -/
theorem wit_ConversionsAreExactOrRounded :
    isNaN32 0x7F7FFFFF#32 = false ∧ isFinite32 0x00000001#32 = true ∧
    isNaN32 0xFF800000#32 = false ∧ isFinite32 0xFF800000#32 = false ∧
    isNaN32 0x7F800001#32 = true ∧ isNaN64 0x7FF0000000000001#64 = true ∧
    isNaN64 0x7FEFFFFFFFFFFFFF#64 = false ∧ 2 ^ 53 - 1 < 2 ^ 53 ∧
    isFinite64 0x47EFFFFFEFFFFFFF#64 = true ∧ isFinite32 (rne32 0x47EFFFFFEFFFFFFF#64) = true ∧
    isFinite64 0x47EFFFFFF0000000#64 = true ∧ isFinite32 (rne32 0x47EFFFFFF0000000#64) = false ∧
    fle (fabs (f64 0x7F7FFFFF#32)) (fabs 0x7FEFFFFFFFFFFFFF#64) = true := by decide +kernel

theorem wit_ComparisonsOrderTheValues :
    isFinite64 0x7FEFFFFFFFFFFFFF#64 = true ∧ isFinite64 0x8000000000000000#64 = true ∧
    isNaN64 0xFFF0000000000001#64 = true := by decide +kernel

end Sys2Proof.Tests
end

section
/-! SUPPORT and PROOFS. The comparisons of R14: the order of the exact values, and O60. -/

namespace Sys2Proof.Machine

/-! ## The order of the exact values -/

theorem feq_iff {a b : F64} :
    feq a b = true ↔ isNaN64 a = false ∧ isNaN64 b = false ∧ orderKey a = orderKey b := by
  simp [feq, ordered, and_assoc]

/-- `a ≤ b` is `a < b` or `a == b` (R14). -/
theorem fle_eq_flt_or_feq (a b : F64) : fle a b = (flt a b || feq a b) := by
  rw [Bool.eq_iff_iff, Bool.or_eq_true, fle_iff, flt_iff, feq_iff, le_iff_lt_or_eq]
  tauto

theorem feq_nan_left {a b : F64} (h : isNaN64 a = true) : feq a b = false := by
  simp [feq, ordered, h]
theorem feq_nan_right {a b : F64} (h : isNaN64 b = true) : feq a b = false := by
  simp [feq, ordered, h]

/-- A comparison with a NaN operand is false (R14); `fgt` and `fge` are these with the operands
exchanged. -/
theorem comparisons_nan {a b : F64} (h : isNaN64 a = true ∨ isNaN64 b = true) :
    flt a b = false ∧ fle a b = false ∧ feq a b = false := by
  rcases h with h | h
  · exact ⟨flt_nan_left h, fle_nan_left h, feq_nan_left h⟩
  · exact ⟨flt_nan_right h, fle_nan_right h, feq_nan_right h⟩

theorem orderKey_le_iff_valueOf {x y : F64} : orderKey x ≤ orderKey y ↔ valueOf x ≤ valueOf y := by
  rw [← valueOf_le_iff, Rat.cast_le]

theorem orderKey_eq_iff_valueOf {x y : F64} : orderKey x = orderKey y ↔ valueOf x = valueOf y := by
  rw [le_antisymm_iff, orderKey_le_iff_valueOf, orderKey_le_iff_valueOf, ← le_antisymm_iff]

/-- Less-than on finite values is that of the exact values (R14). -/
theorem flt_iff_valueOf {a b : F64} (ha : isFinite64 a = true) (hb : isFinite64 b = true) :
    flt a b = true ↔ valueOf a < valueOf b := by
  rw [flt_iff, ← not_le, orderKey_le_iff_valueOf, not_le]
  simp [isNaN64_of_finite ha, isNaN64_of_finite hb]

/-- Equality of finite values is that of the exact values (R14). -/
theorem feq_iff_valueOf {a b : F64} (ha : isFinite64 a = true) (hb : isFinite64 b = true) :
    feq a b = true ↔ valueOf a = valueOf b := by
  rw [feq_iff, orderKey_eq_iff_valueOf]
  simp [isNaN64_of_finite ha, isNaN64_of_finite hb]

theorem orderKey_of_neg {x : F64} (h : sign64 x = true) : orderKey x = -(mag64 x : Int) := by
  simp [orderKey, h]
theorem orderKey_of_pos {x : F64} (h : sign64 x = false) : orderKey x = mag64 x := by
  simp [orderKey, h]

theorem natAbs_orderKey (x : F64) : (orderKey x).natAbs = mag64 x := by
  unfold orderKey; split <;> simp

theorem isNaN64_inf64 (s : Bool) : isNaN64 (inf64 s) = false := isNaN64_make64 s le_rfl
theorem sign64_inf64 (s : Bool) : sign64 (inf64 s) = s := sign64_make64 s infMag64_lt
theorem mag64_inf64 (s : Bool) : mag64 (inf64 s) = infMag64 := mag64_make64 s infMag64_lt

/-- The infinities stand at the two ends of the order (R14). -/
theorem finite_between_infinities {a : F64} (ha : isFinite64 a = true) :
    flt a (inf64 false) = true ∧ flt (inf64 true) a = true := by
  have hn := isNaN64_of_finite ha
  have hlt := isFinite64_iff.mp ha
  have habs := natAbs_orderKey a
  have hpos : orderKey (inf64 false) = infMag64 := by
    rw [orderKey_of_pos (sign64_inf64 _), mag64_inf64]
  have hneg : orderKey (inf64 true) = -(infMag64 : Int) := by
    rw [orderKey_of_neg (sign64_inf64 _), mag64_inf64]
  exact ⟨flt_iff.mpr ⟨hn, isNaN64_inf64 _, by omega⟩, flt_iff.mpr ⟨isNaN64_inf64 _, hn, by omega⟩⟩

/-- Less-than excludes the other two outcomes of a comparison. -/
theorem flt_excludes {a b : F64} (h : flt a b = true) :
    flt b a = false ∧ feq a b = false ∧ feq b a = false := by
  obtain ⟨-, -, hlt⟩ := flt_iff.mp h
  refine ⟨?_, ?_, ?_⟩ <;> rw [← Bool.not_eq_true]
  · exact fun hba => absurd (flt_iff.mp hba).2.2 (by omega)
  · exact fun hab => absurd (feq_iff.mp hab).2.2 (by omega)
  · exact fun hba => absurd (feq_iff.mp hba).2.2 (by omega)

/-- `maxsel` and `minsel` keep a second operand when either is a NaN (R14). -/
theorem selects_nan {a b : F64} (h : isNaN64 a = true ∨ isNaN64 b = true) :
    maxsel a b = b ∧ minsel a b = b := by
  simp [maxsel, minsel, fgt, (comparisons_nan h).1, (comparisons_nan h.symm).1]

/-- Settles O60: each clause is a lemma about the order key, or a closed fact about the zeros and
the infinities. -/
theorem comparisonsOrderTheValues : Obligations.ComparisonsOrderTheValues := by
  refine ⟨fun a b ha hb => ⟨flt_iff_valueOf ha hb, feq_iff_valueOf ha hb⟩,
    fun a ha => finite_between_infinities ha, by decide,
    fun a b => ⟨rfl, fle_eq_flt_or_feq a b, rfl, flt_excludes⟩, fun a b h => ?_,
    by decide, by decide, fun a b => ⟨rfl, rfl⟩,
    fun a => ⟨sign64_fabs a, mag64_fabs a, sign64_fneg a, mag64_fneg a⟩⟩
  obtain ⟨hlt, hle, heq⟩ := comparisons_nan h
  obtain ⟨hgt, hge, -⟩ := comparisons_nan h.symm
  obtain ⟨hmax, hmin⟩ := selects_nan h
  exact ⟨hlt, hgt, hle, hge, heq, hmax, hmin⟩

end Sys2Proof.Machine
end

section
/-! SUPPORT and PROOFS. The conversions of R13: rounding toward zero, the overflow point, exact
whole numbers, the values of converted numbers, and O59. -/

namespace Sys2Proof.Machine

/-! ## Rounding of natural magnitudes -/

/-- Rounding toward zero answers the greatest magnitude, up to `top`, whose value is not above the
rounded one. -/
theorem le_roundTowardZero_iff {frac top num den m : Nat} (hd : 0 < den) (hm : m ≤ top) :
    m ≤ roundTowardZero frac top num den ↔ unitsOf frac m * den ≤ num := by
  obtain ⟨hr1, hr2⟩ := roundShift_range frac (num / den)
  rw [Nat.div_div_eq_div_mul] at hr1 hr2
  simp only [roundTowardZero, le_min_iff, hm, true_and]
  generalize roundShift frac (num / den) = sh at *
  have hD : 0 < den * 2 ^ sh := Nat.mul_pos hd (Nat.two_pow_pos _)
  have hbelow := Nat.div_mul_le_self num (den * 2 ^ sh)
  have habove := Nat.lt_mul_of_div_lt (Nat.lt_succ_self (num / (den * 2 ^ sh))) hD
  generalize num / (den * 2 ^ sh) = k at *
  have hlo : unitsOf frac (sh * 2 ^ frac + k) * den = k * (den * 2 ^ sh) := by
    rw [unitsOf_shifted (by omega) hr2]; ring
  have hhi : unitsOf frac (sh * 2 ^ frac + (k + 1)) * den = (k + 1) * (den * 2 ^ sh) := by
    rw [unitsOf_shifted (by omega) (fun h => by have := hr2 h; omega)]; ring
  constructor
  · intro h
    calc unitsOf frac m * den ≤ unitsOf frac (sh * 2 ^ frac + k) * den :=
          Nat.mul_le_mul_right _ ((unitsOf_strictMono frac).monotone h)
      _ ≤ num := hlo ▸ hbelow
  · intro h
    by_contra hlt
    have hnext : unitsOf frac (sh * 2 ^ frac + (k + 1)) * den ≤ unitsOf frac m * den :=
      Nat.mul_le_mul_right _ ((unitsOf_strictMono frac).monotone (by omega))
    rw [hhi] at hnext
    exact absurd (hnext.trans h) (not_le.mpr habove)

theorem roundTowardZero_le_top (frac top num den : Nat) : roundTowardZero frac top num den ≤ top :=
  min_le_left _ _

/-- Rounding toward zero of a representable value is exact. -/
theorem roundTowardZero_unitsOf {frac top m den : Nat} (hd : 0 < den) (hm : m ≤ top) :
    roundTowardZero frac top (unitsOf frac m * den) den = m := by
  refine le_antisymm ?_ ((le_roundTowardZero_iff hd hm).mpr le_rfl)
  have h := (le_roundTowardZero_iff hd (roundTowardZero_le_top frac top
    (unitsOf frac m * den) den)).mp le_rfl
  exact (unitsOf_strictMono frac).le_iff_le.mp (Nat.le_of_mul_le_mul_right h hd)

/-- Rounding to nearest without the cap, for the rational `num / den` itself. -/
theorem roundUncapped_nearest_self {frac num den : Nat} (hf : 0 < frac) (hd : 0 < den) (m : Nat) :
    |(unitsOf frac (roundUncapped frac num den) : ℝ) - num / den| ≤
        |(unitsOf frac m : ℝ) - num / den| ∧
      (|(unitsOf frac (roundUncapped frac num den) : ℝ) - num / den| =
          |(unitsOf frac m : ℝ) - num / den| →
        m ≠ roundUncapped frac num den → roundUncapped frac num den % 2 = 0) :=
  roundUncapped_nearest hf hd (fun _ => ⟨Iff.rfl, Iff.rfl⟩) m

/-- Rounding to nearest stays below an even `inf` exactly while the value lies below the half-way
point of `inf` and its odd predecessor: the tie goes to `inf`. -/
theorem roundNearest_lt_inf_iff {frac inf num den : Nat} (hf : 0 < frac) (hd : 0 < den)
    (heven : inf % 2 = 0) (hpos : 0 < inf) :
    roundNearest frac inf num den < inf ↔
      2 * ((num : ℝ) / den) < unitsOf frac (inf - 1) + unitsOf frac inf := by
  have hmono := (unitsOf_strictMono frac).monotone
  have hgap : (unitsOf frac (inf - 1) : ℝ) < unitsOf frac inf := by
    exact_mod_cast unitsOf_strictMono frac (by omega : inf - 1 < inf)
  have hnear := roundUncapped_nearest_self (num := num) hf hd
  rw [roundNearest_eq, min_lt_iff, or_iff_right (lt_irrefl _)]
  generalize roundUncapped frac num den = r at *
  generalize (num : ℝ) / den = y at *
  constructor
  · intro hr
    by_contra hc
    have hle : (unitsOf frac r : ℝ) ≤ unitsOf frac (inf - 1) := by
      exact_mod_cast hmono (by omega : r ≤ inf - 1)
    obtain ⟨hdist, htie⟩ := hnear inf
    rw [abs_of_nonpos (by linarith)] at hdist htie
    rcases le_or_gt y (unitsOf frac inf : ℝ) with hy | hy
    · rw [abs_of_nonneg (by linarith)] at hdist htie
      have hlast : r = inf - 1 := (unitsOf_strictMono frac).injective
        (by exact_mod_cast (by linarith : (unitsOf frac r : ℝ) = unitsOf frac (inf - 1)))
      have := htie (by linarith) (by omega)
      omega
    · rw [abs_of_nonpos (by linarith)] at hdist
      linarith
  · intro hlt
    by_contra hc
    have hge : (unitsOf frac inf : ℝ) ≤ unitsOf frac r := by
      exact_mod_cast hmono (not_lt.mp hc)
    have hdist := (hnear (inf - 1)).1
    rw [abs_of_nonneg (by linarith)] at hdist
    rcases le_or_gt y (unitsOf frac (inf - 1) : ℝ) with hy | hy
    · rw [abs_of_nonneg (by linarith)] at hdist; linarith
    · rw [abs_of_nonpos (by linarith)] at hdist; linarith

/-- Below the cap, rounding to nearest is rounding without it. -/
theorem roundNearest_eq_uncapped {frac inf num den : Nat}
    (h : roundNearest frac inf num den < inf) :
    roundNearest frac inf num den = roundUncapped frac num den := by
  rw [roundNearest_eq] at h ⊢
  exact min_eq_right (by omega)

/-- A whole number below `2^53` is the value of a finite magnitude. -/
theorem exists_mag_of_nat {k : Nat} (hk : k < 2 ^ 53) :
    ∃ m, m < infMag64 ∧ unitsOf 52 m = k * unitsPerOne := by
  rcases Nat.eq_zero_or_pos k with rfl | hpos
  · exact ⟨0, by decide, by simp [units_zero]⟩
  · -- the significand: `k` shifted up until its leading bit is the implicit one
    have hlo : 2 ^ Nat.log2 k ≤ k := Nat.log2_self_le hpos.ne'
    have hhi : k < 2 ^ (Nat.log2 k + 1) := Nat.lt_log2_self
    have hl : Nat.log2 k < 53 := (Nat.log2_lt hpos.ne').mpr hk
    generalize Nat.log2 k = l at *
    have hsig : 2 ^ 52 ≤ k * 2 ^ (52 - l) := by
      calc 2 ^ 52 = 2 ^ l * 2 ^ (52 - l) := by rw [← pow_add]; congr 1; omega
        _ ≤ k * 2 ^ (52 - l) := Nat.mul_le_mul_right _ hlo
    have hsig' : k * 2 ^ (52 - l) ≤ 2 ^ 53 := by
      calc k * 2 ^ (52 - l) ≤ 2 ^ (l + 1) * 2 ^ (52 - l) := Nat.mul_le_mul_right _ hhi.le
        _ = 2 ^ 53 := by rw [← pow_add]; congr 1; omega
    refine ⟨(1074 - (52 - l)) * 2 ^ 52 + k * 2 ^ (52 - l), ?_, ?_⟩
    · norm_num [infMag64] at *; omega
    · rw [unitsOf_shifted hsig' (fun _ => hsig), unitsPerOne, Nat.mul_assoc, ← pow_add,
        show 52 - l + (1074 - (52 - l)) = 1074 by omega]

/-- A whole number below `2^53` rounds to itself. -/
theorem round64_nat (s : Bool) {k : Nat} (hk : k < 2 ^ 53) :
    isFinite64 (round64 s (k * unitsPerOne) 1) = true ∧
      units64 (round64 s (k * unitsPerOne) 1) = k * unitsPerOne := by
  obtain ⟨m, hm, hu⟩ := exists_mag_of_nat hk
  have hround : mag64 (round64 s (k * unitsPerOne) 1) = m := by
    rw [mag64_round64, ← hu, ← Nat.mul_one (unitsOf 52 m), roundNearest_unitsOf one_pos hm.le]
  exact ⟨isFinite64_iff.mpr (hround ▸ hm), by rw [units64, hround, hu]⟩

/-! ## Classification of binary32 values and quiet NaNs -/

theorem isFinite32_iff {x : F32} : isFinite32 x = true ↔ mag32 x < infMag32 := by simp [isFinite32]
theorem isInf32_iff {x : F32} : isInf32 x = true ↔ mag32 x = infMag32 := by simp [isInf32]
theorem isInf64_iff {x : F64} : isInf64 x = true ↔ mag64 x = infMag64 := by simp [isInf64]
theorem isNaN32_false {x : F32} : isNaN32 x = false ↔ mag32 x ≤ infMag32 := by simp [isNaN32]

/-- A binary32 that is not a NaN is finite or an infinity. -/
theorem finite_or_inf32 {x : F32} (h : isNaN32 x = false) :
    isFinite32 x = true ∨ isInf32 x = true := by
  rw [isFinite32_iff, isInf32_iff]; exact (isNaN32_false.mp h).lt_or_eq

/-- A binary64 that is not a NaN is finite or an infinity. -/
theorem finite_or_inf64 {x : F64} (h : isNaN64 x = false) :
    isFinite64 x = true ∨ isInf64 x = true := by
  rw [isFinite64_iff, isInf64_iff]; exact (isNaN64_false.mp h).lt_or_eq

theorem isNaN32_of_finite {x : F32} (h : isFinite32 x = true) : isNaN32 x = false :=
  isNaN32_false.mpr (isFinite32_iff.mp h).le

theorem isNaN32_of_inf {x : F32} (h : isInf32 x = true) : isNaN32 x = false :=
  isNaN32_false.mpr (isInf32_iff.mp h).le

theorem isNaN64_of_inf {x : F64} (h : isInf64 x = true) : isNaN64 x = false :=
  isNaN64_false.mpr (isInf64_iff.mp h).le

/-- An infinity is `inf64` of its sign. -/
theorem eq_inf64_of_isInf64 {x : F64} (h : isInf64 x = true) : x = inf64 (sign64 x) := by
  rw [inf64, ← isInf64_iff.mp h, make64_sign_mag]

/-- The quiet bit of a NaN result is set (R12). -/
theorem quietNaN64_quiet (op : FpOp) (a b : F64) : (quietNaN64 op a b).getLsbD 51 = true := by
  have hmag := mag64_quietNaN64 op a b
  have hpay := Nat.mod_lt (Config.nanBits64 op a b).toNat (show 0 < 2 ^ 51 by norm_num)
  rw [mag64] at hmag
  rw [BitVec.getLsbD, Nat.testBit_eq_decide_div_mod_eq, decide_eq_true_eq]
  norm_num [infMag64] at *
  omega

/-! ## `f64` -/

theorem f64_nan {x : F32} (h : isNaN32 x = true) :
    f64 x = quietNaN64 .widen (nanKey32 x) (nanKey32 x) := by simp [f64, h]

theorem f64_inf {x : F32} (h : isInf32 x = true) : f64 x = inf64 (sign32 x) := by
  simp [f64, isNaN32_of_inf h, h]

theorem isInf64_inf64 (s : Bool) : isInf64 (inf64 s) = true := isInf64_iff.mpr (mag64_inf64 s)

/-- `f64` keeps the sign of every value that is not a NaN (R13). -/
theorem sign64_f64 {x : F32} (h : isNaN32 x = false) : sign64 (f64 x) = sign32 x := by
  rcases finite_or_inf32 h with hf | hi
  · exact (units64_f64 hf).2.1
  · rw [f64_inf hi, sign64_inf64]

theorem isNaN64_f64 {x : F32} (h : isNaN32 x = false) : isNaN64 (f64 x) = false := by
  rcases finite_or_inf32 h with hf | hi
  · exact isNaN64_of_finite (units64_f64 hf).1
  · rw [f64_inf hi, isNaN64_inf64]

theorem unitsPerUnit32_pos : 0 < unitsPerUnit32 := by decide +kernel

/-- The binary32 values in binary64 are ordered as their magnitudes. -/
theorem mag64_f64_le_iff {a b : F32} (ha : isFinite32 a = true) (hb : isFinite32 b = true) :
    mag64 (f64 a) ≤ mag64 (f64 b) ↔ mag32 a ≤ mag32 b := by
  rw [← (unitsOf_strictMono 52).le_iff_le (a := mag64 (f64 a)),
    ← (unitsOf_strictMono 23).le_iff_le (a := mag32 a)]
  change units64 (f64 a) ≤ units64 (f64 b) ↔ units32 a ≤ units32 b
  rw [(units64_f64 ha).2.2, (units64_f64 hb).2.2]
  exact Nat.mul_le_mul_right_iff unitsPerUnit32_pos

/-! ## `rne32` -/

theorem rne32_nan {v : F64} (h : isNaN64 v = true) : rne32 v = quietNaN32 v := by simp [rne32, h]

theorem rne32_inf {v : F64} (h : isInf64 v = true) : rne32 v = make32 (sign64 v) infMag32 := by
  simp [rne32, isNaN64_of_inf h, h]

theorem rne32_finite {v : F64} (h : isFinite64 v = true) :
    rne32 v = make32 (sign64 v) (roundNearest 23 infMag32 (units64 v) unitsPerUnit32) := by
  simp [rne32, isNaN64_of_finite h, isInf64_of_finite h]

theorem sign32_rne32 {v : F64} (h : isFinite64 v = true) : sign32 (rne32 v) = sign64 v := by
  rw [rne32_finite h, sign32_make32 _ (lt_of_le_of_lt (roundNearest_le_inf ..) infMag32_lt)]

theorem mag32_rne32 {v : F64} (h : isFinite64 v = true) :
    mag32 (rne32 v) = roundNearest 23 infMag32 (units64 v) unitsPerUnit32 := by
  rw [rne32_finite h, mag32_make32 _ (lt_of_le_of_lt (roundNearest_le_inf ..) infMag32_lt)]

/-- `rne32` undoes `f64` (R13). -/
theorem rne32_f64 {x : F32} (h : isNaN32 x = false) : rne32 (f64 x) = x := by
  have hx : mag32 x ≤ infMag32 := isNaN32_false.mp h
  rcases finite_or_inf32 h with hf | hi
  · obtain ⟨hfin, hsign, hunits⟩ := units64_f64 hf
    rw [rne32_finite hfin, hsign, hunits, units32, roundNearest_unitsOf unitsPerUnit32_pos hx,
      make32_sign_mag]
  · have hinf : isInf64 (f64 x) = true := by rw [f64_inf hi]; exact isInf64_inf64 _
    rw [rne32_inf hinf, sign64_f64 h, ← isInf32_iff.mp hi, make32_sign_mag]

/-- The half-way point between the largest finite binary32 and the infinity's place, in units of
binary32. -/
theorem units32_overflow : unitsOf 23 (infMag32 - 1) + unitsOf 23 infMag32 + 2 ^ 253 =
    2 ^ 129 * 2 ^ 149 := by
  decide +kernel

theorem units32_overflow_cast : (unitsOf 23 (infMag32 - 1) : ℝ) + unitsOf 23 infMag32 + 2 ^ 253 =
    2 ^ 129 * 2 ^ 149 := by
  have h := units32_overflow
  generalize unitsOf 23 (infMag32 - 1) = below at h
  generalize unitsOf 23 infMag32 = place at h
  exact_mod_cast h

theorem unitsPerOne_eq : unitsPerOne = unitsPerUnit32 * 2 ^ 149 := by
  rw [unitsPerOne, unitsPerUnit32, ← pow_add]

theorem abs_valueOf_cast (v : F64) :
    |((valueOf v : ℚ) : ℝ)| = (units64 v : ℝ) / unitsPerUnit32 / 2 ^ 149 := by
  have hone : (unitsPerOne : ℝ) = unitsPerUnit32 * 2 ^ 149 := by
    rw [unitsPerOne_eq, Nat.cast_mul, cast_two_pow]
  have hunit : (0 : ℝ) < unitsPerUnit32 := Nat.cast_pos.mpr unitsPerUnit32_pos
  rw [valueOf_cast, hone, ← div_div, abs_div, abs_div, abs_of_pos hunit,
    abs_of_pos (by positivity : (0 : ℝ) < 2 ^ 149)]
  congr 2
  generalize units64 v = u
  cases sign64 v <;> simp

/-- `rne32` of a finite value is finite exactly below the half-way point to the infinity (R13). -/
theorem isFinite32_rne32_iff {v : F64} (h : isFinite64 v = true) :
    isFinite32 (rne32 v) = true ↔ |valueOf v| < 2 ^ 128 - 2 ^ 103 := by
  have hov := units32_overflow_cast
  have hcast : |valueOf v| < 2 ^ 128 - 2 ^ 103 ↔
      |((valueOf v : ℚ) : ℝ)| < 2 ^ 128 - 2 ^ 103 := by exact_mod_cast Iff.rfl
  rw [isFinite32_iff, mag32_rne32 h,
    roundNearest_lt_inf_iff (by norm_num) unitsPerUnit32_pos (by decide) (by decide), hcast,
    abs_valueOf_cast, div_lt_iff₀ (by positivity)]
  generalize (units64 v : ℝ) / unitsPerUnit32 = y
  clear hcast
  constructor <;> intro hlt <;> norm_num at hov hlt ⊢ <;> linarith

theorem isInf32_rne32_of_not_finite {v : F64} (h : isFinite64 v = true)
    (hr : isFinite32 (rne32 v) = false) : isInf32 (rne32 v) = true := by
  have hle := roundNearest_le_inf 23 infMag32 (units64 v) unitsPerUnit32
  rw [← mag32_rne32 h] at hle
  exact (finite_or_inf32 (isNaN32_false.mpr hle)).resolve_left (by simp [hr])

/-! ## Nearest signed values -/

/-- A magnitude `r` nearest to `y`, and no farther than 0, is nearest among signed values once it
has the sign of `y`; a value at the same distance has another magnitude at the same distance. -/
theorem signed_nearest {s t : Bool} {r y c : ℝ} (hy : 0 ≤ y) (hc : 0 ≤ c)
    (hzero : |r - y| ≤ |0 - y|) (hnear : |r - y| ≤ |c - y|) :
    |(if s then -r else r) - (if s then -y else y)| ≤
        |(if t then -c else c) - (if s then -y else y)| ∧
      (|(if s then -r else r) - (if s then -y else y)| =
          |(if t then -c else c) - (if s then -y else y)| →
        (if t then -c else c) ≠ (if s then -r else r) → |r - y| = |c - y| ∧ c ≠ r) := by
  have hself : |(if s then -r else r) - (if s then -y else y)| = |r - y| := by
    cases s
    · rfl
    · exact abs_neg_sub_neg r y
  rw [hself]
  rw [zero_sub, abs_neg, abs_of_nonneg hy] at hzero
  by_cases hts : t = s
  · subst hts
    have hother : |(if t then -c else c) - (if t then -y else y)| = |c - y| := by
      cases t
      · rfl
      · exact abs_neg_sub_neg c y
    rw [hother]
    exact ⟨hnear, fun he hne => ⟨he, fun hcr => hne (by rw [hcr])⟩⟩
  · -- the other sign: the distance is `c + y`, which is no more than `y` only for `c = 0`
    have hother : |(if t then -c else c) - (if s then -y else y)| = c + y := by
      revert hts
      cases s <;> cases t <;> intro hts
      · exact absurd rfl hts
      · simpa [abs_of_nonpos (by linarith : -c - y ≤ 0)] using add_comm y c
      · simpa using abs_of_nonneg (by linarith : 0 ≤ c + y)
      · exact absurd rfl hts
    rw [hother]
    refine ⟨by linarith, fun he hne => ?_⟩
    have hc0 : c = 0 := by linarith
    subst hc0
    refine ⟨by rw [he, zero_sub, abs_neg, abs_of_nonneg hy, zero_add], fun hr => hne ?_⟩
    rw [← hr]; simp

/-- The value of a finite binary32, in steps of the binary32 unit. -/
theorem valueOf_f64_cast {c : F32} (hc : isFinite32 c = true) :
    ((valueOf (f64 c) : ℚ) : ℝ) =
      (if sign32 c then -(units32 c : ℝ) else units32 c) * (unitsPerUnit32 / unitsPerOne) := by
  obtain ⟨-, hsign, hunits⟩ := units64_f64 hc
  rw [valueOf_cast, hsign, hunits, Nat.cast_mul]
  cases sign32 c
  · exact mul_div_assoc _ _ _
  · rw [if_pos rfl, if_pos rfl, ← neg_mul, mul_div_assoc]

/-- The value of a binary64, in steps of the binary32 unit. -/
theorem valueOf_cast_unit32 (v : F64) :
    ((valueOf v : ℚ) : ℝ) =
      (if sign64 v then -((units64 v : ℝ) / unitsPerUnit32) else (units64 v : ℝ) / unitsPerUnit32) *
        (unitsPerUnit32 / unitsPerOne) := by
  have hu : (unitsPerUnit32 : ℝ) ≠ 0 := Nat.cast_ne_zero.mpr unitsPerUnit32_pos.ne'
  rw [valueOf_cast]
  generalize (unitsPerOne : ℝ) = one
  generalize (unitsPerUnit32 : ℝ) = unit at hu
  cases sign64 v <;> simp [hu, neg_div, div_mul_div_cancel₀]

/-- `rne32` rounds to the nearest binary32, ties to even (R13). -/
theorem rne32_nearest {v : F64} (h : isFinite64 v = true) (hr : isFinite32 (rne32 v) = true)
    {c : F32} (hc : isFinite32 c = true) :
    |valueOf (f64 (rne32 v)) - valueOf v| ≤ |valueOf (f64 c) - valueOf v| ∧
      (|valueOf (f64 (rne32 v)) - valueOf v| = |valueOf (f64 c) - valueOf v| →
        valueOf (f64 c) ≠ valueOf (f64 (rne32 v)) → mag32 (rne32 v) % 2 = 0) := by
  have hmag : mag32 (rne32 v) = roundUncapped 23 (units64 v) unitsPerUnit32 := by
    rw [isFinite32_iff] at hr
    rw [mag32_rne32 h] at hr ⊢
    exact roundNearest_eq_uncapped hr
  have hround := roundUncapped_nearest_self (frac := 23) (num := units64 v) (by norm_num)
    unitsPerUnit32_pos
  rw [← hmag] at hround
  obtain ⟨hnear, htie⟩ := hround (mag32 c)
  have hzero := (hround 0).1
  rw [show unitsOf 23 0 = 0 from rfl, Nat.cast_zero] at hzero
  obtain ⟨hle, heq⟩ := signed_nearest (s := sign64 v) (t := sign32 c)
    (div_nonneg (Nat.cast_nonneg (units64 v)) (Nat.cast_nonneg unitsPerUnit32))
    (Nat.cast_nonneg (units32 c)) hzero hnear
  have hstep : (0 : ℝ) < unitsPerUnit32 / unitsPerOne :=
    div_pos (Nat.cast_pos.mpr unitsPerUnit32_pos) unitsPerOne_posR
  have hcv := valueOf_f64_cast hc
  have hrv := valueOf_f64_cast hr
  have hvv := valueOf_cast_unit32 v
  rw [sign32_rne32 h] at hrv
  suffices hreal : |((valueOf (f64 (rne32 v)) : ℚ) : ℝ) - (valueOf v : ℚ)| ≤
        |((valueOf (f64 c) : ℚ) : ℝ) - (valueOf v : ℚ)| ∧
      (|((valueOf (f64 (rne32 v)) : ℚ) : ℝ) - (valueOf v : ℚ)| =
          |((valueOf (f64 c) : ℚ) : ℝ) - (valueOf v : ℚ)| →
        ((valueOf (f64 c) : ℚ) : ℝ) ≠ (valueOf (f64 (rne32 v)) : ℚ) →
          mag32 (rne32 v) % 2 = 0) by exact_mod_cast hreal
  rw [hcv, hrv, hvv, ← sub_mul, ← sub_mul, abs_mul, abs_mul, abs_of_pos hstep,
    mul_le_mul_iff_left₀ hstep, mul_left_inj' hstep.ne', ne_eq, mul_left_inj' hstep.ne']
  refine ⟨hle, fun he hne => ?_⟩
  obtain ⟨hdist, hcr⟩ := heq he hne
  exact htie hdist fun hm => hcr (by rw [units32, hm])

/-! ## `rtz32` -/

theorem rtz32_not_nan {v : F64} (h : isNaN64 v = false) : rtz32 v = f64 (rtz32Bits v) := by
  simp [rtz32, h]

/-- `rtz32` keeps an infinity (R13). -/
theorem rtz32_inf {v : F64} (h : isInf64 v = true) : rtz32 v = v := by
  have hbits : rtz32Bits v = make32 (sign64 v) infMag32 := by simp [rtz32Bits, h]
  have hinf : isInf32 (rtz32Bits v) = true := by
    rw [isInf32_iff, hbits, mag32_make32 _ infMag32_lt]
  rw [rtz32_not_nan (isNaN64_of_inf h), f64_inf hinf, hbits, sign32_make32 _ infMag32_lt,
    ← eq_inf64_of_isInf64 h]

theorem maxMag32_lt : maxMag32 < infMag32 := by decide

/-- What `rtz32` rounds a finite value to: the sign is kept and the magnitude is finite. -/
theorem rtz32Bits_finite {v : F64} (h : isFinite64 v = true) :
    sign32 (rtz32Bits v) = sign64 v ∧
      mag32 (rtz32Bits v) = roundTowardZero 23 maxMag32 (units64 v) unitsPerUnit32 ∧
      isFinite32 (rtz32Bits v) = true := by
  have hbits : rtz32Bits v =
      make32 (sign64 v) (roundTowardZero 23 maxMag32 (units64 v) unitsPerUnit32) := by
    simp [rtz32Bits, isInf64_of_finite h]
  have hlt := lt_of_le_of_lt (roundTowardZero_le_top 23 maxMag32 (units64 v) unitsPerUnit32)
    maxMag32_lt
  rw [isFinite32_iff, hbits, mag32_make32 _ (hlt.trans infMag32_lt),
    sign32_make32 _ (hlt.trans infMag32_lt)]
  exact ⟨rfl, rfl, hlt⟩

/-- A finite binary32 is not above a finite binary64 in magnitude exactly when it is not above what
`rtz32` rounds that to (R13). -/
theorem mag64_f64_le_iff_rtz {v : F64} (h : isFinite64 v = true) {b : F32}
    (hb : isFinite32 b = true) : mag64 (f64 b) ≤ mag64 v ↔ mag32 b ≤ mag32 (rtz32Bits v) := by
  have hmax : mag32 b ≤ maxMag32 := Nat.le_of_lt_succ (isFinite32_iff.mp hb)
  rw [(rtz32Bits_finite h).2.1, le_roundTowardZero_iff unitsPerUnit32_pos hmax,
    ← (unitsOf_strictMono 52).le_iff_le (a := mag64 (f64 b))]
  change units64 (f64 b) ≤ units64 v ↔ units32 b * unitsPerUnit32 ≤ units64 v
  rw [(units64_f64 hb).2.2]

/-- `rtz32` is exact on the binary32 values (R13). -/
theorem rtz32_f64 {x : F32} (h : isNaN32 x = false) : rtz32 (f64 x) = f64 x := by
  rcases finite_or_inf32 h with hf | hi
  · obtain ⟨hfin, hsign, hunits⟩ := units64_f64 hf
    obtain ⟨hs, hm, -⟩ := rtz32Bits_finite hfin
    have hmax : mag32 x ≤ maxMag32 := Nat.le_of_lt_succ (isFinite32_iff.mp hf)
    rw [hunits, units32, roundTowardZero_unitsOf unitsPerUnit32_pos hmax] at hm
    have hbits : rtz32Bits (f64 x) = x := by
      rw [← make32_sign_mag (rtz32Bits (f64 x)), hs, hm, hsign, make32_sign_mag]
    rw [rtz32_not_nan (isNaN64_of_finite hfin), hbits]
  · exact rtz32_inf (by rw [f64_inf hi]; exact isInf64_inf64 _)

theorem fle_fabs_iff {a b : F64} (ha : isNaN64 a = false) (hb : isNaN64 b = false) :
    fle (fabs a) (fabs b) = true ↔ mag64 a ≤ mag64 b := by
  simp [fle_iff, ha, hb, orderKey]

/-- `rtz32` gives the binary32 value of the largest magnitude not above its operand's (R13). -/
theorem rtz32_greatest {v : F64} (h : isNaN64 v = false) :
    (∃ b, rtz32 v = f64 b) ∧ sign64 (rtz32 v) = sign64 v ∧ fle (fabs (rtz32 v)) (fabs v) = true ∧
      ∀ b : F32, isNaN32 b = false → fle (fabs (f64 b)) (fabs v) = true →
        fle (fabs (f64 b)) (fabs (rtz32 v)) = true := by
  refine ⟨⟨_, rtz32_not_nan h⟩, ?_⟩
  rcases finite_or_inf64 h with hf | hi
  · obtain ⟨hsign, -, hfin⟩ := rtz32Bits_finite hf
    have hnan := isNaN64_of_finite (units64_f64 hfin).1
    rw [rtz32_not_nan h, fle_fabs_iff hnan h, mag64_f64_le_iff_rtz hf hfin]
    refine ⟨by rw [sign64_f64 (isNaN32_of_finite hfin), hsign], le_rfl, fun b hb hle => ?_⟩
    rw [fle_fabs_iff (isNaN64_f64 hb) h] at hle
    rw [fle_fabs_iff (isNaN64_f64 hb) hnan]
    rcases finite_or_inf32 hb with hbf | hbi
    · rwa [mag64_f64_le_iff hbf hfin, ← mag64_f64_le_iff_rtz hf hbf]
    · -- an infinity is above every finite value
      have hlt := isFinite64_iff.mp hf
      rw [f64_inf hbi, mag64_inf64] at hle
      omega
  · rw [rtz32_inf hi]
    exact ⟨rfl, (fle_fabs_iff h h).mpr le_rfl, fun _ _ hle => hle⟩

/-! ## `f64u` -/

theorem valueOf_of_pos {x : F64} (h : sign64 x = false) :
    valueOf x = (units64 x : ℚ) / unitsPerOne := by
  rw [valueOf, signedUnits64, h, if_neg Bool.false_ne_true, Int.cast_natCast]

/-- `f64u` is exact below `2^53` (R13). -/
theorem f64u_exact {n : Nat} (hn : n < 2 ^ 53) :
    isFinite64 (f64u n) = true ∧ valueOf (f64u n) = n := by
  obtain ⟨hfin, hunits⟩ := round64_nat false hn
  refine ⟨hfin, ?_⟩
  rw [f64u, valueOf_of_pos (sign64_round64 ..), hunits, Nat.cast_mul,
    mul_div_cancel_right₀ _ (Nat.cast_ne_zero.mpr unitsPerOne_pos.ne')]

/-- Settles O59: each clause is a lemma about one conversion. -/
theorem conversionsAreExactOrRounded : Obligations.ConversionsAreExactOrRounded := by
  refine ⟨fun x hx => ⟨sign64_f64 hx, rne32_f64 hx, rtz32_f64 hx, fun hf => ?_, fun hf => ?_⟩,
    fun x hx => ?_, fun v hv => ⟨?_, ?_⟩,
    fun v hv => ⟨sign32_rne32 hv, isFinite32_rne32_iff hv, isInf32_rne32_of_not_finite hv,
      fun hr c hc => rne32_nearest hv hr hc⟩,
    fun v hv => rtz32_greatest hv, fun n hn => f64u_exact hn⟩
  · exact ⟨(units64_f64 hf).1, (units64_f64 hf).2.2⟩
  · rw [f64_inf ((finite_or_inf32 hx).resolve_left (by simp [hf]))]
    exact isInf64_inf64 _
  · rw [f64_nan hx]
    exact ⟨isNaN64_quietNaN64 .., quietNaN64_quiet ..⟩
  · rw [rne32_nan hv]
    exact isNaN32_quietNaN32 v
  · rw [rtz32, if_pos hv, f64_nan (isNaN32_quietNaN32 v)]
    exact isNaN64_quietNaN64 ..

end Sys2Proof.Machine
end

section
/-! SUPPORT and PROOFS. Times in samples (R18, R19): signs and zeros of products and quotients, the
whole part of a value, O26 and O27. -/

namespace Sys2Proof.Machine

/-! ## Products and quotients: NaNs, signs, zeros and infinities -/

theorem fdiv_nan_left {a b : F64} (h : isNaN64 a = true) : isNaN64 (fdiv a b) = true := by
  simp [fdiv, h]

/-- The sign of a product that is not a NaN (R11). -/
theorem sign64_fmul {a b : F64} (h : isNaN64 (fmul a b) = false) :
    sign64 (fmul a b) = (sign64 a != sign64 b) := by
  unfold fmul at h ⊢
  split_ifs at h ⊢ with hnan hinf hzero
  · simp at h
  · simp at h
  · exact sign64_inf64 _
  · exact sign64_round64 ..

/-- The sign of a quotient that is not a NaN (R11). -/
theorem sign64_fdiv {a b : F64} (h : isNaN64 (fdiv a b) = false) :
    sign64 (fdiv a b) = (sign64 a != sign64 b) := by
  unfold fdiv at h ⊢
  split_ifs at h ⊢ with hnan hainf hbinf hbinf' hbzero hazero
  · simp at h
  · simp at h
  · exact sign64_inf64 _
  · exact sign64_make64 _ (by norm_num)
  · simp at h
  · exact sign64_inf64 _
  · exact sign64_round64 ..

theorem isFinite64_zero64 (s : Bool) : isFinite64 (zero64 s) = true := by cases s <;> decide
theorem sign64_zero64 (s : Bool) : sign64 (zero64 s) = s := sign64_make64 s (by norm_num)
theorem units64_zero64 (s : Bool) : units64 (zero64 s) = 0 := by
  rw [units64, zero64, mag64_make64 s (by norm_num), units_zero]

theorem round64_zero (s : Bool) {den : Nat} (hd : 0 < den) : round64 s 0 den = zero64 s := by
  have h := roundNearest_unitsOf (frac := 52) (inf := infMag64) hd (Nat.zero_le _)
  rw [units_zero, Nat.zero_mul] at h
  rw [round64, h, zero64]

/-- A zero times a finite value is a zero (R11). -/
theorem fmul_zero_left (s : Bool) {b : F64} (hb : isFinite64 b = true) :
    fmul (zero64 s) b = zero64 (s != sign64 b) := by
  rw [fmul_finite (isFinite64_zero64 s) hb, units64_zero64, Nat.zero_mul,
    round64_zero _ unitsPerOne_pos, sign64_zero64]

/-- An infinity times a finite value other than zero is an infinity (R11). -/
theorem fmul_inf_left (s : Bool) {b : F64} (hb : isFinite64 b = true) (h0 : 0 < mag64 b) :
    fmul (inf64 s) b = inf64 (s != sign64 b) := by
  have hz : isZero64 (inf64 s) = false := by cases s <;> decide
  have hbz : isZero64 b = false := by simp [isZero64]; omega
  simp [fmul, isNaN64_inf64, isNaN64_of_finite hb, isInf64_inf64, hz, hbz, sign64_inf64]

/-! ## Times in samples before the clamps -/

/-- A positive value has a clear sign and is no zero. -/
theorem sign_mag_of_positive {x : F64} (h : fgt x Config.zero64 = true) :
    sign64 x = false ∧ 0 < mag64 x := by
  have hlt := (fgt_iff.mp h).2.2
  rw [show orderKey Config.zero64 = 0 by decide] at hlt
  unfold orderKey at hlt
  cases hs : sign64 x <;> simp [hs] at hlt ⊢ <;> omega

theorem rawSamples_nan {ms : F32} {fs : F64} (h : isNaN32 ms = true) :
    isNaN64 (rawSamples ms fs) = true :=
  fdiv_nan_left (fmul_nan_left (by rw [f64_nan h]; exact isNaN64_quietNaN64 ..))

/-- At a positive rate a negative time, the infinity too, gives a NaN or a negative value. -/
theorem rawSamples_negative {ms : F32} {fs : F64} (hfs : fgt fs Config.zero64 = true)
    (hms : isNaN32 ms = false) (hneg : sign32 ms = true) :
    isNaN64 (rawSamples ms fs) = true ∨ sign64 (rawSamples ms fs) = true := by
  rw [or_iff_not_imp_left, Bool.not_eq_true]
  intro hx
  have hmul : isNaN64 (fmul (f64 ms) fs) = false := by
    rw [← Bool.not_eq_true]
    intro hn
    simp [rawSamples, fdiv_nan_left hn] at hx
  rw [rawSamples, sign64_fdiv hx, sign64_fmul hmul, sign64_f64 hms, hneg,
    (sign_mag_of_positive hfs).1]
  decide

/-- At a positive finite rate a zero time gives a zero of the same sign. -/
theorem rawSamples_zero (s : Bool) {fs : F64} (hfin : isFinite64 fs = true)
    (hfs : fgt fs Config.zero64 = true) : rawSamples (make32 s 0) fs = zero64 s := by
  have hms : f64 (make32 s 0) = zero64 s := by cases s <;> decide +kernel
  have hdiv : fdiv (zero64 s) Config.thousand64 = zero64 s := by cases s <;> decide +kernel
  rw [rawSamples, hms, fmul_zero_left s hfin, (sign_mag_of_positive hfs).1, Bool.bne_false, hdiv]

/-- At a positive finite rate an infinite time gives the infinity. -/
theorem rawSamples_inf {fs : F64} (hfin : isFinite64 fs = true)
    (hfs : fgt fs Config.zero64 = true) :
    rawSamples 0x7F800000#32 fs = inf64 false := by
  obtain ⟨hsign, hmag⟩ := sign_mag_of_positive hfs
  have hms : f64 0x7F800000#32 = inf64 false := by decide +kernel
  have hdiv : fdiv (inf64 false) Config.thousand64 = inf64 false := by decide +kernel
  rw [rawSamples, hms, fmul_inf_left false hfin hmag, hsign, Bool.bne_false, hdiv]

/-! ## The number of samples -/

theorem fge_false {a b : F64} (ha : isNaN64 a = false) (hb : isNaN64 b = false) :
    fge a b = false ↔ orderKey a < orderKey b := by
  rw [← Bool.not_eq_true, fge_iff]; simp [ha, hb]

theorem units64_u32Bound : units64 Config.u32Bound64 = 2 ^ 32 * unitsPerOne := by decide +kernel

/-- A value from 0.0 up to `2^32` is finite, a negative one among them is −0.0, and its whole part
fits 32 bits. -/
theorem finite_of_u32_range {x : F64} (hn : isNaN64 x = false) (h0 : flt x Config.zero64 = false)
    (hb : fge x Config.u32Bound64 = false) :
    isFinite64 x = true ∧ (sign64 x = true → mag64 x = 0) ∧ units64 x / unitsPerOne < 2 ^ 32 := by
  have hpos := (flt_false hn (by decide)).mp h0
  have hlt := (fge_false hn (by decide)).mp hb
  rw [show orderKey Config.zero64 = 0 by decide] at hpos
  have hbound : orderKey Config.u32Bound64 = mag64 Config.u32Bound64 := by decide
  have hmag : mag64 x < mag64 Config.u32Bound64 := by
    have := natAbs_orderKey x; omega
  refine ⟨isFinite64_iff.mpr (hmag.trans (by decide)), fun hs => ?_, ?_⟩
  · rw [orderKey_of_neg hs] at hpos; omega
  · rw [Nat.div_lt_iff_lt_mul unitsPerOne_pos, ← units64_u32Bound]
    exact unitsOf_strictMono 52 hmag

/-- The value of a finite binary64 that is not below zero. -/
theorem valueOf_of_nonneg {x : F64} (h : sign64 x = true → mag64 x = 0) :
    valueOf x = (units64 x : ℚ) / unitsPerOne := by
  cases hs : sign64 x
  · exact valueOf_of_pos hs
  · have hm := h hs
    rw [valueOf_zero (by rw [isZero64, hm]; rfl), units64, hm, units_zero, Nat.cast_zero, zero_div]

/-- `u32of(floor(v))` is the whole part of a value from 0.0 up to `2^32` (R15). -/
theorem toNat_u32of_ffloor {x : F64} (hf : isFinite64 x = true) (hs : sign64 x = true → mag64 x = 0)
    (hlt : units64 x / unitsPerOne < 2 ^ 32) :
    (u32of (ffloor x)).toNat = units64 x / unitsPerOne := by
  have hdown : (sign64 x && units64 x % unitsPerOne != 0) = false := by
    cases h : sign64 x
    · rfl
    · rw [units64, hs h, units_zero, Nat.zero_mod]; rfl
  have hfloor : ffloor x = round64 (sign64 x) (units64 x / unitsPerOne * unitsPerOne) 1 := by
    simp [ffloor, isNaN64_of_finite hf, isInf64_of_finite hf, hdown]
  rw [hfloor, u32of, (round64_nat _ (hlt.trans (by norm_num))).2,
    Nat.mul_div_cancel _ unitsPerOne_pos, BitVec.toNat_ofNat, Nat.mod_eq_of_lt hlt]

theorem samples_eq_none_iff {ms : F32} {fs : F64} :
    samples ms fs = none ↔ isNaN64 (rawSamples ms fs) = true ∨
      flt (rawSamples ms fs) Config.zero64 = true ∨
      fge (rawSamples ms fs) Config.u32Bound64 = true := by
  simp only [samples, ite_eq_left_iff, reduceCtorEq, imp_false, not_not, Bool.or_eq_true, or_assoc]

/-- What a number of samples stands for: the whole part of a finite value. -/
theorem samples_eq_some {ms : F32} {fs : F64} {n : Word} (h : samples ms fs = some n) :
    isFinite64 (rawSamples ms fs) = true ∧ ((n.toNat : Nat) : ℚ) ≤ valueOf (rawSamples ms fs) ∧
      valueOf (rawSamples ms fs) < (n.toNat : ℚ) + 1 := by
  have hnone : samples ms fs ≠ none := by simp [h]
  rw [ne_eq, samples_eq_none_iff] at hnone
  simp only [not_or, Bool.not_eq_true] at hnone
  obtain ⟨hnan, hneg, hbig⟩ := hnone
  obtain ⟨hfin, hsign, hlt⟩ := finite_of_u32_range hnan hneg hbig
  have hn : n = u32of (ffloor (rawSamples ms fs)) := by
    simpa [samples, hnan, hneg, hbig] using h.symm
  rw [hn, toNat_u32of_ffloor hfin hsign hlt, valueOf_of_nonneg hsign,
    ← Nat.floor_div_eq_div (K := ℚ)]
  have hnonneg : (0 : ℚ) ≤ (units64 (rawSamples ms fs) : ℚ) / unitsPerOne :=
    div_nonneg (Nat.cast_nonneg _) (Nat.cast_nonneg _)
  exact ⟨hfin, Nat.floor_le hnonneg, Nat.lt_floor_add_one _⟩

/-- Settles O26: the value before the clamps is finite and not below zero, and `floor` and `u32of`
take the whole part of its exact number of units. -/
theorem samplesIsTheFloorOfTheTime : Obligations.SamplesIsTheFloorOfTheTime := by
  refine ⟨fun ms fs x hx => ?_, fun fs hfin hfs => ?_⟩
  · have hraw : x = rawSamples ms fs := hx
    subst hraw
    exact ⟨samples_eq_none_iff, fun n h => samples_eq_some h⟩
  · have hraw : rawSamples 0x80000000#32 fs = zero64 true := rawSamples_zero true hfin hfs
    rw [samples, hraw]
    decide +kernel

/-! ## The time constant -/

/-- A time constant is at least 1.0 (R19). -/
theorem tc_at_least_one (ms : F32) (fs : F64) : fge (tc ms fs) Config.one64 = true := by
  rcases maxsel_cases (rawSamples ms fs) Config.one64 with ⟨hsel, hgt⟩ | ⟨hsel, -⟩ <;> rw [tc, hsel]
  · obtain ⟨hx, h1, hlt⟩ := fgt_iff.mp hgt
    exact fge_iff.mpr ⟨hx, h1, hlt.le⟩
  · decide

/-- A value that is a NaN or not above zero gives a time constant of 1.0 (R19). -/
theorem tc_eq_one {ms : F32} {fs : F64}
    (h : isNaN64 (rawSamples ms fs) = true ∨ orderKey (rawSamples ms fs) ≤ 0) :
    tc ms fs = Config.one64 := by
  refine (maxsel_cases _ _).elim (fun ⟨_, hgt⟩ => ?_) (fun ⟨hsel, _⟩ => hsel)
  obtain ⟨hx, -, hlt⟩ := fgt_iff.mp hgt
  have hone : 0 < orderKey Config.one64 := by decide
  rcases h with hnan | hle
  · rw [hx] at hnan; cases hnan
  · omega

/-- A NaN, negative or zero time gives a time constant of 1.0 at every positive finite rate
(R19). -/
theorem tc_of_no_time {ms : F32} {fs : F64} (hfin : isFinite64 fs = true)
    (hfs : fgt fs Config.zero64 = true)
    (h : isNaN32 ms = true ∨ sign32 ms = true ∨ mag32 ms = 0) : tc ms fs = Config.one64 := by
  apply tc_eq_one
  cases hms : isNaN32 ms
  · rcases h with h | h | h
    · rw [hms] at h; cases h
    · refine (rawSamples_negative hfs hms h).imp id fun hs => ?_
      rw [orderKey_of_neg hs]; omega
    · right
      rw [← make32_sign_mag ms, h, rawSamples_zero _ hfin hfs]
      cases sign32 ms <;> decide
  · exact .inl (rawSamples_nan hms)

/-- Settles O27: `maxsel` with 1.0 drops a NaN and every value not above 1.0. -/
theorem timeConstantIsAtLeastOne : Obligations.TimeConstantIsAtLeastOne := by
  refine ⟨fun ms fs => ⟨rfl, tc_at_least_one ms fs⟩,
    fun ms fs hfin hfs => ⟨tc_of_no_time hfin hfs, fun hms => ?_⟩⟩
  rw [hms, tc, rawSamples_inf hfin hfs]
  decide

end Sys2Proof.Machine
end

section
/-! SUPPORT and PROOFS. The registers as the host sees them: reads through the map (R32, R33, R84, R85)
and the fields of STATUS (R35, R36), O16 and O17. -/

namespace Sys2Proof.Machine

/-! ## The register map -/

theorem mem_allRegisters (r : RegName) : r ∈ allRegisters := by
  cases r <;> decide

/-- A legal read answers the register's value and changes nothing but the answer field (R85). -/
@[simp] theorem memRead_offsetOf (r : RegName) (s : State) :
    memRead (offsetOf r) .byte4 s = { s with readData := some (readRegister r s) } := by
  simp [memRead, readWord]

/-- A read-only register stores nothing (R84). -/
theorem storeRegister_readOnly {r : RegName} (hr : r ∈ readOnlyRegisters) (v : Word)
    (h : HostRegs) : storeRegister r v h = h := by
  revert r
  simp [readOnlyRegisters, storeRegister]

/-- A write to a read-only register is ignored and raises no fault (R84). -/
theorem memWrite_readOnly {r : RegName} (hr : r ∈ readOnlyRegisters) (v : Word) (s : State) :
    memWrite (offsetOf r) .byte4 v s = .next s := by
  have hcmd : r ≠ .cmd := by rintro rfl; exact absurd hr (by decide)
  rw [memWrite_offsetOf v s hcmd, writeRegister, storeRegister_readOnly hr]

/-- Settles O16: the listed map is `allRegisters` with the offset and the value of each register, and
a read at a register's own offset is legal. -/
theorem registerMapReadsTheState : Obligations.RegisterMapReadsTheState := by
  refine ⟨fun s => ⟨rfl, rfl⟩, fun s map hmap => ?_, mem_allRegisters, fun s r w hr => ?_⟩
  · have hlist : map = allRegisters.map fun r => (r, offsetOf r, readRegister r s) := hmap
    subst hlist
    refine ⟨by simp [Function.comp_def], fun x hx => ?_⟩
    obtain ⟨r, -, rfl⟩ := List.mem_map.mp hx
    exact ⟨rfl, rfl, memRead_offsetOf r s⟩
  · refine memWrite_readOnly ?_ w s
    rcases hr with rfl | rfl <;> decide

/-! ## The fields of STATUS -/

/-- The flags of STATUS from bit 0 up (R35). -/
def statusFlags (s : State) : List Bool :=
  [s.eng.cfg, s.eng.seen, s.eng.sustain, s.eng.mtr0.valid, s.eng.mtr1.valid,
    decide (s.faults.fault ≠ 0#5), s.eng.nf, s.eng.muted]

/-- One bit of STATUS: a flag, or a bit of the limiter state's code, zero-extended (R35). -/
theorem getLsbD_statusWord (s : State) (i : Nat) :
    (statusWord s).getLsbD i =
      if i < 8 then (statusFlags s).getD i false else s.eng.limiterState.code.getLsbD (i - 8) := by
  refine BitVec.getLsbD_append.trans ?_
  split
  · simp only [BitVec.getLsbD_append]
    interval_cases i <;> simp [statusFlags, bne, beq_eq_decide]
  · simp only [BitVec.getLsbD_append, BitVec.getLsbD_zero]
    split
    · rfl
    · next hi => exact (BitVec.getLsbD_of_ge _ _ (not_lt.mp hi)).symm

/-- LSTATE by the stated conditions (R36). -/
theorem limiterState_code (e : Engine) :
    e.limiterState.code =
      (if e.cfg = false ∨ (e.sustain = false ∧ e.seen = false) then 0#2
       else if e.cfg = true ∧ e.sustain = true then 3#2
       else if e.cfg = true ∧ e.sustain = false ∧ e.seen = true ∧ fgt e.peak e.L = true then 2#2
       else 1#2) := by
  unfold Engine.limiterState
  cases e.cfg with
  | false => simp [LimiterState.code]
  | true =>
    cases e.sustain with
    | true => simp [LimiterState.code]
    | false => cases e.seen <;> cases fgt e.peak e.L <;> simp [LimiterState.code]

/-- Settles O17: the single bits are the flags, and above them stand the two bits of the limiter
state's code and the zeros of its extension. -/
theorem statusFieldsReflectTheState : Obligations.StatusFieldsReflectTheState := by
  intro s
  have hbit := getLsbD_statusWord s
  refine ⟨hbit 0, hbit 1, hbit 2, hbit 3, hbit 4, hbit 5, hbit 6, hbit 7, ?_, ?_⟩
  · rw [← limiterState_code]
    ext i hi
    simp [readRegister, hbit, BitVec.getLsbD_eq_getElem hi]
  · ext i hi
    have habove : 2 ≤ 10 + i - 8 := by omega
    simp [readRegister, hbit, show ¬10 + i < 8 by omega, BitVec.getLsbD_of_ge _ _ habove]

end Sys2Proof.Machine
end

section
/-! SUPPORT and PROOFS. The bus rules of the register window: which accesses are legal (R83), what
writes to read-only registers (R84) and reads (R85) do, O12, O13 and O14. -/

namespace Sys2Proof.Machine

/-! ## Which accesses are legal -/

theorem isSome_registerAt_iff {off : Offset} :
    (registerAt off).isSome = true ↔ ∃ r, offsetOf r = off := by
  rw [Option.isSome_iff_exists]
  constructor
  · rintro ⟨r, hr⟩
    exact ⟨r, registerAt_some hr⟩
  · rintro ⟨r, rfl⟩
    exact ⟨r, registerAt_offsetOf r⟩

/-- The three conditions of `legal(off, width)` (R83). -/
theorem legalAccess_iff {off : Offset} {width : Width} :
    legalAccess off width = true ↔
      width = .byte4 ∧ off.toNat % 4 = 0 ∧ ∃ r, offsetOf r = off := by
  rw [legalAccess, Bool.and_eq_true, Bool.and_eq_true, beq_iff_eq, beq_iff_eq,
    isSome_registerAt_iff, and_assoc]

/-- Where the map has registers (R32): below 0x080 but for two holes, and from 0x100 below 0x12C. -/
theorem offsetOf_mapped (r : RegName) :
    offsetOf r ≠ 0x024#12 ∧ offsetOf r ≠ 0x04C#12 ∧
      (offsetOf r < 0x080#12 ∨ 0x0FF#12 < offsetOf r) ∧ offsetOf r < 0x12C#12 := by
  cases r <;> decide

/-- No register has an offset of the holes of the map (R83). -/
theorem not_mapped_of_hole {off : Offset}
    (h : off = 0x024#12 ∨ off = 0x04C#12 ∨ (0x080#12 ≤ off ∧ off ≤ 0x0FF#12) ∨ 0x12C#12 ≤ off) :
    ¬∃ r, offsetOf r = off := by
  rintro ⟨r, rfl⟩
  obtain ⟨hne24, hne4C, hgap, htop⟩ := offsetOf_mapped r
  rcases h with h | h | ⟨hlo, hhi⟩ | h
  · exact hne24 h
  · exact hne4C h
  · rcases hgap with hbelow | habove
    · exact BitVec.not_le.mpr hbelow hlo
    · exact BitVec.not_le.mpr habove hhi
  · exact BitVec.not_le.mpr htop h

/-! ## Illegal accesses -/

/-- The bus fault: code 5 with FINFO the byte offset (R301, R303). -/
theorem raiseFault_bus (off : Offset) (s : State) :
    raiseFault (.bus off) s = { s with
      faults := { fault := s.faults.fault ||| 0b10000#5, fcode := 5#32, finfo := off.setWidth 32,
                  fdetail := 0#32 } } := rfl

/-- An illegal read returns 0 (R85). -/
theorem readWord_illegal {off : Offset} {width : Width} (s : State)
    (h : legalAccess off width = false) : readWord off width s = 0#32 := by
  unfold readWord
  split
  · simp [h]
  · rfl

/-- An illegal read answers 0 and raises the bus fault (R83, R85). -/
theorem memRead_illegal {off : Offset} {width : Width} (s : State)
    (h : legalAccess off width = false) :
    memRead off width s = { raiseFault (.bus off) s with readData := some 0#32 } := by
  simp [memRead, h, readWord_illegal s h]

/-- Settles O12: `legalAccess_iff` and the holes of the map; an illegal access is the bus fault. -/
theorem illegalAccessesRaiseTheBusFault : Obligations.IllegalAccessesRaiseTheBusFault := by
  refine ⟨fun _ _ => legalAccess_iff, fun _ => not_mapped_of_hole, fun off width v s h => ⟨?_, ?_⟩⟩
  · rw [memRead_illegal s h, raiseFault_bus]
  · rw [memWrite_illegal v s h, raiseFault_bus]

/-! ## Read-only registers -/

/-- Settles O13: the listed registers are `readOnlyRegisters`, which store nothing. -/
theorem writesToReadOnlyRegistersAreIgnored : Obligations.WritesToReadOnlyRegistersAreIgnored :=
  fun _ v s hr => memWrite_readOnly hr v s

/-! ## Repeated reads -/

/-- No register shows the answer of the last read (log entry 6). -/
theorem readRegister_readData (r : RegName) (s : State) (answer : Option Word) :
    readRegister r { s with readData := answer } = readRegister r s := by
  cases r <;> rfl

/-- A legal read leaves the value of every register (R85). -/
theorem readRegister_memRead (r a : RegName) (s : State) :
    readRegister r (memRead (offsetOf a) .byte4 s) = readRegister r s := by
  rw [memRead_offsetOf, readRegister_readData]

/-- Any list of legal reads leaves the value of every register (R85). -/
theorem readRegister_foldl_memRead (r : RegName) (reads : List RegName) (s : State) :
    readRegister r (reads.foldl (fun u a => memRead (offsetOf a) .byte4 u) s) =
      readRegister r s := by
  induction reads generalizing s with
  | nil => rfl
  | cons a reads ih => rw [List.foldl_cons, ih, readRegister_memRead]

/-- Settles O14: a read answers the register's value, and the reads before it keep that value. -/
theorem legalReadsAreIdempotent : Obligations.LegalReadsAreIdempotent := by
  refine ⟨memRead_offsetOf, fun _ _ s h => memRead_illegal s h, fun reads r s => ?_⟩
  rw [memRead_offsetOf, readRegister_foldl_memRead]

end Sys2Proof.Machine
end

section
/-! SUPPORT and PROOFS. Illegal command words (R110, R117): a word matches a row of R116 exactly
when its fields pass the three checks of R110, and only such a word decodes to a command; O5. -/

namespace Sys2Proof

/-! ## Words and their fields -/

@[simp] theorem commandFields_joinFields (f : CommandFields) :
    commandFields (joinFields f) = f := by
  cases f
  simp only [commandFields, joinFields, CommandFields.mk.injEq]
  refine ⟨?_, ?_, ?_⟩
  · exact (BitVec.extractLsb'_append_eq_of_le (by decide)).trans BitVec.extractLsb'_append_eq_left
  · exact (BitVec.extractLsb'_append_eq_of_le (by decide)).trans BitVec.extractLsb'_append_eq_right
  · exact BitVec.extractLsb'_append_eq_right

@[simp] theorem joinFields_commandFields (w : Word) : joinFields (commandFields w) = w := by
  simp only [joinFields, commandFields]
  rw [BitVec.extractLsb'_append_extractLsb'_eq_extractLsb' (by decide),
    BitVec.extractLsb'_append_extractLsb'_eq_extractLsb' (by decide)]
  exact BitVec.extractLsb'_eq_self

theorem joinFields_inj {f g : CommandFields} : joinFields f = joinFields g ↔ f = g :=
  (Function.LeftInverse.injective commandFields_joinFields).eq_iff

/-- A bitwise AND of words is one of their fields. -/
theorem joinFields_and (f g : CommandFields) :
    joinFields f &&& joinFields g =
      joinFields { opc := f.opc &&& g.opc, sel := f.sel &&& g.sel, low := f.low &&& g.low } :=
  BitVec.and_append.trans (congrArg (· ++ (f.low &&& g.low)) BitVec.and_append)

/-- A word lies in the pattern of an operation code and a selector mask when its fields do. -/
theorem and_mask_eq_match_iff {w : Word} {opc mask : BitVec 8} :
    w &&& joinFields { opc := BitVec.allOnes 8, sel := ~~~mask, low := BitVec.allOnes 16 } =
        joinFields { opc := opc, sel := 0#8, low := 0#16 } ↔
      (commandFields w).opc = opc ∧ (commandFields w).sel &&& ~~~mask = 0#8 ∧
        (commandFields w).low = 0#16 := by
  conv_lhs => rw [← joinFields_commandFields w]
  rw [joinFields_and, joinFields_inj, CommandFields.mk.injEq, BitVec.and_allOnes,
    BitVec.and_allOnes]

/-! ## The three checks of R110 -/

/-- The operation code of a row of R116. -/
def OpcodeRow.opc (row : OpcodeRow) : BitVec 8 := (commandFields row.matchWord).opc

/-- The selector bits that a row of R116 leaves free. -/
def OpcodeRow.freeSel (row : OpcodeRow) : BitVec 8 := ~~~(commandFields row.maskWord).sel

/-- Each row of R116 is the pattern of its operation code and of that code's SEL mask (R114). -/
theorem opcodeRow_pattern : ∀ row ∈ opcodeRows,
    selMask row.opc = some row.freeSel ∧
    row.matchWord = joinFields { opc := row.opc, sel := 0#8, low := 0#16 } ∧
    row.maskWord =
      joinFields { opc := BitVec.allOnes 8, sel := ~~~row.freeSel, low := BitVec.allOnes 16 } := by
  decide

theorem ofNat_toNat_self (b : BitVec 8) : BitVec.ofNat 8 b.toNat = b := by
  rw [BitVec.ofNat_toNat, BitVec.setWidth_eq]

/-- An operation code in the table of R114 has a row in R116. -/
theorem exists_row_of_selMask {opc mask : BitVec 8} (h : selMask opc = some mask) :
    ∃ row ∈ opcodeRows, row.opc = opc := by
  rw [← List.mem_map, ← ofNat_toNat_self opc]
  unfold selMask at h
  split at h
  case h_13 => cases h
  all_goals
    next hopc =>
      rw [hopc]
      decide

/-- Outside 0x00 to 0x04 and 0x10 to 0x16 there is no operation code (R114). -/
theorem opcode_ranges {opc mask : BitVec 8} (h : selMask opc = some mask) :
    ¬(0x05#8 ≤ opc ∧ opc ≤ 0x0F#8) ∧ ¬0x17#8 ≤ opc := by
  have hrows : ∀ row ∈ opcodeRows,
      ¬(0x05#8 ≤ row.opc ∧ row.opc ≤ 0x0F#8) ∧ ¬0x17#8 ≤ row.opc := by decide
  obtain ⟨row, hrow, rfl⟩ := exists_row_of_selMask h
  exact hrows row hrow

theorem wellFormed_iff {f : CommandFields} :
    f.wellFormed = true ↔
      ∃ mask, selMask f.opc = some mask ∧ f.sel &&& ~~~mask = 0#8 ∧ f.low = 0#16 := by
  unfold CommandFields.wellFormed CommandFields.opcInTable CommandFields.selLegal
    CommandFields.lowZero
  cases selMask f.opc <;> simp

/-- A word matches a row of R116 exactly when it passes the checks of R110. -/
theorem matches_row_iff_wellFormed {w : Word} :
    (∃ row ∈ opcodeRows, w &&& row.maskWord = row.matchWord) ↔
      (commandFields w).wellFormed = true := by
  rw [wellFormed_iff]
  constructor
  · rintro ⟨row, hrow, hw⟩
    obtain ⟨hsel, hmatch, hmask⟩ := opcodeRow_pattern row hrow
    rw [hmatch, hmask, and_mask_eq_match_iff] at hw
    obtain ⟨hopc, hchecks⟩ := hw
    exact ⟨row.freeSel, hopc ▸ hsel, hchecks⟩
  · rintro ⟨mask, hmaskOf, hchecks⟩
    obtain ⟨row, hrow, hopc⟩ := exists_row_of_selMask hmaskOf
    obtain ⟨hsel, hmatch, hmask⟩ := opcodeRow_pattern row hrow
    obtain rfl : row.freeSel = mask := Option.some.inj (hsel.symm.trans (hopc ▸ hmaskOf))
    refine ⟨row, hrow, ?_⟩
    rw [hmatch, hmask, and_mask_eq_match_iff]
    exact ⟨hopc.symm, hchecks⟩

/-! ## The decoder -/

/-- The decoder knows only operation codes of the table (R114). -/
theorem opcInTable_of_commandOf {f : CommandFields} {i : Instr}
    (h : commandOf f.opc f.sel = some i) : f.opcInTable = true := by
  rw [CommandFields.opcInTable, ← ofNat_toNat_self f.opc]
  unfold commandOf at h
  split at h
  case h_13 => cases h
  all_goals
    next hopc =>
      rw [hopc]
      decide

/-- A word decodes to a command only when it passes the checks of R110. -/
theorem wellFormed_of_decode_ok {w : Word} {i : Instr} (h : decode w = .ok i) :
    (commandFields w).wellFormed = true := by
  simp only [decode] at h
  split at h
  · cases h
  · next j hj =>
    have hopc := opcInTable_of_commandOf hj
    split_ifs at h with hsel hlow
    simp [CommandFields.wellFormed, hopc, hsel, hlow]

/-- A word that matches no row of R116 decodes to no command. -/
theorem decode_error_of_no_row {w : Word}
    (h : ∀ row ∈ opcodeRows, w &&& row.maskWord ≠ row.matchWord) : ∃ e, decode w = .error e := by
  cases hd : decode w with
  | error e => exact ⟨e, rfl⟩
  | ok i =>
    obtain ⟨row, hrow, hw⟩ := matches_row_iff_wellFormed.mpr (wellFormed_of_decode_ok hd)
    exact absurd hw (h row hrow)

end Sys2Proof

namespace Sys2Proof.Machine

/-! ## Running an illegal word -/

theorem runCommand_error {w : Word} {e : DecodeReject} (s : State) (h : decode w = .error e) :
    runCommand w s = .next (raiseFault .illegalCmd s) := by
  rw [runCommand, h]

/-- The illegal-command fault: code 1 with FINFO the word in `CMD` (R301, R303). -/
theorem raiseFault_illegalCmd (s : State) :
    raiseFault .illegalCmd s = { s with
      faults := { fault := s.faults.fault ||| 0b00001#5, fcode := 1#32, finfo := s.host.cmd,
                  fdetail := 0#32 } } := rfl

/-- Settles O5: a word in no row does not decode, so its write to `CMD` stores it and raises the
illegal-command fault; a word in a row passes the checks of R110. -/
theorem illegalWordsOnlyFault : Obligations.IllegalWordsOnlyFault := by
  refine ⟨fun s w hw => ?_, fun w hbad row hrow hw => ?_⟩
  · obtain ⟨e, he⟩ := decode_error_of_no_row hw
    rw [memWrite_cmd, runCommand_error _ he, raiseFault_illegalCmd]
    rfl
  · have hwf := matches_row_iff_wellFormed.mp ⟨row, hrow, hw⟩
    obtain ⟨mask, hmask, hsel, hlow⟩ := wellFormed_iff.mp hwf
    obtain ⟨hgap, htop⟩ := opcode_ranges hmask
    rcases hbad with h | h | h | ⟨mask', hmask', h⟩
    · exact hgap h
    · exact htop h
    · exact h hlow
    · obtain rfl : mask = mask' := Option.some.inj (hmask.symm.trans hmask')
      exact h hsel

end Sys2Proof.Machine
end

section
/-! SUPPORT and PROOFS. System commands: NOP and its one word (R140), the calculation interval of a
meter (R143); O19 and O28. -/

namespace Sys2Proof

/-! ## The one word of NOP -/

/-- The operation code of NOP frees no selector bit (R114), so 0 is its only word that passes the
checks of R110. -/
theorem eq_zero_of_wellFormed_of_opc_zero {w : Word} (hwf : (commandFields w).wellFormed = true)
    (hopc : (commandFields w).opc = 0x00#8) : w = 0x00000000#32 := by
  obtain ⟨mask, hmask, hsel, hlow⟩ := wellFormed_iff.mp hwf
  rw [hopc] at hmask
  obtain rfl : 0x00#8 = mask := Option.some.inj hmask
  rw [BitVec.not_zero, BitVec.and_allOnes] at hsel
  have hfields : commandFields w = { opc := 0x00#8, sel := 0#8, low := 0#16 } :=
    CommandFields.mk.injEq .. |>.mpr ⟨hopc, hsel, hlow⟩
  calc w = joinFields (commandFields w) := (joinFields_commandFields w).symm
    _ = joinFields { opc := 0x00#8, sel := 0#8, low := 0#16 } := congrArg joinFields hfields
    _ = 0x00000000#32 := by decide

end Sys2Proof

namespace Sys2Proof.Machine

theorem exec_nop (s : State) : exec .nop s = .next s := rfl

/-- Settles O19: a word of operation code 0 that decodes passes the checks of R110, so it is 0. -/
theorem nopChangesNothing : Obligations.NopChangesNothing := by
  refine ⟨exec_nop, by decide, fun w hopc hne => ?_⟩
  cases hd : decode w with
  | error e => exact ⟨e, rfl⟩
  | ok i => exact absurd (eq_zero_of_wellFormed_of_opc_zero (wellFormed_of_decode_ok hd) hopc) hne

/-! ## The calculation interval (R143) -/

@[simp] theorem ivl_none (w : Word) : ivl none w = 1#32 := rfl

@[simp] theorem ivl_some_zero (w : Word) : ivl (some 0#32) w = 1#32 := rfl

/-- A nonzero parameter is cut to the window length. -/
theorem ivl_some_of_ne_zero {n : Word} (w : Word) (hn : n ≠ 0#32) :
    ivl (some n) w = if n > w then w else n :=
  if_neg hn

/-- Settles O28: the bounds are `ivl_bounds`; a parameter above the window length is not 0. -/
theorem intervalStaysInTheWindow : Obligations.IntervalStaysInTheWindow := by
  intro iv w hw
  obtain ⟨hlow, hhigh⟩ := ivl_bounds iv hw
  refine ⟨hlow, hhigh, ?_, ?_, ?_⟩
  · rintro (rfl | rfl)
    · exact ivl_none w
    · exact ivl_some_zero w
  · rintro n rfl hlt
    have hn : n ≠ 0#32 := by
      rintro rfl
      exact BitVec.not_lt_zero hlt
    rw [ivl_some_of_ne_zero w hn, if_pos hlt]
  · rintro n rfl hn hle
    rw [ivl_some_of_ne_zero w hn, if_neg (BitVec.not_lt.mpr hle)]

end Sys2Proof.Machine
end

section
/-! SUPPORT and PROOFS. Prefilter commands: what a stage step writes and reads (R171), the
independence of the stages and the channels (R173); O29 and O30. -/

namespace Sys2Proof.Machine

/-! ## One stage step of the engine -/

/-- A stage step shifts the history of its channel and stage (R171). -/
@[simp] theorem Engine.hist_stageStep_same (e : Engine) (ch : Channel) (st : Stage) (x : F64) :
    (e.stageStep ch st x).hist ch st = (e.hist ch st).push x (e.stageValue ch st x) :=
  e.hist_setHist_same ch st _

/-- A stage step leaves every other history (R173). -/
theorem Engine.hist_stageStep_other (e : Engine) {ch ch' : Channel} {st st' : Stage} (x : F64)
    (hne : (ch', st') ≠ (ch, st)) : (e.stageStep ch st x).hist ch' st' = e.hist ch' st' :=
  e.hist_setHist_other _ (by rwa [Ne, Prod.mk.injEq, not_and_or] at hne)

@[simp] theorem Engine.coef_stageStep (e : Engine) (ch : Channel) (st st' : Stage) (x : F64) :
    (e.stageStep ch st x).coef st' = e.coef st' :=
  e.coef_setHist ch st st' _

@[simp] theorem Engine.cfg_stageStep (e : Engine) (ch : Channel) (st : Stage) (x : F64) :
    (e.stageStep ch st x).cfg = e.cfg :=
  e.setHist_cfg ch st _

/-- Writing a history touches the four history fields at most. -/
theorem Engine.setHist_frame (e : Engine) (ch : Channel) (st : Stage) (h : History) :
    e.setHist ch st h = { e with
      histLeftShelf := (e.setHist ch st h).histLeftShelf
      histLeftPass := (e.setHist ch st h).histLeftPass
      histRightShelf := (e.setHist ch st h).histRightShelf
      histRightPass := (e.setHist ch st h).histRightPass } := by
  cases ch <;> cases st <;> rfl

/-- The output of a stage step depends on the coefficients of the stage and its history only. -/
theorem Engine.stageValue_congr {e e' : Engine} {ch : Channel} {st : Stage} (x : F64)
    (hcoef : e.coef st = e'.coef st) (hhist : e.hist ch st = e'.hist ch st) :
    e.stageValue ch st x = e'.stageValue ch st x := by
  rw [stageValue, stageValue, hcoef, hhist]

/-- A stage step leaves the output of every other stage, and of its own stage in the other
channel. -/
theorem Engine.stageValue_stageStep_other (e : Engine) {ch ch' : Channel} {st st' : Stage}
    (x y : F64) (hne : (ch', st') ≠ (ch, st)) :
    (e.stageStep ch st x).stageValue ch' st' y = e.stageValue ch' st' y :=
  stageValue_congr y (e.coef_stageStep ch st st' x) (e.hist_stageStep_other x hne)

/-- A stage step after that of another stage or channel writes what it would have written before
it. -/
theorem Engine.stageStep_stageStep_other (e : Engine) {ch ch' : Channel} {st st' : Stage}
    (x y : F64) (hne : (ch', st') ≠ (ch, st)) :
    (e.stageStep ch st x).stageStep ch' st' y =
      (e.stageStep ch st x).setHist ch' st'
        ((e.hist ch' st').push y (e.stageValue ch' st' y)) := by
  rw [stageStep.eq_def _ ch', hist_stageStep_other e x hne, stageValue_stageStep_other e x y hne]

/-! ## The two channels -/

theorem leftStage_ne_rightStage (stL stR : Stage) :
    (Channel.left, stL) ≠ (Channel.right, stR) :=
  fun h => Channel.noConfusion (Prod.mk.inj h).1

/-- Histories of different channels are written in either order. -/
theorem Engine.setHist_left_right_comm (e : Engine) (stL stR : Stage) (hL hR : History) :
    (e.setHist .left stL hL).setHist .right stR hR =
      (e.setHist .right stR hR).setHist .left stL hL := by
  cases stL <;> cases stR <;> rfl

/-- Stage steps of the left and the right channel commute (R173). -/
theorem Engine.stageStep_left_right_comm (e : Engine) (stL stR : Stage) (x y : F64) :
    (e.stageStep .left stL x).stageStep .right stR y =
      (e.stageStep .right stR y).stageStep .left stL x := by
  have hne := leftStage_ne_rightStage stL stR
  rw [stageStep_stageStep_other e x y hne.symm, stageStep_stageStep_other e y x hne]
  exact setHist_left_right_comm e stL stR _ _

/-! ## The commands -/

/-- PF_STAGE on a configured engine: one stage step on `OPA`, its output in `RES0` (R175). -/
theorem exec_pfStage (ch : Channel) (st : Stage) {s : State} (hcfg : s.eng.cfg = true) :
    exec (.pfStage ch st) s =
      .next (finish0 s (s.eng.stageStep ch st s.host.opa) (s.eng.stageValue ch st s.host.opa)) :=
  whenConfigured_true _ hcfg

/-- PF_APPLY on a configured engine: the cascade on `OPA`, its output in `RES0` and that of the
shelf in `RES1` (R176). -/
theorem exec_pfApply (ch : Channel) {s : State} (hcfg : s.eng.cfg = true) :
    exec (.pfApply ch) s =
      .next (finish01 s (s.eng.cascadeStep ch s.host.opa) (s.eng.cascadeValue ch s.host.opa)
        (s.eng.stageValue ch .highShelf s.host.opa)) :=
  whenConfigured_true _ hcfg

/-- PF_STAGE changes the histories and `RES0` at most (R173). -/
theorem finish0_stageStep_frame (s : State) (ch : Channel) (st : Stage) (x y : F64) :
    finish0 s (s.eng.stageStep ch st x) y = { s with
      host := { s.host with res0 := y }
      eng := { s.eng with
        histLeftShelf := (s.eng.stageStep ch st x).histLeftShelf
        histLeftPass := (s.eng.stageStep ch st x).histLeftPass
        histRightShelf := (s.eng.stageStep ch st x).histRightShelf
        histRightPass := (s.eng.stageStep ch st x).histRightPass } } :=
  congrArg (finish0 s · y) (s.eng.setHist_frame ch st _)

/-- Settles O29: the state after PF_STAGE is `exec_pfStage`'s; its histories are those of the stage
step, and `finish0_stageStep_frame` bounds the rest. -/
theorem stageFollowsTheRecurrence : Obligations.StageFollowsTheRecurrence := by
  rintro ch st s x y c h hcfg rfl rfl rfl rfl
  exact ⟨_, exec_pfStage ch st hcfg, s.eng.hist_stageStep_same ch st _,
    fun _ _ hne => s.eng.hist_stageStep_other _ hne, finish0_stageStep_frame s ch st _ _⟩

/-- Two configured states that agree on the operand, the stage's coefficients and its history have
the same output and the same new history (R173). -/
theorem pfStage_congr (ch : Channel) (st : Stage) {s s' : State} (hcfg : s.eng.cfg = true)
    (hcfg' : s'.eng.cfg = true) (hopa : s.host.opa = s'.host.opa)
    (hcoef : s.eng.coef st = s'.eng.coef st) (hhist : s.eng.hist ch st = s'.eng.hist ch st) :
    ∃ t t', exec (.pfStage ch st) s = .next t ∧ exec (.pfStage ch st) s' = .next t' ∧
      t.host.res0 = t'.host.res0 ∧ t.eng.hist ch st = t'.eng.hist ch st := by
  have hvalue : s.eng.stageValue ch st s.host.opa = s'.eng.stageValue ch st s'.host.opa := by
    rw [hopa, Engine.stageValue_congr _ hcoef hhist]
  refine ⟨_, _, exec_pfStage ch st hcfg, exec_pfStage ch st hcfg', hvalue, ?_⟩
  rw [finish0_eng, finish0_eng, Engine.hist_stageStep_same, Engine.hist_stageStep_same, hvalue,
    hhist, hopa]

/-- PF_STAGE of the left channel and PF_STAGE of the right channel commute (R173). -/
theorem pfStage_left_right_comm (stL stR : Stage) (x y : F64) {s : State}
    (hcfg : s.eng.cfg = true) :
    ∃ a b c d, exec (.pfStage .left stL) (withOpa x s) = .next a ∧
      exec (.pfStage .right stR) (withOpa y a) = .next b ∧
      exec (.pfStage .right stR) (withOpa y s) = .next c ∧
      exec (.pfStage .left stL) (withOpa x c) = .next d ∧
      b.eng = d.eng ∧ a.host.res0 = d.host.res0 ∧ b.host.res0 = c.host.res0 :=
  have hL : (s.eng.stageStep .left stL x).cfg = true := by rw [Engine.cfg_stageStep, hcfg]
  have hR : (s.eng.stageStep .right stR y).cfg = true := by rw [Engine.cfg_stageStep, hcfg]
  ⟨_, _, _, _, exec_pfStage .left stL hcfg, exec_pfStage .right stR hL,
    exec_pfStage .right stR hcfg, exec_pfStage .left stL hR,
    s.eng.stageStep_left_right_comm stL stR x y,
    (s.eng.stageValue_stageStep_other y x (leftStage_ne_rightStage stL stR)).symm,
    s.eng.stageValue_stageStep_other x y (leftStage_ne_rightStage stL stR).symm⟩

/-- PF_APPLY is the high-shelf step and then the high-pass step on its output (R176). -/
theorem pfApply_eq_stages (ch : Channel) {s : State} (hcfg : s.eng.cfg = true) :
    ∃ a b, exec (.pfStage ch .highShelf) s = .next a ∧
      exec (.pfStage ch .highPass) (withOpa a.host.res0 a) = .next b ∧
      exec (.pfApply ch) s = .next { s with
        eng := b.eng
        host := { s.host with res0 := b.host.res0, res1 := a.host.res0 } } :=
  have hshelf : (s.eng.stageStep ch .highShelf s.host.opa).cfg = true := by
    rw [Engine.cfg_stageStep, hcfg]
  ⟨_, _, exec_pfStage ch .highShelf hcfg, exec_pfStage ch .highPass hshelf, exec_pfApply ch hcfg⟩

/-- Settles O30: the frame is O29's; the other clauses are lemmas about PF_STAGE and PF_APPLY. -/
theorem stagesCascadeAndChannelsAreIndependent :
    Obligations.StagesCascadeAndChannelsAreIndependent := by
  refine ⟨fun ch st s hcfg => ?_, fun ch st _ _ => pfStage_congr ch st,
    fun stL stR x y _ => pfStage_left_right_comm stL stR x y, fun ch _ => pfApply_eq_stages ch⟩
  exact ⟨_, exec_pfStage ch st hcfg, fun _ _ hne => s.eng.hist_stageStep_other _ hne,
    finish0_stageStep_frame s ch st _ _⟩

end Sys2Proof.Machine
end

section
/-! SUPPORT and PROOFS. The meter: the reading (R195), one step of the decimation counter (R196) and
MTR_STEP; O34. -/

namespace Sys2Proof.Machine

/-! ## The reading (R195) -/

theorem fsqrt_nan {a : F64} (h : isNaN64 a = true) : isNaN64 (fsqrt a) = true := by
  simp [fsqrt, h]

theorem fmul_nan_right {a b : F64} (h : isNaN64 b = true) : isNaN64 (fmul a b) = true := by
  simp [fmul, h]

/-- A NaN sum is not at most `+0.0`, so the clamp keeps it. -/
theorem Window.clampedSum_of_nan {w : Window} (h : isNaN64 w.sum = true) :
    w.clampedSum = w.sum := by
  simp [Window.clampedSum, fle_nan_left h]

/-- A NaN sum goes through the clamp, the mean, the root and the calibration. -/
theorem Window.reading_nan {w : Window} (h : isNaN64 w.sum = true) : isNaN64 w.reading = true := by
  have hclamped : isNaN64 w.clampedSum = true := by rwa [Window.clampedSum_of_nan h]
  exact fmul_nan_right (fsqrt_nan (fdiv_nan_left hclamped))

/-! ## One step of the decimation counter (R196) -/

@[simp] theorem Meter.step_I (o : Meter) (w : Window) : (o.step w).I = o.I := by
  unfold Meter.step
  split <;> rfl

theorem Meter.step_of_elapsed {o : Meter} (w : Window) (h : o.I.toNat ≤ o.dc.toNat + 1) :
    o.step w =
      { I := o.I, dc := 0#32, val := w.reading, valid := o.valid || decide (w.fill = w.W) } :=
  if_pos h

theorem Meter.step_of_not_elapsed {o : Meter} (w : Window) (h : ¬o.I.toNat ≤ o.dc.toNat + 1) :
    o.step w = { o with dc := o.dc + 1#32 } :=
  if_neg h

/-- Below the interval, itself a word, the decimation counter has room to advance. -/
theorem Meter.dc_succ_toNat {o : Meter} (h : ¬o.I.toNat ≤ o.dc.toNat + 1) :
    (o.dc + 1#32).toNat = o.dc.toNat + 1 :=
  BitVec.toNat_add_of_lt ((not_le.mp h).trans o.I.isLt)

/-- The counter, the reading and the ready flag after a step (R196). -/
theorem Meter.step_fields (o : Meter) (w : Window) :
    if o.I.toNat ≤ o.dc.toNat + 1 then
      (o.step w).dc = 0#32 ∧ (o.step w).val = w.reading ∧
        (o.step w).valid = (o.valid || decide (w.fill = w.W))
    else
      (o.step w).dc.toNat = o.dc.toNat + 1 ∧ (o.step w).val = o.val ∧
        (o.step w).valid = o.valid := by
  split
  · next h => rw [Meter.step_of_elapsed w h]; exact ⟨rfl, rfl, rfl⟩
  · next h => rw [Meter.step_of_not_elapsed w h]; exact ⟨Meter.dc_succ_toNat h, rfl, rfl⟩

/-! ## The command -/

/-- MTR_STEP on a configured engine: one meter step, the reading in `RES0`, the ready flag in `RES1`
(R196). -/
theorem exec_mtrStep (m : MeterId) {s : State} (hcfg : s.eng.cfg = true) :
    exec (.mtrStep m) s =
      .next (finish01 s (s.eng.setMtr m ((s.eng.mtr m).step (s.eng.win m)))
        ((s.eng.mtr m).step (s.eng.win m)).val
        (resultFlag ((s.eng.mtr m).step (s.eng.win m)).valid)) :=
  whenConfigured_true _ hcfg

/-- Settles O34: the state after MTR_STEP is `exec_mtrStep`'s, its meter is the meter step's, and
`Engine.setMtr` writes nothing else. -/
theorem meterReadsTheRootMeanSquare : Obligations.MeterReadsTheRootMeanSquare := by
  rintro m s w o r hcfg rfl rfl rfl
  exact ⟨Window.reading_nan, _, _, exec_mtrStep m hcfg, (s.eng.mtr_setMtr_same m _).symm,
    Meter.step_I _ _, Meter.step_fields _ _, rfl⟩

end Sys2Proof.Machine
end

section
/-! SUPPORT and PROOFS. The delay line: the slots after a delay step (R260, R262) and DLY_ADD; O44. -/

namespace Sys2Proof.Machine

/-! ## The slots of a delay step (R262) -/

/-- The slot at the cursor takes the pair. -/
theorem Engine.delaySlot_dlyAdd_same {e : Engine} (p : StereoSample)
    (hwf : Memory.wf StereoSample.zero (Config.DMAX + 1) e.dbuf) :
    (e.dlyAdd p).delaySlot e.dcur.toNat = p :=
  Memory.read_write_same hwf

/-- A delay step leaves every slot but the one at the cursor. -/
theorem Engine.delaySlot_dlyAdd_other (e : Engine) (p : StereoSample) {i : Nat}
    (hi : i ≠ e.dcur.toNat) : (e.dlyAdd p).delaySlot i = e.delaySlot i :=
  Memory.read_write_other hi

theorem Engine.delaySlot_dlyAdd {e : Engine} (p : StereoSample)
    (hwf : Memory.wf StereoSample.zero (Config.DMAX + 1) e.dbuf) (i : Nat) :
    (e.dlyAdd p).delaySlot i = if i = e.dcur.toNat then p else e.delaySlot i := by
  split
  · next hi => rw [hi, delaySlot_dlyAdd_same p hwf]
  · next hi => exact e.delaySlot_dlyAdd_other p hi

/-! ## The command -/

/-- DLY_ADD on a configured engine whose cursor is in range: one delay step with the operand pair,
the pair at the new cursor in `RES0` and `RES1` (R261). -/
theorem exec_dlyAdd {s : State} (hcfg : s.eng.cfg = true) (hrange : s.eng.delayInRange = true) :
    exec .dlyAdd s =
      .next (finishPair s (s.eng.dlyAdd (inputPair s), s.eng.dlyValue (inputPair s))) :=
  (whenConfigured_true _ hcfg).trans (if_pos hrange)

/-- Settles O44: the bounds on the cursor let `exec_dlyAdd` answer; the slots after it are
`Engine.delaySlot_dlyAdd`'s, and `Engine.dlyAdd` writes the buffer and the cursor alone. -/
theorem delayStepStoresTheBitsExactly : Obligations.DelayStepStoresTheBitsExactly := by
  intro s hcfg hD hcur hwf
  have hrange := Engine.delayInRange_of_bounds hcur hD
  exact ⟨_, exec_dlyAdd hcfg hrange, Engine.delaySlot_dlyAdd (inputPair s) hwf,
    delayNext_toNat hcur, rfl⟩

end Sys2Proof.Machine
end

section
/-! SUPPORT and PROOFS. The non-finite flag (R283): no piece of the meter path and no command but
PROCESS touches it, PROCESS sets it exactly for an all-ones exponent field, and no event but a
hardware reset clears it; O51. -/

namespace Sys2Proof.Machine

/-! ## Values that are not finite -/

/-- A magnitude below that of the infinity is an exponent field below 255 (R13). -/
theorem mag32_lt_infMag32_iff {x : F32} :
    mag32 x < infMag32 ↔ (x.extractLsb' 23 8).toNat < 255 := by
  rw [mag32, BitVec.extractLsb'_toNat, Nat.shiftRight_eq_div_pow, infMag32]
  omega

/-- A binary32 is a NaN or an infinity exactly when its exponent field is all ones (R283). -/
theorem nonFinite32_iff {x : F32} : nonFinite32 x = true ↔ x.extractLsb' 23 8 = 0xFF#8 := by
  have hmag : nonFinite32 x = true ↔ ¬mag32 x < infMag32 := by
    rw [nonFinite32, Bool.or_eq_true, isInf32_iff, isNaN32, decide_eq_true_eq]
    omega
  have hfield : x.extractLsb' 23 8 = 0xFF#8 ↔ (x.extractLsb' 23 8).toNat = 255 :=
    BitVec.toNat_inj.symm
  have hbound := (x.extractLsb' 23 8).isLt
  rw [hmag, mag32_lt_infMag32_iff, hfield]
  omega

/-- The flag is set when one of the four values noted is a NaN or an infinity, and stays set. -/
theorem Engine.noteNonFinite_nf (e : Engine) (a b c d : F32) :
    (e.noteNonFinite a b c d).nf = true ↔
      e.nf = true ∨ ∃ x ∈ [a, b, c, d], x.extractLsb' 23 8 = 0xFF#8 := by
  simp [Engine.noteNonFinite, nonFinite32_iff, or_assoc]

/-! ## The meter path and the delay line keep the flag -/

@[simp] theorem Engine.stageStep_nf (e : Engine) (ch : Channel) (st : Stage) (x : F64) :
    (e.stageStep ch st x).nf = e.nf := e.setHist_nf ch st _

@[simp] theorem Engine.cascadeStep_nf (e : Engine) (ch : Channel) (x : F64) :
    (e.cascadeStep ch x).nf = e.nf := by simp [Engine.cascadeStep]

@[simp] theorem Engine.powerStep_nf (e : Engine) (mL mR : F64) :
    (e.powerStep mL mR).nf = e.nf := by simp [Engine.powerStep]

@[simp] theorem Engine.accAdd_nf (e : Engine) (m : MeterId) (v : F64) :
    (e.accAdd m v).nf = e.nf := e.setWin_nf m _

@[simp] theorem Engine.mtrStep_nf (e : Engine) (m : MeterId) :
    (e.mtrStep m).nf = e.nf := e.setMtr_nf m _

@[simp] theorem Engine.meterStep_nf (e : Engine) (m : MeterId) (p : F64) :
    (e.meterStep m p).nf = e.nf := by simp [Engine.meterStep]

@[simp] theorem Engine.metersStep_nf (e : Engine) (p : F64) : (e.metersStep p).nf = e.nf := by
  unfold Engine.metersStep
  split <;> simp

@[simp] theorem Engine.silence_nf (e : Engine) (silmin : Word) (mag : F64) :
    (e.silence silmin mag).nf = e.nf := by
  rcases e.silence_cases silmin mag with h | h | h | h <;> rw [h]
  exact e.limReset_nf

@[simp] theorem Engine.envStep_nf (e : Engine) (T : F64) : (e.envStep T).nf = e.nf := rfl

@[simp] theorem Engine.smoothStep_nf (e : Engine) (est : F64) :
    (e.smoothStep est).nf = e.nf := by
  unfold Engine.smoothStep
  split <;> simp

@[simp] theorem Engine.limUpdate_nf (e : Engine) (est : F64) : (e.limUpdate est).nf = e.nf := rfl

/-- The meter path (R272 to R278) notes nothing: it is the output stage that does. -/
@[simp] theorem Engine.meterPath_nf (e : Engine) (silmin : Word) (mL mR : F64) :
    (e.meterPath silmin mL mR).nf = e.nf := by simp [Engine.meterPath]

@[simp] theorem Engine.dlyAdd_nf (e : Engine) (p : StereoSample) : (e.dlyAdd p).nf = e.nf := rfl

@[simp] theorem Engine.toOutput_nf (e : Engine) (p : StereoSample) :
    (e.toOutput p).nf = e.nf := rfl

/-! ## PROCESS -/

/-- A sample notes its two inputs and its two outputs (R282, R283). -/
theorem Engine.processPair_nf (e : Engine) (silmin : Word) (p : StereoSample) :
    (e.processPair silmin p).1.nf = true ↔
      e.nf = true ∨
        ∃ x ∈ [p.l, p.r, (e.processPair silmin p).2.l, (e.processPair silmin p).2.r],
          x.extractLsb' 23 8 = 0xFF#8 := by
  refine (Engine.noteNonFinite_nf ..).trans ?_
  rw [toOutput_nf, meterPath_nf]
  rfl

/-- The low word of a binary32 result is that value (R113). -/
@[simp] theorem extractLsb'_resultF32 (x : F32) : (resultF32 x).extractLsb' 0 32 = x := by
  ext i hi
  have hi64 : i < 64 := by omega
  simp [resultF32, hi, hi64]

/-- PROCESS on a configured engine notes the operands and the results, whether or not it commits the
parameters first (R283). -/
theorem exec_process_nf {nc : Bool} {s t : State} (hcfg : s.eng.cfg = true)
    (h : exec (.process nc) s = .next t) :
    t.eng.nf = true ↔ s.eng.nf = true ∨
      ∃ x ∈ [s.host.opa.extractLsb' 0 32, s.host.opb.extractLsb' 0 32,
          t.host.res0.extractLsb' 0 32, t.host.res1.extractLsb' 0 32],
        BitVec.extractLsb' 23 8 x = 0xFF#8 := by
  rcases execProcess_cases h with ⟨hno, -⟩ | ⟨-, u, hu, -, rfl⟩
  · simp [hcfg] at hno
  · have hstart : u.eng.nf = s.eng.nf ∧ u.host = s.host := by
      rw [hu]; cases nc <;> simp
    obtain ⟨hnf, hhost⟩ := hstart
    simpa [finishPair, inputPair, opaF32, opbF32, hnf, hhost] using
      u.eng.processPair_nf u.host.silmin (inputPair u)

/-! ## The other commands and the events -/

/-- No command but PROCESS changes the flag; a successful CONFIG rebuilds the engine around it
(R144). -/
theorem exec_nf {i : Instr} {s t : State} (hi : ∀ nc, i ≠ .process nc) (h : exec i s = .next t) :
    t.eng.nf = s.eng.nf := by
  cases i with
  | nop => obtain rfl := Host.Outcome.next.inj h; rfl
  | config => rcases execConfig_cases h with ⟨_, rfl⟩ | ⟨_, rfl⟩ <;> rfl
  | commit => rcases execCommit_cases h with ⟨_, rfl⟩ | ⟨_, rfl⟩ <;> simp
  | process nc => exact absurd rfl (hi nc)
  | limReset => rcases execLimReset_cases h with ⟨_, rfl⟩ | ⟨_, rfl⟩ <;> simp
  | pfStage ch st => rcases execPfStage_cases h with ⟨_, rfl⟩ | ⟨_, rfl⟩ <;> simp
  | pfApply ch => rcases execPfApply_cases h with ⟨_, rfl⟩ | ⟨_, rfl⟩ <;> simp
  | accAdd m => rcases execAccAdd_cases h with ⟨_, rfl⟩ | ⟨_, _, rfl⟩ <;> simp
  | mtrStep m => rcases execMtrStep_cases h with ⟨_, rfl⟩ | ⟨_, rfl⟩ <;> simp
  | envCalc => rcases execEnvCalc_cases h with ⟨_, rfl⟩ | ⟨_, rfl⟩ <;> simp
  | limUpdate => rcases execLimUpdate_cases h with ⟨_, rfl⟩ | ⟨_, rfl⟩ <;> simp
  | dlyAdd => rcases execDlyAdd_cases h with ⟨_, rfl⟩ | ⟨_, _, rfl⟩ <;> simp [finishPair]

/-- No command clears the flag. -/
theorem exec_keeps_nf {i : Instr} {s t : State} (h : exec i s = .next t)
    (hnf : s.eng.nf = true) : t.eng.nf = true := by
  by_cases hi : ∃ nc, i = .process nc
  · obtain ⟨nc, rfl⟩ := hi
    cases hcfg : s.eng.cfg with
    | false =>
      obtain rfl := Host.Outcome.next.inj ((whenConfigured_false _ hcfg).symm.trans h)
      exact hnf
    | true => exact (exec_process_nf hcfg h).mpr (.inl hnf)
  · exact (exec_nf (not_exists.mp hi) h).trans hnf

/-- No bus write clears the flag. -/
theorem memWrite_keeps_nf {off : Offset} {width : Width} {v : Word} {s t : State}
    (h : memWrite off width v s = .next t) (hnf : s.eng.nf = true) : t.eng.nf = true := by
  rcases memWrite_cases h with ⟨-, rfl⟩ | ⟨r, -, -, -, rfl⟩ | ⟨-, -, hrun⟩
  · exact hnf
  · exact hnf
  · rcases runCommand_cases hrun with ⟨i, -, hexec⟩ | ⟨-, rfl⟩
    · exact exec_keeps_nf hexec hnf
    · exact hnf

/-- No read touches the engine (R85). -/
@[simp] theorem memRead_eng (off : Offset) (width : Width) (s : State) :
    (memRead off width s).eng = s.eng := by
  unfold memRead
  split <;> rfl

/-- A step keeps the flag set unless it takes a hardware reset (R283, R340). -/
theorem step_keeps_nf {s t : State} (hreset : s.pending.head? ≠ some .hardwareReset)
    (h : step s = .next t) (hnf : s.eng.nf = true) : t.eng.nf = true := by
  rcases step_cases h with ⟨-, rfl⟩ | ⟨off, width, rest, -, rfl⟩ | ⟨rest, hpend, -⟩ |
    ⟨off, width, v, rest, -, hwrite⟩
  · exact hnf
  · rw [memRead_eng]
    exact hnf
  · exact absurd (congrArg List.head? hpend) hreset
  · exact memWrite_keeps_nf hwrite hnf

/-- Settles O51: PROCESS, the other commands and the steps are the lemmas above; the reset engine
has the flag clear, and bit 6 of STATUS is one of `getLsbD_statusWord`. -/
theorem nonFiniteFlagIsSticky : Obligations.NonFiniteFlagIsSticky :=
  ⟨fun _ _ _ => exec_process_nf, fun _ _ _ => exec_nf, fun _ _ => step_keeps_nf,
    fun _ => rfl, fun s => getLsbD_statusWord s 6⟩

end Sys2Proof.Machine
end

section
/-! SUPPORT and PROOFS. The fault registers (60_exceptions.md): the fault action (R303), the failed
checks as FDETAIL shows them (R302), and which fault a step can record (R307); O10, O11 and O21. -/

namespace Sys2Proof.Machine

/-! ## The fault action (R303) -/

/-- The NOT_CONFIGURED fault: code 2 with FINFO the word in `CMD`. -/
theorem raiseFault_notConfigured (s : State) :
    raiseFault .notConfigured s = { s with
      faults := { fault := s.faults.fault ||| 0b00010#5, fcode := 2#32, finfo := s.host.cmd,
                  fdetail := 0#32 } } := rfl

/-- The CONFIG_INVALID fault: code 3 with FDETAIL the mask of failed checks. -/
theorem raiseFault_configInvalid (mask : BitVec 5) (s : State) :
    raiseFault (.configInvalid mask) s = { s with
      faults := { fault := s.faults.fault ||| 0b00100#5, fcode := 3#32, finfo := s.host.cmd,
                  fdetail := mask.setWidth 32 } } := rfl

/-- The PARAM_INVALID fault: code 4 with FDETAIL the mask of failed checks. -/
theorem raiseFault_paramInvalid (mask : BitVec 5) (s : State) :
    raiseFault (.paramInvalid mask) s = { s with
      faults := { fault := s.faults.fault ||| 0b01000#5, fcode := 4#32, finfo := s.host.cmd,
                  fdetail := mask.setWidth 32 } } := rfl

/-- Settles O10: one equation per fault, and bit 5 of STATUS is one of `getLsbD_statusWord`. -/
theorem faultActionWritesOnlyTheFaultRegisters :
    Obligations.FaultActionWritesOnlyTheFaultRegisters := fun s mask off =>
  ⟨raiseFault_illegalCmd s, raiseFault_notConfigured s, raiseFault_configInvalid mask s,
    raiseFault_paramInvalid mask s, raiseFault_bus off s, getLsbD_statusWord s 5⟩

/-! ## The failed checks as FDETAIL shows them (R302) -/

/-- FDETAIL is 0 exactly when no check failed. -/
theorem setWidth_mask_eq_zero_iff {mask : BitVec 5} : mask.setWidth 32 = 0#32 ↔ mask = 0#5 := by
  rw [← BitVec.toNat_inj, ← BitVec.toNat_inj, BitVec.toNat_setWidth_of_le (by decide)]
  rfl

theorem setWidth_maskBit (ok : Bool) (k : Nat) :
    (maskBit ok k).setWidth 32 = if ok then 0#32 else (1#5 <<< k).setWidth 32 := by
  cases ok <;> rfl

/-- The checks of a commit in their places WIN0, WIN1, DELAY, LIMIT. -/
theorem setWidth_failMask (d : Derived) :
    d.failMask.setWidth 32 =
      (if checkWin d.W0 then 0x00#32 else 0x02#32) |||
      (if checkWin d.W1 then 0x00#32 else 0x04#32) |||
      (if checkDelay d.Dl then 0x00#32 else 0x08#32) |||
      (if checkLimit d.L then 0x00#32 else 0x10#32) := by
  simp only [Derived.failMask, BitVec.setWidth_or, setWidth_maskBit]
  rfl

/-- The checks of CONFIG: the rate first, the others only for a valid rate (R144). -/
theorem setWidth_configMask (h : HostRegs) (fs : F64) :
    (configMask h fs).setWidth 32 =
      if checkFs fs then (derive h fs).failMask.setWidth 32 else 0x01#32 := by
  unfold configMask
  split <;> rfl

/-! ## CONFIG and the commits -/

/-- CONFIG records the failed checks and does nothing else, or records no fault (R144). -/
theorem exec_config_faults (s : State) :
    ∃ t, exec .config s = .next t ∧
      (configMask s.host s.host.opa = 0#5 → t.faults = s.faults) ∧
      (configMask s.host s.host.opa ≠ 0#5 →
        t = raiseFault (.configInvalid (configMask s.host s.host.opa)) s) := by
  by_cases hmask : configMask s.host s.host.opa = 0#5
  · exact ⟨_, if_pos hmask, fun _ => rfl, fun hne => absurd hmask hne⟩
  · exact ⟨_, if_neg hmask, fun h => absurd h hmask, fun _ => rfl⟩

/-- The commit step records the failed checks, or nothing when there is none (R150). -/
theorem commitState_faults (s : State) :
    (commitState s).faults = if commitMask s = 0#5 then s.faults else
      s.faults.record s.host.cmd (.paramInvalid (commitMask s)) := by
  rcases commitState_cases s with ⟨hmask, h⟩ | ⟨hmask, h⟩
  · rw [h, if_pos hmask]
  · rw [h, if_neg hmask, raiseFault_faults]

/-- COMMIT, and PROCESS with NC clear, record the faults of the commit step and no other (R150,
R282). -/
theorem exec_commit_faults {i : Instr} {s t : State} (hcfg : s.eng.cfg = true)
    (hi : i = .commit ∨ i = .process false) (h : exec i s = .next t) :
    t.faults = (commitState s).faults := by
  rcases hi with rfl | rfl
  · rcases execCommit_cases h with ⟨hno, -⟩ | ⟨-, rfl⟩
    · simp [hcfg] at hno
    · rfl
  · rcases execProcess_cases h with ⟨hno, -⟩ | ⟨-, u, rfl, -, rfl⟩
    · simp [hcfg] at hno
    · rfl

/-- Settles O21: the two masks are `configMask` and `commitMask` widened to FDETAIL, which are 0
together with them. -/
theorem failedCheckMaskNamesTheFailedChecks : Obligations.FailedCheckMaskNamesTheFailedChecks := by
  rintro s li rfl
  refine ⟨fun mask hmask => ?_, fun mask hcfg hmask i t hi hexec => ?_⟩
  · have hdetail : mask = (configMask s.host s.host.opa).setWidth 32 := by
      rw [setWidth_configMask, setWidth_failMask]
      exact hmask
    obtain ⟨t, hexec, hnone, hsome⟩ := exec_config_faults s
    rw [hdetail, ne_eq, setWidth_mask_eq_zero_iff]
    exact ⟨t, hexec, hnone, fun h => (hsome h).trans (raiseFault_configInvalid _ s)⟩
  · have hdetail : mask = (commitMask s).setWidth 32 :=
      hmask.trans (setWidth_failMask (derive s.host s.eng.fs)).symm
    rw [exec_commit_faults hcfg hi hexec, commitState_faults, hdetail, ne_eq,
      setWidth_mask_eq_zero_iff]
    exact ⟨fun h => if_pos h, fun h => if_neg h⟩

/-! ## The fault a step can record (R307) -/

/-- The faults that the event `ev` can record in the state `s`: the masks of codes 3 and 4 are those
of the checks in `s`, the bus fault is at the offset of a bus access. -/
def JlcFault.RaisedBy (s : State) (ev : HostEvent) : JlcFault → Prop
  | .illegalCmd => True
  | .notConfigured => True
  | .configInvalid mask => mask = configMask s.host s.host.opa
  | .paramInvalid mask => mask = commitMask s
  | .bus off => ∃ width, ev = .read off width ∨ ∃ v, ev = .write off width v

/-- From `s` to `t` the fault registers stay or record one of the faults `allowed`, whose FINFO takes
the command word from the `CMD` of `t`. -/
def RecordsAtMostOne (allowed : JlcFault → Prop) (s t : State) : Prop :=
  t.faults = s.faults ∨ ∃ f, allowed f ∧ t.faults = s.faults.record t.host.cmd f

theorem recordsAtMostOne_raiseFault {allowed : JlcFault → Prop} {f : JlcFault} (s : State)
    (hf : allowed f) : RecordsAtMostOne allowed s (raiseFault f s) :=
  .inr ⟨f, hf, rfl⟩

theorem recordsAtMostOne_commitState (ev : HostEvent) (s : State) :
    RecordsAtMostOne (JlcFault.RaisedBy s ev) s (commitState s) := by
  rcases commitState_cases s with ⟨-, h⟩ | ⟨-, h⟩ <;> rw [h]
  · exact .inl rfl
  · exact .inr ⟨.paramInvalid (commitMask s), rfl, rfl⟩

/-- A sample after the commit step, or without one, records no fault of its own (R282). -/
theorem recordsAtMostOne_process {nc : Bool} {ev : HostEvent} {s t : State}
    (h : execProcess nc s = .next t) : RecordsAtMostOne (JlcFault.RaisedBy s ev) s t := by
  rcases execProcess_cases h with ⟨-, rfl⟩ | ⟨-, u, rfl, -, rfl⟩
  · exact recordsAtMostOne_raiseFault s trivial
  · cases nc with
    | true => exact .inl rfl
    | false => exact recordsAtMostOne_commitState ev s

/-- A command records no fault but NOT_CONFIGURED and those of its own checks. -/
theorem recordsAtMostOne_exec {i : Instr} {ev : HostEvent} {s t : State} (h : exec i s = .next t) :
    RecordsAtMostOne (JlcFault.RaisedBy s ev) s t := by
  have hguard : RecordsAtMostOne (JlcFault.RaisedBy s ev) s (raiseFault .notConfigured s) :=
    recordsAtMostOne_raiseFault s trivial
  cases i with
  | nop => obtain rfl := Host.Outcome.next.inj h; exact .inl rfl
  | config =>
    rcases execConfig_cases h with ⟨-, rfl⟩ | ⟨-, rfl⟩
    exacts [.inl rfl, recordsAtMostOne_raiseFault s rfl]
  | commit =>
    rcases execCommit_cases h with ⟨-, rfl⟩ | ⟨-, rfl⟩
    exacts [hguard, recordsAtMostOne_commitState ev s]
  | process nc => exact recordsAtMostOne_process h
  | limReset => rcases execLimReset_cases h with ⟨-, rfl⟩ | ⟨-, rfl⟩; exacts [hguard, .inl rfl]
  | pfStage ch st => rcases execPfStage_cases h with ⟨-, rfl⟩ | ⟨-, rfl⟩; exacts [hguard, .inl rfl]
  | pfApply ch => rcases execPfApply_cases h with ⟨-, rfl⟩ | ⟨-, rfl⟩; exacts [hguard, .inl rfl]
  | accAdd m => rcases execAccAdd_cases h with ⟨-, rfl⟩ | ⟨-, -, rfl⟩; exacts [hguard, .inl rfl]
  | mtrStep m => rcases execMtrStep_cases h with ⟨-, rfl⟩ | ⟨-, rfl⟩; exacts [hguard, .inl rfl]
  | envCalc => rcases execEnvCalc_cases h with ⟨-, rfl⟩ | ⟨-, rfl⟩; exacts [hguard, .inl rfl]
  | limUpdate => rcases execLimUpdate_cases h with ⟨-, rfl⟩ | ⟨-, rfl⟩; exacts [hguard, .inl rfl]
  | dlyAdd => rcases execDlyAdd_cases h with ⟨-, rfl⟩ | ⟨-, -, rfl⟩; exacts [hguard, .inl rfl]

theorem recordsAtMostOne_runCommand {w : Word} {ev : HostEvent} {s t : State}
    (h : runCommand w s = .next t) : RecordsAtMostOne (JlcFault.RaisedBy s ev) s t := by
  rcases runCommand_cases h with ⟨i, -, hexec⟩ | ⟨-, rfl⟩
  · exact recordsAtMostOne_exec hexec
  · exact recordsAtMostOne_raiseFault s trivial

/-- No check reads the command word. -/
theorem JlcFault.raisedBy_writeRegister_cmd (s : State) (ev : HostEvent) (v : Word) :
    JlcFault.RaisedBy (writeRegister .cmd v s) ev = JlcFault.RaisedBy s ev := by
  funext f
  cases f <;> rfl

theorem recordsAtMostOne_memWrite {off : Offset} {width : Width} {v : Word} {s t : State}
    (h : memWrite off width v s = .next t) :
    RecordsAtMostOne (JlcFault.RaisedBy s (.write off width v)) s t := by
  rcases memWrite_cases h with ⟨-, rfl⟩ | ⟨r, -, -, -, rfl⟩ | ⟨-, -, hrun⟩
  · exact recordsAtMostOne_raiseFault s ⟨width, .inr ⟨v, rfl⟩⟩
  · exact .inl rfl
  · have hwritten := recordsAtMostOne_runCommand (ev := .write off width v) hrun
    rw [JlcFault.raisedBy_writeRegister_cmd] at hwritten
    exact hwritten

theorem recordsAtMostOne_memRead (off : Offset) (width : Width) (s : State) :
    RecordsAtMostOne (JlcFault.RaisedBy s (.read off width)) s (memRead off width s) := by
  unfold memRead
  split
  · exact .inl rfl
  · exact .inr ⟨.bus off, ⟨width, .inl rfl⟩, rfl⟩

/-- An event other than a hardware reset records at most one fault, one that it can raise. -/
theorem recordsAtMostOne_accept {ev : HostEvent} {s t : State} (hev : ev ≠ .hardwareReset)
    (h : accept ev s = .next t) : RecordsAtMostOne (JlcFault.RaisedBy s ev) s t := by
  cases ev with
  | read off width =>
    obtain rfl := Host.Outcome.next.inj h
    exact recordsAtMostOne_memRead off width s
  | write off width v => exact recordsAtMostOne_memWrite h
  | hardwareReset => exact absurd rfl hev

/-- A step accepts its event on the state with the event taken (R90). -/
theorem step_of_pending {ev : HostEvent} {rest : List HostEvent} {s : State}
    (hpend : s.pending = ev :: rest) : step s = accept ev { s with pending := rest } := by
  rw [step, acceptNext, hpend]

theorem JlcFault.code_bounds (f : JlcFault) : 1 ≤ f.code ∧ f.code ≤ 5 := by
  cases f <;> simp [JlcFault.code]

/-- Settles O11: a step records at most one fault, whose code, FINFO and FDETAIL are those of the
fault; the fault registers are read-only. -/
theorem faultRegistersDescribeTheLatestFault :
    Obligations.FaultRegistersDescribeTheLatestFault := by
  refine ⟨fun s t ev rest hpend hev hstep => ?_, fun r v s hr => ?_, fun _ => rfl⟩
  · rw [step_of_pending hpend] at hstep
    refine (recordsAtMostOne_accept hev hstep).imp id ?_
    rintro ⟨f, hf, hrecord⟩
    obtain ⟨hlow, hhigh⟩ := f.code_bounds
    refine ⟨f.code, f.info t.host.cmd, f.detail, hlow, hhigh, hrecord, ?_⟩
    cases f with
    | illegalCmd => simp [JlcFault.code, JlcFault.info, JlcFault.detail]
    | notConfigured => simp [JlcFault.code, JlcFault.info, JlcFault.detail]
    | configInvalid mask =>
      obtain rfl : mask = configMask s.host s.host.opa := hf
      simp [JlcFault.code, JlcFault.info, JlcFault.detail]
    | paramInvalid mask =>
      obtain rfl : mask = commitMask s := hf
      simp [JlcFault.code, JlcFault.info, JlcFault.detail]
    | bus off =>
      obtain ⟨width, haccess⟩ := hf
      exact ⟨fun hne => absurd rfl hne, fun _ => ⟨off, width, rfl, haccess⟩, nofun, nofun,
        fun _ _ => rfl⟩
  · exact memWrite_readOnly (by revert r; decide) v s

end Sys2Proof.Machine
end

section
/-! SUPPORT and PROOFS. The hardware reset (70_reset_and_hazards.md, 1. Reset): what a reset step
answers and what each register and buffer slot then reads (R340); O18. -/

namespace Sys2Proof

/-- The reset value of each register: the two identification words, the six stored registers that
R340 gives a value other than 0, and 0 for every other register. -/
def RegName.resetValue : RegName → Word
  | .id => 0x4A4C4331#32
  | .version => 0x00000001#32
  | .ctrl => 0x0000002A#32
  | .silmin => 0x0000BB80#32
  | .pAttackMs => 0x41200000#32
  | .pReleaseMs => 0x43480000#32
  | .pWin0Ms => 0x43C80000#32
  | .pWin1Ms => 0x453B8000#32
  | _ => 0#32

end Sys2Proof

namespace Sys2Proof.Machine

/-- The step that accepts a hardware reset answers the reset state with the later events still to
come. -/
theorem step_of_pending_hardwareReset {s : State} {rest : List HostEvent}
    (hpend : s.pending = .hardwareReset :: rest) :
    step s = .next { State.reset with pending := rest } := by
  rw [step_of_pending hpend, accept, hardwareReset]

/-! ## The registers -/

/-- `+0.0` rounds to `+0.0` (R13). -/
@[simp] theorem rne32_zero : rne32 0#64 = 0#32 := by
  have hround : roundNearest 23 infMag32 (unitsOf 23 0 * unitsPerUnit32) unitsPerUnit32 = 0 :=
    roundNearest_unitsOf unitsPerUnit32_pos (Nat.zero_le _)
  rw [show unitsOf 23 0 = 0 from rfl, Nat.zero_mul] at hround
  rw [rne32_finite (by decide), show units64 0#64 = 0 from rfl, hround]
  rfl

theorem hiWord_zero : hiWord 0#64 = 0#32 := by decide

/-- STATUS at reset: no flag is set and the limiter state is Cold (R35, R36). -/
theorem statusWord_reset : statusWord State.reset = 0#32 := by decide

/-- After reset every register reads its reset value, whatever events are still to come: STATUS is
computed from the flags, the OBS registers round an engine value at the time of the read, and the
others read the stored word or a half of one. -/
theorem readRegister_reset (r : RegName) (rest : List HostEvent) :
    readRegister r { State.reset with pending := rest } = r.resetValue := by
  cases r with
  | status => exact statusWord_reset
  | obsGain | obsPeak | obsMval0 | obsMval1 | obsEnv => exact rne32_zero
  | opaHi | opbHi | res0Hi | res1Hi | obsFsHi => exact hiWord_zero
  | _ => rfl

/-! ## The buffers -/

/-- Every slot of a window reads `+0.0` after reset. -/
theorem slot_reset (m : MeterId) (i : Nat) : (Engine.reset.win m).slot i = 0#64 := by
  cases m <;> exact Memory.read_nil 0#64 i

/-- Every slot of the delay line reads `(+0.0, +0.0)` after reset. -/
theorem delaySlot_reset (i : Nat) : Engine.reset.delaySlot i = StereoSample.zero :=
  Memory.read_nil StereoSample.zero i

/-- Settles O18: the step answers the reset state; its registers are read one by one, its engine is
the listed one, and its buffers list no slot. -/
theorem hardwareResetSetsEveryValue : Obligations.HardwareResetSetsEveryValue := by
  intro s rest hpend
  have hregs : allRegisters.map (fun r => readRegister r { State.reset with pending := rest }) =
      allRegisters.map RegName.resetValue :=
    List.map_congr_left fun r _ => readRegister_reset r rest
  exact ⟨_, step_of_pending_hardwareReset hpend, hregs, rfl, rfl, slot_reset, delaySlot_reset⟩

end Sys2Proof.Machine
end

section
/-! SUPPORT and PROOFS. The encoding of the commands (R110 to R116): a word decodes to a command exactly
when it is the command's own word, in words, in bytes and in the table of match and mask words; O1 to
O4. -/

namespace Sys2Proof

/-! ## Words -/

theorem selLegal_iff {f : CommandFields} :
    f.selLegal = true ↔ ∃ mask, selMask f.opc = some mask ∧ f.sel &&& ~~~mask = 0#8 := by
  unfold CommandFields.selLegal
  cases selMask f.opc <;> simp

/-- The operation code and a legal selector are those of the command they stand for: code by code, a
selector of the mask has one of at most four values (R114, R115). -/
theorem fields_of_commandOf {opc sel mask : BitVec 8} {i : Instr}
    (hi : commandOf opc sel = some i) (hmask : selMask opc = some mask)
    (hsel : sel &&& ~~~mask = 0#8) : opc = opcodeOf i ∧ sel = selectorOf i := by
  rw [← ofNat_toNat_self opc]
  unfold commandOf at hi
  unfold selMask at hmask
  split at hi
  case h_13 => cases hi
  all_goals
    next hopc =>
      rw [hopc] at hmask ⊢
      cases hi
      cases hmask
      refine ⟨rfl, ?_⟩
      revert sel
      decide

/-- The three checks of R110, passed in order. -/
theorem decode_eq_ok_iff {w : Word} {i : Instr} :
    decode w = .ok i ↔ commandOf (commandFields w).opc (commandFields w).sel = some i ∧
      (commandFields w).selLegal = true ∧ (commandFields w).low = 0#16 := by
  simp only [decode, CommandFields.lowZero]
  cases commandOf (commandFields w).opc (commandFields w).sel <;>
    cases (commandFields w).selLegal <;>
    by_cases hlow : (commandFields w).low = 0#16 <;> simp [hlow]

/-- Encoding, then decoding, gives the command back with every selector. -/
theorem decode_encode (i : Instr) : decode (encode i) = .ok i := by
  cases i with
  | nop => exact Laws.OpcodeRow.nop.2
  | config => exact Laws.OpcodeRow.config.2
  | commit => exact Laws.OpcodeRow.commit.2
  | process nc => exact (Laws.OpcodeRow.process nc).2
  | limReset => exact Laws.OpcodeRow.limReset.2
  | pfStage ch st => exact (Laws.OpcodeRow.pfStage ch st).2
  | pfApply ch => exact (Laws.OpcodeRow.pfApply ch).2
  | accAdd m => exact (Laws.OpcodeRow.accAdd m).2
  | mtrStep m => exact (Laws.OpcodeRow.mtrStep m).2
  | envCalc => exact Laws.OpcodeRow.envCalc.2
  | limUpdate => exact Laws.OpcodeRow.limUpdate.2
  | dlyAdd => exact Laws.OpcodeRow.dlyAdd.2

/-- A word that decodes is the word of its command. -/
theorem eq_encode_of_decode {w : Word} {i : Instr} (h : decode w = .ok i) : w = encode i := by
  obtain ⟨hi, hlegal, hlow⟩ := decode_eq_ok_iff.mp h
  obtain ⟨mask, hmask, hsel⟩ := selLegal_iff.mp hlegal
  obtain ⟨hopc, hselector⟩ := fields_of_commandOf hi hmask hsel
  rw [← joinFields_commandFields w, encode, joinFields_inj, ← hopc, ← hselector, ← hlow]

theorem decode_eq_ok_iff_eq_encode {w : Word} {i : Instr} : decode w = .ok i ↔ w = encode i :=
  ⟨eq_encode_of_decode, fun h => h ▸ decode_encode i⟩

/-! ## Bytes -/

/-- The bytes of a word, joined again, are the word (R82). -/
theorem joined_wordBytes (w : Word) :
    ((w.extractLsb' 24 8 ++ w.extractLsb' 16 8) ++ w.extractLsb' 8 8) ++ w.extractLsb' 0 8 = w := by
  rw [BitVec.extractLsb'_append_extractLsb'_eq_extractLsb' (by decide),
    BitVec.extractLsb'_append_extractLsb'_eq_extractLsb' (by decide),
    BitVec.extractLsb'_append_extractLsb'_eq_extractLsb' (by decide)]
  exact BitVec.extractLsb'_eq_self

/-- Four bytes joined into a word are that word's bytes (R82). -/
theorem wordBytes_joined (b0 b1 b2 b3 : Byte) :
    wordBytes (((b3 ++ b2) ++ b1) ++ b0) = [b0, b1, b2, b3] := by
  simp only [wordBytes, List.cons.injEq, and_true]
  refine ⟨?_, ?_, ?_, ?_⟩
  · exact BitVec.extractLsb'_append_eq_right
  · exact (BitVec.extractLsb'_append_eq_of_le (by decide)).trans BitVec.extractLsb'_append_eq_right
  · exact (BitVec.extractLsb'_append_eq_of_le (by decide)).trans
      ((BitVec.extractLsb'_append_eq_of_le (by decide)).trans BitVec.extractLsb'_append_eq_right)
  · exact (BitVec.extractLsb'_append_eq_of_le (by decide)).trans
      ((BitVec.extractLsb'_append_eq_of_le (by decide)).trans BitVec.extractLsb'_append_eq_left)

/-- Bytes decode to a command exactly when they are the bytes of a word that does. -/
theorem decodeBytes_eq_ok_iff {bs : List Byte} {i : Instr} :
    decodeBytes bs = .ok i ↔ ∃ w, bs = wordBytes w ∧ decode w = .ok i := by
  constructor
  · intro h
    unfold decodeBytes at h
    split at h
    · next b0 b1 b2 b3 => exact ⟨_, (wordBytes_joined b0 b1 b2 b3).symm, h⟩
    · cases h
  · rintro ⟨w, rfl, h⟩
    rw [wordBytes, decodeBytes, joined_wordBytes, h]

/-! ## The table of match and mask words (R116) -/

/-- A word lies in a row exactly when its fields pass the three checks under the row's code. -/
theorem in_row_iff {w : Word} {row : OpcodeRow} (hrow : row ∈ opcodeRows) :
    w &&& row.maskWord = row.matchWord ↔
      (commandFields w).opc = row.opc ∧ (commandFields w).sel &&& ~~~row.freeSel = 0#8 ∧
        (commandFields w).low = 0#16 := by
  obtain ⟨-, hmatch, hmask⟩ := opcodeRow_pattern row hrow
  rw [hmatch, hmask, and_mask_eq_match_iff]

/-- The command of a row's code has the row's mnemonic, whatever the selector (R114). -/
theorem commandOf_row {row : OpcodeRow} (hrow : row ∈ opcodeRows) (sel : BitVec 8) :
    ∃ i, commandOf row.opc sel = some i ∧ mnemonicOf i = row.mnemonic := by
  revert row
  simp only [opcodeRows, List.forall_mem_cons]
  exact ⟨⟨_, rfl, rfl⟩, ⟨_, rfl, rfl⟩, ⟨_, rfl, rfl⟩, ⟨_, rfl, rfl⟩, ⟨_, rfl, rfl⟩, ⟨_, rfl, rfl⟩,
    ⟨_, rfl, rfl⟩, ⟨_, rfl, rfl⟩, ⟨_, rfl, rfl⟩, ⟨_, rfl, rfl⟩, ⟨_, rfl, rfl⟩, ⟨_, rfl, rfl⟩, nofun⟩

theorem decode_of_in_row {w : Word} {row : OpcodeRow} (hrow : row ∈ opcodeRows)
    (hw : w &&& row.maskWord = row.matchWord) :
    ∃ i, decode w = .ok i ∧ mnemonicOf i = row.mnemonic := by
  obtain ⟨hopc, hsel, hlow⟩ := (in_row_iff hrow).mp hw
  obtain ⟨i, hi, hname⟩ := commandOf_row hrow (commandFields w).sel
  have hmask : selMask (commandFields w).opc = some row.freeSel :=
    hopc ▸ (opcodeRow_pattern row hrow).1
  exact ⟨i, decode_eq_ok_iff.mpr ⟨hopc ▸ hi, selLegal_iff.mpr ⟨_, hmask, hsel⟩, hlow⟩, hname⟩

/-- A command's word lies in the row of its mnemonic: a word that decodes lies in some row, and the
command of that row's words has the row's mnemonic. -/
theorem row_of_decode {w : Word} {i : Instr} (h : decode w = .ok i) :
    ∃ row ∈ opcodeRows, row.mnemonic = mnemonicOf i ∧ w &&& row.maskWord = row.matchWord := by
  obtain ⟨row, hrow, hw⟩ := matches_row_iff_wellFormed.mpr (wellFormed_of_decode_ok h)
  obtain ⟨j, hj, hname⟩ := decode_of_in_row hrow hw
  obtain rfl : i = j := Except.ok.inj (h.symm.trans hj)
  exact ⟨row, hrow, hname.symm, hw⟩

/-- No two rows have one operation code, so no word lies in two rows. -/
theorem rows_disjoint : opcodeRows.Pairwise (fun a b =>
    ∀ w : Word, ¬(w &&& a.maskWord = a.matchWord ∧ w &&& b.maskWord = b.matchWord)) := by
  have hcodes : opcodeRows.Pairwise (fun a b => a.opc ≠ b.opc) := by decide
  refine hcodes.imp_of_mem fun {a b} ha hb hne w ⟨hwa, hwb⟩ => ?_
  obtain ⟨hopca, -⟩ := (in_row_iff ha).mp hwa
  obtain ⟨hopcb, -⟩ := (in_row_iff hb).mp hwb
  exact hne (hopca.symm.trans hopcb)

/-! ## The obligations -/

/-- Settles O1: `eq_encode_of_decode` one way, `decode_encode` the other. -/
theorem decoderAcceptsExactlyTheEncodings : Obligations.DecoderAcceptsExactlyTheEncodings :=
  fun _ _ => decode_eq_ok_iff_eq_encode

/-- Settles O2: bytes that decode are the bytes of a word that does, which O1 names. -/
theorem bytesDecodeAsOneLittleEndianWord : Obligations.BytesDecodeAsOneLittleEndianWord := by
  intro bs i
  simp only [decodeBytes_eq_ok_iff, decode_eq_ok_iff_eq_encode, exists_eq_right]

/-- Settles O3: the table, both directions of its agreement with the decoder, and no overlap. -/
theorem opcodeTableMatchesTheDecoder : Obligations.OpcodeTableMatchesTheDecoder :=
  ⟨rfl, fun _ _ => decode_of_in_row, fun _ _ => row_of_decode, rows_disjoint⟩

/-- Settles O4: each of the words is evaluated. -/
theorem wordsOfTheOpcodeMapDecode : Obligations.WordsOfTheOpcodeMapDecode := by
  unfold Obligations.WordsOfTheOpcodeMapDecode
  decide

end Sys2Proof
end

section
/-! SUPPORT and PROOFS. Steps and commands: a step takes one event and runs at most one command (R86,
R90), what a step can do to the engine, the lines of a host script (R118, R119), the frame of the
commands on the register window (R304), and the commands that wait for CONFIG or a commit (R110, R350);
O6 to O9, O15, O55 to O57. -/

namespace Sys2Proof.Machine

/-! ## One event per step -/

/-- The step that accepts the write of a command word runs the command (R86). -/
theorem step_of_pending_command {s : State} {w : Word} {i : Instr} {rest : List HostEvent}
    (hpend : s.pending = .write 0x020#12 .byte4 w :: rest) (hd : decode w = .ok i) :
    step s = exec i { s with pending := rest, host := { s.host with cmd := w } } := by
  rw [step_of_pending hpend]
  exact (memWrite_cmd w _).trans (runCommand_ok _ hd)

theorem step_of_no_pending {s : State} (hpend : s.pending = []) : step s = .next s := by
  rw [step, acceptNext, hpend]

/-- Settles O6: the step runs the command; `withFetchWord` puts the word's write first. -/
theorem stepRunsTheDecodedCommand : Obligations.StepRunsTheDecodedCommand := by
  refine ⟨fun s w i rest => step_of_pending_command, fun s w i hd => ?_,
    fun s => step_of_no_pending⟩
  have hw : BitVec.ofNat 32 (w.toNat % 2 ^ 32) = w := by
    rw [Nat.mod_eq_of_lt w.isLt, BitVec.ofNat_toNat, BitVec.setWidth_eq]
  have hpend : (s.withFetchWord 32 w.toNat).pending = .write 0x020#12 .byte4 w :: s.pending := by
    rw [State.withFetchWord, hw]
    rfl
  exact step_of_pending_command hpend hd

theorem memWrite_pending {off : Offset} {width : Width} {v : Word} {s t : State}
    (h : memWrite off width v s = .next t) : t.pending = s.pending := by
  rcases memWrite_cases h with ⟨-, rfl⟩ | ⟨r, -, -, -, rfl⟩ | ⟨-, -, hrun⟩
  · rfl
  · rfl
  · rcases runCommand_cases hrun with ⟨i, -, hexec⟩ | ⟨-, rfl⟩
    · exact exec_pending (s := writeRegister .cmd v s) hexec
    · rfl

@[simp] theorem memRead_pending (off : Offset) (width : Width) (s : State) :
    (memRead off width s).pending = s.pending := by
  unfold memRead
  split <;> rfl

/-- Settles O7: whatever the event does, it leaves the later ones in place. -/
theorem stepTakesExactlyOneEvent : Obligations.StepTakesExactlyOneEvent := by
  intro s t ev rest hpend hstep
  rw [step_of_pending hpend] at hstep
  cases ev with
  | read off width =>
    obtain rfl := Host.Outcome.next.inj hstep
    exact memRead_pending ..
  | write off width v => exact memWrite_pending hstep
  | hardwareReset =>
    obtain rfl := Host.Outcome.next.inj hstep
    rfl

/-! ## What a step can do to the engine -/

/-- A step leaves the engine alone, resets it, or runs one command on it. -/
theorem step_eng_cases {s t : State} (h : step s = .next t) :
    t.eng = s.eng ∨ (s.pending.head? = some .hardwareReset ∧ t.eng = Engine.reset) ∨
      ∃ w i u rest, s.pending = .write 0x020#12 .byte4 w :: rest ∧ decode w = .ok i ∧
        u.eng = s.eng ∧ u.host = { s.host with cmd := w } ∧ exec i u = .next t := by
  rcases step_cases h with ⟨-, rfl⟩ | ⟨off, width, rest, -, rfl⟩ | ⟨rest, hpend, rfl⟩ |
    ⟨off, width, v, rest, hpend, hwrite⟩
  · exact .inl rfl
  · exact .inl (memRead_eng ..)
  · exact .inr (.inl ⟨congrArg List.head? hpend, rfl⟩)
  · rcases memWrite_cases hwrite with ⟨-, rfl⟩ | ⟨r, -, -, -, rfl⟩ | ⟨rfl, rfl, hrun⟩
    · exact .inl rfl
    · exact .inl rfl
    · rcases runCommand_cases hrun with ⟨i, hd, hexec⟩ | ⟨-, rfl⟩
      · exact .inr (.inr ⟨v, i, writeRegister .cmd v { s with pending := rest }, rest, hpend, hd, rfl,
          rfl, hexec⟩)
      · exact .inl rfl

/-- What reset gives the engine and every command keeps, every step keeps. -/
theorem step_keeps {P : Engine → Prop} (hreset : P Engine.reset)
    (hexec : ∀ i s t, P s.eng → exec i s = .next t → P t.eng) {s t : State} (hP : P s.eng)
    (h : step s = .next t) : P t.eng := by
  rcases step_eng_cases h with heq | ⟨-, heq⟩ | ⟨w, i, u, rest, -, -, hu, -, hrun⟩
  · rwa [heq]
  · rwa [heq]
  · exact hexec i u t (hu ▸ hP) hrun

/-- The one word that decodes to CONFIG. -/
theorem eq_configWord_of_decode {w : Word} (h : decode w = .ok .config) : w = 0x01000000#32 :=
  eq_encode_of_decode h

/-- What every command but CONFIG keeps, every step keeps that is neither a hardware reset nor the write
of the CONFIG word. -/
theorem step_keeps_but_config {P : Engine → Prop}
    (hexec : ∀ i s t, i ≠ .config → P s.eng → exec i s = .next t → P t.eng) {s t : State}
    (hreset : s.pending.head? ≠ some .hardwareReset)
    (hconfig : s.pending.head? ≠ some (.write 0x020#12 .byte4 0x01000000#32)) (hP : P s.eng)
    (h : step s = .next t) : P t.eng := by
  rcases step_eng_cases h with heq | ⟨hhead, -⟩ | ⟨w, i, u, rest, hpend, hd, hu, -, hrun⟩
  · rwa [heq]
  · exact absurd hhead hreset
  · refine hexec i u t ?_ (hu ▸ hP) hrun
    rintro rfl
    obtain rfl := eq_configWord_of_decode hd
    exact hconfig (congrArg List.head? hpend)

/-! ## The commands on a configured engine -/

theorem exec_commit {s : State} (hcfg : s.eng.cfg = true) :
    exec .commit s = .next (commitState s) :=
  whenConfigured_true _ hcfg

theorem exec_limReset {s : State} (hcfg : s.eng.cfg = true) :
    exec .limReset s = .next { s with eng := s.eng.limReset } :=
  whenConfigured_true _ hcfg

theorem exec_accAdd {m : MeterId} {s : State} (hcfg : s.eng.cfg = true)
    (hcur : s.eng.cursorInRange m = true) :
    exec (.accAdd m) s = .next (finish01 s (s.eng.accAdd m s.host.opa)
      ((s.eng.win m).insert s.host.opa).sum ((s.eng.win m).insert s.host.opa).mean) :=
  (whenConfigured_true _ hcfg).trans (if_pos hcur)

theorem exec_envCalc {s : State} (hcfg : s.eng.cfg = true) :
    exec .envCalc s =
      .next (finish0 s (s.eng.envStep s.host.opa) (s.eng.envValue s.host.opa)) :=
  whenConfigured_true _ hcfg

theorem exec_limUpdate {s : State} (hcfg : s.eng.cfg = true) :
    exec .limUpdate s = .next (finish01 s (s.eng.limUpdate s.host.opa)
      (s.eng.gainValue s.host.opa) (s.eng.peakValue s.host.opa)) :=
  whenConfigured_true _ hcfg

/-- PROCESS with NC set takes one sample (R270). -/
theorem exec_process_true {s : State} (hcfg : s.eng.cfg = true) :
    exec (.process true) s = processSample s := by
  rw [exec, execProcess, whenConfigured_true _ hcfg, if_pos rfl]

/-- PROCESS with NC clear takes one sample from the state that the snapshot leaves (R270). -/
theorem exec_process_false {s : State} (hcfg : s.eng.cfg = true) :
    exec (.process false) s = processSample (commitState s) := by
  rw [exec, execProcess, whenConfigured_true _ hcfg, if_neg Bool.false_ne_true]

theorem processSample_of_inRange {s : State} (hrange : s.eng.processInRange = true) :
    processSample s = .next (finishPair s (s.eng.processPair s.host.silmin (inputPair s))) := by
  rw [processSample, if_pos hrange]

theorem exec_process_nc {s : State} (hcfg : s.eng.cfg = true)
    (hrange : s.eng.processInRange = true) :
    exec (.process true) s =
      .next (finishPair s (s.eng.processPair s.host.silmin (inputPair s))) :=
  (exec_process_true hcfg).trans (processSample_of_inRange hrange)

section
variable {s t : State} (hcfg : s.eng.cfg = true)
include hcfg

/-- A command that completed had its slots in range (R52). -/
theorem processInRange_of_exec (h : exec (.process true) s = .next t) :
    s.eng.processInRange = true :=
  (processSample_cases ((exec_process_true hcfg).symm.trans h)).1

theorem cursorInRange_of_exec {m : MeterId} (h : exec (.accAdd m) s = .next t) :
    s.eng.cursorInRange m = true := by
  rcases execAccAdd_cases h with ⟨hno, -⟩ | ⟨-, hcur, -⟩
  · rw [hcfg] at hno; cases hno
  · exact hcur

theorem delayInRange_of_exec (h : exec .dlyAdd s = .next t) : s.eng.delayInRange = true := by
  rcases execDlyAdd_cases h with ⟨hno, -⟩ | ⟨-, hrange, -⟩
  · rw [hcfg] at hno; cases hno
  · exact hrange

end

/-! ## Host scripts (R118, R119) -/

theorem stepTimes_one (s : State) : stepTimes 1 s = step s := by
  rw [stepTimes]
  cases step s <;> rfl

theorem stepTimes_succ_of_step {s t : State} (n : Nat) (h : step s = .next t) :
    stepTimes (n + 1) s = stepTimes n t := by
  rw [stepTimes, h]

/-- The step that accepts a write to a register other than `CMD` stores the word. -/
theorem step_of_pending_wrEvent {s : State} {r : RegName} {w : Word} {rest : List HostEvent}
    (hpend : s.pending = wrEvent r w :: rest) (hr : r ≠ .cmd) :
    step s = .next (writeRegister r w { s with pending := rest }) := by
  rw [step_of_pending hpend]
  exact memWrite_offsetOf w _ hr

@[simp] theorem loWord_withLo (x : BitVec 64) (w : Word) : loWord (withLo x w) = w :=
  BitVec.extractLsb'_append_eq_right

@[simp] theorem hiWord_withLo (x : BitVec 64) (w : Word) : hiWord (withLo x w) = hiWord x :=
  BitVec.extractLsb'_append_eq_left

@[simp] theorem loWord_withHi (x : BitVec 64) (w : Word) : loWord (withHi x w) = loWord x :=
  BitVec.extractLsb'_append_eq_right

@[simp] theorem hiWord_withHi (x : BitVec 64) (w : Word) : hiWord (withHi x w) = w :=
  BitVec.extractLsb'_append_eq_left

/-- A 64-bit register holds the value whose two halves were written to it (R119). -/
theorem withHi_withLo (x v : BitVec 64) : withHi (withLo x (loWord v)) (hiWord v) = v := by
  have hlo : (withLo x (loWord v)).extractLsb' 0 32 = loWord v := loWord_withLo x _
  rw [withHi, hlo]
  exact (BitVec.extractLsb'_append_extractLsb'_eq_extractLsb' (by decide)).trans
    BitVec.extractLsb'_eq_self

/-- Three steps of a line with a binary64 operand: its two halves, then the command. -/
theorem stepTimes_loadOpa {s : State} {v : F64} {w : Word} {i : Instr} {tail : List HostEvent}
    (hpend : s.pending = loadOpa v ++ wrEvent .cmd w :: tail) (hd : decode w = .ok i) :
    stepTimes 3 s = exec i { s with
      pending := tail, host := { s.host with cmd := w, opa := v } } := by
  rw [stepTimes_succ_of_step 2 (step_of_pending_wrEvent hpend (by decide)),
    stepTimes_succ_of_step 1 (step_of_pending_wrEvent rfl (by decide)), stepTimes_one,
    step_of_pending_command rfl hd]
  simp only [writeRegister, storeRegister, withHi_withLo]

/-- Three steps of a line with a pair of binary32 operands. -/
theorem stepTimes_loadPair {s : State} {l r : F32} {w : Word} {i : Instr} {tail : List HostEvent}
    (hpend : s.pending = loadPair l r ++ wrEvent .cmd w :: tail) (hd : decode w = .ok i) :
    stepTimes 3 s = exec i { withPair { l := l, r := r } s with
      pending := tail, host := { (withPair { l := l, r := r } s).host with cmd := w } } := by
  rw [stepTimes_succ_of_step 2 (step_of_pending_wrEvent hpend (by decide)),
    stepTimes_succ_of_step 1 (step_of_pending_wrEvent rfl (by decide)), stepTimes_one,
    step_of_pending_command rfl hd]
  rfl

/-- One step of a line without operands. -/
theorem stepTimes_command {s : State} {w : Word} {i : Instr} {tail : List HostEvent}
    (hpend : s.pending = wrEvent .cmd w :: tail) (hd : decode w = .ok i) :
    stepTimes 1 s = exec i { s with pending := tail, host := { s.host with cmd := w } } := by
  rw [stepTimes_one, step_of_pending_command hpend hd]

/-- The words that a script line joins from selector bits are those of the commands (R119). -/
theorem scriptWord_pfStage (ch : Channel) (st : Stage) :
    0x10000000#32 ||| selectorBit (channelBit ch) 16 ||| selectorBit (stageBit st) 17 =
      encode (.pfStage ch st) := by
  cases ch <;> cases st <;> decide

theorem scriptWord_pfApply (ch : Channel) :
    0x11000000#32 ||| selectorBit (channelBit ch) 16 = encode (.pfApply ch) := by
  cases ch <;> decide

theorem scriptWord_accAdd (m : MeterId) :
    0x12000000#32 ||| selectorBit (meterBit m) 16 = encode (.accAdd m) := by
  cases m <;> decide

theorem scriptWord_mtrStep (m : MeterId) :
    0x13000000#32 ||| selectorBit (meterBit m) 16 = encode (.mtrStep m) := by
  cases m <;> decide

/-- Settles O8: WR and RD are one bus access; a command line loads its operands, one register a step, and
its last step runs the command on them. -/
theorem scriptLinesLoadOperandsThenRun : Obligations.ScriptLinesLoadOperandsThenRun := by
  intro s rest
  refine ⟨fun r w h => ?wr, fun r h => ?rd, fun h => ?nop, fun fs h => ?config, fun h => ?commit,
    fun l r h => ?process, fun l r h => ?processNc, fun h => ?limReset, fun ch st x h => ?pfStage,
    fun ch x h => ?pfApply, fun m p h => ?accAdd, fun m h => ?mtrStep, fun x h => ?envCalc,
    fun e h => ?limUpdate, fun l r h => ?dlyAdd⟩
  case wr => rw [stepTimes_one, step_of_pending h]; rfl
  case rd =>
    rw [stepTimes_one, step_of_pending h]
    exact congrArg _ (memRead_offsetOf r _)
  case nop => exact stepTimes_command h (decode_encode .nop)
  case config => exact stepTimes_loadOpa h (decode_encode .config)
  case commit => exact stepTimes_command h (decode_encode .commit)
  case process => exact stepTimes_loadPair h (decode_encode (.process false))
  case processNc => exact stepTimes_loadPair h (decode_encode (.process true))
  case limReset => exact stepTimes_command h (decode_encode .limReset)
  case pfStage =>
    rw [ScriptLine.expand, scriptWord_pfStage] at h
    exact stepTimes_loadOpa h (decode_encode _)
  case pfApply =>
    rw [ScriptLine.expand, scriptWord_pfApply] at h
    exact stepTimes_loadOpa h (decode_encode _)
  case accAdd =>
    rw [ScriptLine.expand, scriptWord_accAdd] at h
    exact stepTimes_loadOpa h (decode_encode _)
  case mtrStep =>
    rw [ScriptLine.expand, scriptWord_mtrStep] at h
    exact stepTimes_command h (decode_encode _)
  case envCalc => exact stepTimes_loadOpa h (decode_encode .envCalc)
  case limUpdate => exact stepTimes_loadOpa h (decode_encode .limUpdate)
  case dlyAdd => exact stepTimes_loadPair h (decode_encode .dlyAdd)

/-! ## Stores to the register window (R86) -/

theorem ne_cmd_of_storable {r : RegName} (h : r ∈ storableRegisters) : r ≠ .cmd := by
  rintro rfl
  exact absurd h (by decide)

theorem setWidth_extractLsb' (v : Word) {n : Nat} (hn : n ≤ 32) :
    (v.extractLsb' 0 n).setWidth 32 = v &&& BitVec.ofNat 32 (2 ^ n - 1) := by
  apply BitVec.eq_of_toNat_eq
  have hlt : 2 ^ n ≤ 2 ^ 32 := Nat.pow_le_pow_right (by decide) hn
  have hmod : v.toNat % 2 ^ n < 2 ^ n := Nat.mod_lt _ (Nat.two_pow_pos n)
  rw [BitVec.toNat_setWidth, BitVec.extractLsb'_toNat, BitVec.toNat_and, BitVec.toNat_ofNat,
    Nat.mod_eq_of_lt (show 2 ^ n - 1 < 2 ^ 32 by omega), Nat.and_two_pow_sub_one_eq_mod,
    Nat.shiftRight_zero, Nat.mod_eq_of_lt (hmod.trans_le hlt)]

/-- The bits of a register that exist (R34, R40). -/
def definedBits (r : RegName) : Word :=
  if r = .ctrl then 0x0000007F#32 else if r = .pFlags then 0x00000003#32 else 0xFFFFFFFF#32

/-- A register reads the defined bits of the word stored in it. -/
theorem readRegister_writeRegister_same {r : RegName} (hr : r ∈ storableRegisters) (v : Word)
    (s : State) : readRegister r (writeRegister r v s) = v &&& definedBits r := by
  have hall : v &&& 0xFFFFFFFF#32 = v := BitVec.and_allOnes
  cases r with
  | ctrl => exact setWidth_extractLsb' v (n := 7) (by decide)
  | pFlags => exact setWidth_extractLsb' v (n := 2) (by decide)
  | opaLo | opbLo => exact (loWord_withLo _ v).trans hall.symm
  | opaHi | opbHi => exact (hiWord_withHi _ v).trans hall.symm
  | silmin | pIngainDb | pOutgainDb | pLimitDb | pHardlimitDb | pAttackMs | pReleaseMs | pWin0Ms
  | pWin1Ms | pIntervalMs | pDelayMs => exact hall.symm
  | _ => exact absurd hr (by decide)

/-- Every other register reads as before: but for the halves of an operand each has a field of its own. -/
theorem readRegister_writeRegister_other {r r' : RegName} (hr : r ∈ storableRegisters) (hne : r' ≠ r)
    (v : Word) (s : State) : readRegister r' (writeRegister r v s) = readRegister r' s := by
  cases r with
  | opaLo | opbLo =>
    cases r' <;> first
      | exact absurd rfl hne
      | rfl
      | exact hiWord_withLo ..
  | opaHi | opbHi =>
    cases r' <;> first
      | exact absurd rfl hne
      | rfl
      | exact loWord_withHi ..
  | ctrl | pFlags | silmin | pIngainDb | pOutgainDb | pLimitDb | pHardlimitDb | pAttackMs | pReleaseMs
  | pWin0Ms | pWin1Ms | pIntervalMs | pDelayMs =>
    cases r' <;> first
      | exact absurd rfl hne
      | rfl
  | _ => exact absurd hr (by decide)

/-- Settles O15: the write stores the word and touches the host registers alone. -/
theorem writesStoreTheDefinedBits : Obligations.WritesStoreTheDefinedBits := by
  intro r v s hmem
  have hr : r ∈ storableRegisters := by revert r; decide
  exact ⟨_, memWrite_offsetOf v s (ne_cmd_of_storable hr), readRegister_writeRegister_same hr v s,
    fun r' hne => readRegister_writeRegister_other hr hne v s, rfl, rfl, rfl, rfl⟩

/-! ## The frame of the commands (R304) -/

/-- Settles O55: NOP, CONFIG, COMMIT and LIM_RESET write no result, PROCESS is the only command that can
record a fault and write results, and every fault of a component command is NOT_CONFIGURED. -/
theorem commandsWriteOnlyTheirResults : Obligations.CommandsWriteOnlyTheirResults := by
  intro i s t h
  cases i with
  | nop => obtain rfl := Host.Outcome.next.inj h; simp
  | config => rcases execConfig_cases h with ⟨-, rfl⟩ | ⟨-, rfl⟩ <;> simp [isComponent]
  | commit => rcases execCommit_cases h with ⟨-, rfl⟩ | ⟨-, rfl⟩ <;> simp [isComponent]
  | process nc =>
    rcases execProcess_cases h with ⟨-, rfl⟩ | ⟨-, u, rfl, -, rfl⟩
    · simp [isComponent]
    · cases nc <;> simp [finishPair, isComponent]
  | limReset => rcases execLimReset_cases h with ⟨-, rfl⟩ | ⟨-, rfl⟩ <;> simp [isComponent]
  | pfStage ch st => rcases execPfStage_cases h with ⟨hno, rfl⟩ | ⟨-, rfl⟩ <;> simp [*]
  | pfApply ch => rcases execPfApply_cases h with ⟨hno, rfl⟩ | ⟨-, rfl⟩ <;> simp [*]
  | accAdd m => rcases execAccAdd_cases h with ⟨hno, rfl⟩ | ⟨-, -, rfl⟩ <;> simp [*]
  | mtrStep m => rcases execMtrStep_cases h with ⟨hno, rfl⟩ | ⟨-, rfl⟩ <;> simp [*]
  | envCalc => rcases execEnvCalc_cases h with ⟨hno, rfl⟩ | ⟨-, rfl⟩ <;> simp [*]
  | limUpdate => rcases execLimUpdate_cases h with ⟨hno, rfl⟩ | ⟨-, rfl⟩ <;> simp [*]
  | dlyAdd => rcases execDlyAdd_cases h with ⟨hno, rfl⟩ | ⟨-, -, rfl⟩ <;> simp [finishPair, *]

/-! ## Commands on an unconfigured engine (R110) -/

theorem exec_unconfigured {i : Instr} {s : State} (hnop : i ≠ .nop) (hconfig : i ≠ .config)
    (hcfg : s.eng.cfg = false) : exec i s = .next (raiseFault .notConfigured s) := by
  cases i with
  | nop => exact absurd rfl hnop
  | config => exact absurd rfl hconfig
  | _ => exact whenConfigured_false _ hcfg

/-- Only a CONFIG with no failed check configures an engine. -/
theorem exec_configures {i : Instr} {s t : State} (hcfg : s.eng.cfg = false)
    (h : exec i s = .next t) (ht : t.eng.cfg = true) :
    i = .config ∧ configMask s.host s.host.opa = 0#5 := by
  have hkept : t.eng ≠ s.eng := fun heq => by rw [heq, hcfg] at ht; cases ht
  by_cases hconfig : i = .config
  · subst hconfig
    rcases execConfig_cases h with ⟨hmask, -⟩ | ⟨-, rfl⟩
    · exact ⟨rfl, hmask⟩
    · exact absurd rfl hkept
  · by_cases hnop : i = .nop
    · subst hnop
      obtain rfl := Host.Outcome.next.inj h
      exact absurd rfl hkept
    · obtain rfl := Host.Outcome.next.inj ((exec_unconfigured hnop hconfig hcfg).symm.trans h)
      exact absurd rfl hkept

/-- Settles O9: the guard of R110 for the commands; of the steps, only one that runs a command can
configure the engine, and the command is then a CONFIG. -/
theorem onlyNopAndConfigRunUnconfigured : Obligations.OnlyNopAndConfigRunUnconfigured := by
  refine ⟨fun i s hnop hconfig hcfg => ?_, fun s t hcfg hstep ht => ?_⟩
  · rw [exec_unconfigured hnop hconfig hcfg, raiseFault_notConfigured]
  · rcases step_eng_cases hstep with heq | ⟨-, heq⟩ | ⟨w, i, u, rest, hpend, hd, hu, hhost, hrun⟩
    · rw [heq, hcfg] at ht; cases ht
    · rw [heq] at ht; cases ht
    · obtain ⟨rfl, hmask⟩ := exec_configures (hu ▸ hcfg) hrun ht
      obtain rfl := eq_configWord_of_decode hd
      rw [hhost] at hmask
      exact ⟨rest, hpend, hmask⟩

/-! ## What waits for CONFIG, and what waits for a commit (R350) -/

/-- The engine values that only CONFIG builds: the rate and the filter coefficients. -/
abbrev Engine.SameFilter (e e' : Engine) : Prop :=
  e'.fs = e.fs ∧ e'.coefShelf = e.coefShelf ∧ e'.coefPass = e.coefPass

theorem Engine.SameSettings.sameFilter {e e' : Engine} (h : e.SameSettings e') : e.SameFilter e' :=
  ⟨h.fs, h.coefShelf, h.coefPass⟩

theorem exec_sameFilter {i : Instr} {s t : State} (hconfig : i ≠ .config)
    (h : exec i s = .next t) : s.eng.SameFilter t.eng := by
  by_cases hcommit : i = .commit
  · subst hcommit
    rcases execCommit_cases h with ⟨-, rfl⟩ | ⟨-, rfl⟩ <;> simp [Engine.SameFilter]
  by_cases hprocess : i = .process false
  · subst hprocess
    rcases execProcess_cases h with ⟨-, rfl⟩ | ⟨-, u, rfl, -, rfl⟩
    · simp [Engine.SameFilter]
    · simpa [Engine.SameFilter, finishPair] using
        (Engine.SameSettings.processPair (commitState s).eng (commitState s).host.silmin
          (inputPair (commitState s))).sameFilter
  exact (exec_sameSettings h hconfig hcommit hprocess).sameFilter

/-- Settles O56: a snapshot keeps the rate and the coefficients, and a sample keeps every setting. -/
theorem onlyConfigBuildsCoefficients : Obligations.OnlyConfigBuildsCoefficients := by
  intro s t hreset hconfig hstep
  refine step_keeps_but_config (P := s.eng.SameFilter) ?_ hreset hconfig ⟨rfl, rfl, rfl⟩ hstep
  rintro i u v hi ⟨hfs, hshelf, hpass⟩ hexec
  obtain ⟨hfs', hshelf', hpass'⟩ := exec_sameFilter hi hexec
  exact ⟨hfs'.trans hfs, hshelf'.trans hshelf, hpass'.trans hpass⟩

/-- A store to a register that waits for a commit leaves what the other commands read. -/
theorem storeRegister_commit {r : RegName} (hr : r ∈ commitRegisters) (v : Word) (h : HostRegs) :
    (storeRegister r v h).opa = h.opa ∧ (storeRegister r v h).opb = h.opb ∧
      (storeRegister r v h).cmd = h.cmd ∧ (storeRegister r v h).silmin = h.silmin := by
  cases r <;> first
    | exact ⟨rfl, rfl, rfl, rfl⟩
    | exact absurd hr (by decide)

/-- A store commutes with the writes of the results. -/
theorem storeRegister_results (r : RegName) (v : Word) (h : HostRegs) (a b : BitVec 64) :
    storeRegister r v { h with res0 := a, res1 := b } =
      { storeRegister r v h with res0 := a, res1 := b } := by
  cases r <;> rfl

theorem storeRegister_result0 (r : RegName) (v : Word) (h : HostRegs) (a : BitVec 64) :
    storeRegister r v { h with res0 := a } = { storeRegister r v h with res0 := a } := by
  cases r <;> rfl

section
variable {r : RegName} (hr : r ∈ commitRegisters) (v : Word) (s : State)
include hr

theorem raiseFault_writeRegister (f : JlcFault) :
    raiseFault f (writeRegister r v s) = writeRegister r v (raiseFault f s) := by
  obtain ⟨-, -, hcmd, -⟩ := storeRegister_commit hr v s.host
  simp only [raiseFault, writeRegister, hcmd]

omit hr in
theorem finish0_writeRegister (e : Engine) (a : BitVec 64) :
    finish0 (writeRegister r v s) e a = writeRegister r v (finish0 s e a) := by
  simp only [finish0, writeRegister, storeRegister_result0]

omit hr in
theorem finish01_writeRegister (e : Engine) (a b : BitVec 64) :
    finish01 (writeRegister r v s) e a b = writeRegister r v (finish01 s e a b) := by
  simp only [finish01, writeRegister, storeRegister_results]

theorem inputPair_writeRegister : inputPair (writeRegister r v s) = inputPair s := by
  obtain ⟨hopa, hopb, -, -⟩ := storeRegister_commit hr v s.host
  simp only [inputPair, opaF32, opbF32, writeRegister_host, hopa, hopb]

/-- A command that takes no snapshot does the same before and after such a store (R350). -/
theorem exec_writeRegister {i : Instr} {t : State} (h1 : i ≠ .config) (h2 : i ≠ .commit)
    (h3 : i ≠ .process false) (h : exec i s = .next t) :
    exec i (writeRegister r v s) = .next (writeRegister r v t) := by
  obtain ⟨hopa, -, -, hsil⟩ := storeRegister_commit hr v s.host
  have hpair := inputPair_writeRegister hr v s
  by_cases hnop : i = .nop
  · subst hnop
    obtain rfl := Host.Outcome.next.inj h
    rfl
  cases hcfg : s.eng.cfg with
  | false =>
    obtain rfl := Host.Outcome.next.inj ((exec_unconfigured hnop h1 hcfg).symm.trans h)
    rw [exec_unconfigured hnop h1 (by exact hcfg), raiseFault_writeRegister hr]
  | true =>
    have hcfg' : (writeRegister r v s).eng.cfg = true := hcfg
    cases i with
    | nop => exact absurd rfl hnop
    | config => exact absurd rfl h1
    | commit => exact absurd rfl h2
    | process nc =>
      cases nc with
      | false => exact absurd rfl h3
      | true =>
        have hrange := processInRange_of_exec hcfg h
        obtain rfl := Host.Outcome.next.inj ((exec_process_nc hcfg hrange).symm.trans h)
        rw [exec_process_nc hcfg' hrange, hpair, writeRegister_host, hsil, writeRegister_eng,
          finishPair, finish01_writeRegister, finishPair]
    | limReset =>
      obtain rfl := Host.Outcome.next.inj ((exec_limReset hcfg).symm.trans h)
      rw [exec_limReset hcfg']
      rfl
    | pfStage ch st =>
      obtain rfl := Host.Outcome.next.inj ((exec_pfStage ch st hcfg).symm.trans h)
      rw [exec_pfStage ch st hcfg', writeRegister_host, hopa, writeRegister_eng,
        finish0_writeRegister]
    | pfApply ch =>
      obtain rfl := Host.Outcome.next.inj ((exec_pfApply ch hcfg).symm.trans h)
      rw [exec_pfApply ch hcfg', writeRegister_host, hopa, writeRegister_eng,
        finish01_writeRegister]
    | accAdd m =>
      have hcur := cursorInRange_of_exec hcfg h
      obtain rfl := Host.Outcome.next.inj ((exec_accAdd hcfg hcur).symm.trans h)
      rw [exec_accAdd hcfg' hcur, writeRegister_host, hopa, writeRegister_eng,
        finish01_writeRegister]
    | mtrStep m =>
      obtain rfl := Host.Outcome.next.inj ((exec_mtrStep m hcfg).symm.trans h)
      rw [exec_mtrStep m hcfg', writeRegister_eng, finish01_writeRegister]
    | envCalc =>
      obtain rfl := Host.Outcome.next.inj ((exec_envCalc hcfg).symm.trans h)
      rw [exec_envCalc hcfg', writeRegister_host, hopa, writeRegister_eng, finish0_writeRegister]
    | limUpdate =>
      obtain rfl := Host.Outcome.next.inj ((exec_limUpdate hcfg).symm.trans h)
      rw [exec_limUpdate hcfg', writeRegister_host, hopa, writeRegister_eng,
        finish01_writeRegister]
    | dlyAdd =>
      have hrange := delayInRange_of_exec hcfg h
      obtain rfl := Host.Outcome.next.inj ((exec_dlyAdd hcfg hrange).symm.trans h)
      rw [exec_dlyAdd hcfg' hrange, hpair, writeRegister_eng, finishPair, finish01_writeRegister,
        finishPair]

end

/-- Settles O57: the write stores the word alone, and `exec_writeRegister` moves it past the command. -/
theorem parameterWritesWaitForCommit : Obligations.ParameterWritesWaitForCommit := by
  intro r v s hmem
  have hr : r ∈ commitRegisters := hmem
  have hne : r ≠ .cmd := by revert r; decide
  exact ⟨_, memWrite_offsetOf v s hne, rfl, fun i t => exec_writeRegister hr v s⟩

end Sys2Proof.Machine
end

section
/-! SUPPORT and PROOFS. The invariant of the machine (R52, R81, R241): every piece of a command keeps it,
so every command and every step does, and on it no cursor leaves its buffer, so nothing stops; O52 to
O54. -/

namespace Sys2Proof.Machine

/-! ## The invariant meter by meter -/

theorem Engine.inv_iff_meters (e : Engine) :
    e.Inv ↔ (∀ m, MeterInv e.cfg (e.win m) (e.mtr m)) ∧ DelayInv e ∧ LimiterInv e := by
  rw [Engine.inv_iff]
  constructor
  · rintro ⟨h0, h1, hrest⟩
    exact ⟨fun m => by cases m <;> assumption, hrest⟩
  · rintro ⟨hm, hrest⟩
    exact ⟨hm .m0, hm .m1, hrest⟩

/-- On a configured engine within its bounds the window cursors name slots the buffers have. -/
theorem Engine.Inv.cursor_lt {e : Engine} (h : e.Inv) (hcfg : e.cfg = true) (m : MeterId) :
    (e.win m).cur.toNat < Config.WMAX :=
  (((e.inv_iff_meters.mp h).1 m).2 hcfg).cursor

theorem Engine.Inv.delayBounds {e : Engine} (h : e.Inv) (hcfg : e.cfg = true) : DelayBounds e :=
  (h.2 hcfg).2.2.1

/-- Putting a window and a meter that meet the meter's invariant in place keeps the invariant. -/
theorem Engine.Inv.setMeter {e : Engine} (h : e.Inv) {m : MeterId} {w : Window} {t : Meter}
    (hm : MeterInv e.cfg w t) : ((e.setWin m w).setMtr m t).Inv := by
  obtain ⟨h0, h1, hrest⟩ := e.inv_iff.mp h
  rw [Engine.inv_iff]
  cases m
  · exact ⟨hm, h1, hrest⟩
  · exact ⟨h0, hm, hrest⟩

/-! ## The pieces -/

theorem Engine.Inv.stageStep {e : Engine} (h : e.Inv) (ch : Channel) (st : Stage) (x : F64) :
    (e.stageStep ch st x).Inv := by
  rw [Engine.stageStep_eq]
  exact h

theorem Engine.Inv.cascadeStep {e : Engine} (h : e.Inv) (ch : Channel) (x : F64) :
    (e.cascadeStep ch x).Inv :=
  (h.stageStep ..).stageStep ..

theorem Engine.Inv.accAdd {e : Engine} (h : e.Inv) {m : MeterId}
    (hcur : (e.win m).cur.toNat < Config.WMAX) (v : F64) : (e.accAdd m v).Inv := by
  have hm := ((e.inv_iff_meters.mp h).1 m).insert v hcur
  have hset := h.setMeter hm (m := m)
  cases m <;> exact hset

theorem Engine.Inv.mtrStep {e : Engine} (h : e.Inv) (m : MeterId) : (e.mtrStep m).Inv := by
  have hm := ((e.inv_iff_meters.mp h).1 m).step (e.win m)
  have hset := h.setMeter hm (m := m)
  cases m <;> exact hset

theorem Engine.Inv.meterStep {e : Engine} (h : e.Inv) (hcfg : e.cfg = true) (m : MeterId) (p : F64) :
    (e.meterStep m p).Inv :=
  (h.accAdd (h.cursor_lt hcfg m) p).mtrStep m

theorem Engine.Inv.metersStep {e : Engine} (h : e.Inv) (hcfg : e.cfg = true) (p : F64) :
    (e.metersStep p).Inv := by
  have h0 := h.meterStep hcfg .m0 p
  unfold Engine.metersStep
  split
  · exact h0.meterStep ((Engine.SameSettings.meterStep e .m0 p).cfg.trans hcfg) .m1 p
  · exact h0

/-- The limiter reset clears the meters and sets the peak to the limit, which is finite (R158). -/
theorem Engine.Inv.limReset {e : Engine} (h : e.Inv) : e.limReset.Inv := by
  obtain ⟨h0, h1, hdelay, hlim⟩ := e.inv_iff.mp h
  refine e.limReset.inv_iff.mpr ⟨h0.clear, h1.clear, hdelay, fun hcfg => ?_⟩
  obtain ⟨hgood, -⟩ := hlim hcfg
  exact ⟨hgood, isNaN64_of_finite hgood.1⟩

theorem Engine.Inv.silence {e : Engine} (h : e.Inv) (silmin : Word) (mag : F64) :
    (e.silence silmin mag).Inv := by
  rcases Engine.silence_cases e silmin mag with heq | heq | heq | heq <;> rw [heq]
  · exact h
  · exact h
  · exact h
  · exact h.limReset

theorem Engine.Inv.smoothStep {e : Engine} (h : e.Inv) (est : F64) : (e.smoothStep est).Inv := by
  unfold Engine.smoothStep
  split <;> exact h

/-- No estimate makes the peak a NaN (R241). -/
theorem Engine.Inv.limUpdate {e : Engine} (h : e.Inv) (est : F64) : (e.limUpdate est).Inv := by
  obtain ⟨h0, h1, hdelay, hlim⟩ := e.inv_iff.mp h
  refine (e.limUpdate est).inv_iff.mpr ⟨h0, h1, hdelay, fun hcfg => ?_⟩
  obtain ⟨hgood, hpeak⟩ := hlim hcfg
  exact ⟨hgood, limPeak_notNaN (isNaN64_of_finite hgood.1) hpeak⟩

theorem Engine.Inv.dlyAdd {e : Engine} (h : e.Inv) (hcur : e.dcur.toNat ≤ Config.DMAX)
    (p : StereoSample) : (e.dlyAdd p).Inv := by
  obtain ⟨h0, h1, ⟨hwf, hbounds⟩, hlim⟩ := e.inv_iff.mp h
  exact (e.dlyAdd p).inv_iff.mpr ⟨h0, h1,
    ⟨Memory.wf_write hwf (Nat.lt_succ_of_le hcur), fun hcfg => (hbounds hcfg).dlyAdd p⟩, hlim⟩

theorem Engine.Inv.meterPath {e : Engine} (h : e.Inv) (hcfg : e.cfg = true) (silmin : Word)
    (mL mR : F64) : (e.meterPath silmin mL mR).Inv := by
  have hpower : ((e.silence silmin (magnitude mL mR)).powerStep mL mR).Inv :=
    ((h.silence ..).cascadeStep ..).cascadeStep ..
  have hcfg' : ((e.silence silmin (magnitude mL mR)).powerStep mL mR).cfg = true :=
    (((Engine.SameSettings.silence ..).trans (Engine.SameSettings.powerStep ..)).cfg).trans hcfg
  exact ((hpower.metersStep hcfg' _).smoothStep _).limUpdate _

/-- One sample keeps the invariant: the meter path, then the delay step, whose cursor is in range; the
gate and the non-finite flag are no part of it (R282). -/
theorem Engine.Inv.processPair {e : Engine} (h : e.Inv) (hcfg : e.cfg = true) (silmin : Word)
    (p : StereoSample) : (e.processPair silmin p).1.Inv := by
  have hpath := h.meterPath hcfg silmin (e.tap (f64 p.l)) (e.tap (f64 p.r))
  have hcfg' := (Engine.SameSettings.meterPath e silmin (e.tap (f64 p.l)) (e.tap (f64 p.r))).cfg
  obtain ⟨hD, hcur⟩ := hpath.delayBounds (hcfg'.trans hcfg)
  exact hpath.dlyAdd (hcur.trans hD) p

/-! ## CONFIG and the commits -/

theorem checkWin_getD {wn : Option Word} (h : checkWin wn = true) :
    checkWin (some (wn.getD 0#32)) = true := by
  cases wn with
  | none => exact h
  | some w => exact h

theorem checkDelay_getD {dl : Option Word} (h : checkDelay dl = true) :
    (dl.getD 0#32).toNat ≤ Config.DMAX := by
  cases dl with
  | none => exact absurd h (by decide)
  | some d => exact of_decide_eq_true h

theorem maskBit_eq_zero {ok : Bool} {k : Nat} (hk : k < 5) : maskBit ok k = 0#5 ↔ ok = true := by
  cases ok
  · revert k; decide
  · simp [maskBit]

/-- With no failed check every check of a commit holds (R142, R302). -/
theorem checks_of_failMask {d : Derived} (h : d.failMask = 0#5) :
    checkWin d.W0 = true ∧ checkWin d.W1 = true ∧ checkDelay d.Dl = true ∧
      checkLimit d.L = true := by
  unfold Derived.failMask at h
  simp only [BitVec.or_eq_zero_iff, maskBit_eq_zero (show 1 < 5 by decide),
    maskBit_eq_zero (show 2 < 5 by decide), maskBit_eq_zero (show 3 < 5 by decide),
    maskBit_eq_zero (show 4 < 5 by decide)] at h
  obtain ⟨⟨⟨h0, h1⟩, hd⟩, hl⟩ := h
  exact ⟨h0, h1, hd, hl⟩

/-- With no failed check CONFIG's rate is good, and so are its parameters (R144). -/
theorem checks_of_configMask {h : HostRegs} {fs : F64} (hmask : configMask h fs = 0#5) :
    checkFs fs = true ∧ (derive h fs).failMask = 0#5 := by
  unfold configMask at hmask
  split at hmask
  · next hfs => exact ⟨hfs, hmask⟩
  · exact absurd hmask (by decide)

theorem MeterInv.fresh {w : Word} (hw : checkWin (some w) = true) (iv : Option Word)
    (c : Bool) : MeterInv c (Window.fresh w) (Meter.fresh (ivl iv w)) :=
  ⟨Memory.wf_nil, fun _ => MeterBounds.fresh hw iv⟩

/-- A successful CONFIG builds an engine within the bounds, whatever the old one was (R144). -/
theorem Engine.inv_configure (e : Engine) {h : HostRegs} {fs : F64} (hmask : configMask h fs = 0#5) :
    (e.configure h fs).Inv := by
  obtain ⟨-, hfail⟩ := checks_of_configMask hmask
  obtain ⟨h0, h1, hd, hl⟩ := checks_of_failMask hfail
  obtain ⟨hfin, hpos, hnan⟩ := checkLimit_good hl
  exact (e.configure h fs).inv_iff.mpr
    ⟨MeterInv.fresh (checkWin_getD h0) _ _, MeterInv.fresh (checkWin_getD h1) _ _,
      ⟨Memory.wf_nil, fun _ => ⟨checkDelay_getD hd, Nat.zero_le _⟩⟩, fun _ => ⟨⟨hfin, hpos⟩, hnan⟩⟩

/-- A new interval lies in the window and restarts a counter that it does not exceed (R143, R150). -/
theorem MeterBounds.retimed {w : Window} {t : Meter} (h : MeterBounds w t) (iv : Option Word) :
    MeterBounds w (Meter.retimed iv w.W t) := by
  obtain ⟨hW, hmax, hcur, hfill, -, -, -⟩ := h
  obtain ⟨hI, hIW⟩ := ivl_bounds iv hW
  refine ⟨hW, hmax, hcur, hfill, hI, hIW, ?_⟩
  show (if ivl iv w.W ≤ t.dc then 0#32 else t.dc).toNat < (ivl iv w.W).toNat
  split
  · exact hI
  · next hlt => exact BitVec.lt_def.mp (BitVec.not_le.mp hlt)

/-- The length a commit leaves a meter passes the check, the old one having passed it. -/
theorem Engine.checkWin_nextLength {e : Engine} (d : Derived) {m : MeterId}
    (h1 : 1 ≤ (e.win m).W.toNat) (h2 : (e.win m).W.toNat ≤ Config.WMAX) :
    checkWin (some (e.nextLength d m)) = true := by
  unfold Engine.nextLength
  split
  · next hc => exact checkWin_getD hc
  · simp [checkWin, h1, h2]

/-- A commit keeps each meter's invariant: the window is cleared at a checked length, or kept with a new
interval (R150). -/
theorem Engine.Inv.snapshot_meter {e : Engine} (h : e.Inv) (hcfg : e.cfg = true) (hr : HostRegs)
    (m : MeterId) : MeterInv e.cfg ((e.snapshot hr).win m) ((e.snapshot hr).mtr m) := by
  obtain ⟨hwf, hbounds⟩ := (e.inv_iff_meters.mp h).1 m
  have hb := hbounds hcfg
  rw [Engine.snapshot_win, Engine.snapshot_mtr]
  split
  · exact MeterInv.fresh (Engine.checkWin_nextLength _ hb.1 hb.2.1) _ _
  · exact ⟨hwf, fun _ => hb.retimed _⟩

theorem Engine.Inv.snapshot_delayInv {e : Engine} (h : e.Inv) (hcfg : e.cfg = true) (hr : HostRegs) :
    DelayInv (e.snapshot hr) := by
  obtain ⟨-, -, ⟨hwf, -⟩, -⟩ := e.inv_iff.mp h
  have hbounds := h.delayBounds hcfg
  unfold DelayInv DelayBounds
  rcases e.snapshot_delay hr with ⟨n, -, hn, -, hD, hbuf, hcur⟩ | ⟨-, hD, hbuf, hcur⟩
  · rw [hD, hbuf, hcur]
    exact ⟨Memory.wf_nil, fun _ => ⟨of_decide_eq_true hn, Nat.zero_le _⟩⟩
  · rw [hD, hbuf, hcur]
    exact ⟨hwf, fun _ => hbounds⟩

theorem Engine.Inv.snapshot_limiterInv {e : Engine} (h : e.Inv) (hcfg : e.cfg = true)
    (hr : HostRegs) : LimiterInv (e.snapshot hr) := by
  obtain ⟨-, -, -, hlim⟩ := e.inv_iff.mp h
  obtain ⟨hgood, hpeak⟩ := hlim hcfg
  have hL : LimitGood (e.snapshot hr) := by
    unfold LimitGood
    rw [Engine.snapshot_L]
    split
    · next hc => exact ⟨(checkLimit_good hc).1, (checkLimit_good hc).2.1⟩
    · exact hgood
  refine fun _ => ⟨hL, ?_⟩
  have hedge := e.snapshot_edge hr
  split at hedge
  · rw [hedge.1]; exact isNaN64_of_finite hL.1
  · rw [hedge.1]; exact hpeak

theorem Engine.Inv.snapshot {e : Engine} (h : e.Inv) (hcfg : e.cfg = true) (hr : HostRegs) :
    (e.snapshot hr).Inv := by
  rw [Engine.inv_iff_meters, Engine.snapshot_cfg]
  exact ⟨h.snapshot_meter hcfg hr, h.snapshot_delayInv hcfg hr, h.snapshot_limiterInv hcfg hr⟩

/-! ## Commands and steps -/

/-- The state PROCESS starts its sample from: committed first unless NC is set (R270). -/
theorem inv_processStart {s : State} (h : s.Inv) (hcfg : s.eng.cfg = true) (nc : Bool) :
    (if nc then s else commitState s).Inv ∧ (if nc then s else commitState s).eng.cfg = true := by
  cases nc with
  | true => exact ⟨h, hcfg⟩
  | false =>
    have hsnap := Engine.Inv.snapshot h hcfg s.host
    exact ⟨by simpa [State.Inv] using hsnap, by simpa using hcfg⟩

theorem exec_inv {i : Instr} {s t : State} (h : s.Inv) (hexec : exec i s = .next t) : t.Inv := by
  cases i with
  | nop => obtain rfl := Host.Outcome.next.inj hexec; exact h
  | config =>
    rcases execConfig_cases hexec with ⟨hmask, rfl⟩ | ⟨-, rfl⟩
    · exact Engine.inv_configure _ hmask
    · exact h
  | commit =>
    rcases execCommit_cases hexec with ⟨-, rfl⟩ | ⟨hcfg, rfl⟩
    · exact h
    · exact (inv_processStart h hcfg false).1
  | process nc =>
    rcases execProcess_cases hexec with ⟨-, rfl⟩ | ⟨hcfg, u, rfl, -, rfl⟩
    · exact h
    · obtain ⟨hstart, hcfg'⟩ := inv_processStart h hcfg nc
      exact Engine.Inv.processPair hstart hcfg' _ _
  | limReset =>
    rcases execLimReset_cases hexec with ⟨-, rfl⟩ | ⟨-, rfl⟩
    · exact h
    · exact Engine.Inv.limReset h
  | pfStage ch st =>
    rcases execPfStage_cases hexec with ⟨-, rfl⟩ | ⟨-, rfl⟩
    · exact h
    · exact Engine.Inv.stageStep h ..
  | pfApply ch =>
    rcases execPfApply_cases hexec with ⟨-, rfl⟩ | ⟨-, rfl⟩
    · exact h
    · exact Engine.Inv.cascadeStep h ..
  | accAdd m =>
    rcases execAccAdd_cases hexec with ⟨-, rfl⟩ | ⟨-, hcur, rfl⟩
    · exact h
    · exact Engine.Inv.accAdd h (Engine.cursorInRange_iff.mp hcur) _
  | mtrStep m =>
    rcases execMtrStep_cases hexec with ⟨-, rfl⟩ | ⟨-, rfl⟩
    · exact h
    · exact Engine.Inv.mtrStep h m
  | envCalc => rcases execEnvCalc_cases hexec with ⟨-, rfl⟩ | ⟨-, rfl⟩ <;> exact h
  | limUpdate =>
    rcases execLimUpdate_cases hexec with ⟨-, rfl⟩ | ⟨-, rfl⟩
    · exact h
    · exact Engine.Inv.limUpdate h _
  | dlyAdd =>
    rcases execDlyAdd_cases hexec with ⟨-, rfl⟩ | ⟨hcfg, -, rfl⟩
    · exact h
    · obtain ⟨hD, hcur⟩ := Engine.Inv.delayBounds h hcfg
      exact Engine.Inv.dlyAdd h (hcur.trans hD) _

/-- Settles O52: at reset the buffers are empty and the engine is not configured. -/
theorem resetSatisfiesTheInvariant : Obligations.ResetSatisfiesTheInvariant :=
  ⟨⟨Memory.wf_nil, Memory.wf_nil, Memory.wf_nil⟩, fun hcfg => absurd hcfg (by decide)⟩

/-- Settles O53: the reset engine meets the invariant and every command keeps it. -/
theorem everyStepKeepsTheInvariant : Obligations.EveryStepKeepsTheInvariant :=
  fun _ _ => step_keeps (P := Engine.Inv) resetSatisfiesTheInvariant fun _ _ _ => exec_inv

/-! ## Nothing stops -/

theorem whenConfigured_completes {s : State} {k : Host.Outcome State Fault Refusal}
    (hk : s.eng.cfg = true → Completes k) : Completes (whenConfigured s k) := by
  unfold whenConfigured
  split
  · next hcfg => exact hk hcfg
  · exact ⟨_, rfl⟩

theorem Engine.Inv.delayInRange {e : Engine} (h : e.Inv) (hcfg : e.cfg = true) :
    e.delayInRange = true :=
  Engine.delayInRange_of_bounds (h.delayBounds hcfg).2 (h.delayBounds hcfg).1

theorem Engine.Inv.processInRange {e : Engine} (h : e.Inv) (hcfg : e.cfg = true) :
    e.processInRange = true :=
  Engine.processInRange_of_bounds (h.cursor_lt hcfg .m0) (h.cursor_lt hcfg .m1)
    (h.delayBounds hcfg).2 (h.delayBounds hcfg).1

/-- Only ACC_ADD, PROCESS and DLY_ADD have a path that stops, and on the invariant their cursors are in
range. -/
theorem exec_completes {s : State} (h : s.Inv) (i : Instr) : Completes (exec i s) := by
  cases i with
  | nop => exact ⟨_, rfl⟩
  | config =>
    obtain ⟨t, ht, -⟩ := exec_config_faults s
    exact ⟨t, ht⟩
  | process nc =>
    refine whenConfigured_completes fun hcfg => ?_
    obtain ⟨hstart, hcfg'⟩ := inv_processStart h hcfg nc
    exact ⟨_, if_pos (Engine.Inv.processInRange hstart hcfg')⟩
  | accAdd m =>
    exact whenConfigured_completes fun hcfg =>
      ⟨_, if_pos (Engine.cursorInRange_iff.mpr (Engine.Inv.cursor_lt h hcfg m))⟩
  | dlyAdd =>
    exact whenConfigured_completes fun hcfg => ⟨_, if_pos (Engine.Inv.delayInRange h hcfg)⟩
  | commit | limReset | pfStage | pfApply | mtrStep | envCalc | limUpdate =>
    exact whenConfigured_completes fun _ => ⟨_, rfl⟩

theorem memWrite_completes {s : State} (h : s.Inv) (off : Offset) (width : Width) (v : Word) :
    Completes (memWrite off width v s) := by
  cases hlegal : legalAccess off width with
  | false => exact ⟨_, memWrite_illegal v s hlegal⟩
  | true =>
    obtain ⟨rfl, -, r, rfl⟩ := legalAccess_iff.mp hlegal
    by_cases hr : r = .cmd
    · subst hr
      rw [memWrite_cmd]
      cases hd : decode v with
      | ok i => rw [runCommand_ok _ hd]; exact exec_completes (s := writeRegister .cmd v s) h i
      | error e => exact ⟨_, runCommand_error _ hd⟩
    · exact ⟨_, memWrite_offsetOf v s hr⟩

/-- Settles O54: a step is idle, a read, a reset or a bus write, and a write runs at most a command. -/
theorem invariantStepsNeverStop : Obligations.InvariantStepsNeverStop := by
  refine fun s h => ⟨?_, exec_completes h⟩
  cases hpend : s.pending with
  | nil => exact ⟨s, by rw [step, acceptNext, hpend]⟩
  | cons ev rest =>
    rw [step_of_pending hpend]
    cases ev with
    | read off width => exact ⟨_, rfl⟩
    | write off width v => exact memWrite_completes (s := { s with pending := rest }) h off width v
    | hardwareReset => exact ⟨_, rfl⟩

end Sys2Proof.Machine
end

section
/-! SUPPORT and PROOFS. The output stage (R280): the clamp between −H and H, its rounding to binary32,
and the form of the bound, which is always a binary32 value (R49, R141); O48 and O49. -/

namespace Sys2Proof.Machine

/-! ## The clamp -/

/-- With a NaN bound both comparisons fail. -/
theorem hardClamp_nan_bound {H : F64} (h : isNaN64 H = true) (t : F64) : hardClamp H t = t := by
  have hneg : isNaN64 (fneg H) = true := by rw [isNaN64_fneg, h]
  have hgt : fgt t H = false := flt_nan_left h
  simp [hardClamp, hgt, flt_nan_right hneg]

theorem hardClamp_nan {H t : F64} (h : isNaN64 t = true) : hardClamp H t = t := by
  have hgt : fgt t H = false := flt_nan_right h
  simp [hardClamp, hgt, flt_nan_left h]

theorem orderKey_zero : orderKey Config.zero64 = 0 := by decide

/-- A bound of 0 or more is not a NaN, and its key is 0 or more. -/
theorem zero_le_iff {H : F64} : fle Config.zero64 H = true ↔ isNaN64 H = false ∧ 0 ≤ orderKey H := by
  have hzero : isNaN64 Config.zero64 = false := by decide
  rw [fle_iff, orderKey_zero]
  simp [hzero]

/-- The clamp of a value that is not a NaN lies between −H and H (R280). -/
theorem hardClamp_between {H t : F64} (hH : isNaN64 H = false) (h0 : 0 ≤ orderKey H)
    (ht : isNaN64 t = false) :
    isNaN64 (hardClamp H t) = false ∧ -orderKey H ≤ orderKey (hardClamp H t) ∧
      orderKey (hardClamp H t) ≤ orderKey H := by
  have hneg : isNaN64 (fneg H) = false := by rw [isNaN64_fneg, hH]
  have hkey := orderKey_fneg H
  have low : ∀ x, isNaN64 x = false → orderKey x ≤ orderKey H →
      isNaN64 (if flt x (fneg H) then fneg H else x) = false ∧
        -orderKey H ≤ orderKey (if flt x (fneg H) then fneg H else x) ∧
        orderKey (if flt x (fneg H) then fneg H else x) ≤ orderKey H := by
    intro x hx hle
    split
    · exact ⟨hneg, by omega, by omega⟩
    · next hlt =>
      have := (flt_false hx hneg).mp (Bool.eq_false_iff.mpr hlt)
      exact ⟨hx, by omega, hle⟩
  unfold hardClamp
  cases hgt : fgt t H with
  | true => exact low H hH le_rfl
  | false => exact low t ht ((fgt_false ht hH).mp hgt)

theorem hardClamp_zero {H : F64} (h : fle Config.zero64 H = true) : hardClamp H 0#64 = 0#64 := by
  obtain ⟨hH, h0⟩ := zero_le_iff.mp h
  have hneg : isNaN64 (fneg H) = false := by rw [isNaN64_fneg, hH]
  have hzero : isNaN64 0#64 = false := by decide
  have hkey : orderKey 0#64 = 0 := orderKey_zero
  have hgt : fgt 0#64 H = false := (fgt_false hzero hH).mpr (by omega)
  have hlt : flt 0#64 (fneg H) = false := (flt_false hzero hneg).mpr (by rw [orderKey_fneg]; omega)
  simp [hardClamp, hgt, hlt]

theorem Engine.output_eq (e : Engine) (d : F32) :
    e.output d = rne32 (if e.ctrl.getLsbD 3 then hardClamp e.H (e.gained d) else e.gained d) := rfl

/-- Settles O48: `Engine.output` is the formula read off its definitions; the clamp does nothing for a NaN
bound and keeps +0.0 within a bound of 0 or more. -/
theorem outputStageFollowsTheFormula : Obligations.OutputStageFollowsTheFormula := by
  rintro e d t t1 t2 ht rfl rfl
  obtain rfl : t = e.gained d := ht
  have hclamp : (if e.ctrl.getLsbD 3 = true ∧
      flt (if e.ctrl.getLsbD 3 = true ∧ fgt (e.gained d) e.H = true then e.H else e.gained d)
        (fneg e.H) = true then fneg e.H
      else if e.ctrl.getLsbD 3 = true ∧ fgt (e.gained d) e.H = true then e.H else e.gained d) =
      if e.ctrl.getLsbD 3 then hardClamp e.H (e.gained d) else e.gained d := by
    cases e.ctrl.getLsbD 3 <;> simp [hardClamp]
  rw [hclamp]
  refine ⟨e.output_eq d, fun hH => ?_, fun hmuted hbound => ?_⟩
  · rw [hardClamp_nan_bound hH, ite_self]
  · have hgained : e.gained d = 0#64 := by rw [Engine.gained, if_pos hmuted]; rfl
    rw [e.output_eq, hgained]
    rcases hbound with hoff | hpos
    · rw [hoff]; exact rne32_zero
    · rw [hardClamp_zero hpos, ite_self, rne32_zero]

/-! ## Rounding keeps a binary32 bound -/

theorem isNaN64_rtz32 {v : F64} (h : isNaN64 v = true) : isNaN64 (rtz32 v) = true := by
  rw [rtz32, if_pos h, f64_nan (isNaN32_quietNaN32 v), isNaN64_quietNaN64]

/-- A bound of the form `rtz32 v` that is not a NaN is a binary32 value (R49). -/
theorem exists_f64_of_rtz32 {v : F64} (h : isNaN64 (rtz32 v) = false) :
    ∃ b, isNaN32 b = false ∧ rtz32 v = f64 b := by
  have hv : isNaN64 v = false := by
    by_contra hc
    rw [isNaN64_rtz32 (by simpa using hc)] at h
    cases h
  obtain ⟨⟨b, hb⟩, -⟩ := rtz32_greatest hv
  refine ⟨b, ?_, hb⟩
  by_contra hc
  rw [hb, f64_nan (by simpa using hc), isNaN64_quietNaN64] at h
  cases h

theorem units64_le_of_mag64_le {x y : F64} (h : mag64 x ≤ mag64 y) : units64 x ≤ units64 y :=
  (unitsOf_strictMono 52).monotone h

/-- Rounding to binary32 makes no NaN. -/
theorem isNaN32_rne32 {v : F64} (h : isNaN64 v = false) : isNaN32 (rne32 v) = false := by
  rcases finite_or_inf64 h with hfin | hinf
  · rw [isNaN32_false, mag32_rne32 hfin]
    exact roundNearest_le_inf ..
  · rw [rne32_inf hinf, isNaN32_false, mag32_make32 _ infMag32_lt]

/-- A magnitude within that of a binary32 value stays within it when it is rounded to binary32. -/
theorem mag64_f64_rne32_le {v : F64} {b : F32} (hv : isNaN64 v = false) (hb : isNaN32 b = false)
    (h : mag64 v ≤ mag64 (f64 b)) : mag64 (f64 (rne32 v)) ≤ mag64 (f64 b) := by
  have hle : mag64 (f64 (rne32 v)) ≤ infMag64 := isNaN64_false.mp (isNaN64_f64 (isNaN32_rne32 hv))
  rcases finite_or_inf32 hb with hfin | hinf
  · have hbfin := isFinite64_iff.mp (units64_f64 hfin).1
    have hvfin : isFinite64 v = true := isFinite64_iff.mpr (h.trans_lt hbfin)
    have hround : mag32 (rne32 v) ≤ mag32 b := by
      rw [mag32_rne32 hvfin]
      refine roundNearest_le unitsPerUnit32_pos (isNaN32_false.mp hb) ?_
      rw [← units32, ← (units64_f64 hfin).2.2]
      exact units64_le_of_mag64_le h
    have hrfin : isFinite32 (rne32 v) = true :=
      isFinite32_iff.mpr (hround.trans_lt (isFinite32_iff.mp hfin))
    exact (mag64_f64_le_iff hrfin hfin).mpr hround
  · rwa [f64_inf hinf, mag64_inf64]

/-! ## The ceiling -/

theorem fle_fabs_of_mag64 {a H : F64} (ha : isNaN64 a = false) (hH : fle Config.zero64 H = true)
    (h : mag64 a ≤ mag64 H) : fle (fabs a) H = true := by
  obtain ⟨hn, h0⟩ := zero_le_iff.mp hH
  have hkey := natAbs_orderKey H
  refine fle_iff.mpr ⟨by rw [isNaN64_fabs, ha], hn, ?_⟩
  rw [orderKey_of_pos (sign64_fabs a), mag64_fabs]
  omega

/-- One output under the ceiling is a NaN or within the bound (R280). -/
theorem Engine.output_within {e : Engine} {v : F64} (hhard : e.ctrl.getLsbD 3 = true)
    (hform : e.H = rtz32 v) (hH : fle Config.zero64 e.H = true) (d : F32) :
    isNaN32 (e.output d) = true ∨ fle (fabs (f64 (e.output d))) e.H = true := by
  obtain ⟨hn, h0⟩ := zero_le_iff.mp hH
  obtain ⟨b, hb, hHb⟩ := exists_f64_of_rtz32 (hform ▸ hn)
  rw [e.output_eq, if_pos hhard]
  cases hg : isNaN64 (e.gained d) with
  | true => exact .inl (by rw [hardClamp_nan hg, rne32_nan hg, isNaN32_quietNaN32])
  | false =>
    obtain ⟨hc, hlo, hhi⟩ := hardClamp_between hn h0 hg
    have hmag : mag64 (hardClamp e.H (e.gained d)) ≤ mag64 e.H := by
      rw [← natAbs_orderKey, ← natAbs_orderKey e.H]
      omega
    refine .inr (fle_fabs_of_mag64 (isNaN64_f64 (isNaN32_rne32 hc)) hH ?_)
    have hHf : e.H = f64 b := hform.trans hHb
    rw [hHf] at hmag hc ⊢
    exact mag64_f64_rne32_le hc hb hmag

/-- The outputs of a sample are outputs of an engine with the settings the sample leaves (R280, R281). -/
theorem Engine.processPair_outputs (e : Engine) (silmin : Word) (p : StereoSample) :
    ∃ (o : Engine) (d : StereoSample), (e.processPair silmin p).2 = o.outputPair d ∧
      o.H = (e.processPair silmin p).1.H ∧ o.ctrl = (e.processPair silmin p).1.ctrl :=
  ⟨_, _, rfl, rfl, rfl⟩

theorem exec_process_within {nc : Bool} {s t : State} {v : F64} (hcfg : s.eng.cfg = true)
    (h : exec (.process nc) s = .next t) (hhard : t.eng.ctrl.getLsbD 3 = true)
    (hform : t.eng.H = rtz32 v) (hH : fle Config.zero64 t.eng.H = true) {o : F32}
    (ho : o = t.host.res0.extractLsb' 0 32 ∨ o = t.host.res1.extractLsb' 0 32) :
    isNaN32 o = true ∨ fle (fabs (f64 o)) t.eng.H = true := by
  rcases execProcess_cases h with ⟨hno, -⟩ | ⟨-, u, -, -, rfl⟩
  · rw [hcfg] at hno; cases hno
  · obtain ⟨e, d, hpair, heH, hectrl⟩ :=
      u.eng.processPair_outputs u.host.silmin (inputPair u)
    rw [finishPair, finish01_host, extractLsb'_resultF32, extractLsb'_resultF32, hpair] at ho
    rw [finishPair, finish01_eng] at hhard hform hH ⊢
    rw [← hectrl] at hhard
    rw [← heH] at hform hH ⊢
    rcases ho with rfl | rfl
    · exact Engine.output_within hhard hform hH d.l
    · exact Engine.output_within hhard hform hH d.r

/-! ## The form of the bound -/

/-- `S.H` is a binary64 rounded toward zero to binary32 (R49). -/
abbrev BoundRounded (e : Engine) : Prop := ∃ v, e.H = rtz32 v

/-- CONFIG and the commits take the bound over rounded; every other command keeps it (R141). -/
theorem exec_boundRounded {i : Instr} {s t : State} (h : BoundRounded s.eng)
    (hexec : exec i s = .next t) : BoundRounded t.eng := by
  by_cases hi : i = .config ∨ i = .commit ∨ i = .process false
  · rcases hi with rfl | rfl | rfl
    · rcases execConfig_cases hexec with ⟨-, rfl⟩ | ⟨-, rfl⟩
      · exact ⟨_, rfl⟩
      · exact h
    · rcases execCommit_cases hexec with ⟨-, rfl⟩ | ⟨-, rfl⟩
      · exact h
      · exact ⟨_, by rw [commitState_eng, Engine.snapshot_H]; rfl⟩
    · rcases execProcess_cases hexec with ⟨-, rfl⟩ | ⟨-, u, hu, -, rfl⟩
      · exact h
      · have hH : u.eng.H = (derive s.host s.eng.fs).H := by
          rw [hu, if_neg Bool.false_ne_true, commitState_eng, Engine.snapshot_H]
        exact ⟨_, (Engine.SameSettings.processPair u.eng u.host.silmin (inputPair u)).H.trans hH⟩
  · obtain ⟨h1, h2, h3⟩ : i ≠ .config ∧ i ≠ .commit ∧ i ≠ .process false := by
      simpa only [not_or] using hi
    rw [BoundRounded, (exec_sameSettings hexec h1 h2 h3).H]
    exact h

theorem rtz32_zero : rtz32 0#64 = 0#64 := by decide +kernel

theorem boundRounded_reset : BoundRounded Engine.reset := ⟨0#64, rtz32_zero.symm⟩

/-- Settles O49: `exec_process_within` for the outputs; the form of the bound holds at reset and every
command keeps it. -/
theorem hardCeilingHolds : Obligations.HardCeilingHolds :=
  ⟨fun _ _ _ _ hcfg hexec hhard hform hH _ ho => exec_process_within hcfg hexec hhard hform hH ho,
    boundRounded_reset, fun _ _ =>
      step_keeps (P := BoundRounded) boundRounded_reset fun _ _ _ => exec_boundRounded⟩

end Sys2Proof.Machine
end

section
/-! SUPPORT and PROOFS. CONFIG, COMMIT, LIM_RESET and the filter coefficients (R141 to R158, R172): the
states the three commands answer, field by field; O20, O22 to O25. -/

namespace Sys2Proof.Machine

/-! ## CONFIG (R144) -/

theorem failMask_of_checks {d : Derived} (h0 : checkWin d.W0 = true) (h1 : checkWin d.W1 = true)
    (hd : checkDelay d.Dl = true) (hl : checkLimit d.L = true) : d.failMask = 0#5 := by
  rw [Derived.failMask, h0, h1, hd, hl]
  decide

theorem exec_config_of_checks {s : State} (hfs : checkFs s.host.opa = true)
    (hfail : (derive s.host s.host.opa).failMask = 0#5) :
    exec .config s = .next { s with eng := s.eng.configure s.host s.host.opa } :=
  if_pos (show configMask s.host s.host.opa = 0#5 by rw [configMask, if_pos hfs, hfail])

/-- Settles O20: with no failed check CONFIG answers `Engine.configure`, which writes every field but NF. -/
theorem configBuildsTheEngine : Obligations.ConfigBuildsTheEngine := by
  rintro s w0 w1 dl gi go li ha rfl rfl rfl rfl hmin hmax hw0 h0 h0' hw1 h1 h1' hdl hd hpos hlt
  have hfs : checkFs s.host.opa = true := by
    rw [checkFs, Bool.and_eq_true]; exact ⟨hmin, hmax⟩
  have hW0 : (derive s.host s.host.opa).W0 = some w0 := hw0
  have hW1 : (derive s.host s.host.opa).W1 = some w1 := hw1
  have hDl : (derive s.host s.host.opa).Dl = some dl := hdl
  have hfail : (derive s.host s.host.opa).failMask = 0#5 := by
    refine failMask_of_checks ?_ ?_ ?_ ?_
    · rw [hW0, checkWin, Bool.and_eq_true]; exact ⟨decide_eq_true h0, decide_eq_true h0'⟩
    · rw [hW1, checkWin, Bool.and_eq_true]; exact ⟨decide_eq_true h1, decide_eq_true h1'⟩
    · rw [hDl]; exact decide_eq_true hd
    · rw [checkLimit, Bool.and_eq_true]; exact ⟨hpos, hlt⟩
  rw [exec_config_of_checks hfs hfail, Engine.configure, hW0, hW1, hDl]
  rfl

/-! ## COMMIT (R150) -/

/-- A window has the length the commit leaves, cleared or not. -/
theorem Engine.snapshot_win_W (e : Engine) (h : HostRegs) (m : MeterId) :
    ((e.snapshot h).win m).W = e.nextLength (derive h e.fs) m := by
  rw [Engine.snapshot_win]
  split
  · rfl
  · next hkept => exact (not_not.mp fun hne => hkept (.inl hne)).symm

/-- A meter has the interval of the length the commit leaves, cleared or not. -/
theorem Engine.snapshot_mtr_I (e : Engine) (h : HostRegs) (m : MeterId) :
    ((e.snapshot h).mtr m).I = ivl (derive h e.fs).Iv ((e.snapshot h).win m).W := by
  rw [Engine.snapshot_mtr, Engine.snapshot_win]
  split <;> rfl

theorem Engine.snapshot_D (e : Engine) (h : HostRegs) :
    (e.snapshot h).D =
      if checkDelay (derive h e.fs).Dl then (derive h e.fs).Dl.getD 0#32 else e.D := by
  rcases e.snapshot_delay h with ⟨n, hDl, hn, -, hD, -⟩ | ⟨hbad | hsame, hD, -⟩
  · rw [hD, hDl, if_pos hn]; rfl
  · rw [hD, hbad, if_neg Bool.false_ne_true]
  · rw [hD, hsame]; exact (ite_self _).symm

/-- Settles O22: each field of the snapshot has its own lemma. -/
theorem commitTakesTheSnapshot : Obligations.CommitTakesTheSnapshot := by
  rintro s gi go li ha rfl rfl rfl rfl hcfg
  refine ⟨_, exec_commit hcfg, commitState_host s, commitState_pending s, commitState_readData s, ?_⟩
  rw [commitState_eng]
  refine ⟨Engine.snapshot_gin .., Engine.snapshot_gout .., Engine.snapshot_H ..,
    Engine.snapshot_catt .., Engine.snapshot_crel .., Engine.snapshot_cup ..,
    Engine.snapshot_cdown .., Engine.snapshot_rf .., Engine.snapshot_L .., Engine.snapshot_ctrl ..,
    Engine.snapshot_win_W _ _ .m0, Engine.snapshot_win_W _ _ .m1, Engine.snapshot_mtr_I _ _ .m0,
    Engine.snapshot_mtr_I _ _ .m1, Engine.snapshot_D .., Engine.snapshot_sustain ..,
    Engine.snapshot_prevReset .., (Engine.snapshot_cfg ..).trans hcfg, Engine.snapshot_fs ..,
    Engine.snapshot_coefShelf .., Engine.snapshot_coefPass .., Engine.snapshot_histLeftShelf ..,
    Engine.snapshot_histLeftPass .., Engine.snapshot_histRightShelf ..,
    Engine.snapshot_histRightPass .., Engine.snapshot_silrun .., Engine.snapshot_muted ..,
    Engine.snapshot_nf ..⟩

/-- Settles O23: `Engine.commitClears` is the condition of each meter; the delay line and the limiter
follow `snapshot_delay` and `snapshot_edge`. -/
theorem commitClearsOnlyWhatChanged : Obligations.CommitClearsOnlyWhatChanged := by
  intro s t hcfg h
  obtain rfl := Host.Outcome.next.inj ((exec_commit hcfg).symm.trans h)
  rw [commitState_eng]
  refine ⟨fun m => ?_, ?_, s.eng.snapshot_edge s.host⟩
  · have hI := s.eng.snapshot_mtr_I s.host m
    have hmtr := s.eng.snapshot_mtr s.host m
    have hwin := s.eng.snapshot_win s.host m
    rw [s.eng.snapshot_win_W s.host m]
    split
    · next hclear =>
      rw [if_pos (show s.eng.commitClears s.host m from hclear)] at hwin hmtr
      rw [hI, hwin, hmtr]
      exact ⟨rfl, rfl⟩
    · next hkept =>
      rw [if_neg (show ¬s.eng.commitClears s.host m from hkept)] at hwin hmtr
      rw [hI, hwin, hmtr]
      exact ⟨rfl, rfl⟩
  · rcases s.eng.snapshot_delay s.host with ⟨n, -, -, hne, hD, hbuf, hcur⟩ | ⟨-, hD, hbuf, hcur⟩
    · rw [hD, if_neg hne]; exact ⟨hbuf, hcur⟩
    · rw [hD, if_pos rfl]; exact ⟨hbuf, hcur⟩

/-! ## LIM_RESET (R158) -/

/-- Settles O24: the state is `exec_limReset`'s; with no signal seen its limiter state is Cold unless
sustained. -/
theorem limResetRestoresTheLimit : Obligations.LimResetRestoresTheLimit := by
  refine ⟨by decide, fun s hcfg => ⟨_, exec_limReset hcfg, rfl, ?_⟩⟩
  obtain ⟨-, -, -, -, -, -, -, -, hstate, -⟩ :=
    statusFieldsReflectTheState { s with eng := s.eng.limReset }
  rw [hstate]
  cases hs : s.eng.sustain with
  | false => rw [if_pos (.inr ⟨hs, rfl⟩), if_neg Bool.false_ne_true]
  | true =>
    have hnot : ¬(s.eng.limReset.cfg = false ∨
        (s.eng.limReset.sustain = false ∧ s.eng.limReset.seen = false)) := by
      rw [Engine.limReset_cfg, hcfg, Engine.limReset_sustain, hs]
      rintro (h | ⟨h, -⟩) <;> cases h
    rw [if_neg hnot]
    exact if_pos ⟨hcfg, hs⟩

/-! ## Coefficients (R172) -/

/-- Settles O25: the formulas are the definitions with the constants of R170 written out. -/
theorem coefficientsFollowTheBilinearFormulas :
    Obligations.CoefficientsFollowTheBilinearFormulas := by
  intro u fs kS kkS kqS aS kP kkP kqP aP hkS hkkS hkqS haS hkP hkkP hkqP haP
  have hwarpS : warped u Config.F0S fs = kS := hkS.symm
  have hwarpP : warped u Config.F0H fs = kP := hkP.symm
  subst hkkS hkqS haS hkkP hkqP haP
  rw [coefficientsShelf, coefficientsPass, hwarpS, hwarpP]
  exact ⟨rfl, rfl⟩

end Sys2Proof.Machine
end

section
/-! SUPPORT and PROOFS. Runs of commands: what every command of a run keeps, the run keeps, and a ring of
slots written in turn holds the last values; the filter history, the accumulator, the meter and the delay
line (R175, R190 to R196, R260 to R262); O31 to O33, O35, O45. -/

namespace Sys2Proof.Machine

/-! ## Runs -/

/-- Induction over a run of one command: `P done s` says what holds once the operands `done` have been
used. -/
theorem runEach_induction {α : Type} {load : α → State → State} {i : Instr}
    {P : List α → State → Prop}
    (hstep : ∀ done a s, P done s → ∃ t, exec i (load a s) = .next t ∧ P (done ++ [a]) t)
    (as done : List α) (s : State) (hP : P done s) :
    ∃ t, runEach load i as s = .next t ∧ P (done ++ as) t := by
  induction as generalizing done s with
  | nil => exact ⟨s, rfl, by rwa [List.append_nil]⟩
  | cons a as ih =>
    obtain ⟨u, hu, hPu⟩ := hstep done a s hP
    obtain ⟨t, ht, hPt⟩ := ih (done ++ [a]) u hPu
    refine ⟨t, ?_, by rwa [List.append_assoc, List.singleton_append] at hPt⟩
    rw [runEach, hu]
    exact ht

/-- What each command of a run keeps, the run keeps. -/
theorem runEach_keeps {α : Type} {load : α → State → State} {i : Instr} {P : State → Prop}
    (hstep : ∀ a s, P s → ∃ t, exec i (load a s) = .next t ∧ P t) (as : List α) {s : State}
    (hP : P s) : ∃ t, runEach load i as s = .next t ∧ P t :=
  runEach_induction (P := fun _ => P) (fun _ => hstep) as [] s hP

/-! ## Rings of slots -/

/-- Of a ring of `W` slots written in turn from slot 0 with the values `vs`: the slot `j` places behind
the cursor holds the `j`-th most recent value, or `d` when there were fewer. -/
def RingHolds {α : Type} (W : Nat) (d : α) (slot : Nat → α) (vs : List α) : Prop :=
  ∀ j, j < W → slot ((vs.length + W - 1 - j) % W) = vs.reverse.getD j d

theorem RingHolds.nil {α : Type} {W : Nat} {d : α} {slot : Nat → α} (h : ∀ i, slot i = d) :
    RingHolds W d slot [] :=
  fun _ _ => h _

/-- Within one turn no two places of the ring are the same slot. -/
theorem add_mod_ne_self {n k W : Nat} (hk : 0 < k) (hkW : k < W) : (n + k) % W ≠ n % W := by
  intro h
  have hmod : k ≡ 0 [MOD W] := Nat.ModEq.add_left_cancel' n h
  exact absurd (Nat.le_of_dvd hk (Nat.modEq_zero_iff_dvd.mp hmod)) (not_le.mpr hkW)

/-- The next value goes to the slot at the cursor, the oldest. -/
theorem RingHolds.push {α : Type} {W : Nat} {d a : α} {slot slot' : Nat → α} {vs : List α}
    (h : RingHolds W d slot vs)
    (hslot : ∀ i, slot' i = if i = vs.length % W then a else slot i) :
    RingHolds W d slot' (vs ++ [a]) := by
  intro j hj
  rw [hslot, List.length_append, List.length_singleton, List.reverse_append, List.reverse_singleton,
    List.singleton_append]
  cases j with
  | zero =>
    have hcur : vs.length + 1 + W - 1 - 0 = vs.length + W := by omega
    rw [hcur, Nat.add_mod_right, if_pos rfl, List.getD_cons_zero]
  | succ j =>
    have hback : vs.length + 1 + W - 1 - (j + 1) = vs.length + (W - 1 - j) := by omega
    have hsame : vs.length + (W - 1 - j) = vs.length + W - 1 - j := by omega
    rw [hback, if_neg (add_mod_ne_self (by omega) (by omega)), List.getD_cons_succ, hsame]
    exact h j (by omega)

/-- A cursor that wraps at `W` counts modulo `W`. -/
theorem succ_mod_eq {n W : Nat} (hW : 0 < W) :
    (n + 1) % W = if n % W + 1 = W then 0 else n % W + 1 := by
  have hlt := Nat.mod_lt n hW
  rw [← Nat.mod_add_mod]
  split
  · next h => rw [h, Nat.mod_self]
  · next h => exact Nat.mod_eq_of_lt (by omega)

/-! ## A NaN in the filter history (R175) -/

theorem fsub_nan_right {a b : F64} (h : isNaN64 b = true) : isNaN64 (fsub a b) = true := by
  simp [fsub, addCore, h]

/-- A NaN operand or a NaN newest output goes through the five terms. -/
theorem stageOutput_nan {c : Coefs} {h : History} {x : F64}
    (hnan : isNaN64 x = true ∨ isNaN64 h.y1 = true) : isNaN64 (stageOutput c h x) = true := by
  unfold stageOutput
  rcases hnan with hx | hy
  · exact fsub_nan_left (fsub_nan_left (fadd_nan_left (fadd_nan_left (fmul_nan_right hx))))
  · exact fsub_nan_left (fsub_nan_right (fmul_nan_right hy))

/-- The newest output of a stage is a NaN. -/
abbrev Engine.NewestNaN (ch : Channel) (st : Stage) (e : Engine) : Prop :=
  isNaN64 (e.hist ch st).y1 = true

theorem Engine.NewestNaN.stageStep {ch : Channel} {st : Stage} {e : Engine}
    (h : e.NewestNaN ch st) (ch' : Channel) (st' : Stage) (x : F64) :
    (e.stageStep ch' st' x).NewestNaN ch st := by
  unfold Engine.NewestNaN
  by_cases hsame : (ch, st) = (ch', st')
  · obtain ⟨rfl, rfl⟩ := Prod.mk.inj hsame
    rw [Engine.hist_stageStep_same]
    exact stageOutput_nan (.inr h)
  · rw [Engine.hist_stageStep_other _ _ hsame]
    exact h

theorem Engine.NewestNaN.cascadeStep {ch : Channel} {st : Stage} {e : Engine}
    (h : e.NewestNaN ch st) (ch' : Channel) (x : F64) : (e.cascadeStep ch' x).NewestNaN ch st :=
  (h.stageStep ..).stageStep ..

theorem Engine.snapshot_hist (e : Engine) (h : HostRegs) (ch : Channel) (st : Stage) :
    (e.snapshot h).hist ch st = e.hist ch st := by
  cases ch <;> cases st <;> simp [Engine.hist]

theorem Engine.NewestNaN.processPair {ch : Channel} {st : Stage} {e : Engine}
    (h : e.NewestNaN ch st) (silmin : Word) (p : StereoSample) :
    (e.processPair silmin p).1.NewestNaN ch st := by
  unfold Engine.NewestNaN
  rw [Engine.processPair_hist]
  refine Engine.NewestNaN.cascadeStep (Engine.NewestNaN.cascadeStep ?_ _ _) _ _
  rw [Engine.NewestNaN, Engine.silence_hist]
  exact h

/-- A command but CONFIG moves the history by stage steps alone (R171, R173). -/
theorem exec_newestNaN {ch : Channel} {st : Stage} {i : Instr} {s t : State} (hi : i ≠ .config)
    (h : s.eng.NewestNaN ch st) (hexec : exec i s = .next t) : t.eng.NewestNaN ch st := by
  cases i with
  | nop => obtain rfl := Host.Outcome.next.inj hexec; exact h
  | config => exact absurd rfl hi
  | commit =>
    rcases execCommit_cases hexec with ⟨-, rfl⟩ | ⟨-, rfl⟩
    · exact h
    · rw [commitState_eng, Engine.NewestNaN, Engine.snapshot_hist]; exact h
  | process nc =>
    rcases execProcess_cases hexec with ⟨-, rfl⟩ | ⟨-, u, hu, -, rfl⟩
    · exact h
    · have hstart : u.eng.NewestNaN ch st := by
        cases nc
        · rw [hu, if_neg Bool.false_ne_true, commitState_eng, Engine.NewestNaN,
            Engine.snapshot_hist]
          exact h
        · rw [hu, if_pos rfl]; exact h
      exact hstart.processPair _ _
  | limReset => rcases execLimReset_cases hexec with ⟨-, rfl⟩ | ⟨-, rfl⟩ <;> cases ch <;> cases st <;> exact h
  | pfStage ch' st' =>
    rcases execPfStage_cases hexec with ⟨-, rfl⟩ | ⟨-, rfl⟩
    · exact h
    · exact h.stageStep ..
  | pfApply ch' =>
    rcases execPfApply_cases hexec with ⟨-, rfl⟩ | ⟨-, rfl⟩
    · exact h
    · exact h.cascadeStep ..
  | accAdd m =>
    rcases execAccAdd_cases hexec with ⟨-, rfl⟩ | ⟨-, -, rfl⟩ <;>
      cases m <;> cases ch <;> cases st <;> exact h
  | mtrStep m =>
    rcases execMtrStep_cases hexec with ⟨-, rfl⟩ | ⟨-, rfl⟩ <;>
      cases m <;> cases ch <;> cases st <;> exact h
  | envCalc => rcases execEnvCalc_cases hexec with ⟨-, rfl⟩ | ⟨-, rfl⟩ <;> cases ch <;> cases st <;> exact h
  | limUpdate => rcases execLimUpdate_cases hexec with ⟨-, rfl⟩ | ⟨-, rfl⟩ <;> cases ch <;> cases st <;> exact h
  | dlyAdd => rcases execDlyAdd_cases hexec with ⟨-, rfl⟩ | ⟨-, -, rfl⟩ <;> cases ch <;> cases st <;> exact h

/-- Settles O31: the output of a stage step is a NaN and becomes the newest one; no other command but
CONFIG writes the history. -/
theorem naNStaysInTheFilterHistory : Obligations.NaNStaysInTheFilterHistory := by
  refine ⟨fun ch st s hcfg hnan => ⟨_, exec_pfStage ch st hcfg, stageOutput_nan hnan, ?_⟩,
    fun ch st s t h hreset hconfig hstep =>
      step_keeps_but_config (P := Engine.NewestNaN ch st) (fun _ _ _ => exec_newestNaN)
        hreset hconfig h hstep⟩
  rw [finish0_eng, Engine.hist_stageStep_same]
  exact stageOutput_nan hnan

/-! ## The accumulator (R190 to R192) -/

/-- An insertion writes the slot at the cursor and no other. -/
theorem Window.slot_insert {w : Window} (hwf : Memory.wf 0#64 Config.WMAX w.buf) (v : F64) (i : Nat) :
    (w.insert v).slot i = if i = w.cur.toNat then v else w.slot i := by
  split
  · next h => rw [h]; exact Memory.read_write_same hwf
  · next h => exact Memory.read_write_other h

/-- The insertion cursor in numbers, also beyond the window length (R191). -/
theorem Window.nextCur_toNat_of_lt {w : Window} (h : w.cur.toNat < 1048576) :
    w.nextCur.toNat = if w.cur.toNat + 1 = w.W.toNat then 0 else w.cur.toNat + 1 := by
  have hadd : (w.cur + 1#32).toNat = w.cur.toNat + 1 :=
    BitVec.toNat_add_of_lt (by rw [BitVec.toNat_ofNat]; omega)
  unfold Window.nextCur
  by_cases hend : w.cur + 1#32 = w.W
  · rw [if_pos hend, if_pos (by rw [← hadd, hend])]; rfl
  · rw [if_neg hend, if_neg (fun hc => hend (BitVec.eq_of_toNat_eq (hadd.trans hc))), hadd]

/-- ACC_ADD with the operand loaded: the window of the meter takes the operand (R192). -/
theorem exec_accAdd_withOpa {m : MeterId} {s : State} (hcfg : s.eng.cfg = true)
    (hcur : (s.eng.win m).cur.toNat < 1048576) (v : F64) :
    ∃ t, exec (.accAdd m) (withOpa v s) = .next t ∧ t.eng = s.eng.accAdd m v :=
  ⟨_, exec_accAdd (s := withOpa v s) hcfg (Engine.cursorInRange_iff.mpr hcur), rfl⟩

@[simp] theorem Engine.accAdd_win (e : Engine) (m : MeterId) (v : F64) :
    (e.accAdd m v).win m = (e.win m).insert v :=
  e.win_setWin_same m _

@[simp] theorem Engine.accAdd_cfg (e : Engine) (m : MeterId) (v : F64) :
    (e.accAdd m v).cfg = e.cfg :=
  e.setWin_cfg m _

/-- What a run of ACC_ADD needs to go on: a configured engine and a cursor in the window. -/
structure AccRuns (m : MeterId) (W : Word) (s : State) : Prop where
  cfg : s.eng.cfg = true
  length : (s.eng.win m).W = W
  cursor : (s.eng.win m).cur.toNat < W.toNat
  fits : W.toNat ≤ 1048576

theorem AccRuns.insert {m : MeterId} {W : Word} {s t : State} {v : F64} (h : AccRuns m W s)
    (ht : t.eng = s.eng.accAdd m v) : AccRuns m W t := by
  obtain ⟨hcfg, hW, hcur, hfits⟩ := h
  refine ⟨by rw [ht, Engine.accAdd_cfg, hcfg], by rw [ht, Engine.accAdd_win]; exact hW, ?_, hfits⟩
  rw [ht, Engine.accAdd_win]
  show (s.eng.win m).nextCur.toNat < W.toNat
  rw [Window.nextCur_toNat (hW ▸ hcur), hW]
  split <;> omega

theorem AccRuns.exec {m : MeterId} {W : Word} {s : State} (h : AccRuns m W s) (v : F64) :
    ∃ t, exec (.accAdd m) (withOpa v s) = .next t ∧ t.eng = s.eng.accAdd m v ∧ AccRuns m W t := by
  obtain ⟨t, ht, heng⟩ := exec_accAdd_withOpa h.cfg (h.cursor.trans_le h.fits) v
  exact ⟨t, ht, heng, h.insert heng⟩

/-- Settles O32: one insertion is `Window.insert`, read field by field; a NaN sum stays one through every
insertion, and LIM_RESET clears the window. -/
theorem insertionIsTwoCompensatedSteps : Obligations.InsertionIsTwoCompensatedSteps := by
  refine ⟨?_, fun m s vs hcfg hcur hfits hnan => ?_⟩
  · intro m s w v old y1 t1 c1 y2 t2 c2 hcfg hw hcur hwf hv hold hy1 ht1 hc1 hy2 ht2 hc2
    subst hc2 ht2 hy2 hc1 ht1 hy1 hold hv hw
    refine ⟨_, _, exec_accAdd hcfg (Engine.cursorInRange_iff.mpr hcur), rfl, ?_⟩
    rw [finish01_eng, Engine.accAdd_win]
    refine ⟨fun hfin => Window.insert_of_not_inf hfin, fun h => Window.insert_sum_nan (.inr h), rfl,
      rfl, Window.slot_insert hwf _, Window.nextCur_toNat_of_lt hcur, Window.nextFill_toNat _, ?_⟩
    cases m <;> rfl
  · have hstart : AccRuns m (s.eng.win m).W s ∧ isNaN64 (s.eng.win m).sum = true :=
      ⟨⟨hcfg, rfl, hcur, hfits⟩, hnan⟩
    obtain ⟨t, ht, hruns, hsum⟩ := runEach_keeps
      (P := fun u => AccRuns m (s.eng.win m).W u ∧ isNaN64 (u.eng.win m).sum = true)
      (fun v u ⟨hu, hsum⟩ => by
        obtain ⟨t, ht, heng, hruns⟩ := hu.exec v
        refine ⟨t, ht, hruns, ?_⟩
        rw [heng, Engine.accAdd_win]
        exact Window.insert_sum_nan (.inl hsum)) vs hstart
    refine ⟨t, _, ht, hsum, exec_limReset hruns.cfg, ?_⟩
    rw [Engine.limReset_win]
    rfl

/-- After the insertions `vs` into a cleared window of `W` slots. -/
structure WindowAfter (m : MeterId) (W : Word) (vs : List F64) (s : State) : Prop where
  runs : AccRuns m W s
  canonical : Memory.wf 0#64 Config.WMAX (s.eng.win m).buf
  cursor : (s.eng.win m).cur.toNat = vs.length % W.toNat
  fill : (s.eng.win m).fill.toNat = min vs.length W.toNat
  holds : RingHolds W.toNat 0#64 (s.eng.win m).slot vs

theorem WindowAfter.start {m : MeterId} {W : Word} {s : State} (hcfg : s.eng.cfg = true)
    (hwin : s.eng.win m = Window.fresh W) (h1 : 1 ≤ W.toNat) (hfits : W.toNat ≤ 1048576) :
    WindowAfter m W [] s where
  runs := ⟨hcfg, by rw [hwin]; rfl, by rw [hwin]; exact h1, hfits⟩
  canonical := by rw [hwin]; exact Memory.wf_nil
  cursor := by rw [hwin, List.length_nil, Nat.zero_mod]; rfl
  fill := by rw [hwin, List.length_nil, Nat.zero_min]; rfl
  holds := RingHolds.nil fun i => by rw [hwin, Window.slot_fresh]

theorem WindowAfter.insert {m : MeterId} {W : Word} {vs : List F64} {s t : State} {v : F64}
    (h : WindowAfter m W vs s) (ht : t.eng = s.eng.accAdd m v) : WindowAfter m W (vs ++ [v]) t := by
  obtain ⟨hruns, hwf, hcur, hfill, hring⟩ := h
  have hW := hruns.length
  have hpos : 0 < W.toNat := Nat.zero_lt_of_lt hruns.cursor
  have hwin : t.eng.win m = (s.eng.win m).insert v := by rw [ht, Engine.accAdd_win]
  refine ⟨hruns.insert ht, ?_, ?_, ?_, ?_⟩
  · rw [hwin]
    exact Memory.wf_write hwf (hruns.cursor.trans_le hruns.fits)
  · rw [hwin]
    show (s.eng.win m).nextCur.toNat = _
    rw [Window.nextCur_toNat (hW ▸ hruns.cursor), hW, hcur, List.length_append,
      List.length_singleton, succ_mod_eq hpos]
  · rw [hwin]
    show (s.eng.win m).nextFill.toNat = _
    rw [Window.nextFill_toNat, hW, hfill, List.length_append, List.length_singleton]
    split <;> omega
  · refine hring.push fun i => ?_
    rw [hwin, Window.slot_insert hwf, hcur]

theorem WindowAfter.exec {m : MeterId} {W : Word} {vs : List F64} {s : State}
    (h : WindowAfter m W vs s) (v : F64) :
    ∃ t, exec (.accAdd m) (withOpa v s) = .next t ∧ t.eng = s.eng.accAdd m v ∧
      WindowAfter m W (vs ++ [v]) t := by
  obtain ⟨t, ht, heng, -⟩ := h.runs.exec v
  exact ⟨t, ht, heng, h.insert heng⟩

/-- Settles O33: `WindowAfter` holds of the cleared window and each insertion extends it. -/
theorem windowHoldsTheLastInsertions : Obligations.WindowHoldsTheLastInsertions := by
  intro m s W vs hcfg hwin h1 hfits
  obtain ⟨t, ht, hafter⟩ := runEach_induction (load := withOpa) (P := WindowAfter m W)
    (fun _ v _ h => (h.exec v).imp fun _ ⟨hexec, _, hnext⟩ => ⟨hexec, hnext⟩) vs [] s
    (WindowAfter.start hcfg hwin h1 hfits)
  rw [List.nil_append] at hafter
  exact ⟨t, ht, hafter.runs.length, hafter.cursor, hafter.fill, hafter.holds⟩

/-! ## The meter (R195, R196) -/

/-- After `n` recomputation steps of a meter with interval `I` on a window of `W` slots, one per
insertion. -/
structure MeterAfter (I W : Word) (n : Nat) (o : Meter) : Prop where
  interval : o.I = I
  counter : o.dc.toNat = n % I.toNat
  ready : o.valid = true ↔ W.toNat ≤ I.toNat * (n / I.toNat)

/-- The step after the `n + 1`st insertion recomputes when `I` divides `n + 1`, and then sees the window
full when `W ≤ n + 1`. -/
theorem MeterAfter.step {I W : Word} {n : Nat} {o : Meter} (h : MeterAfter I W n o) (hI : 1 ≤ I.toNat)
    {w : Window} (hw : w.W = W) (hfill : w.fill.toNat = min (n + 1) W.toNat) :
    MeterAfter I W (n + 1) (o.step w) := by
  obtain ⟨hoI, hdc, hvalid⟩ := h
  have hmod := succ_mod_eq (n := n) hI
  have hdiv := Nat.div_add_mod n I.toNat
  have hdiv' := Nat.div_add_mod (n + 1) I.toNat
  have hlt := Nat.mod_lt n hI
  have hfields := o.step_fields w
  rw [hoI, hdc] at hfields
  split at hfields
  · next helapsed =>
    obtain ⟨hdc', -, hvalid'⟩ := hfields
    have hend : n % I.toNat + 1 = I.toNat := by omega
    rw [if_pos hend] at hmod
    have hfull : w.fill = w.W ↔ W.toNat ≤ n + 1 := by
      rw [← BitVec.toNat_inj, hfill, hw]
      omega
    refine ⟨by rw [Meter.step_I, hoI], by rw [hdc', hmod]; rfl, ?_⟩
    rw [hvalid', Bool.or_eq_true, hvalid, decide_eq_true_eq, hfull]
    omega
  · next hrunning =>
    obtain ⟨hdc', -, hvalid'⟩ := hfields
    rw [if_neg (by omega)] at hmod
    have hquot : I.toNat * (n / I.toNat) = I.toNat * ((n + 1) / I.toNat) := by omega
    exact ⟨by rw [Meter.step_I, hoI], by rw [hdc', hmod], by rw [hvalid', hvalid, hquot]⟩

/-- MTR_STEP after an insertion: only the meter changes. -/
theorem exec_mtrStep_withOpa {m : MeterId} {s : State} (hcfg : s.eng.cfg = true) (v : F64) :
    ∃ t, exec (.mtrStep m) (withOpa v s) = .next t ∧
      t.eng = s.eng.setMtr m ((s.eng.mtr m).step (s.eng.win m)) :=
  ⟨_, exec_mtrStep (s := withOpa v s) m hcfg, rfl⟩

theorem WindowAfter.congr {m : MeterId} {W : Word} {vs : List F64} {s t : State}
    (h : WindowAfter m W vs s) (hcfg : t.eng.cfg = s.eng.cfg) (hwin : t.eng.win m = s.eng.win m) :
    WindowAfter m W vs t := by
  obtain ⟨⟨hc, hW, hlt, hfits⟩, hwf, hcur, hfill, hring⟩ := h
  rw [← hcfg] at hc
  rw [← hwin] at hW hlt hwf hcur hfill hring
  exact ⟨⟨hc, hW, hlt, hfits⟩, hwf, hcur, hfill, hring⟩

/-- The commands of one sample on a meter: the insertion, then the meter step (R275). -/
def meterCommands (m : MeterId) (v : F64) : List (Instr × F64) := [(.accAdd m, v), (.mtrStep m, 0#64)]

theorem runCommands_cons_of_exec {i : Instr} {v : F64} {rest : List (Instr × F64)} {s t : State}
    (h : exec i (withOpa v s) = .next t) :
    runCommands ((i, v) :: rest) s = runCommands rest t := by
  rw [runCommands, h]

theorem runCommands_meterCommands {m : MeterId} {W I : Word} (hI : 1 ≤ I.toNat) (vs : List F64)
    {done : List F64} {s : State} (hwin : WindowAfter m W done s)
    (hmtr : MeterAfter I W done.length (s.eng.mtr m)) :
    ∃ t, runCommands (vs.flatMap (meterCommands m)) s = .next t ∧
      MeterAfter I W (done ++ vs).length (t.eng.mtr m) := by
  induction vs generalizing done s with
  | nil => exact ⟨s, rfl, by rwa [List.append_nil]⟩
  | cons v vs ih =>
    obtain ⟨a, ha, haeng, hawin⟩ := hwin.exec v
    obtain ⟨b, hb, hbeng⟩ := exec_mtrStep_withOpa (m := m) hawin.runs.cfg 0#64
    have hlen : (done ++ [v]).length = done.length + 1 := by simp
    have hbwin : WindowAfter m W (done ++ [v]) b :=
      hawin.congr (by rw [hbeng, Engine.setMtr_cfg]) (by rw [hbeng, Engine.win_setMtr])
    have hamtr : a.eng.mtr m = s.eng.mtr m := by
      rw [haeng, Engine.accAdd, Engine.mtr_setWin]
    have hbmtr : MeterAfter I W (done ++ [v]).length (b.eng.mtr m) := by
      rw [hbeng, Engine.mtr_setMtr_same, hamtr, hlen]
      exact hmtr.step hI hawin.runs.length (by rw [hawin.fill, hlen])
    obtain ⟨t, ht, hafter⟩ := ih hbwin hbmtr
    rw [List.append_assoc, List.singleton_append] at hafter
    refine ⟨t, ?_, hafter⟩
    rw [List.flatMap_cons, meterCommands, List.cons_append, List.cons_append, List.nil_append,
      runCommands_cons_of_exec ha, runCommands_cons_of_exec hb]
    exact ht

/-- Settles O35: the window and the meter are followed through the run together. -/
theorem meterBecomesValidAfterAFullWindow : Obligations.MeterBecomesValidAfterAFullWindow := by
  intro m s W I vs hcfg hwin hmtr h1 hfits hI
  have hstart : MeterAfter I W 0 (s.eng.mtr m) := by
    rw [hmtr]
    refine ⟨rfl, (Nat.zero_mod _).symm, ?_⟩
    rw [Nat.zero_div, Nat.mul_zero]
    exact ⟨nofun, fun h => absurd (h1.trans h) (by decide)⟩
  obtain ⟨t, ht, hafter⟩ := runCommands_meterCommands hI vs
    (WindowAfter.start hcfg hwin h1 hfits) hstart
  rw [List.nil_append] at hafter
  exact ⟨t, ht, hafter.counter, hafter.ready⟩

/-! ## The delay line (R260 to R262) -/

/-- After the pairs `ps` through a cleared delay line of length `D`: the line is a ring of `D + 1`
slots. -/
structure DelayAfter (D : Word) (ps : List StereoSample) (s : State) : Prop where
  cfg : s.eng.cfg = true
  length : s.eng.D = D
  canonical : Memory.wf StereoSample.zero (Config.DMAX + 1) s.eng.dbuf
  cursor : s.eng.dcur.toNat = ps.length % (D.toNat + 1)
  holds : RingHolds (D.toNat + 1) StereoSample.zero s.eng.delaySlot ps

theorem DelayAfter.cursor_le {D : Word} {ps : List StereoSample} {s : State}
    (h : DelayAfter D ps s) : s.eng.dcur.toNat ≤ s.eng.D.toNat := by
  rw [h.cursor, h.length]
  exact Nat.le_of_lt_succ (Nat.mod_lt _ (Nat.succ_pos _))

theorem inputPair_withPair (p : StereoSample) (s : State) : inputPair (withPair p s) = p := by
  show StereoSample.mk (loWord (withLo s.host.opa p.l)) (loWord (withLo s.host.opb p.r)) = p
  rw [loWord_withLo, loWord_withLo]

/-- One DLY_ADD stores the pair, moves the cursor and answers the slot there. -/
theorem DelayAfter.exec {D : Word} (hD : D.toNat ≤ 65535) {ps : List StereoSample} {s : State}
    (h : DelayAfter D ps s) (p : StereoSample) :
    ∃ t, exec .dlyAdd (withPair p s) = .next t ∧ DelayAfter D (ps ++ [p]) t ∧
      t.host.res0 = (t.eng.delaySlot t.eng.dcur.toNat).l.setWidth 64 ∧
      t.host.res1 = (t.eng.delaySlot t.eng.dcur.toNat).r.setWidth 64 := by
  have hcur := h.cursor_le
  obtain ⟨hcfg, hlen, hwf, hcursor, hring⟩ := h
  have hrange := Engine.delayInRange_of_bounds (e := s.eng) hcur (hlen ▸ hD)
  have hexec := exec_dlyAdd (s := withPair p s) hcfg hrange
  rw [inputPair_withPair] at hexec
  refine ⟨_, hexec, ⟨hcfg, hlen, ?_, ?_, ?_⟩, rfl, rfl⟩
  · exact Memory.wf_write hwf (Nat.lt_succ_of_le (hcur.trans (hlen ▸ hD)))
  · show (delayNext s.eng.D s.eng.dcur).toNat = _
    rw [delayNext_toNat hcur, List.length_append, List.length_singleton,
      succ_mod_eq (Nat.succ_pos _), ← hcursor]
    by_cases hend : s.eng.dcur = s.eng.D
    · rw [if_pos hend, if_pos (by rw [hend, hlen])]
    · refine (if_neg hend).trans (if_neg fun hc => hend (BitVec.eq_of_toNat_eq ?_)).symm
      rw [hlen]
      exact Nat.succ.inj hc
  · refine hring.push fun i => ?_
    rw [← hcursor]
    exact Engine.delaySlot_dlyAdd p hwf i

theorem runEach_append_singleton {α : Type} {load : α → State → State} {i : Instr} {a : α}
    {as : List α} {s t : State} (h : runEach load i as s = .next t) :
    runEach load i (as ++ [a]) s = exec i (load a t) := by
  induction as generalizing s with
  | nil =>
    obtain rfl := Host.Outcome.next.inj h
    rw [List.nil_append, runEach]
    cases exec i (load a s) <;> rfl
  | cons b as ih =>
    rw [runEach] at h
    rw [List.cons_append, runEach]
    split at h
    · next u hu => exact ih h
    · cases h
    · cases h

/-- Settles O45: after the last pair the cursor stands on the oldest of the `D + 1` slots. -/
theorem delayLineDelaysByItsLength : Obligations.DelayLineDelaysByItsLength := by
  intro s earlier p hcfg hD hbuf hcur
  have hstart : DelayAfter s.eng.D [] s := by
    refine ⟨hcfg, rfl, by rw [hbuf]; exact Memory.wf_nil, by rw [hcur]; exact (Nat.zero_mod _).symm,
      RingHolds.nil fun i => ?_⟩
    rw [Engine.delaySlot, hbuf, Memory.read_nil]
  obtain ⟨u, hu, hafter⟩ := runEach_induction (load := withPair) (P := DelayAfter s.eng.D)
    (fun _ p _ h => (h.exec hD p).imp fun _ ⟨hexec, hnext, _⟩ => ⟨hexec, hnext⟩) earlier [] s hstart
  rw [List.nil_append] at hafter
  obtain ⟨t, ht, hnext, hres0, hres1⟩ := hafter.exec hD p
  have hout : t.eng.delaySlot t.eng.dcur.toNat =
      (earlier ++ [p]).reverse.getD s.eng.D.toNat StereoSample.zero := by
    rw [← hnext.holds s.eng.D.toNat (Nat.lt_succ_self _), hnext.cursor]
    congr 2
    omega
  have hlen : (earlier ++ [p]).length = earlier.length + 1 := by simp
  refine ⟨t, (runEach_append_singleton hu).trans ht, fun hfew => ?_, fun hmany => ?_⟩
  · rw [List.getD_eq_default _ _ (by rw [List.length_reverse, hlen]; omega)] at hout
    rw [hres0, hres1, hout]
    exact ⟨rfl, rfl⟩
  · refine ⟨t.eng.delaySlot t.eng.dcur.toNat, ?_, hres0, hres1⟩
    have hlt : s.eng.D.toNat < (earlier ++ [p]).length := by omega
    rw [hout, List.getD_eq_getElem?_getD, List.getElem?_reverse hlt, hlen,
      show earlier.length + 1 - 1 - s.eng.D.toNat = earlier.length - s.eng.D.toNat by omega,
      List.getElem?_eq_getElem (by omega), Option.getD_some]

end Sys2Proof.Machine
end

section
/-! SUPPORT and PROOFS. The envelope and the limiter, command by command (R222, R241 to R243). -/

namespace Sys2Proof.Machine

/-! ## The envelope (R220, R222 to R224) -/

theorem exec_envCalc_withOpa {s : State} (hcfg : s.eng.cfg = true) (T : F64) :
    exec .envCalc (withOpa T s) = .next (finish0 (withOpa T s) (s.eng.envStep T) (s.eng.envValue T)) :=
  exec_envCalc (s := withOpa T s) hcfg

/-- With the flag clear the envelope is the linear one (R220). -/
theorem Engine.envValue_linear {e : Engine} (h : e.ctrl.getLsbD 2 = false) (T : F64) :
    e.envValue T = envLinear e.catt e.crel e.env T := by
  rw [Engine.envValue, show e.envModel = false from h, if_neg Bool.false_ne_true]

/-- With the flag set the envelope is the exponential one (R220). -/
theorem Engine.envValue_exp {e : Engine} (h : e.ctrl.getLsbD 2 = true) (T : F64) :
    e.envValue T = envExp e.cup e.cdown e.env T := by
  rw [Engine.envValue, show e.envModel = true from h, if_pos rfl]

/-- But for a target of `+Infinity` the linear envelope is R223's pseudocode; on a NaN value always. -/
theorem envLinear_of_ne {catt crel v T : F64} (h : T ≠ Config.inf64 ∨ isNaN64 v = true) :
    envLinear catt crel v T = floorEps
      (if fgt T v then clampAbove (fadd v (fmul (fsub T v) catt)) T
      else clampBelow (fadd v (fmul (fsub T v) crel)) T) := by
  rw [envLinear, linearStep_of_ne h, linearStep_of_ne h]

/-- Settles O36: the two models and their corner cases are stated one by one above. -/
theorem envelopeStepFollowsItsModel : Obligations.EnvelopeStepFollowsItsModel := by
  intro s T v r hcfg hT hlin hexp
  refine ⟨s.eng.envValue s.host.opa, exec_envCalc hcfg, ?_⟩
  rw [← hT]
  refine ⟨fun h => Engine.envValue_nan (.inr h), fun hmodel hinf hv => ?_, fun hne hnn => ?_⟩
  · obtain ⟨hv', -⟩ := hlin hmodel
    rw [hv'] at hv
    rw [Engine.envValue_linear hmodel, hinf]
    exact envLinear_inf hv
  · cases hmodel : s.eng.ctrl.getLsbD 2 with
    | false =>
      obtain ⟨hv, hr⟩ := hlin hmodel
      have hne := hne hmodel
      rw [hr, hv]
      rw [hv] at hne
      rw [Engine.envValue_linear hmodel]
      exact envLinear_of_ne hne
    | true =>
      obtain ⟨hv, hr⟩ := hexp hmodel
      rw [hr, hv, Engine.envValue_exp hmodel]
      exact envExp_of_not_nan (hnn hmodel)

/-- Settles O38, by induction on the run: a NaN value makes the next value a NaN in either model. -/
theorem envelopeKeepsANaN : Obligations.EnvelopeKeepsANaN := by
  refine ⟨fun s hcfg hT => ⟨_, exec_envCalc hcfg, Engine.envValue_nan (.inr hT), rfl⟩,
    fun s targets hcfg hnan => ?_⟩
  obtain ⟨t, ht, hcfg', hnan'⟩ := runEach_keeps (load := withOpa)
    (P := fun u => u.eng.cfg = true ∧ isNaN64 u.eng.env = true)
    (fun T u ⟨hu, hn⟩ => ⟨_, exec_envCalc_withOpa hu T, hu, Engine.envValue_nan (.inl hn)⟩)
    targets ⟨hcfg, hnan⟩
  exact ⟨t, _, ht, hnan', exec_limReset hcfg', rfl⟩

/-! ## Selection and the limiter's peak (R14, R243) -/

theorem exec_limUpdate_withOpa {s : State} (hcfg : s.eng.cfg = true) (e : F64) :
    exec .limUpdate (withOpa e s) = .next (finish01 (withOpa e s) (s.eng.limUpdate e)
      (s.eng.gainValue e) (s.eng.peakValue e)) :=
  exec_limUpdate (s := withOpa e s) hcfg

theorem fgt_zero_iff {x : F64} :
    fgt x Config.zero64 = true ↔ isNaN64 x = false ∧ 0 < orderKey x := by
  rw [fgt_iff, orderKey_zero]
  exact and_congr_right fun _ => and_iff_right (by decide)

/-- A selected maximum is at least its second operand when that is not a NaN (R14). -/
theorem maxsel_ge_right {a b : F64} (hb : isNaN64 b = false) :
    isNaN64 (maxsel a b) = false ∧ orderKey b ≤ orderKey (maxsel a b) := by
  rcases maxsel_cases a b with ⟨h, hgt⟩ | ⟨h, -⟩ <;> rw [h]
  · obtain ⟨ha, -, hlt⟩ := fgt_iff.mp hgt
    exact ⟨ha, hlt.le⟩
  · exact ⟨hb, le_rfl⟩

/-- The floored peak is the larger of limit and peak. -/
theorem limFloor_spec {L p : F64} (hL : isNaN64 L = false) (hp : isNaN64 p = false) :
    isNaN64 (limFloor L p) = false ∧ orderKey L ≤ orderKey (limFloor L p) ∧
      orderKey p ≤ orderKey (limFloor L p) ∧ (limFloor L p = p ∨ limFloor L p = L) := by
  unfold limFloor
  split
  · next h => exact ⟨hL, le_rfl, (flt_iff.mp h).2.2.le, .inr rfl⟩
  · next h => exact ⟨hp, (flt_false hp hL).mp (by simpa using h), le_rfl, .inl rfl⟩

/-- Attack, release and hold all leave the peak at or above the limit (R243, R244). -/
theorem limit_le_limPeak {L rf p e : F64} {b : Bool} (hL : isNaN64 L = false)
    (hp : isNaN64 p = false) : orderKey L ≤ orderKey (limPeak L rf b p e) := by
  obtain ⟨-, hfloor, -, -⟩ := limFloor_spec hL hp
  unfold limPeak
  split
  · next h => exact hfloor.trans (fgt_iff.mp h).2.2.le
  · split
    · obtain ⟨hn, hle⟩ := maxsel_ge_right (a := e) hL
      exact hle.trans (maxsel_ge_right hn).2
    · exact hfloor

/-- Settles O40: R243's conditions are the model's, and a peak at or above a positive limit is
positive. -/
theorem limiterTransitionFollowsTheRule : Obligations.LimiterTransitionFollowsTheRule := by
  intro s e p0 p1 g hcfg he hp0 hp1 hg
  have hfloor : p0 = limFloor s.eng.L s.eng.peak := hp0
  have hpeak : p1 = s.eng.peakValue s.host.opa := by
    rw [hp1, he, hfloor]
    simp only [Engine.peakValue, limPeak, Bool.and_eq_true, Bool.not_eq_true', and_assoc]
  have hgain : g = s.eng.gainValue s.host.opa := by
    rw [hg, hpeak]; rfl
  refine ⟨by rw [hgain, hpeak]; exact exec_limUpdate hcfg, fun hL hp => ?_⟩
  obtain ⟨hLn, hL0⟩ := fgt_zero_iff.mp hL
  obtain ⟨hn, hle, -, -⟩ := limFloor_spec hLn hp
  rw [hfloor, hpeak]
  exact ⟨fgt_zero_iff.mpr ⟨hn, hL0.trans_le hle⟩,
    fgt_zero_iff.mpr ⟨limPeak_notNaN hLn hp, hL0.trans_le (limit_le_limPeak hLn hp)⟩⟩

/-! ### The gain -/

/-- Two neighbouring magnitudes differ by at least the `2^-53`-th part of the larger one. -/
theorem units_gap {a b : Nat} (h : a < b) :
    unitsOf 52 b ≤ 2 ^ 53 * (unitsOf 52 b - unitsOf 52 a) := by
  obtain ⟨m, rfl⟩ : ∃ m, b = m + 1 := ⟨b - 1, by omega⟩
  obtain ⟨sh, k, hm, hk, hsh⟩ : ∃ sh k, m = sh * 2 ^ 52 + k ∧ k < 2 ^ 53 ∧ (sh ≠ 0 → 2 ^ 52 ≤ k) :=
    ⟨m / 2 ^ 52 - 1, m - (m / 2 ^ 52 - 1) * 2 ^ 52, by omega, by omega, by omega⟩
  have hlow : unitsOf 52 m = k * 2 ^ sh := hm ▸ unitsOf_shifted hk.le hsh
  have hhigh : unitsOf 52 (m + 1) = (k + 1) * 2 ^ sh := by
    rw [hm, Nat.add_assoc]
    exact unitsOf_shifted hk fun h => (hsh h).trans (Nat.le_succ k)
  have hle : unitsOf 52 a ≤ unitsOf 52 m := (unitsOf_strictMono 52).monotone (Nat.le_of_lt_succ h)
  have hgap : 2 ^ sh ≤ unitsOf 52 (m + 1) - unitsOf 52 a := by
    rw [hlow] at hle; rw [hhigh, Nat.add_mul, Nat.one_mul]; omega
  calc unitsOf 52 (m + 1) = (k + 1) * 2 ^ sh := hhigh
    _ ≤ 2 ^ 53 * 2 ^ sh := Nat.mul_le_mul_right _ hk
    _ ≤ _ := Nat.mul_le_mul_left _ hgap

/-- The largest value below 1.0 is `1 - 2^-53`. -/
theorem units_below_one :
    unitsOf 52 (mag64 Config.one64 - 1) + 2 ^ 1021 = unitsPerOne ∧ unitsPerOne = 2 ^ 53 * 2 ^ 1021 := by
  decide +kernel

/-- A quotient by a larger value is below 1.0 also after rounding (R244). -/
theorem mag64_fdiv_lt_one {a b : F64} (ha : isFinite64 a = true) (hb : isFinite64 b = true)
    (h : mag64 a < mag64 b) : mag64 (fdiv a b) < mag64 Config.one64 := by
  have hz : isZero64 b = false := by simp [isZero64]; omega
  have hone : 0 < mag64 Config.one64 := by decide
  rw [fdiv_finite ha hb hz, mag64_round64]
  refine (roundNearest_le (mag := mag64 Config.one64 - 1) (units64_pos (by omega)) ?_ ?_).trans_lt
    (Nat.sub_lt hone one_pos)
  · rw [mag64_one]; norm_num [infMag64]
  · have hgap := units_gap h
    have hlt := unitsOf_strictMono 52 h
    obtain ⟨hbelow, hunits⟩ := units_below_one
    change units64 b ≤ 2 ^ 53 * (units64 b - units64 a) at hgap
    change units64 a < units64 b at hlt
    have hscaled := Nat.mul_le_mul_right (2 ^ 1021) hgap
    generalize unitsOf 52 (mag64 Config.one64 - 1) = below at *
    generalize (2 : Nat) ^ 1021 = q at *
    obtain ⟨d, hd⟩ := Nat.exists_eq_add_of_lt hlt
    rw [show units64 b - units64 a = d + 1 by omega] at hscaled
    have hbelow' : below * units64 b + q * units64 b = unitsPerOne * units64 b := by
      rw [← Nat.add_mul, hbelow]
    have hsplit : unitsPerOne * units64 b = units64 a * unitsPerOne + 2 ^ 53 * (d + 1) * q := by
      rw [hunits, hd]; ring
    rw [Nat.mul_comm (units64 b) q] at hscaled
    omega

/-- A quotient of equal values is 1.0. -/
theorem mag64_fdiv_self {a b : F64} (ha : isFinite64 a = true) (hb : isFinite64 b = true)
    (h0 : 0 < mag64 b) (h : mag64 a = mag64 b) : mag64 (fdiv a b) = mag64 Config.one64 := by
  have hz : isZero64 b = false := by simp [isZero64]; omega
  have hunits : units64 a = units64 b := by rw [units64, h, units64]
  rw [fdiv_finite ha hb hz, mag64_round64, hunits, Nat.mul_comm, ← units64_one]
  exact roundNearest_unitsOf (units64_pos h0) (by rw [mag64_one]; norm_num [infMag64])

/-- A value above half a unit does not round to zero. -/
theorem roundNearest_pos {num den : Nat} (hd : 0 < den) (h : den < 2 * num) :
    0 < roundNearest 52 infMag64 num den := by
  rcases Nat.lt_or_ge num den with hlt | hge
  · have hup : roundsUp 0 num den = true := by simp [roundsUp, h]
    simp [roundNearest, roundShift, Nat.div_eq_of_lt hlt, Nat.mod_eq_of_lt hlt, hup, infMag64]
  · refine le_roundNearest (mag := 1) hd (by norm_num [infMag64]) ?_
    simpa [unitsOf] using hge

/-- `2^-51` in units: more than the half of the infinity's place over the units of 1.0. -/
theorem units_quantum :
    2 * (unitsOf 52 0x3CC0000000000000 * unitsPerOne) = unitsOf 52 infMag64 := by
  decide +kernel

/-- A limit of at least `2^-51` over any finite peak is not lost to underflow (R244). -/
theorem mag64_fdiv_pos {a b : F64} (ha : isFinite64 a = true) (hb : isFinite64 b = true)
    (h0 : 0 < mag64 b) (h : 0x3CC0000000000000 ≤ mag64 a) : 0 < mag64 (fdiv a b) := by
  have hz : isZero64 b = false := by simp [isZero64]; omega
  rw [fdiv_finite ha hb hz, mag64_round64]
  refine roundNearest_pos (units64_pos h0) ?_
  calc units64 b < unitsOf 52 infMag64 := unitsOf_strictMono 52 (isFinite64_iff.mp hb)
    _ = 2 * (unitsOf 52 0x3CC0000000000000 * unitsPerOne) := units_quantum.symm
    _ ≤ _ := Nat.mul_le_mul_left _ (Nat.mul_le_mul_right _ ((unitsOf_strictMono 52).monotone h))

/-- Settles O41: between positive finite values the key is the magnitude, and the four facts about the
rounded quotient are stated one by one above. -/
theorem gainNeverExceedsOne : Obligations.GainNeverExceedsOne := by
  intro s t hcfg hL h0 hp hexec hfin
  obtain rfl := Host.Outcome.next.inj ((exec_limUpdate hcfg).symm.trans hexec)
  have hLn := isNaN64_of_finite hL
  change isFinite64 (s.eng.peakValue s.host.opa) = true at hfin
  show fle s.eng.L (s.eng.peakValue s.host.opa) = true ∧
    s.eng.gainValue s.host.opa = fdiv s.eng.L (s.eng.peakValue s.host.opa) ∧
    fle (s.eng.gainValue s.host.opa) Config.one64 = true ∧
    (feq (s.eng.gainValue s.host.opa) Config.one64 = true ↔
      feq (s.eng.peakValue s.host.opa) s.eng.L = true) ∧
    (_ → flt Config.zero64 (s.eng.gainValue s.host.opa) = true)
  have hge : orderKey s.eng.L ≤ orderKey (s.eng.peakValue s.host.opa) := limit_le_limPeak hLn hp
  have hgain : s.eng.gainValue s.host.opa = limGain s.eng.L (s.eng.peakValue s.host.opa) := rfl
  generalize s.eng.peakValue s.host.opa = p at *
  have hpn := isNaN64_of_finite hfin
  have hp0 : fgt p Config.zero64 = true :=
    fgt_zero_iff.mpr ⟨hpn, (fgt_zero_iff.mp h0).2.trans_le hge⟩
  have hdiv : s.eng.gainValue s.host.opa = fdiv s.eng.L p := by rw [hgain, limGain, if_pos hp0]
  obtain ⟨hLs, hLm⟩ := sign_mag_of_positive h0
  obtain ⟨hps, hpm⟩ := sign_mag_of_positive hp0
  have hLk := orderKey_of_pos hLs
  have hpk := orderKey_of_pos hps
  have hz : isZero64 p = false := by simp [isZero64]; omega
  have hgn : isNaN64 (fdiv s.eng.L p) = false := by
    rw [fdiv_finite hL hfin hz]; exact isNaN64_round64 ..
  have hgs : sign64 (fdiv s.eng.L p) = false := by
    rw [sign64_fdiv hgn, hLs, hps]; rfl
  have hgk := orderKey_of_pos hgs
  have hone : isNaN64 Config.one64 = false := by decide
  have honek : orderKey Config.one64 = mag64 Config.one64 := by decide
  have hmag : mag64 s.eng.L ≤ mag64 p := by omega
  have hle := mag64_fdiv_le_one hL hfin hpm hmag
  rw [hdiv]
  refine ⟨fle_iff.mpr ⟨hLn, hpn, hge⟩, rfl, fle_iff.mpr ⟨hgn, hone, by omega⟩, ?_, fun hq => ?_⟩
  · rw [feq_iff, feq_iff, hgk, honek, hpk, hLk]
    simp only [hgn, hone, hpn, hLn, true_and, Nat.cast_inj]
    constructor
    · intro heq
      by_contra hne
      have := mag64_fdiv_lt_one hL hfin (by omega)
      omega
    · exact fun heq => mag64_fdiv_self hL hfin hpm heq.symm
  · have hquant : orderKey 0x3CC0000000000000#64 = 0x3CC0000000000000 := by decide
    have hkey := (fle_iff.mp hq).2.2
    have hpos := mag64_fdiv_pos hL hfin hpm (by omega)
    exact fgt_zero_iff.mpr ⟨hgn, by omega⟩

/-! ### Infinite sustain -/

/-- Under infinite sustain the peak takes the maximum of peak, limit and estimate, an estimate that is a
NaN counting for nothing. -/
theorem limPeak_sustain {L rf p e : F64} (hL : isNaN64 L = false) (hp : isNaN64 p = false) :
    orderKey p ≤ orderKey (limPeak L rf true p e) ∧
    (isNaN64 e = false → orderKey e ≤ orderKey (limPeak L rf true p e)) ∧
    (limPeak L rf true p e = p ∨ limPeak L rf true p e = L ∨ limPeak L rf true p e = e) := by
  obtain ⟨hn, hfloor, hold, hor⟩ := limFloor_spec hL hp
  simp only [limPeak, Bool.not_true, Bool.and_false, Bool.false_eq_true, if_false]
  split
  · next h => exact ⟨hold.trans (fgt_iff.mp h).2.2.le, fun _ => le_rfl, .inr (.inr rfl)⟩
  · next h =>
    refine ⟨hold, fun he => (fgt_false he hn).mp (by simpa using h), ?_⟩
    exact hor.imp_right .inl

/-- After a run of LIM_UPDATE with the estimates `es` from a state `s` under infinite sustain. -/
structure SustainAfter (s : State) (es : List F64) (t : State) : Prop where
  configured : t.eng.cfg = true
  sustain : t.eng.sustain = true
  limit : t.eng.L = s.eng.L
  notNaN : isNaN64 t.eng.peak = false
  oldPeak : orderKey s.eng.peak ≤ orderKey t.eng.peak
  floored : es ≠ [] → orderKey s.eng.L ≤ orderKey t.eng.peak
  estimates : ∀ e ∈ es, isNaN64 e = false → orderKey e ≤ orderKey t.eng.peak
  among : t.eng.peak = s.eng.peak ∨ t.eng.peak = s.eng.L ∨ t.eng.peak ∈ es

theorem SustainAfter.exec {s u : State} {es : List F64} (hL : isNaN64 s.eng.L = false)
    (h : SustainAfter s es u) (e : F64) :
    ∃ t, exec .limUpdate (withOpa e u) = .next t ∧ SustainAfter s (es ++ [e]) t := by
  refine ⟨_, exec_limUpdate_withOpa h.configured e, ?_⟩
  have hLu : isNaN64 u.eng.L = false := h.limit ▸ hL
  have hpeak : u.eng.peakValue e = limPeak u.eng.L u.eng.rf true u.eng.peak e := by
    rw [Engine.peakValue, h.sustain]
  obtain ⟨hold, hest, hor⟩ := limPeak_sustain (rf := u.eng.rf) (e := e) hLu h.notNaN
  have hge := limit_le_limPeak (rf := u.eng.rf) (b := true) (e := e) hLu h.notNaN
  have hnn := limPeak_notNaN (rf := u.eng.rf) (b := true) (e := e) hLu h.notNaN
  rw [← hpeak] at hold hest hor hge hnn
  refine ⟨h.configured, h.sustain, h.limit, hnn, h.oldPeak.trans hold, fun _ => h.limit ▸ hge, ?_, ?_⟩
  · intro x hx hxn
    rcases List.mem_append.mp hx with hx | hx
    · exact (h.estimates x hx hxn).trans hold
    · obtain rfl := List.mem_singleton.mp hx
      exact hest hxn
  · show u.eng.peakValue e = _ ∨ u.eng.peakValue e = _ ∨ u.eng.peakValue e ∈ _
    rw [List.mem_append, List.mem_singleton]
    rcases hor with hor | hor | hor
    · rw [hor]
      exact h.among.imp_right fun h' => h'.imp_right .inl
    · exact .inr (.inl (hor.trans h.limit))
    · exact .inr (.inr (.inr hor))

/-- Settles O42, by induction on the estimates with `SustainAfter`. -/
theorem sustainHoldsTheRunningMaximum : Obligations.SustainHoldsTheRunningMaximum := by
  intro s es hcfg hsus hL hp hne
  have hLn := (fgt_zero_iff.mp hL).1
  obtain ⟨t, ht, h⟩ := runEach_induction (load := withOpa) (P := SustainAfter s)
    (fun _ e _ h => h.exec hLn e) es [] s
    ⟨hcfg, hsus, rfl, hp, le_rfl, fun h => absurd rfl h,
      fun _ he => absurd he List.not_mem_nil, .inl rfl⟩
  rw [List.nil_append] at h
  exact ⟨t, ht, fle_iff.mpr ⟨hp, h.notNaN, h.oldPeak⟩, fle_iff.mpr ⟨hLn, h.notNaN, h.floored hne⟩,
    fun e he hen => fle_iff.mpr ⟨hen, h.notNaN, h.estimates e he hen⟩, h.among⟩

/-! ### The infinite estimate -/

theorem inf64_eq : Config.inf64 = inf64 false := by decide

theorem orderKey_le_inf {x : F64} (h : isNaN64 x = false) : orderKey x ≤ orderKey Config.inf64 := by
  have habs := natAbs_orderKey x
  have hm := isNaN64_false.mp h
  rw [inf64_eq, orderKey_of_pos (sign64_inf64 _), mag64_inf64]
  omega

/-- A value that is not a NaN and reaches the place of `+Infinity` is `+Infinity`. -/
theorem eq_inf_of_orderKey {x : F64} (hn : isNaN64 x = false)
    (h : orderKey Config.inf64 ≤ orderKey x) : x = Config.inf64 := by
  have hinf : orderKey Config.inf64 = infMag64 := by decide
  have hkey := le_antisymm (orderKey_le_inf hn) h
  have habs := natAbs_orderKey x
  have hs : sign64 x = false := by
    rw [← Bool.not_eq_true]
    intro hs
    rw [hinf, orderKey_of_neg hs] at hkey
    norm_num [infMag64] at hkey
    omega
  have hmag : mag64 x = infMag64 := by omega
  rw [eq_inf64_of_isInf64 (isInf64_iff.mpr hmag), hs, inf64_eq]

theorem fgt_inf (x : F64) : fgt x Config.inf64 = false := by
  rw [← Bool.not_eq_true, fgt_iff]
  rintro ⟨hx, -, h⟩
  exact absurd h (orderKey_le_inf hx).not_gt

theorem limFloor_inf {L : F64} : limFloor L Config.inf64 = Config.inf64 :=
  if_neg (by rw [show flt Config.inf64 L = fgt L Config.inf64 from rfl, fgt_inf]; exact Bool.false_ne_true)

/-- Infinity times a positive factor is infinity (R11). -/
theorem fmul_inf_pos {c : F64} (h : fgt c Config.zero64 = true) :
    fmul Config.inf64 c = Config.inf64 := by
  obtain ⟨hs, hm⟩ := sign_mag_of_positive h
  rcases finite_or_inf64 (fgt_zero_iff.mp h).1 with hc | hc
  · rw [inf64_eq, fmul_inf_left false hc hm, hs]; rfl
  · rw [eq_inf64_of_isInf64 hc, hs]; decide

/-- A positive finite value over infinity is zero (R11). -/
theorem fdiv_inf_right {a : F64} (ha : isFinite64 a = true) (hs : sign64 a = false) :
    fdiv a Config.inf64 = 0#64 := by
  have hn : isNaN64 Config.inf64 = false := by decide
  have hi : isInf64 Config.inf64 = true := by decide
  have hsi : sign64 Config.inf64 = false := by decide
  simp only [fdiv, isNaN64_of_finite ha, hn, Bool.or_self, Bool.false_eq_true, if_false,
    isInf64_of_finite ha, hi, if_true, hs, hsi, bne_self_eq_false]
  decide

/-- From an infinite peak every update leaves the peak infinite, with a positive release factor
(R241). -/
theorem limPeak_from_inf {L rf e : F64} {b : Bool} (hL : isFinite64 L = true)
    (hrf : fgt rf Config.zero64 = true) : limPeak L rf b Config.inf64 e = Config.inf64 := by
  unfold limPeak
  rw [limFloor_inf, fgt_inf, if_neg Bool.false_ne_true, fmul_inf_pos hrf]
  split
  · next h =>
    have he : fgt Config.inf64 e = true := (Bool.and_eq_true_iff.mp (Bool.and_eq_true_iff.mp h).1).1
    refine if_pos ?_
    rcases maxsel_cases e L with ⟨hm, -⟩ | ⟨hm, -⟩ <;> rw [hm]
    · exact he
    · rw [inf64_eq]; exact (finite_between_infinities hL).1
  · rfl

/-- An infinite estimate makes the peak infinite (R241). -/
theorem limPeak_to_inf {L rf p : F64} {b : Bool} (hL : isNaN64 L = false) (hp : isNaN64 p = false) :
    limPeak L rf b p Config.inf64 = Config.inf64 := by
  obtain ⟨hn, -, -, hor⟩ := limFloor_spec hL hp
  have hnlt : flt Config.inf64 (limFloor L p) = false := fgt_inf _
  unfold limPeak
  split
  · rfl
  · next h =>
    rw [hnlt, Bool.false_and, Bool.false_and, if_neg Bool.false_ne_true]
    have hge : orderKey Config.inf64 ≤ orderKey (limFloor L p) :=
      (fgt_false (by decide) hn).mp (by simpa using h)
    exact eq_inf_of_orderKey hn hge

theorem limGain_inf {L : F64} (hL : isFinite64 L = true) (h0 : fgt L Config.zero64 = true) :
    limGain L Config.inf64 = 0#64 := by
  rw [limGain, if_pos (by decide), fdiv_inf_right hL (sign_mag_of_positive h0).1]

/-- The state after an infinite estimate: both stay while the release factor is positive. -/
structure MutedPeak (L rf : F64) (s : State) : Prop where
  configured : s.eng.cfg = true
  limit : s.eng.L = L
  factor : s.eng.rf = rf
  peak : s.eng.peak = Config.inf64
  gain : s.eng.gain = 0#64

/-- Settles O43: the three parts are about the peak alone, which fixes the gain. -/
theorem infiniteEstimateMutes : Obligations.InfiniteEstimateMutes := by
  refine ⟨fun s hcfg hL h0 hp hopa => ?_, fun s es hcfg hL h0 hrf hpeak hgain => ?_,
    fun s t hL hp hexec => ?_⟩
  · have hpeak : s.eng.peakValue s.host.opa = Config.inf64 := by
      rw [hopa]; exact limPeak_to_inf (isNaN64_of_finite hL) hp
    have hgain : s.eng.gainValue s.host.opa = 0#64 := by
      rw [Engine.gainValue, hpeak]; exact limGain_inf hL h0
    exact ⟨_, exec_limUpdate hcfg, hgain, hpeak, hgain, hpeak⟩
  · obtain ⟨t, ht, h⟩ := runEach_keeps (load := withOpa) (P := MutedPeak s.eng.L s.eng.rf)
      (fun e u h => by
        have hpeak : u.eng.peakValue e = Config.inf64 := by
          rw [Engine.peakValue, h.peak, h.limit, h.factor]; exact limPeak_from_inf hL hrf
        have hgain : u.eng.gainValue e = 0#64 := by
          rw [Engine.gainValue, hpeak, h.limit]; exact limGain_inf hL h0
        exact ⟨_, exec_limUpdate_withOpa h.configured e, h.configured, h.limit, h.factor, hpeak,
          hgain⟩) es ⟨hcfg, rfl, rfl, hpeak, hgain⟩
    exact ⟨t, ht, h.peak, h.gain⟩
  · rcases execLimUpdate_cases hexec with ⟨-, rfl⟩ | ⟨-, rfl⟩
    · exact hp
    · exact limPeak_notNaN hL hp

end Sys2Proof.Machine
end

section
/-! SUPPORT and PROOFS. The envelope moves towards its target (R226). -/

namespace Sys2Proof.Machine

/-! ## Selection by an order -/

theorem clampAbove_min {a b : F64} (ha : isNaN64 a = false) (hb : isNaN64 b = false) :
    isNaN64 (clampAbove a b) = false ∧ orderKey (clampAbove a b) = min (orderKey a) (orderKey b) := by
  unfold clampAbove
  split
  · next h => exact ⟨hb, (min_eq_right (fgt_iff.mp h).2.2.le).symm⟩
  · next h => exact ⟨ha, (min_eq_left ((fgt_false ha hb).mp (by simpa using h))).symm⟩

theorem clampBelow_max {a b : F64} (ha : isNaN64 a = false) (hb : isNaN64 b = false) :
    isNaN64 (clampBelow a b) = false ∧ orderKey (clampBelow a b) = max (orderKey a) (orderKey b) := by
  unfold clampBelow
  split
  · next h => exact ⟨hb, (max_eq_right (flt_iff.mp h).2.2.le).symm⟩
  · next h => exact ⟨ha, (max_eq_left ((flt_false ha hb).mp (by simpa using h))).symm⟩

theorem floorEps_max {a : F64} (ha : isNaN64 a = false) :
    isNaN64 (floorEps a) = false ∧ orderKey (floorEps a) = max (orderKey a) (orderKey Config.EPS) :=
  clampBelow_max (b := Config.EPS) ha (by decide)

theorem maxsel_max {a b : F64} (ha : isNaN64 a = false) (hb : isNaN64 b = false) :
    isNaN64 (maxsel a b) = false ∧ orderKey (maxsel a b) = max (orderKey a) (orderKey b) := by
  rcases maxsel_cases a b with ⟨h, hgt⟩ | ⟨h, hgt⟩ <;> rw [h]
  · exact ⟨ha, (max_eq_left (fgt_iff.mp hgt).2.2.le).symm⟩
  · exact ⟨hb, (max_eq_right ((fgt_false ha hb).mp hgt)).symm⟩

/-! ## Signs of the units -/

theorem signedUnits64_zero : signedUnits64 Config.zero64 = 0 := by decide

theorem signedUnits64_fneg (x : F64) : signedUnits64 (fneg x) = -signedUnits64 x := by
  rw [signedUnits64, signedUnits64, sign64_fneg, units64_fneg]
  cases sign64 x <;> simp

theorem orderKey_nonneg_iff {x : F64} : 0 ≤ orderKey x ↔ 0 ≤ signedUnits64 x := by
  have h := orderKey_le_iff_units (a := Config.zero64) (b := x)
  rwa [orderKey_zero, signedUnits64_zero] at h

theorem orderKey_nonpos_iff {x : F64} : orderKey x ≤ 0 ↔ signedUnits64 x ≤ 0 := by
  have h := orderKey_le_iff_units (a := x) (b := Config.zero64)
  rwa [orderKey_zero, signedUnits64_zero] at h

/-- A finite key lies strictly between those of the infinities. -/
theorem isFinite64_iff_orderKey {x : F64} :
    isFinite64 x = true ↔ -(infMag64 : Int) < orderKey x ∧ orderKey x < infMag64 := by
  have h := natAbs_orderKey x
  rw [isFinite64_iff]
  omega

/-! ## Differences, sums and products of finite values -/

/-- A rounded difference stays at or below a value that the exact one does not exceed. -/
theorem fsub_le {a b c : F64} (ha : isFinite64 a = true) (hb : isFinite64 b = true)
    (hc : isNaN64 c = false) (h : signedUnits64 a - signedUnits64 b ≤ signedUnits64 c) :
    orderKey (fsub a b) ≤ orderKey c := by
  rw [fsub_finite ha hb]
  exact addFinite_le hc (by rw [signedUnits64_fneg]; omega)

/-- A rounded difference stays at or above a value that the exact one reaches. -/
theorem le_fsub {a b c : F64} (ha : isFinite64 a = true) (hb : isFinite64 b = true)
    (hc : isNaN64 c = false) (h : signedUnits64 c ≤ signedUnits64 a - signedUnits64 b) :
    orderKey c ≤ orderKey (fsub a b) := by
  rw [fsub_finite ha hb]
  exact le_addFinite hc (by rw [signedUnits64_fneg]; omega)

/-- A step by a value of 0 or more does not go down, a step by one of 0 or less not up. -/
theorem fadd_finite_mono {a b : F64} (ha : isFinite64 a = true) (hb : isFinite64 b = true) :
    isNaN64 (fadd a b) = false ∧ (0 ≤ orderKey b → orderKey a ≤ orderKey (fadd a b)) ∧
      (orderKey b ≤ 0 → orderKey (fadd a b) ≤ orderKey a) := by
  have hn := isNaN64_of_finite ha
  rw [fadd_finite ha hb, orderKey_nonneg_iff, orderKey_nonpos_iff]
  exact ⟨isNaN64_addFinite a b, fun h => le_addFinite hn (by omega), fun h => addFinite_le hn (by omega)⟩

theorem mag64_fmul_zero {a b : F64} (ha : isFinite64 a = true) (hb : isFinite64 b = true)
    (h : mag64 a = 0 ∨ mag64 b = 0) : mag64 (fmul a b) = 0 := by
  have hunits : units64 a * units64 b = 0 := by
    rcases h with h | h
    · rw [units64, h, units_zero, Nat.zero_mul]
    · rw [units64, units64, h, units_zero, Nat.mul_zero]
  rw [fmul_finite ha hb, hunits, round64_zero _ unitsPerOne_pos]
  exact mag64_make64 _ (by norm_num)

/-- A product by a factor of 0 or more keeps the side of zero. -/
theorem fmul_side {a b : F64} (ha : isFinite64 a = true) (hb : isFinite64 b = true)
    (h0 : 0 ≤ orderKey b) :
    (0 ≤ orderKey a → 0 ≤ orderKey (fmul a b)) ∧ (orderKey a ≤ 0 → orderKey (fmul a b) ≤ 0) := by
  have habs := natAbs_orderKey (fmul a b)
  by_cases hz : mag64 a = 0 ∨ mag64 b = 0
  · have hm := mag64_fmul_zero ha hb hz
    omega
  · have hsign : sign64 (fmul a b) = (sign64 a != sign64 b) := by
      rw [fmul_finite ha hb, sign64_round64]
    have hbs : sign64 b = false := by
      rw [← Bool.not_eq_true]
      intro hs
      rw [orderKey_of_neg hs] at h0
      omega
    cases hs : sign64 a with
    | false =>
      rw [hs, hbs] at hsign
      rw [orderKey_of_pos hs, orderKey_of_pos hsign]
      omega
    | true =>
      rw [hs, hbs] at hsign
      rw [orderKey_of_neg hs, orderKey_of_neg hsign]
      omega

/-- A product by a factor between 0 and 1.0 lies between zero and the value. -/
theorem fmul_shrinks {a c : F64} (ha : isFinite64 a = true) (h0 : fle Config.zero64 c = true)
    (h1 : fle c Config.one64 = true) :
    isFinite64 (fmul a c) = true ∧
    (0 ≤ orderKey a → 0 ≤ orderKey (fmul a c) ∧ orderKey (fmul a c) ≤ orderKey a) ∧
    (orderKey a ≤ 0 → orderKey (fmul a c) ≤ 0) := by
  have hone : orderKey Config.one64 = mag64 Config.one64 := by decide
  have honelt : mag64 Config.one64 < infMag64 := by decide
  have hc0 := (zero_le_iff.mp h0).2
  have hc1 := (fle_iff.mp h1).2.2
  have hcabs := natAbs_orderKey c
  have hc : isFinite64 c = true := isFinite64_iff.mpr (by omega)
  have hmag := mag64_fmul_le ha hc (by omega)
  obtain ⟨hpos, hneg⟩ := fmul_side ha hc hc0
  have haabs := natAbs_orderKey a
  have hpabs := natAbs_orderKey (fmul a c)
  refine ⟨isFinite64_iff.mpr (hmag.trans_lt (isFinite64_iff.mp ha)), fun h => ⟨hpos h, ?_⟩, hneg⟩
  have := hpos h
  omega

/-- A positive value times a factor of 1.0 or more does not go down. -/
theorem fmul_grows {a c : F64} (ha : isFinite64 a = true) (h0 : 0 < orderKey a)
    (h1 : fle Config.one64 c = true) :
    isNaN64 (fmul a c) = false ∧ orderKey a ≤ orderKey (fmul a c) := by
  have hone : orderKey Config.one64 = mag64 Config.one64 := by decide
  have honepos : 0 < mag64 Config.one64 := by decide
  obtain ⟨-, hcn, hc1⟩ := fle_iff.mp h1
  have hcabs := natAbs_orderKey c
  have haabs := natAbs_orderKey a
  obtain ⟨has, ham⟩ := sign_mag_of_positive (fgt_zero_iff.mpr ⟨isNaN64_of_finite ha, h0⟩)
  obtain ⟨hcs, hcm⟩ := sign_mag_of_positive (fgt_zero_iff.mpr ⟨hcn, show 0 < orderKey c by omega⟩)
  rcases finite_or_inf64 hcn with hc | hc
  · have hmag := le_mag64_fmul ha hc (by omega)
    have hpos := (fmul_side ha hc (by omega)).1 h0.le
    have hpabs := natAbs_orderKey (fmul a c)
    refine ⟨?_, by omega⟩
    rw [fmul_finite ha hc]
    exact isNaN64_round64 ..
  · have haz : isZero64 a = false := by simp [isZero64]; omega
    have hcz : isZero64 c = false := by simp [isZero64]; omega
    have hprod : fmul a c = Config.inf64 := by
      simp [fmul, isNaN64_of_finite ha, hcn, hc, haz, hcz, has, hcs, inf64_eq]
    rw [hprod]
    exact ⟨by decide, orderKey_le_inf (isNaN64_of_finite ha)⟩

/-! ## Infinite differences -/

/-- Minus infinity times a positive finite factor, added to a finite value, is minus infinity (R11). -/
theorem fadd_fmul_neg_inf {v c : F64} (hv : isFinite64 v = true) (hc : isFinite64 c = true)
    (h0 : fgt c Config.zero64 = true) :
    fadd v (fmul (inf64 true) c) = inf64 true := by
  obtain ⟨hs, hm⟩ := sign_mag_of_positive h0
  rw [fmul_inf_left true hc hm, hs]
  simp [fadd, addCore, isNaN64_of_finite hv, isInf64_of_finite hv, isNaN64_inf64, isInf64_inf64]

/-- Infinity times a zero is a NaN (R11). -/
theorem fmul_inf_zero (s : Bool) {c : F64} (h : isZero64 c = true) :
    isNaN64 (fmul (inf64 s) c) = true := by
  simp [fmul, isInf64_inf64, h]

/-! ## One step of each model -/

/-- A step from `v` with result `x` moves towards `T` and not past it. -/
def MovesTowards (v T x : F64) : Prop :=
  isNaN64 x = false ∧
  (orderKey v < orderKey T → orderKey v ≤ orderKey x ∧ orderKey x ≤ orderKey T) ∧
  (orderKey T ≤ orderKey v → orderKey T ≤ orderKey x ∧ orderKey x ≤ orderKey v)

theorem MovesTowards.attack {v T r : F64} (hT : isNaN64 T = false) (hr : isNaN64 r = false)
    (hlt : orderKey v < orderKey T) (hle : orderKey v ≤ orderKey r) :
    MovesTowards v T (clampAbove r T) := by
  obtain ⟨hn, hkey⟩ := clampAbove_min hr hT
  exact ⟨hn, fun _ => by omega, fun h => absurd h hlt.not_ge⟩

theorem MovesTowards.release {v T r : F64} (hT : isNaN64 T = false) (hr : isNaN64 r = false)
    (hge : orderKey T ≤ orderKey v) (hle : orderKey r ≤ orderKey v) :
    MovesTowards v T (clampBelow r T) := by
  obtain ⟨hn, hkey⟩ := clampBelow_max hr hT
  exact ⟨hn, fun h => absurd h hge.not_gt, fun _ => by omega⟩

/-- The rising linear step: between finite values of 0 or more the difference cannot overflow. -/
theorem linear_attack {v T c : F64} (hT : isFinite64 T = true) (hv : isFinite64 v = true)
    (hv0 : 0 ≤ orderKey v) (hlt : orderKey v < orderKey T)
    (h0 : fle Config.zero64 c = true) (h1 : fle c Config.one64 = true) :
    isNaN64 (fadd v (fmul (fsub T v) c)) = false ∧
      orderKey v ≤ orderKey (fadd v (fmul (fsub T v) c)) := by
  have hunits := orderKey_lt_iff_units.mp hlt
  have hunits0 := orderKey_nonneg_iff.mp hv0
  have hd0 : 0 ≤ orderKey (fsub T v) := by
    rw [← orderKey_zero]
    exact le_fsub hT hv (by decide) (by rw [signedUnits64_zero]; omega)
  have hdT : orderKey (fsub T v) ≤ orderKey T := fsub_le hT hv (isNaN64_of_finite hT) (by omega)
  have hTk := isFinite64_iff_orderKey.mp hT
  have hd : isFinite64 (fsub T v) = true := isFinite64_iff_orderKey.mpr (by omega)
  obtain ⟨hp, hpos, -⟩ := fmul_shrinks hd h0 h1
  obtain ⟨hn, hup, -⟩ := fadd_finite_mono hv hp
  exact ⟨hn, hup (hpos hd0).1⟩

/-- The falling linear step, its difference finite or the coefficient positive. -/
theorem linear_release {v T c : F64} (hT : isFinite64 T = true) (hv : isFinite64 v = true)
    (hge : orderKey T ≤ orderKey v)
    (h0 : fle Config.zero64 c = true) (h1 : fle c Config.one64 = true)
    (hor : flt Config.zero64 c = true ∨ isFinite64 (fsub T v) = true) :
    isNaN64 (fadd v (fmul (fsub T v) c)) = false ∧
      orderKey (fadd v (fmul (fsub T v) c)) ≤ orderKey v := by
  have hunits := orderKey_le_iff_units.mp hge
  have hd0 : orderKey (fsub T v) ≤ 0 := by
    rw [← orderKey_zero]
    exact fsub_le hT hv (by decide) (by rw [signedUnits64_zero]; omega)
  by_cases hd : isFinite64 (fsub T v) = true
  · obtain ⟨hp, -, hneg⟩ := fmul_shrinks hd h0 h1
    obtain ⟨hn, -, hdown⟩ := fadd_finite_mono hv hp
    exact ⟨hn, hdown (hneg hd0)⟩
  · have hpos : fgt c Config.zero64 = true := hor.resolve_right hd
    have hone : orderKey Config.one64 < infMag64 := by decide
    have hc : isFinite64 c = true := by
      have := (fle_iff.mp h1).2.2
      have := (fgt_zero_iff.mp hpos).2
      exact isFinite64_iff_orderKey.mpr (by omega)
    have hdn : isNaN64 (fsub T v) = false := by rw [fsub_finite hT hv]; exact isNaN64_addFinite ..
    have hdi := (finite_or_inf64 hdn).resolve_left hd
    have hsign : sign64 (fsub T v) = true := by
      rw [← Bool.not_eq_false]
      intro hs
      rw [orderKey_of_pos hs, isInf64_iff.mp hdi] at hd0
      exact absurd hd0 (by decide)
    have hvk := isFinite64_iff_orderKey.mp hv
    rw [eq_inf64_of_isInf64 hdi, hsign, fadd_fmul_neg_inf hv hc hpos]
    refine ⟨isNaN64_inf64 _, ?_⟩
    rw [orderKey_of_neg (sign64_inf64 _), mag64_inf64]
    exact hvk.1.le

/-- The linear step moves towards a finite target (R223, R226). -/
theorem linear_movesTowards {v T catt crel : F64} (hT : isFinite64 T = true)
    (hv : isFinite64 v = true) (hv0 : 0 ≤ orderKey v)
    (ha0 : fle Config.zero64 catt = true) (ha1 : fle catt Config.one64 = true)
    (hr0 : fle Config.zero64 crel = true) (hr1 : fle crel Config.one64 = true)
    (hor : flt Config.zero64 crel = true ∨ isFinite64 (fsub T v) = true) :
    ∃ x, envLinear catt crel v T = floorEps x ∧ MovesTowards v T x := by
  have hTn := isNaN64_of_finite hT
  have hvn := isNaN64_of_finite hv
  have hne : T ≠ Config.inf64 := fun h => by rw [h] at hT; exact absurd hT (by decide)
  refine ⟨_, envLinear_of_ne (.inl hne), ?_⟩
  split
  · next h =>
    have hlt := (fgt_iff.mp h).2.2
    obtain ⟨hn, hle⟩ := linear_attack hT hv hv0 hlt ha0 ha1
    exact .attack hTn hn hlt hle
  · next h =>
    have hge := (fgt_false hTn hvn).mp (by simpa using h)
    obtain ⟨hn, hle⟩ := linear_release hT hv hge hr0 hr1 hor
    exact .release hTn hn hge hle

/-- The exponential step moves from the floored value towards a finite target (R224, R226). -/
theorem exp_movesTowards {v T cup cdown : F64} (hT : isFinite64 T = true) (hv : isFinite64 v = true)
    (hu : fle Config.one64 cup = true)
    (hd0 : fle Config.zero64 cdown = true) (hd1 : fle cdown Config.one64 = true) :
    ∃ x, envExp cup cdown v T = floorEps x ∧ MovesTowards (floorEps v) T x := by
  have hTn := isNaN64_of_finite hT
  have heps : 0 < orderKey Config.EPS ∧ orderKey Config.EPS < infMag64 := by decide
  obtain ⟨hvn, hvkey⟩ := floorEps_max (isNaN64_of_finite hv)
  have hvk := isFinite64_iff_orderKey.mp hv
  have hvf : isFinite64 (floorEps v) = true := isFinite64_iff_orderKey.mpr (by omega)
  refine ⟨_, envExp_of_not_nan hTn, ?_⟩
  split
  · next h =>
    obtain ⟨hn, hle⟩ := fmul_grows hvf (by omega) hu
    exact .attack hTn hn (fgt_iff.mp h).2.2 hle
  · next h =>
    obtain ⟨hp, hpos, -⟩ := fmul_shrinks hvf hd0 hd1
    exact .release hTn (isNaN64_of_finite hp) ((fgt_false hTn hvn).mp (by simpa using h))
      (hpos (by omega)).2

/-- R226's bounds from a step of either model, taken from the value or from the floored value. -/
theorem envelope_bounds {v v' T x : F64} (hv : isNaN64 v = false) (hT : isNaN64 T = false)
    (hstart : v' = v ∨ v' = floorEps v) (h : MovesTowards v' T x) :
    fle Config.EPS (floorEps x) = true ∧
    (flt v T = true → fle Config.EPS T = true →
      fle v (floorEps x) = true ∧ fle (floorEps x) T = true) ∧
    (fle T v = true → fle Config.EPS v = true →
      fle (maxsel T Config.EPS) (floorEps x) = true ∧ fle (floorEps x) v = true) := by
  obtain ⟨hx, hup, hdown⟩ := h
  have hepsn : isNaN64 Config.EPS = false := by decide
  obtain ⟨hwn, hw⟩ := floorEps_max hx
  obtain ⟨hmn, hm⟩ := maxsel_max hT hepsn
  have hkey : orderKey v' = orderKey v ∨ orderKey v' = max (orderKey v) (orderKey Config.EPS) :=
    hstart.imp (congrArg orderKey) fun h => (congrArg orderKey h).trans (floorEps_max hv).2
  simp only [fle_iff, flt_iff, hv, hT, hepsn, hwn, hmn, true_and, hw, hm]
  generalize orderKey Config.EPS = E at *
  refine ⟨by omega, fun _ _ => by omega, fun _ _ => by omega⟩

/-! ## The obligation -/

/-- A zero release coefficient against an overflowing difference makes the linear step a NaN. -/
theorem envLinear_overflow {catt crel v T : F64} (hc : isZero64 crel = true) (hle : fle T v = true)
    (hd : fsub T v = inf64 true) : isNaN64 (envLinear catt crel v T) = true := by
  obtain ⟨hTn, hvn, hkey⟩ := fle_iff.mp hle
  have hne : T ≠ Config.inf64 := by
    intro h
    have hv : v = Config.inf64 := eq_inf_of_orderKey hvn (h ▸ hkey)
    have hnan := fsub_self_of_inf (a := Config.inf64) (by decide)
    rw [h, hv] at hd
    rw [hd, isNaN64_inf64] at hnan
    exact Bool.false_ne_true hnan
  have hbranch : fgt T v = false := (fgt_false hTn hvn).mpr hkey
  have hnan : isNaN64 (fadd v (fmul (fsub T v) crel)) = true := by
    rw [hd]; exact fadd_nan_right (fmul_inf_zero true hc)
  rw [envLinear_of_ne (.inl hne), hbranch, if_neg Bool.false_ne_true, clampBelow, flt_nan_left hnan,
    if_neg Bool.false_ne_true, floorEps_nan hnan]
  exact hnan

/-- Settles O37: each model's step moves towards the target, from the value itself or from the floored
value, and the floor EPS keeps R226's bounds. -/
theorem envelopeMovesTowardsTheTarget : Obligations.EnvelopeMovesTowardsTheTarget := by
  refine ⟨fun s hcfg hT hv hv0 hlin hexp => ?_, fun s hcfg hmodel hc hle hd => ?_⟩
  · have hTn := isNaN64_of_finite hT
    have hvn := isNaN64_of_finite hv
    refine ⟨_, exec_envCalc hcfg, rfl, ?_⟩
    obtain ⟨v', x, hstart, hvalue, hmoves⟩ : ∃ v' x, (v' = s.eng.env ∨ v' = floorEps s.eng.env) ∧
        s.eng.envValue s.host.opa = floorEps x ∧ MovesTowards v' s.host.opa x := by
      cases hmodel : s.eng.ctrl.getLsbD 2 with
      | false =>
        obtain ⟨ha0, ha1, hr0, hr1, hor⟩ := hlin hmodel
        obtain ⟨x, hx, hm⟩ := linear_movesTowards hT hv (zero_le_iff.mp hv0).2 ha0 ha1 hr0 hr1 hor
        exact ⟨_, x, .inl rfl, (Engine.envValue_linear hmodel _).trans hx, hm⟩
      | true =>
        obtain ⟨hu, hd0, hd1⟩ := hexp hmodel
        obtain ⟨x, hx, hm⟩ := exp_movesTowards hT hv hu hd0 hd1
        exact ⟨_, x, .inr rfl, (Engine.envValue_exp hmodel _).trans hx, hm⟩
    have hbounds := envelope_bounds hvn hTn hstart hmoves
    rw [← hvalue] at hbounds
    exact hbounds
  · refine ⟨_, exec_envCalc hcfg, rfl, ?_⟩
    have hneg : (0xFFF0000000000000#64 : F64) = inf64 true := by decide
    show isNaN64 (s.eng.envValue s.host.opa) = true
    rw [Engine.envValue_linear hmodel]
    exact envLinear_overflow hc hle (hd.trans hneg)

end Sys2Proof.Machine
end

section
/-! SUPPORT and PROOFS. The function units and the ranges of the smoothing coefficients (R16, R19, R141,
R221). -/

namespace Sys2Proof.Machine

/-! ## The special values of the units -/

theorem isNaN64_of_zero {x : F64} (h : isZero64 x = true) : isNaN64 x = false := by
  have hm : mag64 x = 0 := by simpa [isZero64] using h
  rw [isNaN64_false, hm]
  exact Nat.zero_le _

theorem pow10Of_zero (u : FunctionUnits) {x : F64} (h : isZero64 x = true) :
    pow10Of u x = Config.one64 := by
  simp [pow10Of, isNaN64_of_zero h, h]

theorem pow10Of_inf (u : FunctionUnits) {x : F64} (h : isInf64 x = true) :
    pow10Of u x = if sign64 x then zero64 false else inf64 false := by
  have hz : isZero64 x = false := by simp [isZero64, isInf64_iff.mp h, infMag64]
  simp [pow10Of, isNaN64_of_inf h, hz, h]

theorem pow10Of_nan (u : FunctionUnits) {x : F64} (h : isNaN64 x = true) :
    isNaN64 (pow10Of u x) = true := by
  simp [pow10Of, h]

theorem tanOf_nan (u : FunctionUnits) {x : F64} (h : isNaN64 x = true) :
    isNaN64 (tanOf u x) = true := by
  simp [tanOf, h]

/-! ## A faithful rounding of a representable value is the value -/

theorem orderKey_le_of_atMost {v c : F64} (h : AtMost v ((valueOf c : ℚ) : ℝ))
    (hc : isFinite64 c = true) : orderKey v ≤ orderKey c := by
  rcases h with rfl | ⟨-, hle⟩
  · exact (flt_iff.mp (finite_between_infinities hc).2).2.2.le
  · exact valueOf_le_iff.mp hle

theorem orderKey_le_of_atLeast {v c : F64} (h : AtLeast v ((valueOf c : ℚ) : ℝ))
    (hc : isFinite64 c = true) : orderKey c ≤ orderKey v := by
  rcases h with rfl | ⟨-, hle⟩
  · exact (flt_iff.mp (finite_between_infinities hc).1).2.2.le
  · exact valueOf_le_iff.mp hle

theorem Faithful.orderKey_eq {v c : F64} (hc : isFinite64 c = true)
    (h : Faithful v ((valueOf c : ℚ) : ℝ)) : orderKey v = orderKey c := by
  rcases h with ⟨hv, hmax⟩ | ⟨hv, hmin⟩
  · exact le_antisymm (orderKey_le_of_atMost hv hc) (hmax c (.inr ⟨hc, le_rfl⟩))
  · exact le_antisymm (hmin c (.inr ⟨hc, le_rfl⟩)) (orderKey_le_of_atLeast hv hc)

/-- Away from zero the place in the order determines the value. -/
theorem eq_of_orderKey_eq {x y : F64} (h : orderKey x = orderKey y) (h0 : 0 < orderKey y) : x = y := by
  have hsign : ∀ z : F64, 0 < orderKey z → sign64 z = false := fun z hz => by
    rw [← Bool.not_eq_true]
    intro hs
    rw [orderKey_of_neg hs] at hz
    omega
  refine ext64 ((hsign x (h ▸ h0)).trans (hsign y h0).symm) ?_
  rw [← natAbs_orderKey, h, natAbs_orderKey]

/-- The value of a whole number of units of 1.0. -/
theorem valueOf_of_units {x : F64} {n : Int} (h : signedUnits64 x = n * (unitsPerOne : Int)) :
    valueOf x = n := by
  have hp : (unitsPerOne : ℚ) ≠ 0 := Nat.cast_ne_zero.mpr unitsPerOne_pos.ne'
  rw [valueOf, h]
  generalize unitsPerOne = u at hp
  rw [Int.cast_mul, Int.cast_natCast, mul_div_assoc, div_self hp, mul_one]

/-- `Pow10(1.0)` is exactly 10.0, which is representable (R16). -/
theorem pow10_one_eq_ten {u : FunctionUnits} (hu : FunctionUnits.Lawful u) :
    pow10Of u Config.one64 = 0x4024000000000000#64 := by
  have hten : valueOf 0x4024000000000000#64 = ((10 : Int) : ℚ) :=
    valueOf_of_units (by decide +kernel)
  have hf := hu.pow10_faithful Config.one64 (by decide)
  rw [valueOf_one, Rat.cast_one, Real.rpow_one,
    show (10 : ℝ) = ((valueOf 0x4024000000000000#64 : ℚ) : ℝ) by rw [hten]; norm_num] at hf
  exact eq_of_orderKey_eq (hf.orderKey_eq (by decide)) (by decide)

/-! ## Quotients by 1.0 or more -/

/-- A value of clear sign over a value of 1.0 or more, infinity too, does not grow. -/
theorem fdiv_shrinks {a b : F64} (ha : isFinite64 a = true) (hs : sign64 a = false)
    (hb : fge b Config.one64 = true) :
    isFinite64 (fdiv a b) = true ∧ sign64 (fdiv a b) = false ∧ mag64 (fdiv a b) ≤ mag64 a := by
  have hone : orderKey Config.one64 = mag64 Config.one64 := by decide
  have honepos : 0 < mag64 Config.one64 := by decide
  obtain ⟨hbn, -, hkey⟩ := fge_iff.mp hb
  obtain ⟨hbs, hbm⟩ := sign_mag_of_positive (fgt_zero_iff.mpr ⟨hbn, show 0 < orderKey b by omega⟩)
  have hz : isZero64 b = false := by simp [isZero64]; omega
  have hmag : mag64 (fdiv a b) ≤ mag64 a := by
    rcases finite_or_inf64 hbn with hbf | hbi
    · rw [fdiv_finite ha hbf hz, mag64_round64]
      refine roundNearest_le (units64_pos hbm) (isFinite64_iff.mp ha).le (Nat.mul_le_mul_left _ ?_)
      rw [← units64_one]
      rw [orderKey_of_pos hbs] at hkey
      exact units64_le_of_mag64_le (by omega)
    · rw [eq_inf64_of_isInf64 hbi, hbs, ← inf64_eq, fdiv_inf_right ha hs]
      exact Nat.zero_le _
  have hfin : isFinite64 (fdiv a b) = true :=
    isFinite64_iff.mpr (hmag.trans_lt (isFinite64_iff.mp ha))
  refine ⟨hfin, ?_, hmag⟩
  rw [sign64_fdiv (isNaN64_of_finite hfin), hs, hbs]
  rfl

/-! ## The ranges -/

/-- A linear coefficient lies between 0 and 1.0 (R221). -/
theorem linearCoef_range (ms : F32) (fs : F64) :
    fle Config.zero64 (linearCoef (tc ms fs)) = true ∧
      fle (linearCoef (tc ms fs)) Config.one64 = true := by
  obtain ⟨hfin, hs, -⟩ := fdiv_shrinks (a := Config.ENV_C) (by decide) (by decide)
    (tc_at_least_one ms fs)
  have hn := isNaN64_of_finite hfin
  have hone : isNaN64 Config.one64 = false := by decide
  rw [linearCoef]
  rcases minsel_cases Config.one64 (fdiv Config.ENV_C (tc ms fs)) with ⟨hsel, -⟩ | ⟨hsel, hlt⟩ <;>
    rw [hsel]
  · decide
  · refine ⟨zero_le_iff.mpr ⟨hn, ?_⟩, fle_iff.mpr ⟨hn, hone, (flt_false hone hn).mp hlt⟩⟩
    rw [orderKey_of_pos hs]
    exact Int.natCast_nonneg _

/-- The exponent of a factor with the budget of 80 dB lies between 0 and 80. -/
theorem exponent_range (ms : F32) (fs : F64) :
    isFinite64 (fdiv (fdiv Config.ENV_D (tc ms fs)) Config.twenty64) = true ∧
    0 ≤ orderKey (fdiv (fdiv Config.ENV_D (tc ms fs)) Config.twenty64) ∧
    orderKey (fdiv (fdiv Config.ENV_D (tc ms fs)) Config.twenty64) ≤ orderKey Config.ENV_D := by
  obtain ⟨hfin, hs, hmag⟩ := fdiv_shrinks (a := Config.ENV_D) (by decide) (by decide)
    (tc_at_least_one ms fs)
  obtain ⟨hfin', hs', hmag'⟩ := fdiv_shrinks (b := Config.twenty64) hfin hs (by decide)
  have hd : orderKey Config.ENV_D = mag64 Config.ENV_D := by decide
  rw [orderKey_of_pos hs', hd]
  exact ⟨hfin', Int.natCast_nonneg _, Int.ofNat_le.mpr (hmag'.trans hmag)⟩

/-- A rising factor is at least 1.0 (R221): `Pow10` is non-decreasing and 1.0 at zero. -/
theorem risingFactor_range {u : FunctionUnits} (hu : FunctionUnits.Lawful u) (ms : F32) (fs : F64) :
    fle Config.one64 (risingFactor u Config.ENV_D (tc ms fs)) = true := by
  obtain ⟨hfin, h0, -⟩ := exponent_range ms fs
  have hmono := hu.pow10_monotone _ _ (zero_le_iff.mpr ⟨isNaN64_of_finite hfin, h0⟩)
  rwa [pow10Of_zero u (by decide)] at hmono

/-- `10^-80` is well above the smallest subnormal. -/
theorem smallest_le_pow10 {x : F64} (h : orderKey (fneg Config.ENV_D) ≤ orderKey x) :
    ((valueOf 1#64 : ℚ) : ℝ) ≤ (10 : ℝ) ^ ((valueOf x : ℚ) : ℝ) := by
  have heighty : valueOf (fneg Config.ENV_D) = ((-80 : Int) : ℚ) :=
    valueOf_of_units (by decide +kernel)
  have hone : signedUnits64 1#64 = 1 := by decide
  have hunits : 10 ^ 80 ≤ unitsPerOne := by decide +kernel
  calc ((valueOf 1#64 : ℚ) : ℝ) ≤ (10 : ℝ) ^ (-80 : ℝ) := by
        rw [valueOf, hone]
        have hcast : ((10 : ℝ) ^ 80) ≤ (unitsPerOne : ℝ) := by exact_mod_cast hunits
        generalize unitsPerOne = u at hcast
        rw [Real.rpow_neg (by norm_num), show (80 : ℝ) = ((80 : ℕ) : ℝ) by norm_num, Real.rpow_natCast]
        push_cast
        rw [one_div]
        exact inv_anti₀ (by positivity) hcast
    _ ≤ _ := by
        refine Real.rpow_le_rpow_of_exponent_le (by norm_num) ?_
        have hle := valueOf_le_iff.mpr h
        rw [heighty] at hle
        exact_mod_cast hle

/-- A falling factor is above 0 and at most 1.0 (R221, R243). -/
theorem fallingFactor_range {u : FunctionUnits} (hu : FunctionUnits.Lawful u) (ms : F32) (fs : F64) :
    flt Config.zero64 (fallingFactor u Config.ENV_D (tc ms fs)) = true ∧
      fle (fallingFactor u Config.ENV_D (tc ms fs)) Config.one64 = true := by
  obtain ⟨hfin, h0, h80⟩ := exponent_range ms fs
  rw [fallingFactor]
  generalize fdiv (fdiv Config.ENV_D (tc ms fs)) Config.twenty64 = x at *
  have hn : isNaN64 (fneg x) = false := by rw [isNaN64_fneg]; exact isNaN64_of_finite hfin
  refine ⟨hu.pow10_positive _ (by rwa [isFinite64_fneg]) (smallest_le_pow10 ?_), ?_⟩
  · rw [orderKey_fneg, orderKey_fneg]
    omega
  · have hle : fle (fneg x) Config.zero64 = true := by
      refine fle_iff.mpr ⟨hn, by decide, ?_⟩
      rw [orderKey_fneg, orderKey_zero]
      omega
    have hmono := hu.pow10_monotone _ _ hle
    rwa [pow10Of_zero u (x := Config.zero64) (by decide)] at hmono

/-- Settles O39: the requirement on the block's units is their law, and it gives the ranges for every
lawful pair. -/
theorem functionUnitsAndSmoothingCoefficientsStayInRange :
    Obligations.FunctionUnitsAndSmoothingCoefficientsStayInRange := by
  have hblock := functionUnits_lawful
  refine ⟨fun x hx => ⟨hblock.pow10_faithful x hx, hblock.tan_faithful x hx,
      hblock.pow10_positive x hx⟩, hblock.pow10_monotone, pow10_one_eq_ten hblock, fun u => ?_,
    fun u h fs hu => ?_⟩
  · refine ⟨pow10Of_zero u (by decide), pow10Of_zero u (by decide), ?_, ?_,
      fun x hx => ⟨pow10Of_nan u hx, tanOf_nan u hx⟩⟩
    · rw [pow10Of_inf u (by decide)]; decide
    · rw [pow10Of_inf u (by decide)]; decide
  · have hlawful : FunctionUnits.Lawful u := hu.elim (fun h => h ▸ hblock) id
    exact ⟨linearCoef_range _ fs, linearCoef_range _ fs, risingFactor_range hlawful _ fs,
      fallingFactor_range hlawful _ fs, fallingFactor_range hlawful _ fs⟩

end Sys2Proof.Machine
end

section
/-! SUPPORT and PROOFS. The silence detector (R273). -/

namespace Sys2Proof.Machine

/-- A magnitude that is a NaN or reaches the threshold ends the run (R273). -/
theorem Engine.silence_loud (e : Engine) (silmin : Word) {mag : F64}
    (h : isNaN64 mag = true ∨ fle Config.SIL_THR mag = true) :
    e.silence silmin mag = { e with silrun := 0#32, seen := true } := by
  have hlt : flt mag Config.SIL_THR = false := by
    rcases h with h | h
    · exact flt_nan_left h
    · obtain ⟨ht, hm, hle⟩ := fle_iff.mp h
      exact (flt_false hm ht).mpr hle
  rw [Engine.silence, hlt, if_neg Bool.false_ne_true]

/-- A run that has reached SILMIN stays as it is (R273). -/
theorem Engine.silence_done {e : Engine} {silmin : Word} {mag : F64}
    (h : flt mag Config.SIL_THR = true) (hrun : silmin.toNat ≤ e.silrun.toNat) :
    e.silence silmin mag = e := by
  rw [Engine.silence, if_pos h, Engine.quietSample, if_neg]
  rw [BitVec.lt_def]
  omega

/-- A run below SILMIN counts the sample, and the one that reaches SILMIN performs the limiter reset
under SILRST_EN (R273). -/
theorem Engine.silence_counts {e : Engine} {silmin : Word} {mag : F64}
    (h : flt mag Config.SIL_THR = true) (hrun : e.silrun.toNat < silmin.toNat) :
    e.silence silmin mag =
      if e.silrun.toNat + 1 = silmin.toNat ∧ e.ctrl.getLsbD 5 = true then
        { e.limReset with silrun := e.silrun + 1#32 }
      else { e with silrun := e.silrun + 1#32 } := by
  have hsucc : (e.silrun + 1#32).toNat = e.silrun.toNat + 1 :=
    BitVec.toNat_add_of_lt (by have := silmin.isLt; simp only [BitVec.toNat_ofNat]; omega)
  have hreach : (e.silrun + 1#32 = silmin) ↔ e.silrun.toNat + 1 = silmin.toNat := by
    rw [← hsucc, BitVec.toNat_inj]
  rw [Engine.silence, if_pos h, Engine.quietSample, if_pos (BitVec.lt_def.mpr hrun)]
  simp only [Bool.and_eq_true, decide_eq_true_eq, hreach]
  rfl

/-- The engine after `n` near-silent samples from a run of 0. -/
def Engine.quietRun (e : Engine) (silmin : Word) (n : Nat) : Engine :=
  if silmin ≠ 0#32 ∧ silmin.toNat ≤ n ∧ e.ctrl.getLsbD 5 = true then
    { e.limReset with silrun := BitVec.ofNat 32 (min n silmin.toNat) }
  else { e with silrun := BitVec.ofNat 32 (min n silmin.toNat) }

theorem Engine.quietRun_silrun (e : Engine) (silmin : Word) (n : Nat) :
    (e.quietRun silmin n).silrun = BitVec.ofNat 32 (min n silmin.toNat) := by
  unfold Engine.quietRun
  split <;> rfl

theorem Engine.quietRun_silrun_toNat (e : Engine) (silmin : Word) (n : Nat) :
    (e.quietRun silmin n).silrun.toNat = min n silmin.toNat := by
  have := silmin.isLt
  rw [e.quietRun_silrun, BitVec.toNat_ofNat, Nat.mod_eq_of_lt (by omega)]

/-- Before the run reaches SILMIN only the run has changed. -/
theorem Engine.quietRun_of_lt (e : Engine) {silmin : Word} {n : Nat} (h : n < silmin.toNat) :
    e.quietRun silmin n = { e with silrun := BitVec.ofNat 32 n } := by
  rw [Engine.quietRun, if_neg (fun hc => absurd hc.2.1 h.not_ge), min_eq_left h.le]

/-- Once the run has reached SILMIN nothing changes any more. -/
theorem Engine.quietRun_of_le (e : Engine) {silmin : Word} {n : Nat} (h : silmin.toNat ≤ n) :
    e.quietRun silmin (n + 1) = e.quietRun silmin n := by
  rw [Engine.quietRun, Engine.quietRun, min_eq_right h, min_eq_right (h.trans (Nat.le_succ n))]
  simp only [h, h.trans (Nat.le_succ n)]

theorem Engine.silence_quietRun (e : Engine) (silmin : Word) (n : Nat) {mag : F64}
    (h : flt mag Config.SIL_THR = true) :
    (e.quietRun silmin n).silence silmin mag = e.quietRun silmin (n + 1) := by
  have hrun := e.quietRun_silrun_toNat silmin n
  rcases Nat.lt_or_ge n silmin.toNat with hlt | hge
  · have hsucc : min (n + 1) silmin.toNat = n + 1 := min_eq_left hlt
    have hne : silmin ≠ 0#32 := fun h0 => by rw [h0] at hlt; exact absurd hlt (Nat.not_lt_zero n)
    have hreach : silmin.toNat ≤ n + 1 ↔ n + 1 = silmin.toNat := by omega
    rw [min_eq_left hlt.le] at hrun
    rw [Engine.silence_counts h (by rw [hrun]; exact hlt), hrun, e.quietRun_of_lt hlt, Engine.quietRun, hsucc]
    simp only [hreach, hne, ne_eq, not_false_eq_true, true_and, ← BitVec.ofNat_add]
    rfl
  · rw [min_eq_right hge] at hrun
    rw [Engine.silence_done h hrun.ge, e.quietRun_of_le hge]

/-- A list of near-silent samples from a run of 0, by induction on the list. -/
theorem Engine.foldl_silence {e : Engine} {silmin : Word} (h0 : e.silrun = 0#32) (mags : List F64)
    (h : ∀ mag ∈ mags, flt mag Config.SIL_THR = true) :
    mags.foldl (fun a mag => a.silence silmin mag) e = e.quietRun silmin mags.length := by
  induction mags using List.reverseRecOn with
  | nil =>
    unfold Engine.quietRun
    rw [List.foldl_nil, if_neg]
    · rw [List.length_nil, Nat.zero_min, ← h0]
    · rintro ⟨hne, hle, -⟩
      exact hne (BitVec.eq_of_toNat_eq (Nat.le_zero.mp hle))
  | append_singleton mags mag ih =>
    rw [List.foldl_append, ih fun m hm => h m (List.mem_append_left _ hm), List.length_append]
    exact e.silence_quietRun silmin _ (h mag (List.mem_append_right _ (List.mem_singleton_self _)))

/-- Settles O50: the clauses for one sample are stated above, the run is `Engine.quietRun`. -/
theorem silenceGapResetsOnce : Obligations.SilenceGapResetsOnce := by
  refine ⟨rfl, rfl, fun e silmin mag h => e.silence_loud silmin h,
    fun e silmin mag h => ⟨fun hle => Engine.silence_done h (BitVec.le_def.mp hle),
      fun hlt => Engine.silence_counts h (BitVec.lt_def.mp hlt)⟩,
    fun e silmin mags h0 h => ⟨_, rfl, ?_⟩⟩
  rw [Engine.foldl_silence h0 mags h]
  refine ⟨e.quietRun_silrun_toNat silmin _, ?_⟩
  rw [e.quietRun_silrun]
  rfl

end Sys2Proof.Machine
end

section
/-! SUPPORT and PROOFS. PROCESS as its component commands, and as COMMIT and then its sample (R270,
R282). -/

namespace Sys2Proof.Machine

/-! ## PROCESS with NC clear -/

/-- The snapshot leaves the window cursors inside their buffers: it keeps a cursor or restarts it. -/
theorem Engine.snapshot_cur_lt (e : Engine) (h : HostRegs) (m : MeterId)
    (hcur : (e.win m).cur.toNat < 1048576) : ((e.snapshot h).win m).cur.toNat < 1048576 := by
  rw [Engine.snapshot_win]
  split
  · exact Nat.two_pow_pos 20
  · exact hcur

/-- The snapshot leaves the delay cursor within a length the line can hold. -/
theorem Engine.snapshot_delay_bounds (e : Engine) (h : HostRegs) (hcur : e.dcur.toNat ≤ e.D.toNat)
    (hD : e.D.toNat ≤ 65535) :
    (e.snapshot h).dcur.toNat ≤ (e.snapshot h).D.toNat ∧ (e.snapshot h).D.toNat ≤ 65535 := by
  rcases e.snapshot_delay h with ⟨n, -, hn, -, hDn, -, hcurn⟩ | ⟨-, hDn, -, hcurn⟩
  · rw [hDn, hcurn]
    exact ⟨Nat.zero_le _, of_decide_eq_true hn⟩
  · rw [hDn, hcurn]
    exact ⟨hcur, hD⟩

theorem Engine.snapshot_processInRange {e : Engine} (h : HostRegs)
    (h0 : e.win0.cur.toNat < 1048576) (h1 : e.win1.cur.toNat < 1048576)
    (hcur : e.dcur.toNat ≤ e.D.toNat) (hD : e.D.toNat ≤ 65535) :
    (e.snapshot h).processInRange = true := by
  obtain ⟨hcur', hD'⟩ := e.snapshot_delay_bounds h hcur hD
  exact Engine.processInRange_of_bounds (e.snapshot_cur_lt h .m0 h0) (e.snapshot_cur_lt h .m1 h1)
    hcur' hD'

/-- Settles O47: COMMIT completes in the snapshot, from which both forms of PROCESS take the same
sample. -/
theorem committingProcessIsCommitThenProcess :
    Obligations.CommittingProcessIsCommitThenProcess := by
  intro s hcfg h0 h1 hcur hD
  have hrange : (commitState s).eng.processInRange = true := by
    rw [commitState_eng]; exact Engine.snapshot_processInRange s.host h0 h1 hcur hD
  have hcfg' : (commitState s).eng.cfg = true := by
    rw [commitState_eng, Engine.snapshot_cfg]; exact hcfg
  have hfalse := (exec_process_false hcfg).trans (processSample_of_inRange hrange)
  refine ⟨commitState s, _, exec_commit hcfg, exec_process_nc hcfg' hrange, hfalse, ?_,
    commitState_host s⟩
  rw [finishPair, finish01_faults]

/-! ## The component commands on their operands -/

theorem exec_pfApply_withOpa {s : State} (hcfg : s.eng.cfg = true) (ch : Channel) (x : F64) :
    ∃ t, exec (.pfApply ch) (withOpa x s) = .next t ∧ t.eng = s.eng.cascadeStep ch x ∧
      t.host.res0 = s.eng.cascadeValue ch x :=
  ⟨_, exec_pfApply (s := withOpa x s) ch hcfg, rfl, rfl⟩

theorem exec_dlyAdd_withPair {s : State} (hcfg : s.eng.cfg = true)
    (hrange : s.eng.delayInRange = true) (p : StereoSample) :
    ∃ t, exec .dlyAdd (withPair p s) = .next t ∧ t.eng = s.eng.dlyAdd p ∧
      t.host.res0 = resultF32 (s.eng.dlyValue p).l ∧
      t.host.res1 = resultF32 (s.eng.dlyValue p).r := by
  have h := exec_dlyAdd (s := withPair p s) hcfg hrange
  rw [inputPair_withPair] at h
  exact ⟨_, h, rfl, rfl, rfl⟩

theorem Engine.SameSettings.cfg_eq {e e' : Engine} (h : e.SameSettings e') (hcfg : e.cfg = true) :
    e'.cfg = true := h.cfg.trans hcfg

/-- One meter is ACC_ADD and then MTR_STEP (R275). -/
theorem exec_meterStep {m : MeterId} {s : State} (hcfg : s.eng.cfg = true)
    (hcur : (s.eng.win m).cur.toNat < 1048576) (pw : F64) :
    ∃ t u, exec (.accAdd m) (withOpa pw s) = .next t ∧ exec (.mtrStep m) t = .next u ∧
      u.eng = s.eng.meterStep m pw := by
  obtain ⟨t, ht, heng⟩ := exec_accAdd_withOpa hcfg hcur pw
  have hcfg' : t.eng.cfg = true := by rw [heng, Engine.accAdd_cfg]; exact hcfg
  refine ⟨t, _, ht, exec_mtrStep m hcfg', ?_⟩
  rw [finish01_eng, heng]
  rfl

/-- Both meters, the second only under DUAL, and the estimate they give (R275, R276). -/
theorem exec_metersStep {s : State} (hcfg : s.eng.cfg = true)
    (h0 : s.eng.win0.cur.toNat < 1048576) (h1 : s.eng.win1.cur.toNat < 1048576) (mag pw : F64) :
    ∃ s3 s4 s5 s6, exec (.accAdd .m0) (withOpa pw s) = .next s3 ∧ exec (.mtrStep .m0) s3 = .next s4 ∧
      (if s.eng.dual then
        exec (.accAdd .m1) (withOpa pw s4) = .next s5 ∧ exec (.mtrStep .m1) s5 = .next s6 ∧
        s6.eng.layeredEstimate mag =
          maxsel (if s6.eng.mtr0.valid then s6.eng.mtr0.val else mag)
            (if s6.eng.mtr1.valid then s6.eng.mtr1.val else mag)
      else s5 = s4 ∧ s6 = s4 ∧
        s6.eng.layeredEstimate mag = if s6.eng.mtr0.valid then s6.eng.mtr0.val else mag) ∧
      s6.eng = s.eng.metersStep pw := by
  obtain ⟨s3, s4, h3, h4, heng4⟩ := exec_meterStep (m := .m0) hcfg h0 pw
  have hsame := Engine.SameSettings.meterStep s.eng .m0 pw
  have hcfg4 : s4.eng.cfg = true := by rw [heng4]; exact hsame.cfg_eq hcfg
  have hdual4 : s4.eng.dual = s.eng.dual := by rw [heng4, Engine.dual, hsame.ctrl]; rfl
  cases hdual : s.eng.dual with
  | false =>
    refine ⟨s3, s4, s4, s4, h3, h4, ?_, ?_⟩
    · rw [if_neg Bool.false_ne_true]
      refine ⟨rfl, rfl, ?_⟩
      rw [Engine.layeredEstimate, hdual4, hdual, if_neg Bool.false_ne_true]
      rfl
    · rw [heng4, Engine.metersStep, hdual, if_neg Bool.false_ne_true]
  | true =>
    have hcur : (s4.eng.win .m1).cur.toNat < 1048576 := by rw [heng4]; exact h1
    obtain ⟨s5, s6, h5, h6, heng6⟩ := exec_meterStep (m := .m1) hcfg4 hcur pw
    have hdual6 : s6.eng.dual = true := by
      rw [heng6, Engine.dual, (Engine.SameSettings.meterStep s4.eng .m1 pw).ctrl]
      exact hdual4.trans hdual
    refine ⟨s3, s4, s5, s6, h3, h4, ?_, ?_⟩
    · rw [if_pos rfl]
      refine ⟨h5, h6, ?_⟩
      rw [Engine.layeredEstimate, hdual6, if_pos rfl]
      rfl
    · rw [heng6, heng4, Engine.metersStep, hdual, if_pos rfl]

/-- The optional envelope and its estimate (R277). -/
theorem exec_smoothStep {s : State} (hcfg : s.eng.cfg = true) (est : F64) :
    ∃ t, (if s.eng.envEn then
        exec .envCalc (withOpa est s) = .next t ∧ s.eng.smoothed est = t.host.res0
      else t = s ∧ s.eng.smoothed est = est) ∧ t.eng = s.eng.smoothStep est := by
  by_cases h : s.eng.envEn = true
  · refine ⟨finish0 (withOpa est s) (s.eng.envStep est) (s.eng.envValue est), ?_, (if_pos h).symm⟩
    rw [if_pos h, Engine.smoothed, if_pos h]
    exact ⟨exec_envCalc_withOpa hcfg est, rfl⟩
  · refine ⟨s, ?_, (if_neg h).symm⟩
    rw [if_neg h, Engine.smoothed, if_neg h]
    exact ⟨rfl, rfl⟩

/-! ## PROCESS with NC set -/

/-- The windows as the silence detector and the prefilter leave them keep their cursors or restart. -/
theorem Engine.silence_cur_lt (e : Engine) (silmin : Word) (mag : F64) (m : MeterId)
    (hcur : (e.win m).cur.toNat < 1048576) :
    ((e.silence silmin mag).win m).cur.toNat < 1048576 := by
  rcases e.silence_win silmin mag m with h | h <;> rw [h]
  · exact hcur
  · exact Nat.two_pow_pos 20

/-- After the meter path: the delay line, the gate, the output stage and the flag (R279 to R283). -/
theorem outputStage_frame {s s9 : State} {e : Engine} {p : StereoSample} (he : s9.eng = e.dlyAdd p)
    (h0 : s9.host.res0 = resultF32 (e.dlyValue p).l)
    (h1 : s9.host.res1 = resultF32 (e.dlyValue p).r)
    (hsame : s.eng.SameSettings e) :
    ∃ muted oL oR,
      muted = (s.eng.ctrl.getLsbD 4 && s.eng.sustain && !s9.eng.seen) ∧
      oL = ({ s9.eng with muted := muted } : Engine).output (s9.host.res0.extractLsb' 0 32) ∧
      oR = ({ s9.eng with muted := muted } : Engine).output (s9.host.res1.extractLsb' 0 32) ∧
      finishPair s (e.outputStage p) = { s with
        host := { s.host with res0 := oL.setWidth 64, res1 := oR.setWidth 64 }
        eng := { s9.eng with muted := muted, nf := (finishPair s (e.outputStage p)).eng.nf } } := by
  refine ⟨_, _, _, rfl, rfl, rfl, ?_⟩
  rw [h0, h1, he, extractLsb'_resultF32, extractLsb'_resultF32, ← hsame.ctrl, ← hsame.sustain]
  rfl

/-- Settles O46: each command is its `exec` lemma on the operand before it, and the engines are those
`Engine.processPair` runs through. -/
theorem processIsTheComponentSequence : Obligations.ProcessIsTheComponentSequence := by
  intro s p mL mR mag hcfg h0 h1 hcur hD hp hL hR hmag
  have hpair : p = inputPair s := hp
  have htapL : mL = s.eng.tap (f64 p.l) := hL
  have htapR : mR = s.eng.tap (f64 p.r) := hR
  have hmagn : mag = magnitude mL mR := hmag
  -- the silence detector and both prefilters
  have hsil := Engine.SameSettings.silence s.eng s.host.silmin mag
  have hcfg0 := hsil.cfg_eq hcfg
  obtain ⟨s1, hs1, heng1, hres1⟩ := exec_pfApply_withOpa
    (s := { s with eng := s.eng.silence s.host.silmin mag }) hcfg0 .left mL
  have hcfg1 : s1.eng.cfg = true := by
    rw [heng1]; exact (Engine.SameSettings.cascadeStep ..).cfg_eq hcfg0
  obtain ⟨s2, hs2, heng2, hres2⟩ := exec_pfApply_withOpa hcfg1 .right mR
  have hpower2 : s2.eng = (s.eng.silence s.host.silmin mag).powerStep mL mR := by
    rw [heng2, heng1]; rfl
  have hsame2 : s.eng.SameSettings s2.eng := by
    rw [hpower2]; exact hsil.trans (Engine.SameSettings.powerStep ..)
  -- the meters
  have hwin2 : ∀ m, (s2.eng.win m).cur.toNat < 1048576 := fun m => by
    rw [hpower2, Engine.powerStep_win]
    exact s.eng.silence_cur_lt _ _ m (by cases m <;> assumption)
  obtain ⟨s3, s4, s5, s6, hs3, hs4, hdual, heng6⟩ := exec_metersStep (hsame2.cfg_eq hcfg)
    (hwin2 .m0) (hwin2 .m1) mag
    (fadd (fmul s1.host.res0 s1.host.res0) (fmul s2.host.res0 s2.host.res0))
  have hsame6 : s.eng.SameSettings s6.eng := by
    rw [heng6]; exact hsame2.trans (Engine.SameSettings.metersStep ..)
  -- the envelope, the limiter and the delay line
  obtain ⟨s7, hs7, heng7⟩ := exec_smoothStep (hsame6.cfg_eq hcfg) (s6.eng.layeredEstimate mag)
  have hsame7 : s.eng.SameSettings s7.eng := by
    rw [heng7]; exact hsame6.trans (Engine.SameSettings.smoothStep ..)
  have hs8 := exec_limUpdate_withOpa (hsame7.cfg_eq hcfg)
    (s6.eng.smoothed (s6.eng.layeredEstimate mag))
  have heng8 : s7.eng.limUpdate (s6.eng.smoothed (s6.eng.layeredEstimate mag)) =
      s.eng.meterPath s.host.silmin mL mR := by
    rw [heng7, heng6, hpower2, hres1, hres2, heng1, hmagn]; rfl
  have hrange8 : (s.eng.meterPath s.host.silmin mL mR).delayInRange = true := by
    obtain ⟨hD8, -, hcur8⟩ := Engine.SameDelay.meterPath s.eng s.host.silmin mL mR
    refine Engine.delayInRange_of_bounds ?_ ?_
    · rw [hD8, hcur8]; exact hcur
    · rw [hD8]; exact hD
  have hsame8 := Engine.SameSettings.meterPath s.eng s.host.silmin mL mR
  rw [heng8] at hs8
  obtain ⟨s9, hs9, heng9, hres9, hres9'⟩ := exec_dlyAdd_withPair (p := p)
    (s := finish01 (withOpa (s6.eng.smoothed (s6.eng.layeredEstimate mag)) s7)
      (s.eng.meterPath s.host.silmin mL mR) (s7.eng.gainValue _) (s7.eng.peakValue _))
    (hsame8.cfg_eq hcfg) hrange8
  -- the whole step
  obtain ⟨muted, oL, oR, hmuted, hoL, hoR, hframe⟩ :=
    outputStage_frame (s := s) heng9 hres9 hres9' hsame8
  have hprocess := exec_process_nc hcfg (Engine.processInRange_of_bounds h0 h1 hcur hD)
  rw [← hpair, Engine.processPair, ← htapL, ← htapR] at hprocess
  refine ⟨s1, s2, s3, s4, s5, s6, s7, _, s9, _, _,
    s6.eng.layeredEstimate mag, _, muted, oL, oR, hs1, hs2, rfl, hs3, hs4, ?_,
    ?_, hs8, hs9, hmuted, hoL, hoR, hprocess, hframe⟩
  · rw [Engine.dual, hsame2.ctrl] at hdual
    exact hdual
  · rw [Engine.envEn, hsame6.ctrl] at hs7
    exact hs7

end Sys2Proof.Machine
end

section
/-! SUPPORT and PROOFS. The operations are correctly rounded, and their default results (R11, R12). -/

namespace Sys2Proof.Machine

/-! ## Values and units -/

theorem valueOf_mul_units (x : F64) :
    ((valueOf x : ℚ) : ℝ) * unitsPerOne = ((signedUnits64 x : Int) : ℝ) := by
  have hU := unitsPerOne_posR
  rw [valueOf_cast, ← cast_signedUnits64]
  exact div_mul_cancel₀ _ hU.ne'

theorem units64_eq_zero_iff {x : F64} : units64 x = 0 ↔ mag64 x = 0 := by
  have h := (unitsOf_strictMono 52).injective.eq_iff (a := mag64 x) (b := 0)
  rwa [units_zero] at h

theorem signedUnits64_eq_zero_iff {x : F64} : signedUnits64 x = 0 ↔ mag64 x = 0 := by
  rw [← units64_eq_zero_iff, signedUnits64]
  cases sign64 x <;> simp

theorem valueOf_eq_zero_iff {x : F64} : valueOf x = 0 ↔ isZero64 x = true := by
  have hzero : valueOf Config.zero64 = 0 := valueOf_zero (by decide)
  rw [← hzero, valueOf_eq_iff, signedUnits64_zero, signedUnits64_eq_zero_iff]
  simp [isZero64]

theorem valueOf_neg_iff {x : F64} : valueOf x < 0 ↔ sign64 x = true ∧ isZero64 x = false := by
  have hzero : valueOf Config.zero64 = 0 := valueOf_zero (by decide)
  rw [← hzero, ← not_le, ← orderKey_le_iff_valueOf, orderKey_zero, orderKey]
  cases sign64 x <;> simp [isZero64]

theorem isZero64_false {x : F64} : isZero64 x = false ↔ 0 < mag64 x := by
  simp [isZero64, Nat.pos_iff_ne_zero]

theorem eq_zero64_of_isZero64 {x : F64} (h : isZero64 x = true) : x = zero64 (sign64 x) := by
  have hm : mag64 x = 0 := by simpa [isZero64] using h
  rw [zero64, ← hm, make64_sign_mag]

/-! ## The four operations on finite values -/

/-- A rounded quotient of whole numbers of units is correctly rounded. -/
theorem nearestEven_quotient {s : Bool} {num den : Nat} (hd : 0 < den) {x : ℝ}
    (hx : x * unitsPerOne = if s then -((num : ℝ) / den) else (num : ℝ) / den) :
    NearestEven (round64 s num den) x :=
  nearestEven_round64 hd (div_nonneg (Nat.cast_nonneg _) (Nat.cast_nonneg _))
    (fun _ => ⟨Iff.rfl, Iff.rfl⟩) hx

theorem nearestEven_addFinite (a b : F64) {x : ℝ}
    (hx : x * unitsPerOne = ((signedUnits64 a + signedUnits64 b : Int) : ℝ)) :
    NearestEven (addFinite a b) x := by
  refine nearestEven_quotient one_pos (hx.trans ?_)
  rw [Nat.cast_one, div_one, Nat.cast_natAbs]
  rcases lt_trichotomy (signedUnits64 a + signedUnits64 b) 0 with ht | ht | ht
  · rw [addFinite_sign_neg ht, if_pos rfl, abs_of_neg ht, Int.cast_neg, neg_neg]
  · rw [ht, abs_zero, Int.cast_zero, neg_zero, ite_self]
  · rw [addFinite_sign_pos ht, if_neg Bool.false_ne_true, abs_of_pos ht]

theorem nearestEven_fadd {a b : F64} (ha : isFinite64 a = true) (hb : isFinite64 b = true) :
    NearestEven (fadd a b) (((valueOf a : ℚ) : ℝ) + ((valueOf b : ℚ) : ℝ)) := by
  rw [fadd_finite ha hb]
  refine nearestEven_addFinite a b ?_
  rw [add_mul, valueOf_mul_units, valueOf_mul_units, Int.cast_add]

theorem nearestEven_fsub {a b : F64} (ha : isFinite64 a = true) (hb : isFinite64 b = true) :
    NearestEven (fsub a b) (((valueOf a : ℚ) : ℝ) - ((valueOf b : ℚ) : ℝ)) := by
  rw [fsub_finite ha hb]
  refine nearestEven_addFinite a (fneg b) ?_
  rw [sub_mul, valueOf_mul_units, valueOf_mul_units, signedUnits64_fneg, Int.cast_add, Int.cast_neg,
    sub_eq_add_neg]

theorem nearestEven_fmul {a b : F64} (ha : isFinite64 a = true) (hb : isFinite64 b = true) :
    NearestEven (fmul a b) (((valueOf a : ℚ) : ℝ) * ((valueOf b : ℚ) : ℝ)) := by
  rw [fmul_finite ha hb]
  refine nearestEven_quotient unitsPerOne_pos ?_
  have hU := unitsPerOne_posR
  rw [valueOf_cast, valueOf_cast, Nat.cast_mul]
  generalize (unitsPerOne : ℝ) = U at *
  cases sign64 a <;> cases sign64 b <;> simp <;> field_simp

theorem nearestEven_fdiv {a b : F64} (ha : isFinite64 a = true) (hb : isFinite64 b = true)
    (h0 : isZero64 b = false) :
    NearestEven (fdiv a b) (((valueOf a : ℚ) : ℝ) / ((valueOf b : ℚ) : ℝ)) := by
  have hpos := units64_pos (isZero64_false.mp h0)
  have hposR : (0 : ℝ) < units64 b := by exact_mod_cast hpos
  rw [fdiv_finite ha hb h0]
  refine nearestEven_quotient hpos ?_
  have hU := unitsPerOne_posR
  rw [valueOf_cast, valueOf_cast, Nat.cast_mul]
  generalize (unitsPerOne : ℝ) = U at *
  cases sign64 a <;> cases sign64 b <;> simp <;> field_simp

/-- An exact zero sum is `+0.0` but for two negative zeros (R11). -/
theorem addFinite_exact_zero {a b : F64} (h : signedUnits64 a + signedUnits64 b = 0) :
    addFinite a b = zero64 (sign64 a && sign64 b) := by
  simp only [addFinite, h, if_true, Int.natAbs_zero]
  exact round64_zero _ one_pos

theorem units_sum_eq_zero {a b : F64} (h : valueOf a + valueOf b = 0) :
    signedUnits64 a + signedUnits64 b = 0 := by
  have hR : ((valueOf a : ℚ) : ℝ) + ((valueOf b : ℚ) : ℝ) = 0 := by exact_mod_cast h
  have hU := congrArg (· * (unitsPerOne : ℝ)) hR
  simp only [add_mul, valueOf_mul_units, zero_mul] at hU
  exact_mod_cast hU

theorem valueOf_fneg (x : F64) : valueOf (fneg x) = -valueOf x := by
  rw [valueOf, valueOf, signedUnits64_fneg, Int.cast_neg, neg_div]

theorem fadd_exact_zero {a b : F64} (ha : isFinite64 a = true) (hb : isFinite64 b = true)
    (h : valueOf a + valueOf b = 0) : fadd a b = zero64 (sign64 a && sign64 b) :=
  (fadd_finite ha hb).trans (addFinite_exact_zero (units_sum_eq_zero h))

theorem fsub_exact_zero {a b : F64} (ha : isFinite64 a = true) (hb : isFinite64 b = true)
    (h : valueOf a - valueOf b = 0) : fsub a b = zero64 (sign64 a && !sign64 b) := by
  rw [fsub_finite ha hb, addFinite_exact_zero, sign64_fneg]
  exact units_sum_eq_zero (by rw [valueOf_fneg, ← sub_eq_add_neg, h])

/-! ## The square root -/

/-- What `sqrtPositive` computes: the whole part of the root in quanta of `2^t`, and whether it is
exact. -/
theorem intSqrt_quanta {n t r : Nat} (hr : r = intSqrt 66 (n / 4 ^ t)) (h : n < 4 ^ (66 + t)) :
    (r * 2 ^ t) * (r * 2 ^ t) ≤ n ∧ n < ((r + 1) * 2 ^ t) * ((r + 1) * 2 ^ t) := by
  have hp : 0 < 4 ^ t := Nat.pow_pos (by norm_num)
  have hsq : 2 ^ t * 2 ^ t = 4 ^ t := by rw [← Nat.mul_pow]
  have hsmall : n / 4 ^ t < 4 ^ 66 := (Nat.div_lt_iff_lt_mul hp).mpr (by rwa [← pow_add])
  obtain ⟨hlo, hhi⟩ := intSqrt_spec 66 (n / 4 ^ t) hsmall
  rw [← hr] at hlo hhi
  have hlo' := (Nat.le_div_iff_mul_le hp).mp hlo
  have hhi' := (Nat.div_lt_iff_lt_mul hp).mp hhi
  rw [← hsq] at hlo' hhi'
  exact ⟨by linarith, by linarith⟩

/-- The radicand's kept part has between 128 and 130 bits. -/
theorem sqrtDrop_bounds {n : Nat} (hn : n ≠ 0) (hlog : 130 ≤ Nat.log2 n) :
    1 ≤ sqrtDrop n ∧ n < 4 ^ (66 + sqrtDrop n) ∧ 4 ^ (64 + sqrtDrop n) ≤ n := by
  have hlo := Nat.log2_self_le hn
  have hhi : n < 2 ^ (Nat.log2 n + 1) := Nat.lt_log2_self
  rw [sqrtDrop, show 4 = 2 ^ 2 by rfl, ← pow_mul, ← pow_mul]
  exact ⟨by omega, hhi.trans_le (Nat.pow_le_pow_right two_pos (by omega)),
    (Nat.pow_le_pow_right two_pos (by omega)).trans hlo⟩

/-- A root of more than 64 bits and a sticky half unit stand to every half quantum of the result as the
exact root does. -/
theorem sqrt_half_quanta {n t r st sh : Nat}
    (hlo : (r * 2 ^ t) * (r * 2 ^ t) ≤ n) (hhi : n < ((r + 1) * 2 ^ t) * ((r + 1) * 2 ^ t))
    (hst1 : st ≤ 1) (hexact : st = 0 ↔ (r * 2 ^ t) * (r * 2 ^ t) = n) (hsh : t < sh) (j : Nat) :
    (Real.sqrt n < j * 2 ^ sh / 2 ↔ (((2 * r + st) * 2 ^ t : ℕ) : ℝ) / (2 : ℕ) < j * 2 ^ sh / 2) ∧
    (j * 2 ^ sh / 2 < Real.sqrt n ↔ (j : ℝ) * 2 ^ sh / 2 < (((2 * r + st) * 2 ^ t : ℕ) : ℝ) / (2 : ℕ)) := by
  obtain ⟨k, rfl⟩ : ∃ k, sh = t + 1 + k := ⟨sh - (t + 1), by omega⟩
  have hp : (0 : ℝ) < 2 ^ t := by positivity
  have hquanta : (j : ℝ) * 2 ^ (t + 1 + k) / 2 = ((j * 2 ^ k * 2 ^ t : ℕ) : ℝ) := by
    push_cast
    rw [pow_add, pow_succ]
    ring
  have hlt : (((2 * r + st) * 2 ^ t : ℕ) : ℝ) / (2 : ℕ) < ((j * 2 ^ k * 2 ^ t : ℕ) : ℝ) ↔
      2 * r + st < 2 * (j * 2 ^ k) := by
    rw [div_lt_iff₀ (by norm_num), ← Nat.cast_mul, Nat.cast_lt,
      show j * 2 ^ k * 2 ^ t * 2 = 2 * (j * 2 ^ k) * 2 ^ t by ring]
    exact Nat.mul_lt_mul_right (Nat.two_pow_pos t)
  have hgt : ((j * 2 ^ k * 2 ^ t : ℕ) : ℝ) < (((2 * r + st) * 2 ^ t : ℕ) : ℝ) / (2 : ℕ) ↔
      2 * (j * 2 ^ k) < 2 * r + st := by
    rw [lt_div_iff₀ (by norm_num), ← Nat.cast_mul, Nat.cast_lt,
      show j * 2 ^ k * 2 ^ t * 2 = 2 * (j * 2 ^ k) * 2 ^ t by ring]
    exact Nat.mul_lt_mul_right (Nat.two_pow_pos t)
  rw [hquanta, hlt, hgt, sqrt_lt_iff hlo hhi,
    lt_sqrt_iff (Nat.two_pow_pos t) hlo hhi hst1 hexact]
  omega

/-- The quantum of the result is coarser than that of the computed root. -/
theorem lt_roundShift_sqrt {t r st : Nat} (ht : 1 ≤ t) (hr : 2 ^ 64 ≤ r) :
    t < roundShift 52 ((2 * r + st) * 2 ^ t / 2) := by
  obtain ⟨k, rfl⟩ : ∃ k, t = k + 1 := ⟨t - 1, by omega⟩
  have hhalf : (2 * r + st) * 2 ^ (k + 1) / 2 = (2 * r + st) * 2 ^ k := by
    rw [pow_succ, ← Nat.mul_assoc, Nat.mul_div_cancel _ two_pos]
  have hbig : 2 ^ (65 + k) ≤ (2 * r + st) * 2 ^ k := by
    rw [pow_add]
    exact Nat.mul_le_mul_right _ (by omega)
  have hne : (2 * r + st) * 2 ^ k ≠ 0 := by have := Nat.two_pow_pos (65 + k); omega
  have hlog : 65 + k ≤ Nat.log2 ((2 * r + st) * 2 ^ k) := (Nat.le_log2 hne).mpr hbig
  have hnormal : ¬(2 * r + st) * 2 ^ k < 2 ^ (52 + 1) :=
    (((Nat.pow_le_pow_right two_pos (by omega)).trans hbig)).not_gt
  rw [hhalf, roundShift, if_neg hnormal]
  omega

theorem sqrtPositive_eq {u n t r : Nat} (hn : n = u * unitsPerOne) (ht : t = sqrtDrop n)
    (hr : r = intSqrt 66 (n / 4 ^ t)) :
    sqrtPositive u =
      round64 false ((2 * r + if (r * 2 ^ t) * (r * 2 ^ t) = n then 0 else 1) * 2 ^ t) 2 := by
  have hsq : (r * 2 ^ t) * (r * 2 ^ t) = r * r * 4 ^ t := by
    rw [show 4 = 2 * 2 by rfl, Nat.mul_pow]; ring
  rw [hsq, hr, ht, hn, sqrtPositive]

theorem nearestEven_sqrtPositive {u : Nat} (hu : 0 < u) {x : ℝ}
    (hx : x * unitsPerOne = Real.sqrt ((u * unitsPerOne : ℕ) : ℝ)) :
    NearestEven (sqrtPositive u) x := by
  obtain ⟨n, hn⟩ : ∃ n, n = u * unitsPerOne := ⟨_, rfl⟩
  obtain ⟨t, ht⟩ : ∃ t, t = sqrtDrop n := ⟨_, rfl⟩
  obtain ⟨r, hr⟩ : ∃ r, r = intSqrt 66 (n / 4 ^ t) := ⟨_, rfl⟩
  have hn0 : n ≠ 0 := hn ▸ (Nat.mul_pos hu unitsPerOne_pos).ne'
  have hunits : 2 ^ 130 ≤ unitsPerOne := by decide +kernel
  have hlog : 130 ≤ Nat.log2 n :=
    (Nat.le_log2 hn0).mpr (hn ▸ hunits.trans (Nat.le_mul_of_pos_left unitsPerOne hu))
  obtain ⟨ht1, hupper, hlower⟩ := sqrtDrop_bounds hn0 hlog
  rw [sqrtPositive_eq hn ht hr]
  rw [← hn] at hx
  rw [← ht] at ht1 hupper hlower
  obtain ⟨hlo, hhi⟩ := intSqrt_quanta hr hupper
  have hr64 : 2 ^ 64 ≤ r := by
    by_contra hc
    have h1 : (r + 1) * 2 ^ t ≤ 2 ^ 64 * 2 ^ t := Nat.mul_le_mul_right _ (by omega)
    have h2 := Nat.mul_le_mul h1 h1
    have h3 : 4 ^ (64 + t) = 2 ^ 64 * 2 ^ t * (2 ^ 64 * 2 ^ t) := by
      rw [← pow_add, ← Nat.mul_pow]
    omega
  refine nearestEven_round64 two_pos (Real.sqrt_nonneg n) (fun j => ?_) hx
  refine sqrt_half_quanta hlo hhi ?_ ?_ (lt_roundShift_sqrt ht1 hr64) j
  · split <;> omega
  · split
    · next h => exact iff_of_true rfl h
    · next h => exact iff_of_false one_ne_zero h

theorem fsqrt_zero {a : F64} (h : isZero64 a = true) : fsqrt a = a := by
  simp [fsqrt, isNaN64_of_zero h, h]

theorem fsqrt_negative {a : F64} (hs : sign64 a = true) (h0 : isZero64 a = false) :
    isNaN64 (fsqrt a) = true := by
  unfold fsqrt
  rw [h0, hs]
  split <;> exact isNaN64_quietNaN64 ..

theorem fsqrt_positive {a : F64} (ha : isFinite64 a = true) (hs : sign64 a = false)
    (h0 : isZero64 a = false) : fsqrt a = sqrtPositive (units64 a) := by
  simp [fsqrt, isNaN64_of_finite ha, isInf64_of_finite ha, hs, h0]

theorem nearestEven_zero64 (s : Bool) : NearestEven (zero64 s) 0 := by
  rw [← round64_zero s one_pos]
  refine nearestEven_quotient one_pos ?_
  rw [zero_mul, Nat.cast_zero, zero_div, neg_zero, ite_self]

theorem nearestEven_fsqrt {a : F64} (ha : isFinite64 a = true) (h : 0 ≤ valueOf a) :
    NearestEven (fsqrt a) (Real.sqrt ((valueOf a : ℚ) : ℝ)) := by
  by_cases hz : isZero64 a = true
  · rw [fsqrt_zero hz, valueOf_zero hz, Rat.cast_zero, Real.sqrt_zero, eq_zero64_of_isZero64 hz]
    exact nearestEven_zero64 _
  · have h0 : isZero64 a = false := by simpa using hz
    have hs : sign64 a = false := by
      rw [← Bool.not_eq_true]
      exact fun hs => absurd (valueOf_neg_iff.mpr ⟨hs, h0⟩) h.not_gt
    rw [fsqrt_positive ha hs h0]
    refine nearestEven_sqrtPositive (units64_pos (isZero64_false.mp h0)) ?_
    have hU := unitsPerOne_posR
    rw [valueOf_cast, hs, if_neg Bool.false_ne_true, Nat.cast_mul]
    generalize (unitsPerOne : ℝ) = U at *
    have hrad : (units64 a : ℝ) * U = (units64 a : ℝ) / U * U ^ 2 := by field_simp
    rw [hrad, Real.sqrt_mul (div_nonneg (Nat.cast_nonneg _) hU.le), Real.sqrt_sq hU.le]

/-! ## Default results -/

theorem fdiv_nan_right {a b : F64} (h : isNaN64 b = true) : isNaN64 (fdiv a b) = true := by
  simp [fdiv, h]

/-- A NaN operand gives a NaN in each of the four operations (R12). -/
theorem operations_nan {a b : F64} (h : isNaN64 a = true ∨ isNaN64 b = true) :
    isNaN64 (fadd a b) = true ∧ isNaN64 (fsub a b) = true ∧ isNaN64 (fmul a b) = true ∧
      isNaN64 (fdiv a b) = true := by
  rcases h with h | h
  · exact ⟨fadd_nan_left h, fsub_nan_left h, fmul_nan_left h, fdiv_nan_left h⟩
  · exact ⟨fadd_nan_right h, fsub_nan_right h, fmul_nan_right h, fdiv_nan_right h⟩

theorem fdiv_by_zero {a b : F64} (ha : isFinite64 a = true) (hb : isZero64 b = true) :
    (isZero64 a = false → fdiv a b = inf64 (sign64 a != sign64 b)) ∧
      (isZero64 a = true → isNaN64 (fdiv a b) = true) := by
  have hbi : isInf64 b = false := by
    have hm : mag64 b = 0 := by simpa [isZero64] using hb
    simp [isInf64, hm, infMag64]
  constructor <;> intro h0 <;>
    simp [fdiv, isNaN64_of_finite ha, isInf64_of_finite ha, isNaN64_of_zero hb, hbi, hb, h0]

theorem isZero64_inf64 (s : Bool) : isZero64 (inf64 s) = false := by cases s <;> decide

theorem fneg_inf64 (s : Bool) : fneg (inf64 s) = inf64 (!s) := by cases s <;> decide

section
variable (s : Bool) {b : F64} (hb : isFinite64 b = true)
include hb

theorem fadd_inf64_left : fadd (inf64 s) b = inf64 s := by
  simp [fadd, addCore, isNaN64_inf64, isNaN64_of_finite hb, isInf64_inf64, isInf64_of_finite hb]

theorem fadd_inf64_right : fadd b (inf64 s) = inf64 s := by
  simp [fadd, addCore, isNaN64_inf64, isNaN64_of_finite hb, isInf64_inf64, isInf64_of_finite hb]

theorem fsub_inf64_left : fsub (inf64 s) b = inf64 s := by
  have hn : isInf64 (fneg b) = false := by rw [isInf64, mag64_fneg]; exact isInf64_of_finite hb
  simp [fsub, addCore, isNaN64_inf64, isNaN64_of_finite hb, isInf64_inf64, hn]

theorem fsub_inf64_right : fsub b (inf64 s) = inf64 (!s) := by
  simp [fsub, addCore, fneg_inf64, isNaN64_inf64, isNaN64_of_finite hb, isInf64_inf64,
    isInf64_of_finite hb]

theorem fmul_inf64_right (h0 : isZero64 b = false) : fmul b (inf64 s) = inf64 (s != sign64 b) := by
  simp [fmul, isNaN64_inf64, isNaN64_of_finite hb, isInf64_inf64, isZero64_inf64, h0, sign64_inf64,
    bne_comm]

theorem fdiv_inf64_left : fdiv (inf64 s) b = inf64 (s != sign64 b) := by
  simp [fdiv, isNaN64_inf64, isNaN64_of_finite hb, isInf64_inf64, isInf64_of_finite hb, sign64_inf64]

theorem fdiv_inf64_right : fdiv b (inf64 s) = zero64 (s != sign64 b) := by
  simp [fdiv, isNaN64_inf64, isNaN64_of_finite hb, isInf64_inf64, isInf64_of_finite hb, sign64_inf64,
    bne_comm]

end

/-- A zero times infinity is a NaN (R11). -/
theorem fmul_zero_inf (s : Bool) {b : F64} (h : isZero64 b = true) :
    isNaN64 (fmul b (inf64 s)) = true := by
  simp [fmul, isInf64_inf64, h]

theorem fadd_inf64_inf64 (s t : Bool) :
    (s = t → fadd (inf64 s) (inf64 t) = inf64 s) ∧
      (s ≠ t → isNaN64 (fadd (inf64 s) (inf64 t)) = true) := by
  constructor <;> intro h <;>
    simp [fadd, addCore, isNaN64_inf64, isInf64_inf64, sign64_inf64, h]

theorem fsub_inf64_inf64 (s t : Bool) :
    (s = t → isNaN64 (fsub (inf64 s) (inf64 t)) = true) ∧
      (s ≠ t → fsub (inf64 s) (inf64 t) = inf64 s) := by
  constructor <;> intro h <;>
    simp [fsub, addCore, fneg_inf64, isNaN64_inf64, isInf64_inf64, sign64_inf64, h]

theorem fmul_inf64_inf64 (s t : Bool) : fmul (inf64 s) (inf64 t) = inf64 (s != t) := by
  simp [fmul, isNaN64_inf64, isInf64_inf64, isZero64_inf64, sign64_inf64]

theorem fdiv_inf64_inf64 (s t : Bool) : isNaN64 (fdiv (inf64 s) (inf64 t)) = true := by
  simp [fdiv, isNaN64_inf64, isInf64_inf64]

/-! ## The obligation -/

/-- Settles O58: each operation's exact result and each default result is stated above. -/
theorem operationsRoundToNearestEven : Obligations.OperationsRoundToNearestEven := by
  have hnz : ∀ {b : F64}, valueOf b ≠ 0 → isZero64 b = false := fun h => by
    rw [← Bool.not_eq_true]; exact fun hz => h (valueOf_eq_zero_iff.mpr hz)
  refine ⟨fun a b ha hb => ⟨nearestEven_fadd ha hb, nearestEven_fsub ha hb, nearestEven_fmul ha hb,
      fun h0 => nearestEven_fdiv ha hb (hnz h0),
      fun hb0 ha0 => (fdiv_by_zero ha (valueOf_eq_zero_iff.mp hb0)).1 (hnz ha0),
      fun hb0 ha0 => (fdiv_by_zero ha (valueOf_eq_zero_iff.mp hb0)).2 (valueOf_eq_zero_iff.mp ha0)⟩,
    fun a b ha hb => ⟨fadd_exact_zero ha hb, fsub_exact_zero ha hb, ?_, fun h0 => ?_⟩,
    fun a ha h => nearestEven_fsqrt ha h, fun a h => ?_, ?_, ?_, fun s => fsqrt_zero (by cases s <;> decide),
    fun a b h => operations_nan h, fun s b hb => ⟨fadd_inf64_left s hb, fadd_inf64_right s hb,
      fsub_inf64_left s hb, fsub_inf64_right s hb,
      fun h0 => ⟨fmul_inf_left s hb (isZero64_false.mp (hnz h0)), fmul_inf64_right s hb (hnz h0)⟩,
      fun h0 => ⟨fmul_inf_zero s (valueOf_eq_zero_iff.mp h0), fmul_zero_inf s (valueOf_eq_zero_iff.mp h0)⟩,
      fdiv_inf64_left s hb, fdiv_inf64_right s hb⟩,
    fun s t => ⟨fun h => ⟨(fadd_inf64_inf64 s t).1 h, (fsub_inf64_inf64 s t).1 h⟩,
      fun h => ⟨(fadd_inf64_inf64 s t).2 h, (fsub_inf64_inf64 s t).2 h⟩, fmul_inf64_inf64 s t,
      fdiv_inf64_inf64 s t⟩⟩
  · rw [fmul_finite ha hb, sign64_round64]
  · rw [fdiv_finite ha hb (hnz h0), sign64_round64]
  · rcases h with h | h
    · exact fsqrt_nan h
    · obtain ⟨hs, h0⟩ := valueOf_neg_iff.mp h
      exact fsqrt_negative hs h0
  · simp [fsqrt, isNaN64_inf64, isZero64_inf64, sign64_inf64, isInf64_inf64]
  · exact fsqrt_negative (sign64_inf64 true) (isZero64_inf64 true)

end Sys2Proof.Machine
end
